-- ==== Sys2Proof/Word.lean ====
section
/-! DEFINITION. The word types of the machine (R4, R10, R12, R41) and their plainest arithmetic. -/
namespace Sys2Proof

/-- A byte of memory. -/
abbrev Byte := BitVec 8

/-- A scalar register, a CSR, an instruction word: 64 bits (Table 1.1, R41). -/
abbrev Word := BitVec 64

/-- A vector register or latch, held at the width of a core of gang width 4 (1,024 bytes, R10).
A core of gang width G uses bytes 0 to 256*G - 1 and leaves the rest zero. -/
abbrev VReg := BitVec 8192

/-- A predicate register at the width of gang 4 (2,048 bits, R10, R14). -/
abbrev PReg := BitVec 2048

/-- A Bool as the number 0 or 1. -/
def b2n (b : Bool) : Nat := if b then 1 else 0

/-- Bits [lo+len-1 : lo] of a number. -/
def bitsOf (x lo len : Nat) : Nat := (x >>> lo) % 2 ^ len

/-- Bit k of a number. -/
def bitOf (x k : Nat) : Bool := x.testBit k

/-- sx(x, w): bits [w-1:0] of x as a signed number (R97). -/
def sxNat (x w : Nat) : Int :=
  let y := x % 2 ^ w
  if w = 0 then 0 else if y < 2 ^ (w - 1) then (y : Int) else (y : Int) - (2 ^ w : Nat)

/-- A 64-bit word from an integer, modulo 2^64 (wrap64, R82, R97). -/
def wrap64 (x : Int) : Word := BitVec.ofInt 64 x

end Sys2Proof
end

