-- ==== Sys2Proof/Syntax.lean ====
section
/-! DEFINITION. The syntax of the machine: one constructor of `Instr` for each row of
spec/opcode_table.json. The first part is the instruction set (Tables 2.1 to 2.5); the rows from
`localLoadRead` on are the device's own events, which carry as data what the environment or an
engine's own timing decides (log entry 3). -/
namespace Sys2Proof

/-- Element types (Table 2.2), codes 0x00 to 0x0D in order. -/
inductive Ty
  | i8 | i16 | i32 | i64 | n8 | n16 | n32 | n64 | f32 | f16 | bf16 | e4m3 | e5m2 | b4
  deriving DecidableEq, Repr

/-- Rounding codes (Table 2.4), codes 0 to 5 in order; `dyn` takes the mode of FPCTL. -/
inductive Rm
  | dyn | rne | rtz | ru | rd | rs
  deriving DecidableEq, Repr

/-- Condition codes (Table 2.3), codes 0 to 7 in order. -/
inductive Cc
  | eq | ne | lt | le | gt | ge | un | or
  deriving DecidableEq, Repr

/-- A vector source field: a register or a latch (R45). -/
inductive VSrc
  | reg (n : BitVec 12)
  | latch (k : BitVec 3)
  deriving DecidableEq, Repr

/-- The governing predicate PG and its inversion PN (R47). -/
structure Gov where
  pg : BitVec 6
  pn : Bool
  deriving DecidableEq, Repr

/-- A vector destination VD with its write-suppress bit WS (R44, R46). -/
structure VDst where
  vd : BitVec 12
  ws : Bool
  deriving DecidableEq, Repr

/-- SFCVT directions (R110), codes 0 to 3 in order. -/
inductive SfDir
  | f32i64 | f32n64 | i64f32 | n64f32
  deriving DecidableEq, Repr

/-- FENCE scopes (R56, Table 9.1), codes 0 to 4 in order. -/
inductive Scope
  | core | stack | package | dieMask | system
  deriving DecidableEq, Repr

/-- FENCE kinds (R56), codes 1 to 3 in order. -/
inductive FenceKind
  | acq | rel | ar
  deriving DecidableEq, Repr

/-- AAMO operations (R56), codes 0 to 8 in order. -/
inductive AmoOp
  | add | min | max | and | or | xor | swap | cas | fadd
  deriving DecidableEq, Repr

/-- Collective operations (Table 2.5), codes 0 to 2 in order. -/
inductive ClOp
  | sum | max | min
  deriving DecidableEq, Repr

/-- Copy spaces (R56), codes 0 to 7 in order; 6 and 7 are refused after issue (R57). -/
inductive Space
  | glb | loc | rmt | acc | host | opm | r6 | r7
  deriving DecidableEq, Repr

/-- A floating-point type of the block quantiser (R56): FN[55:54]. -/
inductive QTy
  | f32 | f16 | bf16
  deriving DecidableEq, Repr


/-! ### Data the event rows carry -/

/-- One context of one core: its stack's socket, its stack core index and its partition index
(R161, R203). -/
structure CRef where
  sk : Nat
  ix : Nat
  pt : Nat
  deriving DecidableEq, Repr

/-- The four forms of collective (Table 19.4). -/
inductive ClForm
  | red | rsc | bc | gath
  deriving DecidableEq, Repr

/-- A collective operation another device of the domain has posted (R428): its agreement fields and
the bytes of its source, by offset (bytes not listed are 0). -/
structure PeerOp where
  dev : Nat
  cid : BitVec 64
  members : BitVec 256
  form : ClForm
  op : ClOp
  ty : Ty
  count : Nat
  root : Nat
  lch : Nat
  src : List (Nat × BitVec 8)
  deriving DecidableEq, Repr

/-- A 256-byte scale-up flit (R419): header, payload, CRC-64. -/
structure Flit where
  hdr : BitVec 64
  payload : BitVec 1920
  crc : BitVec 64
  deriving DecidableEq, Repr

/-- A part of a tile command that is performed before the rest: an operand granule is read, or an output granule takes its value
after `q` group additions, with `q` 0 its rescaled value and past the last addition its final value (R235, R320). Granules are
numbered from the start of their memory. -/
inductive TilePart
  | operand (granule : Nat)
  | output (granule q : Nat)
  deriving DecidableEq, Repr

/-- What a self-test finds on one compute stack: the masks of defective front ends and halves (R391). -/
structure Defects where
  fe : BitVec 64
  ah : BitVec 64
  bh : BitVec 64
  deriving DecidableEq, Repr

/-- What a self-test finds besides: failing lanes by bundle of an interposer link, failing lanes by channel of an HBM stack, and the
dies with a failing SRAM (Table 17.5). -/
structure TestReport where
  lanes : List (Nat × Nat)
  chans : List (Nat × Nat)
  sram : List Nat
  deriving DecidableEq, Repr

/-- A tile command of a context, or its MZERO, whole (`none`) or a part of it (R235, R307, R318). -/
structure TileStep where
  cr : CRef
  part : Option TilePart
  deriving DecidableEq, Repr

/-- A chunk of a collective and the version of the link table its flits carry (R439). -/
structure ChunkAt where
  chunk : Nat
  ver : Nat
  deriving DecidableEq, Repr

/-- An MSI-X vector, with what software has set in its function's configuration space: MSI-X Enable and the Function Mask (R405), and VF
Enable of the PF (R410). -/
structure MsixCtl where
  vec : Nat
  enable : Bool
  fnMask : Bool
  vfEnable : Bool
  deriving DecidableEq, Repr

/-- A rail (VD0 to VD3, or 4 for VIN) and its reading, in thousandths of nominal (R394). -/
structure RailAt where
  rail : Nat
  v : Nat
  deriving DecidableEq, Repr

/-- A rail's reading, in thousandths of nominal, and whether its regulator still reports a fault (R397). -/
structure RailFault where
  v : Nat
  regFault : Bool
  deriving DecidableEq, Repr

/-- The I3C address that is read and the index byte written first (R413). -/
structure I3cAt where
  addr : BitVec 7
  idx : BitVec 8
  deriving DecidableEq, Repr

/-- The package's power over the last ms, in units of 0.25 W, and PCAP, in W, as the firmware sets it (R402). -/
structure PowerAt where
  power : Nat
  pcap : Nat
  deriving DecidableEq, Repr

/-- How a port's training ends: whether it succeeds, and at half rate (R447). -/
structure Trained where
  ok : Bool
  half : Bool
  deriving DecidableEq, Repr

/-- Every row of spec/opcode_table.json. The instruction rows carry the operand fields of their format
(Table 2.1); the event rows (from `localLoadRead`) carry what the environment or an engine's own timing
chooses. A `CRef` names a core's context, `fn` an interface, `sk` a socket, `k` a place in a context's
queue, `noise` the data lanes that show a parity error in each attempt of a burst. -/
inductive Instr
  | add (sd sa sb : BitVec 6)
  | sub (sd sa sb : BitVec 6)
  | mul (sd sa sb : BitVec 6)
  | mulh (sd sa sb : BitVec 6)
  | mulhn (sd sa sb : BitVec 6)
  | div (sd sa sb : BitVec 6)
  | divn (sd sa sb : BitVec 6)
  | rem (sd sa sb : BitVec 6)
  | remn (sd sa sb : BitVec 6)
  | and (sd sa sb : BitVec 6)
  | or (sd sa sb : BitVec 6)
  | xor (sd sa sb : BitVec 6)
  | shl (sd sa sb : BitVec 6)
  | shr (sd sa sb : BitVec 6)
  | sra (sd sa sb : BitVec 6)
  | min (sd sa sb : BitVec 6)
  | minn (sd sa sb : BitVec 6)
  | max (sd sa sb : BitVec 6)
  | maxn (sd sa sb : BitVec 6)
  | slt (sd sa sb : BitVec 6)
  | sltn (sd sa sb : BitVec 6)
  | seq (sd sa sb : BitVec 6)
  | sel (sd sa sb sc : BitVec 6)
  | clz (sd sa : BitVec 6)
  | popc (sd sa : BitVec 6)
  | sext (ty : Ty) (sd sa : BitVec 6)
  | zext (ty : Ty) (sd sa : BitVec 6)
  | addi (sd sa : BitVec 6) (imm : BitVec 38)
  | muli (sd sa : BitVec 6) (imm : BitVec 38)
  | andi (sd sa : BitVec 6) (imm : BitVec 38)
  | ori (sd sa : BitVec 6) (imm : BitVec 38)
  | xori (sd sa : BitVec 6) (imm : BitVec 38)
  | shli (sd sa : BitVec 6) (imm : BitVec 6)
  | shri (sd sa : BitVec 6) (imm : BitVec 6)
  | srai (sd sa : BitVec 6) (imm : BitVec 6)
  | slti (sd sa : BitVec 6) (imm : BitVec 38)
  | sltni (sd sa : BitVec 6) (imm : BitVec 38)
  | seqi (sd sa : BitVec 6) (imm : BitVec 38)
  | limm (sd : BitVec 6) (imm : BitVec 44)
  | limmh (sd : BitVec 6) (imm : BitVec 20)
  | addsc (sd sa sb : BitVec 6) (sh : BitVec 3) (off : BitVec 29)
  | sfadd (rm : Rm) (sd sa sb : BitVec 6)
  | sfsub (rm : Rm) (sd sa sb : BitVec 6)
  | sfmul (rm : Rm) (sd sa sb : BitVec 6)
  | sfcmp (cc : Cc) (sd sa sb : BitVec 6)
  | sfcvt (dir : SfDir) (rm : Rm) (sd sa : BitVec 6)
  | lds (ty : Ty) (sd sa : BitVec 6) (off : BitVec 38)
  | sts (ty : Ty) (sd sa : BitVec 6) (off : BitVec 38)
  | b (off : BitVec 20)
  | beq (sa sb : BitVec 6) (off : BitVec 20)
  | bne (sa sb : BitVec 6) (off : BitVec 20)
  | blt (sa sb : BitVec 6) (off : BitVec 20)
  | bge (sa sb : BitVec 6) (off : BitVec 20)
  | bltn (sa sb : BitVec 6) (off : BitVec 20)
  | bgen (sa sb : BitVec 6) (off : BitVec 20)
  | bany (ty : Ty) (pa : BitVec 6) (off : BitVec 20)
  | ball (ty : Ty) (pa : BitVec 6) (off : BitVec 20)
  | loop (sa : BitVec 6) (off : BitVec 20)
  | call (sa : BitVec 6) (off : BitVec 20)
  | callr (sa sb : BitVec 6)
  | ret (sb : BitVec 6)
  | jr (sb : BitVec 6)
  | nop
  | endl
  | pand (pd pa pb : BitVec 6)
  | por (pd pa pb : BitVec 6)
  | pxor (pd pa pb : BitVec 6)
  | pandn (pd pa pb : BitVec 6)
  | pnot (pd pa : BitVec 6)
  | pwhile (ty : Ty) (pd sa : BitVec 6)
  | pcnt (ty : Ty) (sd pa : BitVec 6)
  | pff (ty : Ty) (sd pa : BitVec 6)
  | csrr (sd : BitVec 6) (csr : BitVec 12)
  | csrw (csr : BitVec 12) (sa : BitVec 6)
  | csrx (sd : BitVec 6) (csr : BitVec 12) (sa : BitVec 6)
  | csrs (sd : BitVec 6) (csr : BitVec 12) (sa : BitVec 6)
  | csrc (sd : BitVec 6) (csr : BitVec 12) (sa : BitVec 6)
  | csrwi (csr : BitVec 12) (imm : BitVec 16)
  | vrot (vrs : BitVec 9) (prs : BitVec 3)
  | trap (code : BitVec 16)
  | tret
  | tmarm (sa : BitVec 6)
  | tmoff
  | segend (count : BitVec 24) (crc : BitVec 32)
  | segendNc (count : BitVec 24) (crc : BitVec 32)
  | phend (tag : BitVec 16)
  | xcyc (tag : BitVec 16)
  | xsend (sa sb sc : BitVec 6) (tag : BitVec 16)
  | xsendm (sa sb sc : BitVec 6) (tag : BitVec 16)
  | xsends (sa sb : BitVec 6) (tag : BitVec 16)
  | sigrv (h : Bool) (sd : BitVec 6)
  | sigrc (sd : BitVec 6)
  | sigrs (sd : BitVec 6)
  | vadd (ty : Ty) (g : Gov) (d : VDst) (a b : VSrc) (rm : Rm) (sat : Bool)
  | vsub (ty : Ty) (g : Gov) (d : VDst) (a b : VSrc) (rm : Rm) (sat : Bool)
  | vmul (ty : Ty) (g : Gov) (d : VDst) (a b : VSrc) (rm : Rm) (sat : Bool)
  | vmulh (ty : Ty) (g : Gov) (d : VDst) (a b : VSrc)
  | vmin (ty : Ty) (g : Gov) (d : VDst) (a b : VSrc)
  | vmax (ty : Ty) (g : Gov) (d : VDst) (a b : VSrc)
  | vand (ty : Ty) (g : Gov) (d : VDst) (a b : VSrc)
  | vor (ty : Ty) (g : Gov) (d : VDst) (a b : VSrc)
  | vxor (ty : Ty) (g : Gov) (d : VDst) (a b : VSrc)
  | vshl (ty : Ty) (g : Gov) (d : VDst) (a b : VSrc) (sat : Bool)
  | vshr (ty : Ty) (g : Gov) (d : VDst) (a b : VSrc)
  | vsra (ty : Ty) (g : Gov) (d : VDst) (a b : VSrc)
  | vfma (ty : Ty) (g : Gov) (d : VDst) (a b : VSrc) (rm : Rm)
  | vfms (ty : Ty) (g : Gov) (d : VDst) (a b : VSrc) (rm : Rm)
  | vabs (ty : Ty) (g : Gov) (d : VDst) (a : VSrc) (sat : Bool)
  | vneg (ty : Ty) (g : Gov) (d : VDst) (a : VSrc) (sat : Bool)
  | vsel (ty : Ty) (g : Gov) (d : VDst) (a b : VSrc)
  | vrcp (ty : Ty) (g : Gov) (d : VDst) (a : VSrc) (rm : Rm)
  | vrsq (ty : Ty) (g : Gov) (d : VDst) (a : VSrc) (rm : Rm)
  | vexp2 (ty : Ty) (g : Gov) (d : VDst) (a : VSrc) (rm : Rm)
  | vlog2 (ty : Ty) (g : Gov) (d : VDst) (a : VSrc) (rm : Rm)
  | vsigm (ty : Ty) (g : Gov) (d : VDst) (a : VSrc) (rm : Rm)
  | vtanh (ty : Ty) (g : Gov) (d : VDst) (a : VSrc) (rm : Rm)
  | vclass (ty : Ty) (g : Gov) (d : VDst) (a : VSrc)
  | vscale (ty : Ty) (g : Gov) (d : VDst) (a b : VSrc) (rm : Rm)
  | vcvt (td ts : Ty) (g : Gov) (d : VDst) (a : VSrc) (rm : Rm)
  | vqblk (ty : QTy) (k32 had : Bool) (d : VDst) (a b : VSrc) (rm : Rm)
  | vdqblk (ty : QTy) (k32 had : Bool) (d : VDst) (a : VSrc) (rm : Rm)
  | vperm (ty : Ty) (g : Gov) (d : VDst) (a b : VSrc)
  | vmov (ty : Ty) (g : Gov) (d : VDst) (a : VSrc)
  | vnot (ty : Ty) (g : Gov) (d : VDst) (a : VSrc)
  | vadds (ty : Ty) (g : Gov) (d : VDst) (a : VSrc) (sb : BitVec 6) (rm : Rm) (sat : Bool)
  | vmuls (ty : Ty) (g : Gov) (d : VDst) (a : VSrc) (sb : BitVec 6) (rm : Rm) (sat : Bool)
  | vshls (ty : Ty) (g : Gov) (d : VDst) (a : VSrc) (sb : BitVec 6) (sat : Bool)
  | vshrs (ty : Ty) (g : Gov) (d : VDst) (a : VSrc) (sb : BitVec 6)
  | vsras (ty : Ty) (g : Gov) (d : VDst) (a : VSrc) (sb : BitVec 6)
  | vbcast (ty : Ty) (g : Gov) (d : VDst) (sb : BitVec 6)
  | vslideu (ty : Ty) (g : Gov) (d : VDst) (a : VSrc) (sb : BitVec 6)
  | vslided (ty : Ty) (g : Gov) (d : VDst) (a : VSrc) (sb : BitVec 6)
  | viota (ty : Ty) (g : Gov) (d : VDst) (sb : BitVec 6)
  | vldx (ty : Ty) (g : Gov) (d : VDst) (a : VSrc) (sb : BitVec 6)
  | vcmp (ty : Ty) (cc : Cc) (g : Gov) (pd : BitVec 6) (a b : VSrc)
  | vcmps (ty : Ty) (cc : Cc) (g : Gov) (pd : BitVec 6) (a : VSrc) (sb : BitVec 6)
  | vext (ty : Ty) (sd : BitVec 6) (a : VSrc) (sb : BitVec 6)
  | vrsum (ty : Ty) (g : Gov) (sd : BitVec 6) (a : VSrc)
  | vrmin (ty : Ty) (g : Gov) (sd : BitVec 6) (a : VSrc)
  | vrmax (ty : Ty) (g : Gov) (sd : BitVec 6) (a : VSrc)
  | vramax (ty : Ty) (g : Gov) (sd : BitVec 6) (a : VSrc)
  | vld (ty : Ty) (g : Gov) (d : VDst) (sa : BitVec 6) (off : BitVec 14)
  | vlds (ty : Ty) (g : Gov) (d : VDst) (sa sb : BitVec 6) (off : BitVec 14)
  | vlda (ty : Ty) (g : Gov) (d : VDst) (sa : BitVec 6) (off : BitVec 14)
  | vst (ty : Ty) (g : Gov) (src : VSrc) (sa : BitVec 6) (off : BitVec 13)
  | vsts (ty : Ty) (g : Gov) (src : VSrc) (sa sb : BitVec 6) (off : BitVec 13)
  | vstx (ty : Ty) (g : Gov) (src idx : VSrc) (sa : BitVec 6)
  | tlclose (ctx : BitVec 3) (sd : BitVec 6)
  | tlwait (ctx : BitVec 3) (sa : BitVec 6) (imm : BitVec 26)
  | tlread (ctx : BitVec 3) (sd : BitVec 6)
  | mark
  | fence (scope : Scope) (kind : FenceKind)
  | aamo (op : AmoOp) (ty : Ty) (nr : Bool) (sd sa sb sc : BitVec 6)
  | waitv (cc : Cc) (ty : Ty) (own : Bool) (tmo : BitVec 19) (sd sa sb : BitVec 6)
  | cpy (src dst : Space) (raw : Bool) (ctx : BitVec 2) (sa sb sc : BitVec 6)
  | cpyt (src dst : Space) (ctx : BitVec 2) (sa sb sc : BitVec 6)
  | cpywm (src dst : Space) (raw : Bool) (ctx : BitVec 2) (sa sb sc : BitVec 6)
  | cpyfill (dst : Space) (ctx : BitVec 2) (sb sc : BitVec 6)
  | cpyst (ctx : BitVec 2) (w : BitVec 2) (sd : BitVec 6)
  | cpyabt (ctx : BitVec 2)
  | cpyabtResume (ctx : BitVec 2)
  | amxstep (ctx : BitVec 2) (sa sb : BitVec 6)
  | amxrd (all : Bool) (sd sa : BitVec 6)
  | mclaim (bSlot : Bool) (sa : BitVec 6) (cnt : BitVec 8)
  | mrel (sa : BitVec 6) (cnt : BitVec 8)
  | mfmt (sa : BitVec 6) (rep : BitVec 12)
  | mnest (lvl : BitVec 3) (sa : BitVec 6)
  | mgo (sa sb : BitVec 6)
  | mzero (sa : BitVec 6) (cnt : BitVec 6)
  | mepi (sa sb : BitVec 6)
  | mckrd (sd : BitVec 6) (w clr : Bool)
  | mlsgen (sd sa : BitVec 6)
  | mtile (sa sb : BitVec 6)
  | mwld (w : BitVec 7) (sa : BitVec 6)
  | mstat (sd : BitVec 6) (w : BitVec 7)
  | clred (op : ClOp) (ty : Ty) (sa : BitVec 6)
  | clrsc (op : ClOp) (ty : Ty) (sa : BitVec 6)
  | clbc (sa : BitVec 6)
  | clgath (sa : BitVec 6)
  | cltbl (sd sa : BitVec 6) (q : BitVec 3)
  | clabt
  | clabtResume
  | localLoadRead
  | resultComplete
  | fencePerform (c : CRef) (k : Nat)
  | aamoPerform (c : CRef) (k : Nat)
  | waitvArm (c : CRef) (k : Nat)
  | waitvTimeout (c : CRef) (k : Nat)
  | copyStart (c : CRef) (n : Nat)
  | copyGranule (c : CRef) (n : Nat)
  | amxstepPerform (c : CRef) (n : Nat)
  | tileCommand (c : TileStep)
  | mzeroPerform (t : TileStep)
  | collectiveStart (c : CRef) (k : Nat) (peers : List PeerOp)
  | chunkReduced (c : CRef) (k : Nat) (chunk : ChunkAt) (failed : Option Nat)
  | chunkCommit (c : CRef) (k : Nat) (chunk : ChunkAt)
  | chunkWrite (c : CRef) (k chunk : Nat)
  | changeNotice (dev ver : Nat) (entries : List (Nat × BitVec 32))
  | floodReceive (port ver : Nat) (table : List (Nat × BitVec 32))
  | flitReceive (port : Nat) (f : Flit)
  | nak (port seq : Nat)
  | portRetrain (port : Nat)
  | portTrainComplete (port : Nat) (r : Trained) (farDev farPort : Nat)
  | transferDelivery
  | timerFire
  | timerInterrupt
  | engineStopInterrupt
  | boundary
  | chipWallExpiry
  | budgetExpiry
  | lastingComplete
  | launchStart (l : Nat)
  | checkpointSave (l : Nat) (bad : Bool)
  | containmentRelease (l : Nat)
  | scoreDecay
  | recordFetch (q : Nat)
  | qtailWrite (fn q : Nat) (v : Word)
  | qctlWrite (fn q : Nat) (v : Word)
  | cancelJob (fn id : Nat)
  | cancelGraph (fn id : Nat)
  | cancelSlot (fn q slot : Nat)
  | cancelTimeout
  | counterWrite (fn c : Nat) (v : Word)
  | preemptRequest (fn q slot : Nat)
  | ttinvWrite (fn : Nat) (v : Word)
  | ttrootWrite (fn : Nat) (v : Word)
  | ttinvDone (fn : Nat)
  | svimageWrite (fn : Nat) (size : Bool) (v : Word)
  | apertureRead (fn off len : Nat)
  | apertureWrite (fn off : Nat) (data : List (BitVec 8))
  | functionLevelReset (fn : Nat)
  | msixUnmask (fn : Nat) (vec : MsixCtl)
  | registerWrite (fn : Nat) (mgmt : Bool) (off : Nat) (v : Word)
  | ifcfgWrite (i w : Nat) (v : Word)
  | ringRptrWrite (r : Nat) (v : Word)
  | ringLostRead (r : Nat)
  | modeSelect (metered : Bool)
  | lccmdTransit (v : Word)
  | lccmdDecommission (v : Word)
  | lifecycleWipe
  | monctlFreeze (on : Bool)
  | monctlClear
  | monitorSample (x : Nat) (v : Int)
  | cbRetireWrite (n : Nat) (v : Word)
  | cbReturnWrite (n : Nat) (v : Word)
  | quiesceRequest (sk : Nat) (v : Word)
  | quiesceDeadline (sk : Nat)
  | dieFence (sk : Nat)
  | dieSelfTestDone (sk : Nat) (d : Defects) (r : TestReport)
  | shadowRotation (sk : Nat) (margins : List (Nat × Nat × Nat))
  | linkRetrain (sk : Nat)
  | stretchRaise (low : RailAt)
  | stretchRelease (low : RailAt)
  | brownoutHold (vin : Nat) (pwrwarn : Bool)
  | holdEnd (vin : Nat) (pwrwarn : Bool)
  | domainLoss (d v : Nat) (regFault : Bool)
  | domainReturn (d : Nat) (v : RailFault)
  | packagePowerFailure (rail v : Nat)
  | thermalThrottle (sk : Nat) (t : Int)
  | thermalTrip (sk : Nat) (t : Int)
  | thermtrip (sk : Nat) (t : Int)
  | powerOn (image : List (BitVec 8))
  | fullSelfTestDone (d : List Defects) (ports : List Nat) (r : TestReport)
  | recoveryGo
  | i3cRead (idx : I3cAt)
  | bypass
  | idcode
  | samplePreload (pins : List Bool)
  | extest
  | clamp
  | highz
  | hubRead (pa fn eng : Nat) (noise : List Nat)
  | hubWrite (sk k : Nat) (noise : List Nat)
  | cycleTagReached
  | hostCompletionTimeout (c : CRef) (n : Nat)
  | frameMoveComplete (frame : Nat)
  | spareLaneRecalibrated (stk chan : Nat)
  | interposerRetrainComplete (sk : Nat) (ok : Bool)
  | pcapExceeded (power : PowerAt)
  | frameRelease (fn pa len : Nat)
  | pcieConventionalReset
  | i3cEntdaa (a : BitVec 7)
  deriving DecidableEq, Repr

end Sys2Proof
end

