-- ==== Sys2Proof/WellFormed.lean ====
section
/-! DEFINITION. Which instructions have an encoding: the checks of R45 to R58 on the parts that the
constructors do not already rule out. A word whose instruction would fail a check is illegal (R58). The event
rows have no encoding, and every event is well formed. -/
namespace Sys2Proof

/-- Class INT of R51. -/
def Ty.isInt : Ty → Bool
  | .i8 | .i16 | .i32 | .n8 | .n16 | .n32 => true
  | _ => false

/-- Every integer type, 0x00 to 0x07 (Table 2.2). -/
def Ty.isInteger : Ty → Bool
  | .i64 | .n64 => true
  | t => t.isInt

/-- Class SINT of R51. -/
def Ty.isSint : Ty → Bool
  | .i8 | .i16 | .i32 => true
  | _ => false

/-- Class FLT of R51. -/
def Ty.isFlt : Ty → Bool
  | .f32 | .f16 | .bf16 => true
  | _ => false

/-- A floating-point type of Table 3.1. -/
def Ty.isFp : Ty → Bool
  | .f32 | .f16 | .bf16 | .e4m3 | .e5m2 => true
  | _ => false

/-- Class NUM of R51. -/
def Ty.isNum (t : Ty) : Bool := t.isInt || t.isFlt

/-- Class BITS8 of R51. -/
def Ty.isBits8 (t : Ty) : Bool := t.isNum || t == .e4m3 || t == .e5m2

/-- Class BITS of R51. -/
def Ty.isBits (t : Ty) : Bool := t.isBits8 || t == .b4

/-- A type VCVT accepts: NUM, E4M3 or E5M2 (R56). -/
def Ty.isCvt (t : Ty) : Bool := t.isBits8

/-- The word types of AAMO and WAITV (R56, R258). -/
def Ty.isWord : Ty → Bool
  | .i32 | .n32 | .i64 | .n64 => true
  | _ => false

/-- PN = 1 with PG = 0 is reserved (R47). -/
def Gov.ok (g : Gov) : Bool := g.pg != 0 || !g.pn

/-- WS = 1 needs VD = 0 in a form that is not three-operand (R46). -/
def VDst.ok (d : VDst) : Bool := !d.ws || d.vd == 0

/-- RM may be nonzero only for a type in FLT (R48, R53). -/
def rmOk (t : Ty) (r : Rm) : Bool := t.isFlt || r == .dyn

/-- SAT may be 1 only for an integer type (Table 2.5). -/
def satOk (t : Ty) (s : Bool) : Bool := t.isInt || !s

/-- UN and OR are legal only with floating-point types (R52). -/
def ccOk (t : Ty) (c : Cc) : Bool := t.isFlt || (c != .un && c != .or)

/-- Which instructions are legal words (R58); events are always well formed. -/
def wellFormed : Instr → Bool
  | .add _ _ _ => true
  | .sub _ _ _ => true
  | .mul _ _ _ => true
  | .mulh _ _ _ => true
  | .mulhn _ _ _ => true
  | .div _ _ _ => true
  | .divn _ _ _ => true
  | .rem _ _ _ => true
  | .remn _ _ _ => true
  | .and _ _ _ => true
  | .or _ _ _ => true
  | .xor _ _ _ => true
  | .shl _ _ _ => true
  | .shr _ _ _ => true
  | .sra _ _ _ => true
  | .min _ _ _ => true
  | .minn _ _ _ => true
  | .max _ _ _ => true
  | .maxn _ _ _ => true
  | .slt _ _ _ => true
  | .sltn _ _ _ => true
  | .seq _ _ _ => true
  | .sel _ _ _ _ => true
  | .clz _ _ => true
  | .popc _ _ => true
  | .sext ty _ _ => ty == .i8 || ty == .i16 || ty == .i32
  | .zext ty _ _ => ty == .n8 || ty == .n16 || ty == .n32
  | .addi _ _ _ => true
  | .muli _ _ _ => true
  | .andi _ _ _ => true
  | .ori _ _ _ => true
  | .xori _ _ _ => true
  | .shli _ _ _ => true
  | .shri _ _ _ => true
  | .srai _ _ _ => true
  | .slti _ _ _ => true
  | .sltni _ _ _ => true
  | .seqi _ _ _ => true
  | .limm _ _ => true
  | .limmh _ _ => true
  | .addsc _ _ _ _ _ => true
  | .sfadd rm _ _ _ => rm != .rs
  | .sfsub rm _ _ _ => rm != .rs
  | .sfmul rm _ _ _ => rm != .rs
  | .sfcmp _ _ _ _ => true
  | .sfcvt _ rm _ _ => rm != .rs
  | .lds ty _ _ _ => ty.isInteger
  | .sts ty _ _ _ => ty.isInteger
  | .b _ => true
  | .beq _ _ _ => true
  | .bne _ _ _ => true
  | .blt _ _ _ => true
  | .bge _ _ _ => true
  | .bltn _ _ _ => true
  | .bgen _ _ _ => true
  | .bany ty _ _ => ty.isBits
  | .ball ty _ _ => ty.isBits
  | .loop _ _ => true
  | .call _ _ => true
  | .callr _ _ => true
  | .ret _ => true
  | .jr _ => true
  | .nop => true
  | .endl => true
  | .pand _ _ _ => true
  | .por _ _ _ => true
  | .pxor _ _ _ => true
  | .pandn _ _ _ => true
  | .pnot _ _ => true
  | .pwhile ty _ _ => ty.isBits
  | .pcnt ty _ _ => ty.isBits
  | .pff ty _ _ => ty.isBits
  | .csrr _ _ => true
  | .csrw _ _ => true
  | .csrx _ _ _ => true
  | .csrs _ _ _ => true
  | .csrc _ _ _ => true
  | .csrwi _ _ => true
  | .vrot vrs prs => decide (vrs.toNat ≤ 256) && decide (prs.toNat ≤ 4)
  | .trap _ => true
  | .tret => true
  | .tmarm _ => true
  | .tmoff => true
  | .segend _ _ => true
  | .segendNc _ _ => true
  | .phend _ => true
  | .xcyc _ => true
  | .xsend _ _ _ _ => true
  | .xsendm _ _ _ _ => true
  | .xsends _ _ _ => true
  | .sigrv _ _ => true
  | .sigrc _ => true
  | .sigrs _ => true
  | .vadd ty g d _ _ rm sat => ty.isNum && g.ok && d.ok && rmOk ty rm && satOk ty sat
  | .vsub ty g d _ _ rm sat => ty.isNum && g.ok && d.ok && rmOk ty rm && satOk ty sat
  | .vmul ty g d _ _ rm sat => ty.isNum && g.ok && d.ok && rmOk ty rm && satOk ty sat
  | .vmulh ty g d _ _ => ty.isInt && g.ok && d.ok
  | .vmin ty g d _ _ => ty.isNum && g.ok && d.ok
  | .vmax ty g d _ _ => ty.isNum && g.ok && d.ok
  | .vand ty g d _ _ => ty.isInt && g.ok && d.ok
  | .vor ty g d _ _ => ty.isInt && g.ok && d.ok
  | .vxor ty g d _ _ => ty.isInt && g.ok && d.ok
  | .vshl ty g d _ _ _ => ty.isInt && g.ok && d.ok
  | .vshr ty g d _ _ => ty.isInt && g.ok && d.ok
  | .vsra ty g d _ _ => ty.isInt && g.ok && d.ok
  | .vfma ty g _ _ _ _ => ty.isFlt && g.ok
  | .vfms ty g _ _ _ _ => ty.isFlt && g.ok
  | .vabs ty g d _ sat => (ty.isSint || ty.isFlt) && g.ok && d.ok && satOk ty sat
  | .vneg ty g d _ sat => (ty.isSint || ty.isFlt) && g.ok && d.ok && satOk ty sat
  | .vsel ty g d _ _ => ty.isBits && g.ok && d.ok
  | .vrcp ty g d _ _ => ty.isFlt && g.ok && d.ok
  | .vrsq ty g d _ _ => ty.isFlt && g.ok && d.ok
  | .vexp2 ty g d _ _ => ty.isFlt && g.ok && d.ok
  | .vlog2 ty g d _ _ => ty.isFlt && g.ok && d.ok
  | .vsigm ty g d _ _ => ty.isFlt && g.ok && d.ok
  | .vtanh ty g d _ _ => ty.isFlt && g.ok && d.ok
  | .vclass ty g d _ => ty.isFlt && g.ok && d.ok
  | .vscale ty g d _ _ _ => ty.isFlt && g.ok && d.ok
  | .vcvt td ts g d _ rm => td.isCvt && ts.isCvt && td != ts && g.ok && d.ok && (td.isFp || ts.isFp || rm == .dyn)
  | .vqblk _ _ _ d _ _ _ => d.ok
  | .vdqblk _ _ _ d _ _ => d.ok
  | .vperm ty g d _ _ => ty.isBits8 && g.ok && d.ok
  | .vmov ty g d _ => ty.isBits && g.ok && d.ok
  | .vnot ty g d _ => ty.isInt && g.ok && d.ok
  | .vadds ty g d _ _ rm sat => ty.isNum && g.ok && d.ok && rmOk ty rm && satOk ty sat
  | .vmuls ty g d _ _ rm sat => ty.isNum && g.ok && d.ok && rmOk ty rm && satOk ty sat
  | .vshls ty g d _ _ _ => ty.isInt && g.ok && d.ok
  | .vshrs ty g d _ _ => ty.isInt && g.ok && d.ok
  | .vsras ty g d _ _ => ty.isInt && g.ok && d.ok
  | .vbcast ty g d _ => ty.isBits8 && g.ok && d.ok
  | .vslideu ty g d _ _ => ty.isBits8 && g.ok && d.ok
  | .vslided ty g d _ _ => ty.isBits8 && g.ok && d.ok
  | .viota ty g d _ => ty.isInt && g.ok && d.ok
  | .vldx ty g d _ _ => ty.isBits8 && g.ok && d.ok
  | .vcmp ty cc g _ _ _ => ty.isNum && g.ok && ccOk ty cc
  | .vcmps ty cc g _ _ _ => ty.isNum && g.ok && ccOk ty cc
  | .vext ty _ _ _ => ty.isBits8
  | .vrsum ty g _ _ => ty.isNum && g.ok
  | .vrmin ty g _ _ => ty.isNum && g.ok
  | .vrmax ty g _ _ => ty.isNum && g.ok
  | .vramax ty g _ _ => ty.isFlt && g.ok
  | .vld ty g d _ _ => ty.isBits && g.ok && d.ok
  | .vlds ty g d _ _ _ => ty.isBits && g.ok && d.ok
  | .vlda ty g d _ _ => (ty == .f32 || ty == .i32) && g.ok && d.ok
  | .vst ty g _ _ _ => ty.isBits && g.ok
  | .vsts ty g _ _ _ _ => ty.isBits && g.ok
  | .vstx ty g _ _ _ => ty.isBits8 && g.ok
  | .tlclose ctx _ => decide (ctx.toNat ≤ 6)
  | .tlwait ctx _ _ => decide (ctx.toNat ≤ 6)
  | .tlread ctx _ => decide (ctx.toNat ≤ 6)
  | .mark => true
  | .fence _ _ => true
  | .aamo op ty nr sd _ _ sc => (if op == .fadd then ty == .f32 else ty.isWord) && (!nr || sd == 0) && (op == .cas || sc == 0)
  | .waitv cc ty own _ _ _ _ => cc != .un && cc != .or && ty.isWord && (!own || ty == .i64 || ty == .n64)
  | .cpy _ _ _ _ _ _ _ => true
  | .cpyt _ _ _ _ _ _ => true
  | .cpywm _ _ _ _ _ _ _ => true
  | .cpyfill _ _ _ _ => true
  | .cpyst _ _ _ => true
  | .cpyabt _ => true
  | .cpyabtResume _ => true
  | .amxstep _ _ _ => true
  | .amxrd _ _ _ => true
  | .mclaim _ _ cnt => decide (1 ≤ cnt.toNat) && decide (cnt.toNat ≤ 128)
  | .mrel _ cnt => decide (1 ≤ cnt.toNat) && decide (cnt.toNat ≤ 128)
  | .mfmt _ _ => true
  | .mnest lvl _ => decide (lvl.toNat ≤ 5)
  | .mgo _ _ => true
  | .mzero _ cnt => decide (1 ≤ cnt.toNat) && decide (cnt.toNat ≤ 32)
  | .mepi _ _ => true
  | .mckrd _ _ _ => true
  | .mlsgen _ _ => true
  | .mtile _ _ => true
  | .mwld w _ => decide (4 ≤ w.toNat) && decide (w.toNat ≤ 54)
  | .mstat _ w => decide (w.toNat ≤ 54) || (decide (64 ≤ w.toNat) && decide (w.toNat ≤ 95))
  | .clred _ ty _ => ty == .i32 || ty == .n32 || ty.isFlt
  | .clrsc _ ty _ => ty == .i32 || ty == .n32 || ty.isFlt
  | .clbc _ => true
  | .clgath _ => true
  | .cltbl _ _ q => decide (q.toNat ≤ 6)
  | .clabt => true
  | .clabtResume => true
  | .localLoadRead => true
  | .resultComplete => true
  | .fencePerform _ _ => true
  | .aamoPerform _ _ => true
  | .waitvArm _ _ => true
  | .waitvTimeout _ _ => true
  | .copyStart _ _ => true
  | .copyGranule _ _ => true
  | .amxstepPerform _ _ => true
  | .tileCommand _ => true
  | .mzeroPerform _ => true
  | .collectiveStart _ _ _ => true
  | .chunkReduced _ _ _ _ => true
  | .chunkCommit _ _ _ => true
  | .chunkWrite _ _ _ => true
  | .changeNotice _ _ _ => true
  | .floodReceive _ _ _ => true
  | .flitReceive _ _ => true
  | .nak _ _ => true
  | .portRetrain _ => true
  | .portTrainComplete _ _ _ _ => true
  | .transferDelivery => true
  | .timerFire => true
  | .timerInterrupt => true
  | .engineStopInterrupt => true
  | .boundary => true
  | .chipWallExpiry => true
  | .budgetExpiry => true
  | .lastingComplete => true
  | .launchStart _ => true
  | .checkpointSave _ _ => true
  | .containmentRelease _ => true
  | .scoreDecay => true
  | .recordFetch _ => true
  | .qtailWrite _ _ _ => true
  | .qctlWrite _ _ _ => true
  | .cancelJob _ _ => true
  | .cancelGraph _ _ => true
  | .cancelSlot _ _ _ => true
  | .cancelTimeout => true
  | .counterWrite _ _ _ => true
  | .preemptRequest _ _ _ => true
  | .ttinvWrite _ _ => true
  | .ttrootWrite _ _ => true
  | .ttinvDone _ => true
  | .svimageWrite _ _ _ => true
  | .apertureRead _ _ _ => true
  | .apertureWrite _ _ _ => true
  | .functionLevelReset _ => true
  | .msixUnmask _ _ => true
  | .registerWrite _ _ _ _ => true
  | .ifcfgWrite _ _ _ => true
  | .ringRptrWrite _ _ => true
  | .ringLostRead _ => true
  | .modeSelect _ => true
  | .lccmdTransit _ => true
  | .lccmdDecommission _ => true
  | .lifecycleWipe => true
  | .monctlFreeze _ => true
  | .monctlClear => true
  | .monitorSample _ _ => true
  | .cbRetireWrite _ _ => true
  | .cbReturnWrite _ _ => true
  | .quiesceRequest _ _ => true
  | .quiesceDeadline _ => true
  | .dieFence _ => true
  | .dieSelfTestDone _ _ _ => true
  | .shadowRotation _ _ => true
  | .linkRetrain _ => true
  | .stretchRaise _ => true
  | .stretchRelease _ => true
  | .brownoutHold _ _ => true
  | .holdEnd _ _ => true
  | .domainLoss _ _ _ => true
  | .domainReturn _ _ => true
  | .packagePowerFailure _ _ => true
  | .thermalThrottle _ _ => true
  | .thermalTrip _ _ => true
  | .thermtrip _ _ => true
  | .powerOn _ => true
  | .fullSelfTestDone _ _ _ => true
  | .recoveryGo => true
  | .i3cRead _ => true
  | .bypass => true
  | .idcode => true
  | .samplePreload _ => true
  | .extest => true
  | .clamp => true
  | .highz => true
  | .hubRead _ _ _ _ => true
  | .hubWrite _ _ _ => true
  | .cycleTagReached => true
  | .hostCompletionTimeout _ _ => true
  | .frameMoveComplete _ => true
  | .spareLaneRecalibrated _ _ => true
  | .interposerRetrainComplete _ _ => true
  | .pcapExceeded _ => true
  | .frameRelease _ _ _ => true
  | .pcieConventionalReset => true
  | .i3cEntdaa _ => true

/-- A well-formed instruction, as a proposition. -/
abbrev WellFormed (i : Instr) : Prop := wellFormed i = true

/-- The rows that are instructions of the opcode map (Table 2.5); the others are events. -/
def Instr.isWordInstr : Instr → Bool
  | .add _ _ _ => true
  | .sub _ _ _ => true
  | .mul _ _ _ => true
  | .mulh _ _ _ => true
  | .mulhn _ _ _ => true
  | .div _ _ _ => true
  | .divn _ _ _ => true
  | .rem _ _ _ => true
  | .remn _ _ _ => true
  | .and _ _ _ => true
  | .or _ _ _ => true
  | .xor _ _ _ => true
  | .shl _ _ _ => true
  | .shr _ _ _ => true
  | .sra _ _ _ => true
  | .min _ _ _ => true
  | .minn _ _ _ => true
  | .max _ _ _ => true
  | .maxn _ _ _ => true
  | .slt _ _ _ => true
  | .sltn _ _ _ => true
  | .seq _ _ _ => true
  | .sel _ _ _ _ => true
  | .clz _ _ => true
  | .popc _ _ => true
  | .sext _ _ _ => true
  | .zext _ _ _ => true
  | .addi _ _ _ => true
  | .muli _ _ _ => true
  | .andi _ _ _ => true
  | .ori _ _ _ => true
  | .xori _ _ _ => true
  | .shli _ _ _ => true
  | .shri _ _ _ => true
  | .srai _ _ _ => true
  | .slti _ _ _ => true
  | .sltni _ _ _ => true
  | .seqi _ _ _ => true
  | .limm _ _ => true
  | .limmh _ _ => true
  | .addsc _ _ _ _ _ => true
  | .sfadd _ _ _ _ => true
  | .sfsub _ _ _ _ => true
  | .sfmul _ _ _ _ => true
  | .sfcmp _ _ _ _ => true
  | .sfcvt _ _ _ _ => true
  | .lds _ _ _ _ => true
  | .sts _ _ _ _ => true
  | .b _ => true
  | .beq _ _ _ => true
  | .bne _ _ _ => true
  | .blt _ _ _ => true
  | .bge _ _ _ => true
  | .bltn _ _ _ => true
  | .bgen _ _ _ => true
  | .bany _ _ _ => true
  | .ball _ _ _ => true
  | .loop _ _ => true
  | .call _ _ => true
  | .callr _ _ => true
  | .ret _ => true
  | .jr _ => true
  | .nop => true
  | .endl => true
  | .pand _ _ _ => true
  | .por _ _ _ => true
  | .pxor _ _ _ => true
  | .pandn _ _ _ => true
  | .pnot _ _ => true
  | .pwhile _ _ _ => true
  | .pcnt _ _ _ => true
  | .pff _ _ _ => true
  | .csrr _ _ => true
  | .csrw _ _ => true
  | .csrx _ _ _ => true
  | .csrs _ _ _ => true
  | .csrc _ _ _ => true
  | .csrwi _ _ => true
  | .vrot _ _ => true
  | .trap _ => true
  | .tret => true
  | .tmarm _ => true
  | .tmoff => true
  | .segend _ _ => true
  | .segendNc _ _ => true
  | .phend _ => true
  | .xcyc _ => true
  | .xsend _ _ _ _ => true
  | .xsendm _ _ _ _ => true
  | .xsends _ _ _ => true
  | .sigrv _ _ => true
  | .sigrc _ => true
  | .sigrs _ => true
  | .vadd _ _ _ _ _ _ _ => true
  | .vsub _ _ _ _ _ _ _ => true
  | .vmul _ _ _ _ _ _ _ => true
  | .vmulh _ _ _ _ _ => true
  | .vmin _ _ _ _ _ => true
  | .vmax _ _ _ _ _ => true
  | .vand _ _ _ _ _ => true
  | .vor _ _ _ _ _ => true
  | .vxor _ _ _ _ _ => true
  | .vshl _ _ _ _ _ _ => true
  | .vshr _ _ _ _ _ => true
  | .vsra _ _ _ _ _ => true
  | .vfma _ _ _ _ _ _ => true
  | .vfms _ _ _ _ _ _ => true
  | .vabs _ _ _ _ _ => true
  | .vneg _ _ _ _ _ => true
  | .vsel _ _ _ _ _ => true
  | .vrcp _ _ _ _ _ => true
  | .vrsq _ _ _ _ _ => true
  | .vexp2 _ _ _ _ _ => true
  | .vlog2 _ _ _ _ _ => true
  | .vsigm _ _ _ _ _ => true
  | .vtanh _ _ _ _ _ => true
  | .vclass _ _ _ _ => true
  | .vscale _ _ _ _ _ _ => true
  | .vcvt _ _ _ _ _ _ => true
  | .vqblk _ _ _ _ _ _ _ => true
  | .vdqblk _ _ _ _ _ _ => true
  | .vperm _ _ _ _ _ => true
  | .vmov _ _ _ _ => true
  | .vnot _ _ _ _ => true
  | .vadds _ _ _ _ _ _ _ => true
  | .vmuls _ _ _ _ _ _ _ => true
  | .vshls _ _ _ _ _ _ => true
  | .vshrs _ _ _ _ _ => true
  | .vsras _ _ _ _ _ => true
  | .vbcast _ _ _ _ => true
  | .vslideu _ _ _ _ _ => true
  | .vslided _ _ _ _ _ => true
  | .viota _ _ _ _ => true
  | .vldx _ _ _ _ _ => true
  | .vcmp _ _ _ _ _ _ => true
  | .vcmps _ _ _ _ _ _ => true
  | .vext _ _ _ _ => true
  | .vrsum _ _ _ _ => true
  | .vrmin _ _ _ _ => true
  | .vrmax _ _ _ _ => true
  | .vramax _ _ _ _ => true
  | .vld _ _ _ _ _ => true
  | .vlds _ _ _ _ _ _ => true
  | .vlda _ _ _ _ _ => true
  | .vst _ _ _ _ _ => true
  | .vsts _ _ _ _ _ _ => true
  | .vstx _ _ _ _ _ => true
  | .tlclose _ _ => true
  | .tlwait _ _ _ => true
  | .tlread _ _ => true
  | .mark => true
  | .fence _ _ => true
  | .aamo _ _ _ _ _ _ _ => true
  | .waitv _ _ _ _ _ _ _ => true
  | .cpy _ _ _ _ _ _ _ => true
  | .cpyt _ _ _ _ _ _ => true
  | .cpywm _ _ _ _ _ _ _ => true
  | .cpyfill _ _ _ _ => true
  | .cpyst _ _ _ => true
  | .cpyabt _ => true
  | .cpyabtResume _ => true
  | .amxstep _ _ _ => true
  | .amxrd _ _ _ => true
  | .mclaim _ _ _ => true
  | .mrel _ _ => true
  | .mfmt _ _ => true
  | .mnest _ _ => true
  | .mgo _ _ => true
  | .mzero _ _ => true
  | .mepi _ _ => true
  | .mckrd _ _ _ => true
  | .mlsgen _ _ => true
  | .mtile _ _ => true
  | .mwld _ _ => true
  | .mstat _ _ => true
  | .clred _ _ _ => true
  | .clrsc _ _ _ => true
  | .clbc _ => true
  | .clgath _ => true
  | .cltbl _ _ _ => true
  | .clabt => true
  | .clabtResume => true
  | .localLoadRead => false
  | .resultComplete => false
  | .fencePerform _ _ => false
  | .aamoPerform _ _ => false
  | .waitvArm _ _ => false
  | .waitvTimeout _ _ => false
  | .copyStart _ _ => false
  | .copyGranule _ _ => false
  | .amxstepPerform _ _ => false
  | .tileCommand _ => false
  | .mzeroPerform _ => false
  | .collectiveStart _ _ _ => false
  | .chunkReduced _ _ _ _ => false
  | .chunkCommit _ _ _ => false
  | .chunkWrite _ _ _ => false
  | .changeNotice _ _ _ => false
  | .floodReceive _ _ _ => false
  | .flitReceive _ _ => false
  | .nak _ _ => false
  | .portRetrain _ => false
  | .portTrainComplete _ _ _ _ => false
  | .transferDelivery => false
  | .timerFire => false
  | .timerInterrupt => false
  | .engineStopInterrupt => false
  | .boundary => false
  | .chipWallExpiry => false
  | .budgetExpiry => false
  | .lastingComplete => false
  | .launchStart _ => false
  | .checkpointSave _ _ => false
  | .containmentRelease _ => false
  | .scoreDecay => false
  | .recordFetch _ => false
  | .qtailWrite _ _ _ => false
  | .qctlWrite _ _ _ => false
  | .cancelJob _ _ => false
  | .cancelGraph _ _ => false
  | .cancelSlot _ _ _ => false
  | .cancelTimeout => false
  | .counterWrite _ _ _ => false
  | .preemptRequest _ _ _ => false
  | .ttinvWrite _ _ => false
  | .ttrootWrite _ _ => false
  | .ttinvDone _ => false
  | .svimageWrite _ _ _ => false
  | .apertureRead _ _ _ => false
  | .apertureWrite _ _ _ => false
  | .functionLevelReset _ => false
  | .msixUnmask _ _ => false
  | .registerWrite _ _ _ _ => false
  | .ifcfgWrite _ _ _ => false
  | .ringRptrWrite _ _ => false
  | .ringLostRead _ => false
  | .modeSelect _ => false
  | .lccmdTransit _ => false
  | .lccmdDecommission _ => false
  | .lifecycleWipe => false
  | .monctlFreeze _ => false
  | .monctlClear => false
  | .monitorSample _ _ => false
  | .cbRetireWrite _ _ => false
  | .cbReturnWrite _ _ => false
  | .quiesceRequest _ _ => false
  | .quiesceDeadline _ => false
  | .dieFence _ => false
  | .dieSelfTestDone _ _ _ => false
  | .shadowRotation _ _ => false
  | .linkRetrain _ => false
  | .stretchRaise _ => false
  | .stretchRelease _ => false
  | .brownoutHold _ _ => false
  | .holdEnd _ _ => false
  | .domainLoss _ _ _ => false
  | .domainReturn _ _ => false
  | .packagePowerFailure _ _ => false
  | .thermalThrottle _ _ => false
  | .thermalTrip _ _ => false
  | .thermtrip _ _ => false
  | .powerOn _ => false
  | .fullSelfTestDone _ _ _ => false
  | .recoveryGo => false
  | .i3cRead _ => false
  | .bypass => false
  | .idcode => false
  | .samplePreload _ => false
  | .extest => false
  | .clamp => false
  | .highz => false
  | .hubRead _ _ _ _ => false
  | .hubWrite _ _ _ => false
  | .cycleTagReached => false
  | .hostCompletionTimeout _ _ => false
  | .frameMoveComplete _ => false
  | .spareLaneRecalibrated _ _ => false
  | .interposerRetrainComplete _ _ => false
  | .pcapExceeded _ => false
  | .frameRelease _ _ _ => false
  | .pcieConventionalReset => false
  | .i3cEntdaa _ => false

end Sys2Proof
end

