-- ==== Sys2Proof/Decode.lean ====
section
/-! DEFINITION. The decoder of instruction words (R41 to R60), total on every word and rejecting by name, and
after it the encoder, written from the same tables (Tables 2.1, 2.5, 10.2, 11.2, 12.2, 19.2). -/
namespace Sys2Proof

/-- Why a word is illegal (R58). -/
inductive DecodeError
  /-- OP is unassigned (R54, R37). -/
  | opcode
  /-- A reserved FN or TY value (R54, R51). -/
  | function
  /-- A zero field is nonzero (R50, R55). -/
  | zeroField
  /-- A vector source names a latch with bits [11:3] set (R45). -/
  | latch
  /-- WS = 1 with a nonzero VD (R46). -/
  | wsDest
  /-- PN = 1 with PG = 0 (R47). -/
  | invertedP0
  /-- A reserved or misplaced rounding code (R48, R53). -/
  | rounding
  /-- SAT = 1 where it is reserved (R48). -/
  | saturation
  /-- A reserved condition code (R52). -/
  | condition
  /-- A reserved IMM26 or operand value (R56, R258, R298, R429). -/
  | operand
  /-- A shift immediate outside 0 to 63 (R58). -/
  | shiftImm
  /-- VROT beyond 256 or 4 (R23). -/
  | rotation
  deriving DecidableEq, Repr

/-! ### Fields -/

/-- The field of `len` bits whose lowest bit is `lo`. -/
def fld (w : Word) (lo len : Nat) : BitVec len := w.extractLsb' lo len

/-- Whether a field is zero. -/
def zf (w : Word) (lo len : Nat) : Bool := fld w lo len == 0

/-- One bit as a Bool. -/
def bitAt (w : Word) (k : Nat) : Bool := fld w k 1 == 1

/-- Go on when a check holds, else reject by name. -/
def chk (ok : Bool) (e : DecodeError) (r : Except DecodeError Instr) : Except DecodeError Instr :=
  if ok then r else .error e

/-- Go on with a field's meaning, or reject by name. -/
def getOr {α : Type} (o : Option α) (e : DecodeError) (k : α → Except DecodeError Instr) :
    Except DecodeError Instr :=
  match o with
  | some a => k a
  | none => .error e

/-- Type codes (Table 2.2). -/
def Ty.ofCode (c : BitVec 6) : Option Ty :=
  match c.toNat with
  | 0 => some .i8 | 1 => some .i16 | 2 => some .i32 | 3 => some .i64
  | 4 => some .n8 | 5 => some .n16 | 6 => some .n32 | 7 => some .n64
  | 8 => some .f32 | 9 => some .f16 | 10 => some .bf16 | 11 => some .e4m3
  | 12 => some .e5m2 | 13 => some .b4 | _ => none

/-- The code of a type (Table 2.2). -/
def Ty.code : Ty → BitVec 6
  | .i8 => 0 | .i16 => 1 | .i32 => 2 | .i64 => 3 | .n8 => 4 | .n16 => 5 | .n32 => 6 | .n64 => 7
  | .f32 => 8 | .f16 => 9 | .bf16 => 10 | .e4m3 => 11 | .e5m2 => 12 | .b4 => 13

/-- Rounding codes (Table 2.4). -/
def Rm.ofCode (c : BitVec 3) : Option Rm :=
  match c.toNat with
  | 0 => some .dyn | 1 => some .rne | 2 => some .rtz | 3 => some .ru | 4 => some .rd | 5 => some .rs
  | _ => none

/-- The code of a rounding mode (Table 2.4). -/
def Rm.code : Rm → BitVec 3
  | .dyn => 0 | .rne => 1 | .rtz => 2 | .ru => 3 | .rd => 4 | .rs => 5

/-- Condition codes (Table 2.3). -/
def Cc.ofCode (c : Nat) : Option Cc :=
  match c with
  | 0 => some .eq | 1 => some .ne | 2 => some .lt | 3 => some .le
  | 4 => some .gt | 5 => some .ge | 6 => some .un | 7 => some .or | _ => none

/-- The code of a condition (Table 2.3). -/
def Cc.code : Cc → Nat
  | .eq => 0 | .ne => 1 | .lt => 2 | .le => 3 | .gt => 4 | .ge => 5 | .un => 6 | .or => 7

/-- SFCVT directions (R110). -/
def SfDir.ofCode (c : BitVec 3) : Option SfDir :=
  match c.toNat with
  | 0 => some .f32i64 | 1 => some .f32n64 | 2 => some .i64f32 | 3 => some .n64f32 | _ => none

/-- The code of an SFCVT direction (R110). -/
def SfDir.code : SfDir → BitVec 3
  | .f32i64 => 0 | .f32n64 => 1 | .i64f32 => 2 | .n64f32 => 3

/-- FENCE scopes (R56). -/
def Scope.ofCode (c : BitVec 6) : Option Scope :=
  match c.toNat with
  | 0 => some .core | 1 => some .stack | 2 => some .package | 3 => some .dieMask | 4 => some .system
  | _ => none

/-- The code of a scope (R56). -/
def Scope.code : Scope → BitVec 6
  | .core => 0 | .stack => 1 | .package => 2 | .dieMask => 3 | .system => 4

/-- FENCE kinds (R56). -/
def FenceKind.ofCode (c : BitVec 26) : Option FenceKind :=
  match c.toNat with
  | 1 => some .acq | 2 => some .rel | 3 => some .ar | _ => none

/-- The code of a FENCE kind (R56). -/
def FenceKind.code : FenceKind → BitVec 26
  | .acq => 1 | .rel => 2 | .ar => 3

/-- AAMO operations (R56). -/
def AmoOp.ofCode (c : BitVec 6) : Option AmoOp :=
  match c.toNat with
  | 0 => some .add | 1 => some .min | 2 => some .max | 3 => some .and | 4 => some .or | 5 => some .xor
  | 6 => some .swap | 7 => some .cas | 8 => some .fadd | _ => none

/-- The code of an AAMO operation (R56). -/
def AmoOp.code : AmoOp → BitVec 6
  | .add => 0 | .min => 1 | .max => 2 | .and => 3 | .or => 4 | .xor => 5 | .swap => 6 | .cas => 7
  | .fadd => 8

/-- Collective operations (Table 2.5). -/
def ClOp.ofCode (c : BitVec 6) : Option ClOp :=
  match c.toNat with
  | 0 => some .sum | 1 => some .max | 2 => some .min | _ => none

/-- The code of a collective operation (Table 2.5). -/
def ClOp.code : ClOp → BitVec 6
  | .sum => 0 | .max => 1 | .min => 2

/-- Copy spaces (R56). -/
def Space.ofCode (c : BitVec 3) : Space :=
  match c.toNat with
  | 0 => .glb | 1 => .loc | 2 => .rmt | 3 => .acc | 4 => .host | 5 => .opm | 6 => .r6 | _ => .r7

/-- The code of a copy space (R56). -/
def Space.code : Space → BitVec 3
  | .glb => 0 | .loc => 1 | .rmt => 2 | .acc => 3 | .host => 4 | .opm => 5 | .r6 => 6 | .r7 => 7

/-- The floating-point type of a block form (R56). -/
def QTy.ofCode (c : BitVec 2) : Option QTy :=
  match c.toNat with
  | 0 => some .f32 | 1 => some .f16 | 2 => some .bf16 | _ => none

/-- The code of a block form's type (R56). -/
def QTy.code : QTy → BitVec 2
  | .f32 => 0 | .f16 => 1 | .bf16 => 2

/-- A vector source field (R45). -/
def VSrc.ofCode (c : BitVec 13) : Option VSrc :=
  if c.extractLsb' 12 1 == 0 then some (.reg (c.extractLsb' 0 12))
  else if c.extractLsb' 3 9 == 0 then some (.latch (c.extractLsb' 0 3))
  else none

/-- The code of a vector source (R45). -/
def VSrc.code : VSrc → BitVec 13
  | .reg n => (0 : BitVec 1) ++ n
  | .latch k => (1 : BitVec 1) ++ (0 : BitVec 9) ++ k

/-! ### Decoding by format -/

/-- SR with two sources (SC unused, FN 0). -/
def dSr3 (w : Word) (mk : BitVec 6 → BitVec 6 → BitVec 6 → Instr) : Except DecodeError Instr :=
  chk (zf w 50 6) .function <| chk (zf w 0 32) .zeroField <| .ok (mk (fld w 44 6) (fld w 38 6) (fld w 32 6))

/-- SR with one source (SB, SC unused, FN 0). -/
def dSr2 (w : Word) (mk : BitVec 6 → BitVec 6 → Instr) : Except DecodeError Instr :=
  chk (zf w 50 6) .function <| chk (zf w 0 38) .zeroField <| .ok (mk (fld w 44 6) (fld w 38 6))

/-- SR with one source and a type in FN. -/
def dSrTy (w : Word) (allowed : Ty → Bool) (mk : Ty → BitVec 6 → BitVec 6 → Instr) :
    Except DecodeError Instr :=
  getOr (Ty.ofCode (fld w 50 6)) .function fun ty =>
  chk (allowed ty) .function <| chk (zf w 0 38) .zeroField <| .ok (mk ty (fld w 44 6) (fld w 38 6))

/-- SI. -/
def dSi (w : Word) (mk : BitVec 6 → BitVec 6 → BitVec 38 → Instr) : Except DecodeError Instr :=
  chk (zf w 50 6) .function <| .ok (mk (fld w 44 6) (fld w 38 6) (fld w 0 38))

/-- SI with a shift immediate. -/
def dShi (w : Word) (mk : BitVec 6 → BitVec 6 → BitVec 6 → Instr) : Except DecodeError Instr :=
  chk (zf w 50 6) .function <| chk (zf w 6 32) .shiftImm <| .ok (mk (fld w 44 6) (fld w 38 6) (fld w 0 6))

/-- SR of the scalar FP arithmetic: FN[55:53] as given, RM in FN[52:50]. -/
def dSfp (w : Word) (mk : Rm → BitVec 6 → BitVec 6 → BitVec 6 → Instr) : Except DecodeError Instr :=
  getOr (Rm.ofCode (fld w 50 3)) .rounding fun rm =>
  chk (rm != .rs) .rounding <| chk (zf w 0 32) .zeroField <|
  .ok (mk rm (fld w 44 6) (fld w 38 6) (fld w 32 6))

/-- SM. -/
def dSm (w : Word) (mk : Ty → BitVec 6 → BitVec 6 → BitVec 38 → Instr) : Except DecodeError Instr :=
  getOr (Ty.ofCode (fld w 50 6)) .function fun ty =>
  chk ty.isInteger .function <| .ok (mk ty (fld w 44 6) (fld w 38 6) (fld w 0 38))

/-- BC with two register sources. -/
def dBc2 (w : Word) (mk : BitVec 6 → BitVec 6 → BitVec 20 → Instr) : Except DecodeError Instr :=
  chk (zf w 50 6) .function <| chk (zf w 20 18) .zeroField <|
  .ok (mk (fld w 44 6) (fld w 38 6) (fld w 0 20))

/-- BC with SB unused. -/
def dBc1 (w : Word) (mk : BitVec 6 → BitVec 20 → Instr) : Except DecodeError Instr :=
  chk (zf w 50 6) .function <| chk (zf w 20 24) .zeroField <| .ok (mk (fld w 44 6) (fld w 0 20))

/-- BC with a predicate and a type. -/
def dBcTy (w : Word) (mk : Ty → BitVec 6 → BitVec 20 → Instr) : Except DecodeError Instr :=
  getOr (Ty.ofCode (fld w 50 6)) .function fun ty =>
  chk ty.isBits .function <| chk (zf w 20 24) .zeroField <| .ok (mk ty (fld w 44 6) (fld w 0 20))

/-- BJ with SA unused. -/
def dBj1 (w : Word) (mk : BitVec 6 → Instr) : Except DecodeError Instr :=
  chk (zf w 50 6) .function <| chk (zf w 44 6 && zf w 0 38) .zeroField <| .ok (mk (fld w 38 6))

/-- A word whose every bit below OP is zero. -/
def dNone (w : Word) (i : Instr) : Except DecodeError Instr :=
  chk (zf w 50 6) .function <| chk (zf w 0 50) .zeroField <| .ok i

/-- PP with three predicates, TY zero. -/
def dPp3 (w : Word) (mk : BitVec 6 → BitVec 6 → BitVec 6 → Instr) : Except DecodeError Instr :=
  chk (zf w 50 6) .function <| chk (zf w 0 32) .zeroField <| .ok (mk (fld w 44 6) (fld w 38 6) (fld w 32 6))

/-- PP with a type, PD or SD and PA. -/
def dPpTy (w : Word) (mk : Ty → BitVec 6 → BitVec 6 → Instr) : Except DecodeError Instr :=
  getOr (Ty.ofCode (fld w 50 6)) .function fun ty =>
  chk ty.isBits .function <| chk (zf w 0 38) .zeroField <| .ok (mk ty (fld w 44 6) (fld w 38 6))

/-- CF with SD, CSR and SA. -/
def dCf3 (w : Word) (mk : BitVec 6 → BitVec 12 → BitVec 6 → Instr) : Except DecodeError Instr :=
  chk (zf w 50 6) .function <| chk (zf w 0 26) .zeroField <|
  .ok (mk (fld w 44 6) (fld w 26 12) (fld w 38 6))

/-- XF with three registers. -/
def dXf3 (w : Word) (mk : BitVec 6 → BitVec 6 → BitVec 6 → BitVec 16 → Instr) : Except DecodeError Instr :=
  chk (zf w 50 6) .function <| chk (zf w 16 16) .zeroField <|
  .ok (mk (fld w 44 6) (fld w 38 6) (fld w 32 6) (fld w 0 16))

/-- XF with no register. -/
def dXf0 (w : Word) (mk : BitVec 16 → Instr) : Except DecodeError Instr :=
  chk (zf w 50 6) .function <| chk (zf w 16 34) .zeroField <| .ok (mk (fld w 0 16))

/-- The type, governing predicate and destination of VR, VS and VL. -/
def dVec (w : Word) (allowed : Ty → Bool) (three : Bool) (k : Ty → Gov → VDst → Except DecodeError Instr) :
    Except DecodeError Instr :=
  getOr (Ty.ofCode (fld w 50 6)) .function fun ty =>
  let g : Gov := ⟨fld w 43 6, bitAt w 4⟩
  let d : VDst := ⟨fld w 31 12, bitAt w 49⟩
  chk (allowed ty) .function <| chk g.ok .invertedP0 <| chk (three || d.ok) .wsDest <| k ty g d

/-- RM and SAT both fixed at zero. -/
def dNoRm (w : Word) (r : Except DecodeError Instr) : Except DecodeError Instr :=
  chk (zf w 1 3) .rounding <| chk (zf w 0 1) .saturation r

/-- RM as the type allows and SAT fixed at zero. -/
def dRm (w : Word) (ty : Ty) (k : Rm → Except DecodeError Instr) : Except DecodeError Instr :=
  getOr (Rm.ofCode (fld w 1 3)) .rounding fun rm =>
  chk (rmOk ty rm) .rounding <| chk (zf w 0 1) .saturation <| k rm

/-- RM fixed at zero and SAT as the type allows. -/
def dSat (w : Word) (ty : Ty) (k : Bool → Except DecodeError Instr) : Except DecodeError Instr :=
  chk (zf w 1 3) .rounding <| chk (satOk ty (bitAt w 0)) .saturation <| k (bitAt w 0)

/-- RM and SAT as the type allows. -/
def dRmSat (w : Word) (ty : Ty) (k : Rm → Bool → Except DecodeError Instr) : Except DecodeError Instr :=
  getOr (Rm.ofCode (fld w 1 3)) .rounding fun rm =>
  chk (rmOk ty rm) .rounding <| chk (satOk ty (bitAt w 0)) .saturation <| k rm (bitAt w 0)

/-- VA of a vector format. -/
def dVa (w : Word) (k : VSrc → Except DecodeError Instr) : Except DecodeError Instr :=
  getOr (VSrc.ofCode (fld w 18 13)) .latch k

/-- VB of VR and VE. -/
def dVb (w : Word) (k : VSrc → Except DecodeError Instr) : Except DecodeError Instr :=
  getOr (VSrc.ofCode (fld w 5 13)) .latch k

/-- VB unused. -/
def dNoVb (w : Word) (r : Except DecodeError Instr) : Except DecodeError Instr :=
  chk (zf w 5 13) .zeroField r

/-- The zero bits of VS, with SB. -/
def dSb (w : Word) (k : BitVec 6 → Except DecodeError Instr) : Except DecodeError Instr :=
  chk (zf w 5 7) .zeroField <| k (fld w 12 6)

/-- VE: type, governing predicate and DS, with the format's own zero bits. -/
def dVe (w : Word) (allowed : Ty → Bool) (k : Ty → Gov → BitVec 6 → Except DecodeError Instr) :
    Except DecodeError Instr :=
  getOr (Ty.ofCode (fld w 50 6)) .function fun ty =>
  let g : Gov := ⟨fld w 43 6, bitAt w 4⟩
  chk (allowed ty) .function <| chk g.ok .invertedP0 <|
  chk (zf w 49 1 && zf w 31 6) .zeroField <| k ty g (fld w 37 6)

/-- The condition code of VCMP and VCMPS. -/
def dCc (w : Word) (ty : Ty) (k : Cc → Except DecodeError Instr) : Except DecodeError Instr :=
  getOr (Cc.ofCode (fld w 0 4).toNat) .condition fun cc => chk (ccOk ty cc) .condition <| k cc

/-- VT and VX: type, governing predicate and VSD, with the format's own zero bits. -/
def dVst (w : Word) (allowed : Ty → Bool) (k : Ty → Gov → VSrc → Except DecodeError Instr) :
    Except DecodeError Instr :=
  getOr (Ty.ofCode (fld w 50 6)) .function fun ty =>
  let g : Gov := ⟨fld w 43 6, bitAt w 4⟩
  chk (allowed ty) .function <| chk g.ok .invertedP0 <|
  chk (zf w 49 1 && zf w 0 4) .zeroField <| getOr (VSrc.ofCode (fld w 30 13)) .latch (k ty g)

/-- Whether the EN register fields SA, SB, SC and SD that a form does not use are zero. -/
def enZero (w : Word) (sa sb sc sd : Bool) : Bool :=
  (sa || zf w 44 6) && (sb || zf w 38 6) && (sc || zf w 32 6) && (sd || zf w 26 6)

/-- The fields shared by VQBLK and VDQBLK (R56, R148, R149): PG and PN are zero fields. -/
def dQ (w : Word) (k : QTy → Bool → Bool → VDst → Rm → Except DecodeError Instr) : Except DecodeError Instr :=
  getOr (QTy.ofCode (fld w 54 2)) .function fun ty =>
  let d : VDst := ⟨fld w 31 12, bitAt w 49⟩
  chk (zf w 50 2) .function <| chk (zf w 43 6 && zf w 4 1) .zeroField <| chk d.ok .wsDest <|
  getOr (Rm.ofCode (fld w 1 3)) .rounding fun rm => chk (zf w 0 1) .saturation <|
  k ty (bitAt w 53) (bitAt w 52) d rm

/-- Opcodes 0x00 to 0x0F of Table 2.5. -/
def decode0 (w : Word) : Except DecodeError Instr :=
  match (fld w 56 4).toNat with
  | 0x1 => dSr3 w .add
  | 0x2 => dSr3 w .sub
  | 0x3 => dSr3 w .mul
  | 0x4 => dSr3 w .mulh
  | 0x5 => dSr3 w .mulhn
  | 0x6 => dSr3 w .div
  | 0x7 => dSr3 w .divn
  | 0x8 => dSr3 w .rem
  | 0x9 => dSr3 w .remn
  | 0xA => dSr3 w .and
  | 0xB => dSr3 w .or
  | 0xC => dSr3 w .xor
  | 0xD => dSr3 w .shl
  | 0xE => dSr3 w .shr
  | 0xF => dSr3 w .sra
  | _ => .error .opcode

/-- Opcodes 0x10 to 0x1F of Table 2.5. -/
def decode1 (w : Word) : Except DecodeError Instr :=
  match (fld w 56 4).toNat with
  | 0x0 => dSr3 w .min
  | 0x1 => dSr3 w .minn
  | 0x2 => dSr3 w .max
  | 0x3 => dSr3 w .maxn
  | 0x4 => dSr3 w .slt
  | 0x5 => dSr3 w .sltn
  | 0x6 => dSr3 w .seq
  | 0x7 => chk (zf w 50 6) .function <| chk (zf w 0 26) .zeroField <| .ok (.sel (fld w 44 6) (fld w 38 6) (fld w 32 6) (fld w 26 6))
  | 0x8 => dSr2 w .clz
  | 0x9 => dSr2 w .popc
  | 0xA => dSrTy w (fun t => t == .i8 || t == .i16 || t == .i32) .sext
  | 0xB => dSrTy w (fun t => t == .n8 || t == .n16 || t == .n32) .zext
  | _ => .error .opcode

/-- Opcodes 0x20 to 0x2F of Table 2.5. -/
def decode2 (w : Word) : Except DecodeError Instr :=
  match (fld w 56 4).toNat with
  | 0x0 => dSi w .addi
  | 0x1 => dSi w .muli
  | 0x2 => dSi w .andi
  | 0x3 => dSi w .ori
  | 0x4 => dSi w .xori
  | 0x5 => dShi w .shli
  | 0x6 => dShi w .shri
  | 0x7 => dShi w .srai
  | 0x8 => dSi w .slti
  | 0x9 => dSi w .sltni
  | 0xA => dSi w .seqi
  | 0xC => if fld w 50 6 == 0 then .ok (.limm (fld w 44 6) (fld w 0 44))
    else if fld w 50 6 == 1 then chk (zf w 20 24) .zeroField <| .ok (.limmh (fld w 44 6) (fld w 0 20))
    else .error .function
  | 0xE => chk (zf w 50 6) .function <| .ok (.addsc (fld w 44 6) (fld w 38 6) (fld w 32 6) (fld w 29 3) (fld w 0 29))
  | _ => .error .opcode

/-- Opcodes 0x30 to 0x3F of Table 2.5. -/
def decode3 (w : Word) : Except DecodeError Instr :=
  match (fld w 56 4).toNat with
  | 0x0 => chk (zf w 54 2) .function <| if bitAt w 53 then dSfp w .sfsub else dSfp w .sfadd
  | 0x1 => chk (zf w 53 3) .function <| dSfp w .sfmul
  | 0x2 => getOr (Cc.ofCode (fld w 50 6).toNat) .function fun cc =>
    chk (zf w 0 32) .zeroField <| .ok (.sfcmp cc (fld w 44 6) (fld w 38 6) (fld w 32 6))
  | 0x3 => getOr (SfDir.ofCode (fld w 53 3)) .function fun dir => getOr (Rm.ofCode (fld w 50 3)) .rounding fun rm =>
    chk (rm != .rs) .rounding <| chk (zf w 0 38) .zeroField <| .ok (.sfcvt dir rm (fld w 44 6) (fld w 38 6))
  | 0x4 => dSm w .lds
  | 0x5 => dSm w .sts
  | 0x8 => chk (zf w 50 6) .function <| chk (zf w 20 30) .zeroField <| .ok (.b (fld w 0 20))
  | 0x9 => dBc2 w .beq
  | 0xA => dBc2 w .bne
  | 0xB => dBc2 w .blt
  | 0xC => dBc2 w .bge
  | 0xD => dBc2 w .bltn
  | 0xE => dBc2 w .bgen
  | 0xF => dBcTy w .bany
  | _ => .error .opcode

/-- Opcodes 0x40 to 0x4F of Table 2.5. -/
def decode4 (w : Word) : Except DecodeError Instr :=
  match (fld w 56 4).toNat with
  | 0x0 => dBcTy w .ball
  | 0x1 => dBc1 w .loop
  | 0x2 => dBc1 w .call
  | 0x3 => chk (zf w 50 6) .function <| chk (zf w 0 38) .zeroField <| .ok (.callr (fld w 44 6) (fld w 38 6))
  | 0x4 => dBj1 w .ret
  | 0x5 => dBj1 w .jr
  | 0x6 => dNone w .nop
  | 0x7 => dNone w .endl
  | _ => .error .opcode

/-- Opcodes 0x50 to 0x5F of Table 2.5. -/
def decode5 (w : Word) : Except DecodeError Instr :=
  match (fld w 56 4).toNat with
  | 0x0 => dPp3 w .pand
  | 0x1 => dPp3 w .por
  | 0x2 => dPp3 w .pxor
  | 0x3 => dPp3 w .pandn
  | 0x4 => dSr2 w .pnot
  | 0x5 => getOr (Ty.ofCode (fld w 50 6)) .function fun ty =>
    chk ty.isBits .function <| chk (zf w 38 6 && zf w 0 32) .zeroField <| .ok (.pwhile ty (fld w 44 6) (fld w 32 6))
  | 0x6 => dPpTy w .pcnt
  | 0x7 => dPpTy w .pff
  | 0x8 => chk (zf w 50 6) .function <| chk (zf w 38 6 && zf w 0 26) .zeroField <| .ok (.csrr (fld w 44 6) (fld w 26 12))
  | 0x9 => chk (zf w 50 6) .function <| chk (zf w 44 6 && zf w 0 26) .zeroField <| .ok (.csrw (fld w 26 12) (fld w 38 6))
  | 0xA => dCf3 w .csrx
  | 0xB => dCf3 w .csrs
  | 0xC => dCf3 w .csrc
  | 0xD => chk (zf w 50 6) .function <| chk (zf w 38 12 && zf w 16 10) .zeroField <| .ok (.csrwi (fld w 26 12) (fld w 0 16))
  | 0xE => chk (zf w 50 6) .function <| chk (zf w 12 38) .zeroField <|
    chk (decide ((fld w 0 9).toNat ≤ 256) && decide ((fld w 9 3).toNat ≤ 4)) .rotation <| .ok (.vrot (fld w 0 9) (fld w 9 3))
  | _ => .error .opcode

/-- Opcodes 0x60 to 0x6F of Table 2.5. -/
def decode6 (w : Word) : Except DecodeError Instr :=
  match (fld w 56 4).toNat with
  | 0x0 => chk (zf w 50 6) .function <| chk (zf w 16 34) .zeroField <| .ok (.trap (fld w 0 16))
  | 0x1 => dNone w .tret
  | 0x2 => chk (zf w 50 6) .function <| chk (zf w 44 6 && zf w 0 38) .zeroField <| .ok (.tmarm (fld w 38 6))
  | 0x3 => dNone w .tmoff
  | 0xE => .ok (.segendNc (fld w 32 24) (fld w 0 32))
  | 0xF => .ok (.segend (fld w 32 24) (fld w 0 32))
  | _ => .error .opcode

/-- Opcodes 0x70 to 0x7F of Table 2.5. -/
def decode7 (w : Word) : Except DecodeError Instr :=
  match (fld w 56 4).toNat with
  | 0x0 => dXf0 w .phend
  | 0x1 => dXf0 w .xcyc
  | 0x2 => dXf3 w .xsend
  | 0x3 => dXf3 w .xsendm
  | 0x4 => chk (zf w 50 6) .function <| chk (zf w 16 22) .zeroField <| .ok (.xsends (fld w 44 6) (fld w 38 6) (fld w 0 16))
  | 0x8 => chk (zf w 51 5) .function <| chk (zf w 0 44) .zeroField <| .ok (.sigrv (bitAt w 50) (fld w 44 6))
  | 0x9 => chk (zf w 50 6) .function <| chk (zf w 0 44) .zeroField <| .ok (.sigrc (fld w 44 6))
  | 0xA => chk (zf w 50 6) .function <| chk (zf w 0 44) .zeroField <| .ok (.sigrs (fld w 44 6))
  | _ => .error .opcode

/-- Opcodes 0x80 to 0x8F of Table 2.5. -/
def decode8 (w : Word) : Except DecodeError Instr :=
  match (fld w 56 4).toNat with
  | 0x0 => dVec w Ty.isNum false fun ty g d =>
    dVa w fun a => dVb w fun b => dRmSat w ty fun rm sat => .ok (.vadd ty g d a b rm sat)
  | 0x1 => dVec w Ty.isNum false fun ty g d =>
    dVa w fun a => dVb w fun b => dRmSat w ty fun rm sat => .ok (.vsub ty g d a b rm sat)
  | 0x2 => dVec w Ty.isNum false fun ty g d =>
    dVa w fun a => dVb w fun b => dRmSat w ty fun rm sat => .ok (.vmul ty g d a b rm sat)
  | 0x3 => dVec w Ty.isInt false fun ty g d =>
    dVa w fun a => dVb w fun b => dNoRm w <| .ok (.vmulh ty g d a b)
  | 0x4 => dVec w Ty.isNum false fun ty g d =>
    dVa w fun a => dVb w fun b => dNoRm w <| .ok (.vmin ty g d a b)
  | 0x5 => dVec w Ty.isNum false fun ty g d =>
    dVa w fun a => dVb w fun b => dNoRm w <| .ok (.vmax ty g d a b)
  | 0x6 => dVec w Ty.isInt false fun ty g d =>
    dVa w fun a => dVb w fun b => dNoRm w <| .ok (.vand ty g d a b)
  | 0x7 => dVec w Ty.isInt false fun ty g d =>
    dVa w fun a => dVb w fun b => dNoRm w <| .ok (.vor ty g d a b)
  | 0x8 => dVec w Ty.isInt false fun ty g d =>
    dVa w fun a => dVb w fun b => dNoRm w <| .ok (.vxor ty g d a b)
  | 0x9 => dVec w Ty.isInt false fun ty g d =>
    dVa w fun a => dVb w fun b => dSat w ty fun sat => .ok (.vshl ty g d a b sat)
  | 0xA => dVec w Ty.isInt false fun ty g d =>
    dVa w fun a => dVb w fun b => dNoRm w <| .ok (.vshr ty g d a b)
  | 0xB => dVec w Ty.isInt false fun ty g d =>
    dVa w fun a => dVb w fun b => dNoRm w <| .ok (.vsra ty g d a b)
  | 0xC => dVec w Ty.isFlt true fun ty g d =>
    dVa w fun a => dVb w fun b => dRm w ty fun rm => .ok (.vfma ty g d a b rm)
  | 0xD => dVec w Ty.isFlt true fun ty g d =>
    dVa w fun a => dVb w fun b => dRm w ty fun rm => .ok (.vfms ty g d a b rm)
  | 0xE => dVec w (fun t => t.isSint || t.isFlt) false fun ty g d =>
    dVa w fun a => dNoVb w <| dSat w ty fun sat => .ok (.vabs ty g d a sat)
  | 0xF => dVec w (fun t => t.isSint || t.isFlt) false fun ty g d =>
    dVa w fun a => dNoVb w <| dSat w ty fun sat => .ok (.vneg ty g d a sat)
  | _ => .error .opcode

/-- Opcodes 0x90 to 0x9F of Table 2.5. -/
def decode9 (w : Word) : Except DecodeError Instr :=
  match (fld w 56 4).toNat with
  | 0x0 => dVec w Ty.isBits false fun ty g d =>
    dVa w fun a => dVb w fun b => dNoRm w <| .ok (.vsel ty g d a b)
  | 0x1 => dVec w Ty.isFlt false fun ty g d =>
    dVa w fun a => dNoVb w <| dRm w ty fun rm => .ok (.vrcp ty g d a rm)
  | 0x2 => dVec w Ty.isFlt false fun ty g d =>
    dVa w fun a => dNoVb w <| dRm w ty fun rm => .ok (.vrsq ty g d a rm)
  | 0x3 => dVec w Ty.isFlt false fun ty g d =>
    dVa w fun a => dNoVb w <| dRm w ty fun rm => .ok (.vexp2 ty g d a rm)
  | 0x4 => dVec w Ty.isFlt false fun ty g d =>
    dVa w fun a => dNoVb w <| dRm w ty fun rm => .ok (.vlog2 ty g d a rm)
  | 0x5 => dVec w Ty.isFlt false fun ty g d =>
    dVa w fun a => dNoVb w <| dRm w ty fun rm => .ok (.vsigm ty g d a rm)
  | 0x6 => dVec w Ty.isFlt false fun ty g d =>
    dVa w fun a => dNoVb w <| dRm w ty fun rm => .ok (.vtanh ty g d a rm)
  | 0x7 => dVec w Ty.isFlt false fun ty g d =>
    dVa w fun a => dNoVb w <| dNoRm w <| .ok (.vclass ty g d a)
  | 0x8 => dVec w Ty.isFlt false fun ty g d =>
    dVa w fun a => dVb w fun b => dRm w ty fun rm => .ok (.vscale ty g d a b rm)
  | 0x9 => dVec w Ty.isCvt false fun ty g d =>
    dVa w fun a => chk (zf w 11 7) .zeroField <| getOr (Ty.ofCode (fld w 5 6)) .operand fun ts =>
    chk (ts.isCvt && ty != ts) .operand <| getOr (Rm.ofCode (fld w 1 3)) .rounding fun rm =>
    chk (ty.isFp || ts.isFp || rm == .dyn) .rounding <| chk (zf w 0 1) .saturation <| .ok (.vcvt ty ts g d a rm)
  | 0xA => dQ w fun ty k32 had d rm => dVa w fun a => dVb w fun b => .ok (.vqblk ty k32 had d a b rm)
  | 0xB => dQ w fun ty k32 had d rm => dVa w fun a => dNoVb w <| .ok (.vdqblk ty k32 had d a rm)
  | 0xC => dVec w Ty.isBits8 false fun ty g d =>
    dVa w fun a => dVb w fun b => dNoRm w <| .ok (.vperm ty g d a b)
  | 0xD => dVec w Ty.isBits false fun ty g d =>
    dVa w fun a => dNoVb w <| dNoRm w <| .ok (.vmov ty g d a)
  | 0xE => dVec w Ty.isInt false fun ty g d =>
    dVa w fun a => dNoVb w <| dNoRm w <| .ok (.vnot ty g d a)
  | _ => .error .opcode

/-- Opcodes 0xA0 to 0xAF of Table 2.5. -/
def decodeA (w : Word) : Except DecodeError Instr :=
  match (fld w 56 4).toNat with
  | 0x0 => dVec w Ty.isNum false fun ty g d =>
    dVa w fun a => dSb w fun sb => dRmSat w ty fun rm sat => .ok (.vadds ty g d a sb rm sat)
  | 0x1 => dVec w Ty.isNum false fun ty g d =>
    dVa w fun a => dSb w fun sb => dRmSat w ty fun rm sat => .ok (.vmuls ty g d a sb rm sat)
  | 0x2 => dVec w Ty.isInt false fun ty g d =>
    dVa w fun a => dSb w fun sb => dSat w ty fun sat => .ok (.vshls ty g d a sb sat)
  | 0x3 => dVec w Ty.isInt false fun ty g d =>
    dVa w fun a => dSb w fun sb => dNoRm w <| .ok (.vshrs ty g d a sb)
  | 0x4 => dVec w Ty.isInt false fun ty g d =>
    dVa w fun a => dSb w fun sb => dNoRm w <| .ok (.vsras ty g d a sb)
  | 0x5 => dVec w Ty.isBits8 false fun ty g d =>
    chk (zf w 18 13) .zeroField <| dSb w fun sb => dNoRm w <| .ok (.vbcast ty g d sb)
  | 0x6 => dVec w Ty.isBits8 false fun ty g d =>
    dVa w fun a => dSb w fun sb => dNoRm w <| .ok (.vslideu ty g d a sb)
  | 0x7 => dVec w Ty.isBits8 false fun ty g d =>
    dVa w fun a => dSb w fun sb => dNoRm w <| .ok (.vslided ty g d a sb)
  | 0x8 => dVec w Ty.isInt false fun ty g d =>
    chk (zf w 18 13) .zeroField <| dSb w fun sb => dNoRm w <| .ok (.viota ty g d sb)
  | 0x9 => dVec w Ty.isBits8 false fun ty g d =>
    dVa w fun a => dSb w fun sb => dNoRm w <| .ok (.vldx ty g d a sb)
  | _ => .error .opcode

/-- Opcodes 0xB0 to 0xBF of Table 2.5. -/
def decodeB (w : Word) : Except DecodeError Instr :=
  match (fld w 56 4).toNat with
  | 0x0 => dVe w Ty.isNum fun ty g pd => dVa w fun a => dVb w fun b => dCc w ty fun cc => .ok (.vcmp ty cc g pd a b)
  | 0x1 => dVe w Ty.isNum fun ty g pd => dVa w fun a => dSb w fun sb => dCc w ty fun cc => .ok (.vcmps ty cc g pd a sb)
  | 0x2 => dVe w Ty.isBits8 fun ty g sd => chk (g == ⟨0, false⟩) .zeroField <| dVa w fun a => dSb w fun sb =>
    chk (zf w 0 4) .zeroField <| .ok (.vext ty sd a sb)
  | 0x3 => dVe w Ty.isNum fun ty g sd => dVa w fun a => dNoVb w <| chk (zf w 0 4) .zeroField <| .ok (.vrsum ty g sd a)
  | 0x4 => dVe w Ty.isNum fun ty g sd => dVa w fun a => dNoVb w <| chk (zf w 0 4) .zeroField <| .ok (.vrmin ty g sd a)
  | 0x5 => dVe w Ty.isNum fun ty g sd => dVa w fun a => dNoVb w <| chk (zf w 0 4) .zeroField <| .ok (.vrmax ty g sd a)
  | 0x6 => dVe w Ty.isFlt fun ty g sd => dVa w fun a => dNoVb w <| chk (zf w 0 4) .zeroField <| .ok (.vramax ty g sd a)
  | 0x8 => dVec w Ty.isBits false fun ty g d =>
    chk (zf w 0 4 && zf w 19 6) .zeroField <| .ok (.vld ty g d (fld w 25 6) (fld w 5 14))
  | 0x9 => dVec w Ty.isBits false fun ty g d =>
    chk (zf w 0 4) .zeroField <| .ok (.vlds ty g d (fld w 25 6) (fld w 19 6) (fld w 5 14))
  | 0xA => dVec w (fun t => t == .f32 || t == .i32) false fun ty g d =>
    chk (zf w 0 4 && zf w 19 6) .zeroField <| .ok (.vlda ty g d (fld w 25 6) (fld w 5 14))
  | 0xB => dVst w Ty.isBits fun ty g src => chk (zf w 18 6) .zeroField <| .ok (.vst ty g src (fld w 24 6) (fld w 5 13))
  | 0xC => dVst w Ty.isBits fun ty g src => .ok (.vsts ty g src (fld w 24 6) (fld w 18 6) (fld w 5 13))
  | 0xD => dVst w Ty.isBits8 fun ty g src => getOr (VSrc.ofCode (fld w 17 13)) .latch fun idx =>
    chk (zf w 5 6) .zeroField <| .ok (.vstx ty g src idx (fld w 11 6))
  | _ => .error .opcode

/-- Opcodes 0xC0 to 0xCF of Table 2.5. -/
def decodeC (w : Word) : Except DecodeError Instr :=
  match (fld w 56 4).toNat with
  | 0x0 => chk (zf w 53 3 && decide ((fld w 50 3).toNat ≤ 6)) .function <| chk (enZero w false false false true && zf w 0 26) .zeroField <|
    .ok (.tlclose (fld w 50 3) (fld w 26 6))
  | 0x1 => chk (zf w 53 3 && decide ((fld w 50 3).toNat ≤ 6)) .function <| chk (enZero w true false false false) .zeroField <|
    .ok (.tlwait (fld w 50 3) (fld w 44 6) (fld w 0 26))
  | 0x2 => chk (zf w 53 3 && decide ((fld w 50 3).toNat ≤ 6)) .function <| chk (enZero w false false false true && zf w 0 26) .zeroField <|
    .ok (.tlread (fld w 50 3) (fld w 26 6))
  | 0x3 => dNone w .mark
  | 0x4 => getOr (Scope.ofCode (fld w 50 6)) .function fun sc => chk (enZero w false false false false) .zeroField <|
    getOr (FenceKind.ofCode (fld w 0 26)) .operand fun k => .ok (.fence sc k)
  | 0x5 => getOr (AmoOp.ofCode (fld w 50 6)) .function fun op => getOr (Ty.ofCode (fld w 0 6)) .operand fun ty =>
    chk (zf w 7 19) .zeroField <|
    chk ((if op == .fadd then ty == .f32 else ty.isWord) && (!bitAt w 6 || fld w 26 6 == 0) &&
      (op == .cas || fld w 32 6 == 0)) .operand <|
    .ok (.aamo op ty (bitAt w 6) (fld w 26 6) (fld w 44 6) (fld w 38 6) (fld w 32 6))
  | 0x6 => getOr (Cc.ofCode (fld w 50 6).toNat) .function fun cc => chk (cc != .un && cc != .or) .function <|
    getOr (Ty.ofCode (fld w 0 6)) .operand fun ty => chk (zf w 32 6) .zeroField <|
    chk (ty.isWord && (!bitAt w 6 || ty == .i64 || ty == .n64)) .operand <|
    .ok (.waitv cc ty (bitAt w 6) (fld w 7 19) (fld w 26 6) (fld w 44 6) (fld w 38 6))
  | _ => .error .opcode

/-- Opcodes 0xD0 to 0xDF of Table 2.5. -/
def decodeD (w : Word) : Except DecodeError Instr :=
  match (fld w 56 4).toNat with
  | 0x0 => chk (enZero w true true true false && zf w 3 23) .zeroField <|
    .ok (.cpy (Space.ofCode (fld w 53 3)) (Space.ofCode (fld w 50 3)) (bitAt w 2) (fld w 0 2) (fld w 44 6) (fld w 38 6) (fld w 32 6))
  | 0x1 => chk (enZero w true true true false && zf w 2 24) .zeroField <|
    .ok (.cpyt (Space.ofCode (fld w 53 3)) (Space.ofCode (fld w 50 3)) (fld w 0 2) (fld w 44 6) (fld w 38 6) (fld w 32 6))
  | 0x2 => chk (enZero w true true true false && zf w 3 23) .zeroField <|
    .ok (.cpywm (Space.ofCode (fld w 53 3)) (Space.ofCode (fld w 50 3)) (bitAt w 2) (fld w 0 2) (fld w 44 6) (fld w 38 6) (fld w 32 6))
  | 0x3 => chk (zf w 53 3) .function <| chk (enZero w false true true false && zf w 2 24) .zeroField <|
    .ok (.cpyfill (Space.ofCode (fld w 50 3)) (fld w 0 2) (fld w 38 6) (fld w 32 6))
  | 0x4 => chk (zf w 50 6) .function <| chk (enZero w false false false true) .zeroField <| chk (zf w 4 22) .operand <|
    .ok (.cpyst (fld w 0 2) (fld w 2 2) (fld w 26 6))
  | 0x5 => chk (zf w 50 6) .function <| chk (enZero w false false false false && zf w 3 23) .zeroField <|
    .ok (if bitAt w 2 then .cpyabtResume (fld w 0 2) else .cpyabt (fld w 0 2))
  | 0x6 => chk (zf w 50 6) .function <| chk (enZero w true true false false && zf w 2 24) .zeroField <|
    .ok (.amxstep (fld w 0 2) (fld w 44 6) (fld w 38 6))
  | 0x7 => chk (zf w 50 6) .function <| chk (enZero w true false false true && zf w 1 25) .zeroField <|
    .ok (.amxrd (bitAt w 0) (fld w 26 6) (fld w 44 6))
  | _ => .error .opcode

/-- Opcodes 0xE0 to 0xEF of Table 2.5. -/
def decodeE (w : Word) : Except DecodeError Instr :=
  match (fld w 56 4).toNat with
  | 0x0 => chk (zf w 51 5) .function <| chk (enZero w true false false false) .zeroField <|
    chk (zf w 8 18 && decide (1 ≤ (fld w 0 8).toNat) && decide ((fld w 0 8).toNat ≤ 128)) .operand <|
    .ok (.mclaim (bitAt w 50) (fld w 44 6) (fld w 0 8))
  | 0x1 => chk (zf w 50 6) .function <| chk (enZero w true false false false) .zeroField <|
    chk (zf w 8 18 && decide (1 ≤ (fld w 0 8).toNat) && decide ((fld w 0 8).toNat ≤ 128)) .operand <|
    .ok (.mrel (fld w 44 6) (fld w 0 8))
  | 0x2 => chk (zf w 50 6) .function <| chk (enZero w true false false false && zf w 12 14) .zeroField <| .ok (.mfmt (fld w 44 6) (fld w 0 12))
  | 0x3 => chk (zf w 53 3 && decide ((fld w 50 3).toNat ≤ 5)) .function <|
    chk (enZero w true false false false && zf w 0 26) .zeroField <| .ok (.mnest (fld w 50 3) (fld w 44 6))
  | 0x4 => chk (zf w 50 6) .function <| chk (enZero w true true false false && zf w 0 26) .zeroField <| .ok (.mgo (fld w 44 6) (fld w 38 6))
  | 0x5 => chk (zf w 50 6) .function <| chk (enZero w true false false false) .zeroField <|
    chk (zf w 6 20 && decide (1 ≤ (fld w 0 6).toNat) && decide ((fld w 0 6).toNat ≤ 32)) .operand <|
    .ok (.mzero (fld w 44 6) (fld w 0 6))
  | 0x6 => chk (zf w 50 6) .function <| chk (enZero w true true false false && zf w 0 26) .zeroField <| .ok (.mepi (fld w 44 6) (fld w 38 6))
  | 0x7 => chk (zf w 50 6) .function <| chk (enZero w false false false true && zf w 2 24) .zeroField <|
    .ok (.mckrd (fld w 26 6) (bitAt w 0) (bitAt w 1))
  | 0x8 => chk (zf w 50 6) .function <| chk (enZero w true false false true && zf w 0 26) .zeroField <| .ok (.mlsgen (fld w 26 6) (fld w 44 6))
  | 0x9 => chk (zf w 50 6) .function <| chk (enZero w true true false false && zf w 0 26) .zeroField <| .ok (.mtile (fld w 44 6) (fld w 38 6))
  | 0xA => chk (zf w 50 6) .function <| chk (enZero w true false false false) .zeroField <|
    chk (zf w 7 19 && decide (4 ≤ (fld w 0 7).toNat) && decide ((fld w 0 7).toNat ≤ 54)) .operand <|
    .ok (.mwld (fld w 0 7) (fld w 44 6))
  | 0xB => chk (zf w 50 6) .function <| chk (enZero w false false false true) .zeroField <|
    chk (zf w 7 19 && (decide ((fld w 0 7).toNat ≤ 54) ||
      (decide (64 ≤ (fld w 0 7).toNat) && decide ((fld w 0 7).toNat ≤ 95)))) .operand <|
    .ok (.mstat (fld w 26 6) (fld w 0 7))
  | _ => .error .opcode

/-- Opcodes 0xF0 to 0xFF of Table 2.5. -/
def decodeF (w : Word) : Except DecodeError Instr :=
  match (fld w 56 4).toNat with
  | 0x0 => getOr (ClOp.ofCode (fld w 50 6)) .function fun op => chk (enZero w true false false false && zf w 6 20) .zeroField <|
    getOr (Ty.ofCode (fld w 0 6)) .operand fun ty => chk (ty == .i32 || ty == .n32 || ty.isFlt) .operand <|
    .ok (.clred op ty (fld w 44 6))
  | 0x1 => getOr (ClOp.ofCode (fld w 50 6)) .function fun op => chk (enZero w true false false false && zf w 6 20) .zeroField <|
    getOr (Ty.ofCode (fld w 0 6)) .operand fun ty => chk (ty == .i32 || ty == .n32 || ty.isFlt) .operand <|
    .ok (.clrsc op ty (fld w 44 6))
  | 0x2 => chk (zf w 50 6) .function <| chk (enZero w true false false false && zf w 0 26) .zeroField <| .ok (.clbc (fld w 44 6))
  | 0x3 => chk (zf w 50 6) .function <| chk (enZero w true false false false && zf w 0 26) .zeroField <| .ok (.clgath (fld w 44 6))
  | 0x4 => chk (zf w 50 6) .function <| chk (enZero w true false false true && zf w 3 23) .zeroField <|
    chk (decide ((fld w 0 3).toNat ≤ 6)) .operand <| .ok (.cltbl (fld w 26 6) (fld w 44 6) (fld w 0 3))
  | 0x5 => chk (zf w 50 6) .function <| chk (enZero w false false false false && zf w 1 25) .zeroField <|
    .ok (if bitAt w 0 then .clabtResume else .clabt)
  | _ => .error .opcode

/-- The instruction a word holds, or why it is illegal (R54, R58). -/
def decode (w : Word) : Except DecodeError Instr :=
  match (fld w 60 4).toNat with
  | 0x0 => decode0 w
  | 0x1 => decode1 w
  | 0x2 => decode2 w
  | 0x3 => decode3 w
  | 0x4 => decode4 w
  | 0x5 => decode5 w
  | 0x6 => decode6 w
  | 0x7 => decode7 w
  | 0x8 => decode8 w
  | 0x9 => decode9 w
  | 0xA => decodeA w
  | 0xB => decodeB w
  | 0xC => decodeC w
  | 0xD => decodeD w
  | 0xE => decodeE w
  | 0xF => decodeF w
  | _ => .error .opcode

/-! ### Encoding -/

/-- A Bool as a one-bit field. -/
def bv1 (b : Bool) : BitVec 1 := if b then 1 else 0

/-- SR. -/
def pSr (op : BitVec 8) (fn sd sa sb sc : BitVec 6) : Word := op ++ fn ++ sd ++ sa ++ sb ++ sc ++ (0 : BitVec 26)

/-- SI. -/
def pSi (op : BitVec 8) (fn sd sa : BitVec 6) (imm : BitVec 38) : Word := op ++ fn ++ sd ++ sa ++ imm

/-- SL. -/
def pSl (op : BitVec 8) (fn sd : BitVec 6) (imm : BitVec 44) : Word := op ++ fn ++ sd ++ imm

/-- SX. -/
def pSx (op : BitVec 8) (fn sd sa sb : BitVec 6) (sh : BitVec 3) (off : BitVec 29) : Word :=
  op ++ fn ++ sd ++ sa ++ sb ++ sh ++ off

/-- BC. -/
def pBc (op : BitVec 8) (fn sa sb : BitVec 6) (off : BitVec 20) : Word :=
  op ++ fn ++ sa ++ sb ++ (0 : BitVec 18) ++ off

/-- CF. -/
def pCf (op : BitVec 8) (sd sa : BitVec 6) (csr : BitVec 12) (imm : BitVec 16) : Word :=
  op ++ (0 : BitVec 6) ++ sd ++ sa ++ csr ++ (0 : BitVec 10) ++ imm

/-- SN. -/
def pSn (op : BitVec 8) (imm : BitVec 16) : Word := op ++ (0 : BitVec 40) ++ imm

/-- SE. -/
def pSe (op : BitVec 8) (count : BitVec 24) (crc : BitVec 32) : Word := op ++ count ++ crc

/-- XF. -/
def pXf (op : BitVec 8) (sa sb sc : BitVec 6) (tag : BitVec 16) : Word :=
  op ++ (0 : BitVec 6) ++ sa ++ sb ++ sc ++ (0 : BitVec 16) ++ tag

/-- VR, and VS with its SB and zero bits as the 13-bit field. -/
def pVr (op : BitVec 8) (ty : BitVec 6) (ws : Bool) (pg : BitVec 6) (vd : BitVec 12) (va vb : BitVec 13)
    (pn : Bool) (rm : BitVec 3) (sat : Bool) : Word :=
  op ++ ty ++ bv1 ws ++ pg ++ vd ++ va ++ vb ++ bv1 pn ++ rm ++ bv1 sat

/-- SB above the seven zero bits of VS and VE. -/
def sbField (sb : BitVec 6) : BitVec 13 := sb ++ (0 : BitVec 7)

/-- VE, with VB, or SB and its zero bits, as the 13-bit field. -/
def pVe (op : BitVec 8) (ty pg ds : BitVec 6) (va vb : BitVec 13) (pn : Bool) (cc : BitVec 4) : Word :=
  op ++ ty ++ (0 : BitVec 1) ++ pg ++ ds ++ (0 : BitVec 6) ++ va ++ vb ++ bv1 pn ++ cc

/-- VL. -/
def pVl (op : BitVec 8) (ty : BitVec 6) (ws : Bool) (pg : BitVec 6) (vd : BitVec 12) (sa sb : BitVec 6)
    (off : BitVec 14) (pn : Bool) : Word :=
  op ++ ty ++ bv1 ws ++ pg ++ vd ++ sa ++ sb ++ off ++ bv1 pn ++ (0 : BitVec 4)

/-- VT. -/
def pVt (op : BitVec 8) (ty pg : BitVec 6) (vsd : BitVec 13) (sa sb : BitVec 6) (off : BitVec 13)
    (pn : Bool) : Word :=
  op ++ ty ++ (0 : BitVec 1) ++ pg ++ vsd ++ sa ++ sb ++ off ++ bv1 pn ++ (0 : BitVec 4)

/-- VX. -/
def pVx (op : BitVec 8) (ty pg : BitVec 6) (vsd vi : BitVec 13) (sa : BitVec 6) (pn : Bool) : Word :=
  op ++ ty ++ (0 : BitVec 1) ++ pg ++ vsd ++ vi ++ sa ++ (0 : BitVec 6) ++ bv1 pn ++ (0 : BitVec 4)

/-- EN. -/
def pEn (op : BitVec 8) (fn sa sb sc sd : BitVec 6) (imm : BitVec 26) : Word :=
  op ++ fn ++ sa ++ sb ++ sc ++ sd ++ imm

/-- The word of a well-formed instruction (Tables 2.1 and 2.5). An event has no word; it is given word 0,
which no instruction has (R37). -/
def encode : Instr → Word
  | .add sd sa sb => pSr 0x01 0 sd sa sb 0
  | .sub sd sa sb => pSr 0x02 0 sd sa sb 0
  | .mul sd sa sb => pSr 0x03 0 sd sa sb 0
  | .mulh sd sa sb => pSr 0x04 0 sd sa sb 0
  | .mulhn sd sa sb => pSr 0x05 0 sd sa sb 0
  | .div sd sa sb => pSr 0x06 0 sd sa sb 0
  | .divn sd sa sb => pSr 0x07 0 sd sa sb 0
  | .rem sd sa sb => pSr 0x08 0 sd sa sb 0
  | .remn sd sa sb => pSr 0x09 0 sd sa sb 0
  | .and sd sa sb => pSr 0x0A 0 sd sa sb 0
  | .or sd sa sb => pSr 0x0B 0 sd sa sb 0
  | .xor sd sa sb => pSr 0x0C 0 sd sa sb 0
  | .shl sd sa sb => pSr 0x0D 0 sd sa sb 0
  | .shr sd sa sb => pSr 0x0E 0 sd sa sb 0
  | .sra sd sa sb => pSr 0x0F 0 sd sa sb 0
  | .min sd sa sb => pSr 0x10 0 sd sa sb 0
  | .minn sd sa sb => pSr 0x11 0 sd sa sb 0
  | .max sd sa sb => pSr 0x12 0 sd sa sb 0
  | .maxn sd sa sb => pSr 0x13 0 sd sa sb 0
  | .slt sd sa sb => pSr 0x14 0 sd sa sb 0
  | .sltn sd sa sb => pSr 0x15 0 sd sa sb 0
  | .seq sd sa sb => pSr 0x16 0 sd sa sb 0
  | .sel sd sa sb sc => pSr 0x17 0 sd sa sb sc
  | .clz sd sa => pSr 0x18 0 sd sa 0 0
  | .popc sd sa => pSr 0x19 0 sd sa 0 0
  | .sext ty sd sa => pSr 0x1A ty.code sd sa 0 0
  | .zext ty sd sa => pSr 0x1B ty.code sd sa 0 0
  | .addi sd sa imm => pSi 0x20 0 sd sa imm
  | .muli sd sa imm => pSi 0x21 0 sd sa imm
  | .andi sd sa imm => pSi 0x22 0 sd sa imm
  | .ori sd sa imm => pSi 0x23 0 sd sa imm
  | .xori sd sa imm => pSi 0x24 0 sd sa imm
  | .shli sd sa imm => pSi 0x25 0 sd sa ((0 : BitVec 32) ++ imm)
  | .shri sd sa imm => pSi 0x26 0 sd sa ((0 : BitVec 32) ++ imm)
  | .srai sd sa imm => pSi 0x27 0 sd sa ((0 : BitVec 32) ++ imm)
  | .slti sd sa imm => pSi 0x28 0 sd sa imm
  | .sltni sd sa imm => pSi 0x29 0 sd sa imm
  | .seqi sd sa imm => pSi 0x2A 0 sd sa imm
  | .limm sd imm => pSl 0x2C 0 sd imm
  | .limmh sd imm => pSl 0x2C 1 sd ((0 : BitVec 24) ++ imm)
  | .addsc sd sa sb sh off => pSx 0x2E 0 sd sa sb sh off
  | .sfadd rm sd sa sb => pSr 0x30 ((0 : BitVec 3) ++ rm.code) sd sa sb 0
  | .sfsub rm sd sa sb => pSr 0x30 ((1 : BitVec 3) ++ rm.code) sd sa sb 0
  | .sfmul rm sd sa sb => pSr 0x31 ((0 : BitVec 3) ++ rm.code) sd sa sb 0
  | .sfcmp cc sd sa sb => pSr 0x32 (BitVec.ofNat 6 cc.code) sd sa sb 0
  | .sfcvt dir rm sd sa => pSr 0x33 (dir.code ++ rm.code) sd sa 0 0
  | .lds ty sd sa off => pSi 0x34 ty.code sd sa off
  | .sts ty sd sa off => pSi 0x35 ty.code sd sa off
  | .b off => pBc 0x38 0 0 0 off
  | .beq sa sb off => pBc 0x39 0 sa sb off
  | .bne sa sb off => pBc 0x3A 0 sa sb off
  | .blt sa sb off => pBc 0x3B 0 sa sb off
  | .bge sa sb off => pBc 0x3C 0 sa sb off
  | .bltn sa sb off => pBc 0x3D 0 sa sb off
  | .bgen sa sb off => pBc 0x3E 0 sa sb off
  | .bany ty pa off => pBc 0x3F ty.code pa 0 off
  | .ball ty pa off => pBc 0x40 ty.code pa 0 off
  | .loop sa off => pBc 0x41 0 sa 0 off
  | .call sa off => pBc 0x42 0 sa 0 off
  | .callr sa sb => pBc 0x43 0 sa sb 0
  | .ret sb => pBc 0x44 0 0 sb 0
  | .jr sb => pBc 0x45 0 0 sb 0
  | .nop => pSn 0x46 0
  | .endl => pSn 0x47 0
  | .pand pd pa pb => pSr 0x50 0 pd pa pb 0
  | .por pd pa pb => pSr 0x51 0 pd pa pb 0
  | .pxor pd pa pb => pSr 0x52 0 pd pa pb 0
  | .pandn pd pa pb => pSr 0x53 0 pd pa pb 0
  | .pnot pd pa => pSr 0x54 0 pd pa 0 0
  | .pwhile ty pd sa => pSr 0x55 ty.code pd 0 sa 0
  | .pcnt ty sd pa => pSr 0x56 ty.code sd pa 0 0
  | .pff ty sd pa => pSr 0x57 ty.code sd pa 0 0
  | .csrr sd csr => pCf 0x58 sd 0 csr 0
  | .csrw csr sa => pCf 0x59 0 sa csr 0
  | .csrx sd csr sa => pCf 0x5A sd sa csr 0
  | .csrs sd csr sa => pCf 0x5B sd sa csr 0
  | .csrc sd csr sa => pCf 0x5C sd sa csr 0
  | .csrwi csr imm => pCf 0x5D 0 0 csr imm
  | .vrot vrs prs => pSn 0x5E ((0 : BitVec 4) ++ prs ++ vrs)
  | .trap code => pSn 0x60 code
  | .tret => pSn 0x61 0
  | .tmarm sa => pSr 0x62 0 0 sa 0 0
  | .tmoff => pSn 0x63 0
  | .segend count crc => pSe 0x6F count crc
  | .segendNc count crc => pSe 0x6E count crc
  | .phend tag => pXf 0x70 0 0 0 tag
  | .xcyc tag => pXf 0x71 0 0 0 tag
  | .xsend sa sb sc tag => pXf 0x72 sa sb sc tag
  | .xsendm sa sb sc tag => pXf 0x73 sa sb sc tag
  | .xsends sa sb tag => pXf 0x74 sa sb 0 tag
  | .sigrv h sd => pSr 0x78 ((0 : BitVec 5) ++ bv1 h) sd 0 0 0
  | .sigrc sd => pSr 0x79 0 sd 0 0 0
  | .sigrs sd => pSr 0x7A 0 sd 0 0 0
  | .vadd ty g d a b rm sat => pVr 0x80 ty.code d.ws g.pg d.vd a.code b.code g.pn rm.code sat
  | .vsub ty g d a b rm sat => pVr 0x81 ty.code d.ws g.pg d.vd a.code b.code g.pn rm.code sat
  | .vmul ty g d a b rm sat => pVr 0x82 ty.code d.ws g.pg d.vd a.code b.code g.pn rm.code sat
  | .vmulh ty g d a b => pVr 0x83 ty.code d.ws g.pg d.vd a.code b.code g.pn 0 false
  | .vmin ty g d a b => pVr 0x84 ty.code d.ws g.pg d.vd a.code b.code g.pn 0 false
  | .vmax ty g d a b => pVr 0x85 ty.code d.ws g.pg d.vd a.code b.code g.pn 0 false
  | .vand ty g d a b => pVr 0x86 ty.code d.ws g.pg d.vd a.code b.code g.pn 0 false
  | .vor ty g d a b => pVr 0x87 ty.code d.ws g.pg d.vd a.code b.code g.pn 0 false
  | .vxor ty g d a b => pVr 0x88 ty.code d.ws g.pg d.vd a.code b.code g.pn 0 false
  | .vshl ty g d a b sat => pVr 0x89 ty.code d.ws g.pg d.vd a.code b.code g.pn 0 sat
  | .vshr ty g d a b => pVr 0x8A ty.code d.ws g.pg d.vd a.code b.code g.pn 0 false
  | .vsra ty g d a b => pVr 0x8B ty.code d.ws g.pg d.vd a.code b.code g.pn 0 false
  | .vfma ty g d a b rm => pVr 0x8C ty.code d.ws g.pg d.vd a.code b.code g.pn rm.code false
  | .vfms ty g d a b rm => pVr 0x8D ty.code d.ws g.pg d.vd a.code b.code g.pn rm.code false
  | .vabs ty g d a sat => pVr 0x8E ty.code d.ws g.pg d.vd a.code 0 g.pn 0 sat
  | .vneg ty g d a sat => pVr 0x8F ty.code d.ws g.pg d.vd a.code 0 g.pn 0 sat
  | .vsel ty g d a b => pVr 0x90 ty.code d.ws g.pg d.vd a.code b.code g.pn 0 false
  | .vrcp ty g d a rm => pVr 0x91 ty.code d.ws g.pg d.vd a.code 0 g.pn rm.code false
  | .vrsq ty g d a rm => pVr 0x92 ty.code d.ws g.pg d.vd a.code 0 g.pn rm.code false
  | .vexp2 ty g d a rm => pVr 0x93 ty.code d.ws g.pg d.vd a.code 0 g.pn rm.code false
  | .vlog2 ty g d a rm => pVr 0x94 ty.code d.ws g.pg d.vd a.code 0 g.pn rm.code false
  | .vsigm ty g d a rm => pVr 0x95 ty.code d.ws g.pg d.vd a.code 0 g.pn rm.code false
  | .vtanh ty g d a rm => pVr 0x96 ty.code d.ws g.pg d.vd a.code 0 g.pn rm.code false
  | .vclass ty g d a => pVr 0x97 ty.code d.ws g.pg d.vd a.code 0 g.pn 0 false
  | .vscale ty g d a b rm => pVr 0x98 ty.code d.ws g.pg d.vd a.code b.code g.pn rm.code false
  | .vcvt td ts g d a rm => pVr 0x99 td.code d.ws g.pg d.vd a.code ((0 : BitVec 7) ++ ts.code) g.pn rm.code false
  | .vqblk ty k32 had d a b rm => pVr 0x9A (ty.code ++ bv1 k32 ++ bv1 had ++ (0 : BitVec 2)) d.ws 0 d.vd a.code b.code false rm.code false
  | .vdqblk ty k32 had d a rm => pVr 0x9B (ty.code ++ bv1 k32 ++ bv1 had ++ (0 : BitVec 2)) d.ws 0 d.vd a.code 0 false rm.code false
  | .vperm ty g d a b => pVr 0x9C ty.code d.ws g.pg d.vd a.code b.code g.pn 0 false
  | .vmov ty g d a => pVr 0x9D ty.code d.ws g.pg d.vd a.code 0 g.pn 0 false
  | .vnot ty g d a => pVr 0x9E ty.code d.ws g.pg d.vd a.code 0 g.pn 0 false
  | .vadds ty g d a sb rm sat => pVr 0xA0 ty.code d.ws g.pg d.vd a.code (sbField sb) g.pn rm.code sat
  | .vmuls ty g d a sb rm sat => pVr 0xA1 ty.code d.ws g.pg d.vd a.code (sbField sb) g.pn rm.code sat
  | .vshls ty g d a sb sat => pVr 0xA2 ty.code d.ws g.pg d.vd a.code (sbField sb) g.pn 0 sat
  | .vshrs ty g d a sb => pVr 0xA3 ty.code d.ws g.pg d.vd a.code (sbField sb) g.pn 0 false
  | .vsras ty g d a sb => pVr 0xA4 ty.code d.ws g.pg d.vd a.code (sbField sb) g.pn 0 false
  | .vbcast ty g d sb => pVr 0xA5 ty.code d.ws g.pg d.vd 0 (sbField sb) g.pn 0 false
  | .vslideu ty g d a sb => pVr 0xA6 ty.code d.ws g.pg d.vd a.code (sbField sb) g.pn 0 false
  | .vslided ty g d a sb => pVr 0xA7 ty.code d.ws g.pg d.vd a.code (sbField sb) g.pn 0 false
  | .viota ty g d sb => pVr 0xA8 ty.code d.ws g.pg d.vd 0 (sbField sb) g.pn 0 false
  | .vldx ty g d a sb => pVr 0xA9 ty.code d.ws g.pg d.vd a.code (sbField sb) g.pn 0 false
  | .vcmp ty cc g pd a b => pVe 0xB0 ty.code g.pg pd a.code b.code g.pn (BitVec.ofNat 4 cc.code)
  | .vcmps ty cc g pd a sb => pVe 0xB1 ty.code g.pg pd a.code (sbField sb) g.pn (BitVec.ofNat 4 cc.code)
  | .vext ty sd a sb => pVe 0xB2 ty.code 0 sd a.code (sbField sb) false 0
  | .vrsum ty g sd a => pVe 0xB3 ty.code g.pg sd a.code 0 g.pn 0
  | .vrmin ty g sd a => pVe 0xB4 ty.code g.pg sd a.code 0 g.pn 0
  | .vrmax ty g sd a => pVe 0xB5 ty.code g.pg sd a.code 0 g.pn 0
  | .vramax ty g sd a => pVe 0xB6 ty.code g.pg sd a.code 0 g.pn 0
  | .vld ty g d sa off => pVl 0xB8 ty.code d.ws g.pg d.vd sa 0 off g.pn
  | .vlds ty g d sa sb off => pVl 0xB9 ty.code d.ws g.pg d.vd sa sb off g.pn
  | .vlda ty g d sa off => pVl 0xBA ty.code d.ws g.pg d.vd sa 0 off g.pn
  | .vst ty g src sa off => pVt 0xBB ty.code g.pg src.code sa 0 off g.pn
  | .vsts ty g src sa sb off => pVt 0xBC ty.code g.pg src.code sa sb off g.pn
  | .vstx ty g src idx sa => pVx 0xBD ty.code g.pg src.code idx.code sa g.pn
  | .tlclose ctx sd => pEn 0xC0 ((0 : BitVec 3) ++ ctx) 0 0 0 sd 0
  | .tlwait ctx sa imm => pEn 0xC1 ((0 : BitVec 3) ++ ctx) sa 0 0 0 imm
  | .tlread ctx sd => pEn 0xC2 ((0 : BitVec 3) ++ ctx) 0 0 0 sd 0
  | .mark => pSn 0xC3 0
  | .fence scope kind => pEn 0xC4 scope.code 0 0 0 0 kind.code
  | .aamo op ty nr sd sa sb sc => pEn 0xC5 op.code sa sb sc sd ((0 : BitVec 19) ++ bv1 nr ++ ty.code)
  | .waitv cc ty own tmo sd sa sb => pEn 0xC6 (BitVec.ofNat 6 cc.code) sa sb 0 sd (tmo ++ bv1 own ++ ty.code)
  | .cpy src dst raw ctx sa sb sc => pEn 0xD0 (src.code ++ dst.code) sa sb sc 0 ((0 : BitVec 23) ++ bv1 raw ++ ctx)
  | .cpyt src dst ctx sa sb sc => pEn 0xD1 (src.code ++ dst.code) sa sb sc 0 ((0 : BitVec 24) ++ ctx)
  | .cpywm src dst raw ctx sa sb sc => pEn 0xD2 (src.code ++ dst.code) sa sb sc 0 ((0 : BitVec 23) ++ bv1 raw ++ ctx)
  | .cpyfill dst ctx sb sc => pEn 0xD3 ((0 : BitVec 3) ++ dst.code) 0 sb sc 0 ((0 : BitVec 24) ++ ctx)
  | .cpyst ctx w sd => pEn 0xD4 0 0 0 0 sd ((0 : BitVec 22) ++ w ++ ctx)
  | .cpyabt ctx => pEn 0xD5 0 0 0 0 0 ((0 : BitVec 24) ++ ctx)
  | .cpyabtResume ctx => pEn 0xD5 0 0 0 0 0 ((1 : BitVec 24) ++ ctx)
  | .amxstep ctx sa sb => pEn 0xD6 0 sa sb 0 0 ((0 : BitVec 24) ++ ctx)
  | .amxrd all sd sa => pEn 0xD7 0 sa 0 0 sd ((0 : BitVec 25) ++ bv1 all)
  | .mclaim bSlot sa cnt => pEn 0xE0 ((0 : BitVec 5) ++ bv1 bSlot) sa 0 0 0 ((0 : BitVec 18) ++ cnt)
  | .mrel sa cnt => pEn 0xE1 0 sa 0 0 0 ((0 : BitVec 18) ++ cnt)
  | .mfmt sa rep => pEn 0xE2 0 sa 0 0 0 ((0 : BitVec 14) ++ rep)
  | .mnest lvl sa => pEn 0xE3 ((0 : BitVec 3) ++ lvl) sa 0 0 0 0
  | .mgo sa sb => pEn 0xE4 0 sa sb 0 0 0
  | .mzero sa cnt => pEn 0xE5 0 sa 0 0 0 ((0 : BitVec 20) ++ cnt)
  | .mepi sa sb => pEn 0xE6 0 sa sb 0 0 0
  | .mckrd sd w clr => pEn 0xE7 0 0 0 0 sd ((0 : BitVec 24) ++ bv1 clr ++ bv1 w)
  | .mlsgen sd sa => pEn 0xE8 0 sa 0 0 sd 0
  | .mtile sa sb => pEn 0xE9 0 sa sb 0 0 0
  | .mwld w sa => pEn 0xEA 0 sa 0 0 0 ((0 : BitVec 19) ++ w)
  | .mstat sd w => pEn 0xEB 0 0 0 0 sd ((0 : BitVec 19) ++ w)
  | .clred op ty sa => pEn 0xF0 op.code sa 0 0 0 ((0 : BitVec 20) ++ ty.code)
  | .clrsc op ty sa => pEn 0xF1 op.code sa 0 0 0 ((0 : BitVec 20) ++ ty.code)
  | .clbc sa => pEn 0xF2 0 sa 0 0 0 0
  | .clgath sa => pEn 0xF3 0 sa 0 0 0 0
  | .cltbl sd sa q => pEn 0xF4 0 sa 0 0 sd ((0 : BitVec 23) ++ q)
  | .clabt => pEn 0xF5 0 0 0 0 0 0
  | .clabtResume => pEn 0xF5 0 0 0 0 0 1
  | .localLoadRead => 0
  | .resultComplete => 0
  | .fencePerform _ _ => 0
  | .aamoPerform _ _ => 0
  | .waitvArm _ _ => 0
  | .waitvTimeout _ _ => 0
  | .copyStart _ _ => 0
  | .copyGranule _ _ => 0
  | .amxstepPerform _ _ => 0
  | .tileCommand _ => 0
  | .mzeroPerform _ => 0
  | .collectiveStart _ _ _ => 0
  | .chunkReduced _ _ _ _ => 0
  | .chunkCommit _ _ _ => 0
  | .chunkWrite _ _ _ => 0
  | .changeNotice _ _ _ => 0
  | .floodReceive _ _ _ => 0
  | .flitReceive _ _ => 0
  | .nak _ _ => 0
  | .portRetrain _ => 0
  | .portTrainComplete _ _ _ _ => 0
  | .transferDelivery => 0
  | .timerFire => 0
  | .timerInterrupt => 0
  | .engineStopInterrupt => 0
  | .boundary => 0
  | .chipWallExpiry => 0
  | .budgetExpiry => 0
  | .lastingComplete => 0
  | .launchStart _ => 0
  | .checkpointSave _ _ => 0
  | .containmentRelease _ => 0
  | .scoreDecay => 0
  | .recordFetch _ => 0
  | .qtailWrite _ _ _ => 0
  | .qctlWrite _ _ _ => 0
  | .cancelJob _ _ => 0
  | .cancelGraph _ _ => 0
  | .cancelSlot _ _ _ => 0
  | .cancelTimeout => 0
  | .counterWrite _ _ _ => 0
  | .preemptRequest _ _ _ => 0
  | .ttinvWrite _ _ => 0
  | .ttrootWrite _ _ => 0
  | .ttinvDone _ => 0
  | .svimageWrite _ _ _ => 0
  | .apertureRead _ _ _ => 0
  | .apertureWrite _ _ _ => 0
  | .functionLevelReset _ => 0
  | .msixUnmask _ _ => 0
  | .registerWrite _ _ _ _ => 0
  | .ifcfgWrite _ _ _ => 0
  | .ringRptrWrite _ _ => 0
  | .ringLostRead _ => 0
  | .modeSelect _ => 0
  | .lccmdTransit _ => 0
  | .lccmdDecommission _ => 0
  | .lifecycleWipe => 0
  | .monctlFreeze _ => 0
  | .monctlClear => 0
  | .monitorSample _ _ => 0
  | .cbRetireWrite _ _ => 0
  | .cbReturnWrite _ _ => 0
  | .quiesceRequest _ _ => 0
  | .quiesceDeadline _ => 0
  | .dieFence _ => 0
  | .dieSelfTestDone _ _ _ => 0
  | .shadowRotation _ _ => 0
  | .linkRetrain _ => 0
  | .stretchRaise _ => 0
  | .stretchRelease _ => 0
  | .brownoutHold _ _ => 0
  | .holdEnd _ _ => 0
  | .domainLoss _ _ _ => 0
  | .domainReturn _ _ => 0
  | .packagePowerFailure _ _ => 0
  | .thermalThrottle _ _ => 0
  | .thermalTrip _ _ => 0
  | .thermtrip _ _ => 0
  | .powerOn _ => 0
  | .fullSelfTestDone _ _ _ => 0
  | .recoveryGo => 0
  | .i3cRead _ => 0
  | .bypass => 0
  | .idcode => 0
  | .samplePreload _ => 0
  | .extest => 0
  | .clamp => 0
  | .highz => 0
  | .hubRead _ _ _ _ => 0
  | .hubWrite _ _ _ => 0
  | .cycleTagReached => 0
  | .hostCompletionTimeout _ _ => 0
  | .frameMoveComplete _ => 0
  | .spareLaneRecalibrated _ _ => 0
  | .interposerRetrainComplete _ _ => 0
  | .pcapExceeded _ => 0
  | .frameRelease _ _ _ => 0
  | .pcieConventionalReset => 0
  | .i3cEntdaa _ => 0

/-- The instruction a table word stands for: a word of at most 64 bits, bits above `nbits` zero; the first word
is the only one (R41). -/
def decodeTableWord (nbits w : Nat) : Option Instr :=
  if nbits ≤ 64 then
    match decode (BitVec.ofNat 64 w) with
    | .ok i => some i
    | .error _ => none
  else none

end Sys2Proof
end

