-- ==== Sys2Proof/Config.lean ====
section
/-! DEFINITION. What the spec leaves to the implementation or to the outside world, as constants without a
body: nothing can be proved of their values, so every claim holds whatever they are. -/
namespace Sys2Proof.Config

/-- The events that arrive at the end of device ck number n of the run: what engines, dies, ports, the
platform and the host do next (their pace is left open by R234 to R240, R326, R348 and the rest). Free value, log entry 3. -/
opaque arrivals : Nat → List Instr

/-- The length in ck of the boundary work that begins at device clock n (R175 bounds it by 400 in metered
mode and leaves it open in free mode). Free value, log entry 4. -/
opaque boundaryWork : Nat → Nat

/-- Which source granule the copy engine reads ahead at its buffer access numbered n: 0 for none, k + 1 for the k-th still
unread (R289 lets it read ahead and in any order). Free value, log entry 62. -/
opaque readAhead : Nat → Nat

/-- Where the host's IOMMU, at device clock n, maps a granule of I/O virtual addresses of a function: a granule of host memory,
or nothing when it rejects the access (R411). Free value, log entry 63. -/
opaque iommu : Nat → Nat → Nat → Option Nat

/-- Whether a firmware image passes the boot ROM's signature check against the fused key hash (R412: ECDSA
P-384 over SHA-384 with a key the spec does not give). Free value, log entry 5. -/
opaque firmwareOk : List (BitVec 8) → Bool

/-- Whether a stack's buffer still serves a copy it holds of a granule, at the buffer access numbered n (R239
leaves it open how long a copy is kept between acquires). Free value, log entry 6. -/
opaque bufferKeeps : Nat → Bool

/-- The payloads of the TYPE 2 flits that carry a whole live link table under a version (R425 gives no layout of a
flood's payload). Free value, log entry 7. -/
opaque floodPayload : Nat → List (Nat × BitVec 32) → List (BitVec 1920)

/-- Whether the integrator has cabled a scale-up port (R422, R447). Free value, log entry 93. -/
opaque cabled : Nat → Bool

/-- The latency of an HBM read that its stack's monitor samples, in units of 4 ck, by device clock and stack (R399). Free
value, log entry 94. -/
opaque readLatency : Nat → Nat → Nat

/-- Whether a word with damaged cells, as its damage number counts its writes, reads with an error that cannot be corrected (R206 leaves
open what such cells hold). Free value, log entry 47. -/
opaque cellsBad : Nat → Bool

/-- How HBM's bytes differ, after power returns or after the patterns of the self-test, from what they held (R379, R391
leave it open), as addresses with the bits changed. Free value, log entry 8. -/
opaque powerFlips : Nat → List (Nat × BitVec 8)

end Sys2Proof.Config
end

