-- ==== Sys2Proof/Machine/State.lean ====
section
/-! DEFINITION. The state of the machine as plain data: every piece of state the spec names, the reasons a
step can stop, and the state after a package reset. Sparse tables are lists of (key, value) pairs in one
canonical form (keys strictly rising, no entry equal to the default); Machine/Store.lean reads and writes
them. -/
namespace Sys2Proof.Machine
open Sys2Proof

/-- A sparse table: key and value pairs, keys strictly rising, no entry equal to the table's default. -/
abbrev Sparse (α : Type) := List (Nat × α)

/-- Byte-addressed memory in canonical form; an unlisted address reads 0 (R39, R204, R216, R217). -/
abbrev Memory := List Host.Cell

/-! ### Stops -/

/-- Why a step faults: it never does. A trap is a next state (R330 to R343), a failed operation is recorded in
its context, and an unpowered package lets time pass (R379, R391); so no rule stops the machine, and the type has
no constructor. -/
inductive Fault
  deriving DecidableEq, Repr

/-- Why a step is refused. -/
inductive Refusal
  /-- Raised by an arm of `exec` whose instruction has no meaning yet. Safe: nothing is claimed. -/
  | notModelled (mnemonic : String)
  deriving DecidableEq, Repr

/-! ### One core's context -/

/-- Privilege of a stream (R330); P runs on the host die and is not a stream of a core. -/
inductive Priv
  | u | s
  deriving DecidableEq, Repr

/-- Protection class (Table 15.1). -/
inductive PClass
  | n | s | d
  deriving DecidableEq, Repr

/-- The eight bypass latches q0 to q7 (R15), q0 the youngest. -/
structure Latches where
  q0 : VReg
  q1 : VReg
  q2 : VReg
  q3 : VReg
  q4 : VReg
  q5 : VReg
  q6 : VReg
  q7 : VReg
  deriving DecidableEq, Repr

/-- All eight latches zero (R18, R39). -/
def Latches.zero : Latches := ⟨0, 0, 0, 0, 0, 0, 0, 0⟩

/-- The watermark register of a copy channel (Table 1.5). -/
structure WMark where
  limit : BitVec 18
  base : BitVec 18
  endg : BitVec 18
  space : BitVec 3
  act : Bool
  deriving DecidableEq, Repr

/-- A watermark register at reset (Table 1.5). -/
def WMark.zero : WMark := ⟨0, 0, 0, 0, false⟩

/-- A result on its way to a register (R25): scalar, predicate (physical number), or vector (physical
number, write suppressed, element width, active elements, value). -/
inductive Result
  | scalar (r : BitVec 6) (v : Word)
  | pred (p : Nat) (v : PReg)
  | vector (v : Nat) (ws : Bool) (ew : Nat) (act : PReg) (val : VReg)
  deriving DecidableEq, Repr

/-- The read an issued load makes in the ck after its issue (R157, R112, R295). Elements are
(element index, byte address), in read order. -/
inductive LoadReq
  | scalar (addr width : Nat) (signed : Bool)
  | vec (accum : Bool) (ew : Nat) (elems : List (Nat × Nat))
  | amx (addr : Nat) (all : Bool)
  deriving DecidableEq, Repr

/-- A fault waiting for the ck in which its result would complete (R335): cause code and TRAPVAL. -/
structure LateFault where
  cause : Nat
  val : Word
  deriving DecidableEq, Repr

/-- An in-flight result (R25): the advancing ck still to pass before it completes, its result, the flags it
carries (R85), the read it has still to make, a fault it will raise, its address and word, the serial number
of its issue and whether ISSUECNT counted it. -/
structure Flight where
  due : Nat
  res : Result
  flags : BitVec 7
  load : Option LoadReq
  bad : Option LateFault
  pc : BitVec 18
  serial : Nat
  counted : Bool
  deriving DecidableEq, Repr

/-- A slot of the pipeline snapshot buffer (R338): an in-flight result, its DUE, and VALID. -/
structure Slot where
  fl : Flight
  valid : Bool
  deriving DecidableEq, Repr

/-- One issued word that SEGCRC has counted and that may still be withdrawn (R354). -/
structure SegEntry where
  serial : Nat
  word : Word
  deriving DecidableEq, Repr

/-- The class D containment of one replica (R366): entries of 128-byte granules of global (false) or host
memory, held as written bytes. -/
structure Contain where
  glb : Memory
  glbMask : Sparse Bool
  host : Memory
  hostMask : Sparse Bool
  deriving DecidableEq, Repr

/-- No containment entries. -/
def Contain.empty : Contain := ⟨[], [], [], []⟩

/-! ### Engine operations -/

/-- A copy as captured at issue (R282 to R286): records and region as read (128, 128 and 64 bytes as
numbers), or the raw operands; `lw` is the class's loss-scale capture for space 3 (R308). -/
structure CopyOp where
  kind : Nat            -- 0 CPY, 1 CPYT, 2 CPYWM, 3 CPYFILL, 4 AMXSTEP
  src : Space
  dst : Space
  raw : Bool
  rsrc : Nat
  rdst : Nat
  reg : Nat
  ra : Word
  rb : Word
  rc : Word
  dstRec : Nat
  privU : Bool
  lsgen : Word
  lscale : Word
  alist : List Nat
  badLen : Bool
  deriving DecidableEq, Repr

/-- A matrix operation as captured at issue (R321). -/
structure MatOp where
  kind : Nat            -- 0 MGO, 1 MTILE, 2 MZERO
  base : Word
  coord : Word
  nest : List Word
  lsgen : Word
  lscale : Word
  epicfg : Word
  epikey : Word
  cktol : Word
  first : Nat
  cnt : Nat
  deriving DecidableEq, Repr

/-- A FENCE, AAMO or WAITV as captured at issue (R263 to R269); `acq` holds the serial numbers of the buffered
writes in a release's set (R242). -/
structure ReqOp where
  kind : Nat            -- 0 FENCE, 1 AAMO, 2 WAITV
  scope : Scope
  fkind : FenceKind
  mask : Nat
  amo : AmoOp
  cc : Cc
  ty : Ty
  nr : Bool
  own : Bool
  tmo : Nat
  addr : Word
  b : Word
  cmp : Word
  dst : Word
  acq : List Nat
  deriving DecidableEq, Repr

/-- A collective operation as captured at issue (R431): the form, operation, type and the 64-byte record. -/
structure ColOp where
  form : ClForm
  op : ClOp
  ty : Ty
  recd : Nat
  deriving DecidableEq, Repr

/-- What an engine operation is. -/
inductive EngOp
  | copy (o : CopyOp)
  | mat (o : MatOp)
  | req (o : ReqOp)
  | col (o : ColOp)
  deriving DecidableEq, Repr

/-- Where an operation stands: not begun; begun (copy: next granule number of the copy, granules already
written; matrix: next index of the nest; AAMO, WAITV: sent to memory at the physical address `next`; collective: see
`Collective`); armed (WAITV) since the budget ck given, with the last value read and the physical address; done but its batch
not yet counted. -/
inductive Prog
  | fresh
  | running (next done : Nat)
  | armed (since : Nat) (last : Word) (pa : Nat)
  | held (next done : Nat)
  | done
  deriving DecidableEq, Repr

/-- An engine operation of a context (R254): its issue serial, its batch (0 while its batch is open), what it
is, its launch-region address and its progress. -/
structure Op where
  serial : Nat
  batch : Nat
  what : EngOp
  pc : BitVec 18
  prog : Prog
  deriving DecidableEq, Repr

/-- A timeline context (R255, R257): CLOSED, TLC, the number of operations the open batch has taken, the
operations not yet counted, the failed batch number with the number of later closed batches that were complete when it failed, the
number acquired by the core (R236), the global address of the first failed operation (R261), and the four words of the context's fault record
(Tables 11.4, 12.12, 19.5), whether a translation fault stops it, whether an engine-stop interrupt is pending and where
(R215, R336), whether the stopped operation is retried in this ck (R450), and the source granules the running copy has read,
with those whose read failed and the SUB of each failure (R289, R290, R376). -/
structure TlCtx where
  closed : Word
  tlc : Word
  openOps : Nat
  ops : List Op
  failed : Option Nat
  acquired : Nat
  failAddr : Word
  rec0 : Word
  rec1 : Word
  rec2 : Word
  rec3 : Word
  stopped : Bool
  stopPend : Bool
  stopVa : Word
  retry : Bool
  cache : Sparse (BitVec 256)
  lost : List (Nat × Nat)
  sound : Nat
  deriving DecidableEq, Repr

/-- A timeline context at launch start (R255). -/
def TlCtx.zero : TlCtx := ⟨0, 0, 0, [], none, 0, 0, 0, 0, 0, 0, false, false, 0, false, [], [], 0⟩

/-- The matrix engine of a context (Tables 12.9, 12.11, 12.13): slot roles (0 FREE, 1 A, 2 B) and stamps
(0 NONE, else stamp + 1), format queue (word and copies remaining by queue position, entries present, position of
the oldest), UNRES, EPICFG, EPIKEY, active and shadow nest, held nest state, CKST. Sidebands by tile. Of the tile command
being performed: the operand granules read so far, and of each output granule that holds an intermediate value the group
additions made and the bytes from before the command (R235, R320). -/
structure Matrix where
  role : Sparse Nat
  stamp : Sparse Nat
  fmtW : Sparse Word
  fmtC : Sparse Nat
  fmtN : Nat
  fmtHead : Nat
  unres : Nat
  epicfg : Word
  epikey : Word
  actBase : Word
  actCoord : Word
  actNest : Sparse Word
  actIdx : Word
  actI5 : Word
  shadow : Sparse Word
  ckst0 : Word
  ckst1 : Word
  side : Sparse Word
  opRead : Sparse (BitVec 256)
  outPart : Sparse (Nat × BitVec 256)
  deriving DecidableEq, Repr

/-- The matrix engine at launch start (R301, R311, R313, R317, R204). -/
def Matrix.zero : Matrix := ⟨[], [], [], [], 0, 0, 0, 0, 0, 0, 0, [], 0, 0, [], 0, 0, [], [], []⟩

/-- One write into a core's inbound staging (R199, R287): tag, sending CORE_ID, issue order of the sender,
destination byte address, the nibbles written (bit 0 low, bit 1 high), and the byte. -/
structure Staged where
  tag : Nat
  sender : Nat
  seq : Nat
  addr : Nat
  nibs : Nat
  val : Byte
  deriving DecidableEq, Repr

/-- A transfer under way (R196): the XCLK at whose end its last granule is delivered, and what it carries. -/
structure Transfer where
  due : Nat
  tag : Nat
  sender : Nat
  seq : Nat
  targets : List Nat
  daddr : Nat
  bytes : List Byte
  charge : Nat
  deriving DecidableEq, Repr

/-- Why a core's stream stopped in its launch (R331, R177, R178). -/
inductive StopKind
  | straggler | trapS (code : Nat) | otherS (cause : Nat)
  deriving DecidableEq, Repr

/-- One launch's context on one core: everything Table 1.1, Table 4.6 and the engines keep for it. -/
structure Ctx where
  -- what the launch fixed (R165, R176, R246, Table 6.6)
  run : Nat
  cls : PClass
  metered : Bool
  part : Nat
  coreId : Nat
  ncore : Nat
  trapvec : BitVec 18
  ifc : Nat
  -- front end (R12, R13)
  pc : BitVec 18
  priv : Priv
  sregs : Sparse Word
  vregs : Sparse VReg
  pregs : Sparse PReg
  lat : Latches
  dirty : Sparse Bool
  -- CSRs (Table 4.6)
  issuecnt : Word
  rotcfg : Word
  vrb : Word
  prb : Word
  fpctl : Word
  seed : Word
  srcnt : Word
  wm0 : WMark
  wm1 : WMark
  wm2 : WMark
  wm3 : WMark
  lscale : Word
  lsgen : Word
  lsgrow : Word
  cktol : Word
  diemask : Word
  segBase : BitVec 32
  segOld : Nat
  segNew : List SegEntry
  sigv0 : Word
  sigv1 : Word
  timecmp : Word
  tmctl : Word
  trapcause : Word
  trappc : Word
  trapval : Word
  sswall : Word
  xwall : Word
  -- pipeline (R24 to R29, R337, R338, R341)
  inflight : List Flight
  serial : Nat
  hold : Nat
  snap : List Slot
  snapLat : Latches
  snapPh : Bool
  ckFlags : BitVec 7
  -- superstep (R175, R186, R191, R196)
  phended : Bool
  ended : Bool
  stop : Option StopKind
  stopCk : Nat
  portFree : Nat
  transfers : List Transfer
  -- two ck after the last delivery of a transfer of this superstep, by XCLK (R191)
  xdone : Nat
  xseq : Nat
  -- the least T - XCLK of the superstep, and whether the word at issue has been counted in it (Table 17.7)
  slack : Option Nat
  tagWait : Bool
  -- local memories (R202, R206, R207, R198)
  scr : Memory
  opm : Memory
  acc : Memory
  valid : Sparse Bool
  errScr : Sparse Nat
  errOpm : Sparse Nat
  errAcc : Sparse Nat
  errS : Sparse Nat
  errV : Sparse Nat
  errP : Sparse Nat
  errQ : Sparse Nat
  staging : List Staged
  staged : Nat
  stOver : Option Nat
  -- engines (R254)
  t0 : TlCtx
  t1 : TlCtx
  t2 : TlCtx
  t3 : TlCtx
  t4 : TlCtx
  t5 : TlCtx
  t6 : TlCtx
  mx : Matrix
  -- the instruction memory a context that is not running takes with it, and the generation of its image (R35, R409)
  code : Memory
  codeGen : Nat
  deriving DecidableEq, Repr

/-- A context in which nothing is placed; also the context of an idle core (Table 1.11). -/
def Ctx.zero : Ctx where
  run := 0
  cls := .n
  metered := false
  part := 0
  coreId := 0
  ncore := 0
  trapvec := 0
  ifc := 0
  pc := 0
  priv := .u
  sregs := []
  vregs := []
  pregs := []
  lat := Latches.zero
  dirty := []
  issuecnt := 0
  rotcfg := 0
  vrb := 0
  prb := 0
  fpctl := 1
  seed := 0
  srcnt := 0
  wm0 := WMark.zero
  wm1 := WMark.zero
  wm2 := WMark.zero
  wm3 := WMark.zero
  lscale := 0x3F800000
  lsgen := 0
  lsgrow := 0
  cktol := 0x314
  diemask := 0
  segBase := 0xFFFFFFFF
  segOld := 0
  segNew := []
  sigv0 := 0
  sigv1 := 0
  timecmp := 0
  tmctl := 0
  trapcause := 0
  trappc := 0
  trapval := 0
  sswall := 0
  xwall := 0
  inflight := []
  serial := 0
  hold := 0
  snap := []
  snapLat := Latches.zero
  snapPh := false
  ckFlags := 0
  phended := false
  ended := false
  stop := none
  stopCk := 0
  portFree := 0
  transfers := []
  xdone := 0
  xseq := 0
  slack := none
  tagWait := false
  scr := []
  opm := []
  acc := []
  valid := []
  errScr := []
  errOpm := []
  errAcc := []
  errS := []
  errV := []
  errP := []
  errQ := []
  staging := []
  staged := 0
  stOver := none
  t0 := TlCtx.zero
  t1 := TlCtx.zero
  t2 := TlCtx.zero
  t3 := TlCtx.zero
  t4 := TlCtx.zero
  t5 := TlCtx.zero
  t6 := TlCtx.zero
  mx := Matrix.zero
  code := []
  codeGen := 0

/-- What a core does in the current superstep. -/
inductive CoreMode
  | idle | active
  deriving DecidableEq, Repr

/-- One core slot of a compute stack: where it sits, whether a lasting has bound it and at which width
(R160 to R164), its instruction memory (R35) with the interface and generation of the image it carries
(R409), CYCLE (R32), XCLK (R186), the running context and the contexts suspended on it (R347), the element in
which a transient error strikes the next checked result (R136), and the words whose cells are damaged, by file (R206):
0 scalar, 1 vector and 2 predicate registers, 3 scratchpad, 4 accumulator and 5 operand memory, 6 bypass latches. -/
structure Core where
  sk : Nat
  ix : Nat
  bound : Bool
  gang : Nat
  member : Bool
  lasting : Option Nat
  imem : Memory
  svIfc : Option Nat
  svGen : Nat
  cycle : Word
  xclk : Nat
  mode : CoreMode
  ctx : Ctx
  susp : List Ctx
  upset : Option Nat
  worn : List (Nat × Nat)
  deriving DecidableEq, Repr

/-- A core slot after reset: unbound, its SRAM zero, nothing running (R39). -/
def Core.reset (sk ix : Nat) : Core where
  sk := sk
  ix := ix
  bound := false
  gang := 1
  member := false
  lasting := none
  imem := []
  svIfc := none
  svGen := 0
  cycle := 0
  xclk := 0
  mode := .idle
  ctx := Ctx.zero
  susp := []
  upset := none
  worn := []

/-- A core slot whose SRAM is zeroed and whose binding is gone: CYCLE goes on (R32), and damaged cells stay (R206). -/
def Core.wiped (k : Core) : Core := { Core.reset k.sk k.ix with cycle := k.cycle, worn := k.worn }

/-- A core slot after the reset of its die or of the package: CYCLE starts again, and damaged cells stay (R32, R39, R206). -/
def Core.cleared (k : Core) : Core := { Core.reset k.sk k.ix with worn := k.worn }

/-! ### The device -/

/-- A launch record as fetched (Table 6.6), kept until the launch terminates (R407). -/
structure LaunchRec where
  cls : Nat
  irq : Bool
  gang : Nat
  span : Nat
  ncore : Nat
  code : Nat
  codesz : Nat
  entry : Nat
  trapvec : Nat
  ssbudget : Nat
  xbudget : Nat
  pscr : Nat
  popm : Nat
  pacc : Nat
  contain : Nat
  job : Nat
  graph : Nat
  lcnt : Nat
  gcnt : Nat
  jcnt : Nat
  wcnt : Nat
  wval : Nat
  arg : List Word
  deriving DecidableEq, Repr

/-- Which run of a launch: the only or primary run, the secondary, the tie-break or the re-run (Table 15.9). -/
inductive Role
  | primary | secondary | tieBreak | rerun
  deriving DecidableEq, Repr

/-- Where a run of a launch stands (R173, R346, R365). -/
inductive Phase
  | loading | ready | running | suspended | finished | abandoned
  deriving DecidableEq, Repr

/-- One run (replica, re-run or tie-break) of a launch: its launch, its cores as (socket, stack core index)
in CORE_ID order with their partitions, its phase, its signature registers (R360), containment, budgets, the event
that stops it at the next boundary (ck, CORE_ID, DETAIL, R344) and a straggle (R178), whether its saved context is
complete (R348), whether its checkpoint is bad, and the parity of PHASE it must resume at (R346), a request to
pre-empt it (R345), why it was abandoned (R368), its completed signature, the superstep ck in which its last core arrived
(0 while one has not, Table 17.7), the ck of the first detection that halts its cores (R353), and the first loss of a stack it has a core
on: the ck and the lowest CORE_ID there (R372, R384, R386). `abandonCause` is an event as `halt` is. -/
structure Run where
  id : Nat
  launch : Nat
  role : Role
  phase : Phase
  cores : List (Nat × Nat)
  slots : List Nat
  parts : List Nat
  sswall : Nat
  xwall : Nat
  nss : Nat
  lreg : BitVec 32
  cont : Contain
  spilled : Bool
  halt : Option (Nat × Nat × Nat)
  late : Option (Nat × Nat × Nat)
  detStacks : List Nat
  saved : Bool
  badCkpt : Bool
  resumeOdd : Bool
  preempt : Bool
  abandonCause : Option (Nat × Nat × Nat)
  sig : Option (Nat × BitVec 32 × BitVec 32)
  lastArr : Nat
  detCk : Option Nat
  lost : Option (Nat × Nat)
  deriving DecidableEq, Repr

/-- A launch from the fetch of its record to its termination (R166 to R173, R362 to R369): where its record stands,
whether QHEAD moves past it, its record, and how far it and its recovery have come; `elig` is FAIL of its wait counter as it stood
when the launch became eligible (R168), `relBad` whether a sector of its release has failed (R366), `started` whether its STATUS has been
set to 1, and `image` the supervisor image it was placed with: address, bytes and GEN (R409). -/
structure Launch where
  id : Nat
  ifc : Nat
  queue : Nat
  slot : Nat
  va : Nat
  adv : Bool
  recd : LaunchRec
  placed : Bool
  skips : Nat
  reran : Bool
  wantRerun : Bool
  wantTie : Bool
  recFails : Nat
  avoid : List Nat
  cancel : Option Nat
  releasing : Option Nat
  reserveUnits : Nat
  order : Nat
  elig : Option Bool
  relBad : Bool
  started : Bool
  image : Nat × Nat × Nat
  deriving DecidableEq, Repr

/-- The registers of one queue (Table 18.5), the fetched head, the marked slots, and whether the read of its head had to wait
at a pass. -/
structure Queue where
  ring : Word
  en : Bool
  log2sz : Nat
  pri : Nat
  stop : Bool
  head : Nat
  tail : Nat
  fetched : Option Nat
  marks : List Nat
  late : Bool
  deriving DecidableEq, Repr

/-- A queue at reset (Table 18.5, R415). -/
def Queue.zero : Queue := ⟨0, false, 4, 7, false, 0, 0, none, [], false⟩

/-- The registers of one function (Tables 18.4, 8.5, 18.3, 18.8). -/
structure Ifc where
  ttroot : Word
  ttinv : Word
  limits : Word
  preempt : Word
  apbase : Word
  iferr : Word
  svaddr : Word
  svsize : Word
  cfg0 : Word
  cfg1 : Word
  masked : Nat
  pending : Nat
  fnMask : Bool
  msixEn : Bool
  sent : Nat
  deficit : Nat
  msix : Sparse Word
  deriving DecidableEq, Repr

/-- A function's registers at reset (Tables 18.4, 8.5, 18.3, 18.8). -/
def Ifc.zero : Ifc where
  ttroot := 0
  ttinv := 2
  limits := 0x00000D4800000D48
  preempt := 0
  apbase := 0
  iferr := 0
  svaddr := 0
  svsize := 0
  cfg0 := 0
  cfg1 := 0
  masked := 7
  pending := 0
  fnMask := false
  msixEn := false
  sent := 0
  deficit := 0
  msix := []

/-- A write held in a stack's global buffer (R239): its issue order, who made it, the granule by physical and
virtual address and the nibbles it writes (mask bits 2k and 2k + 1 for byte k), the interface and engine for the
logs, the place in its copy and the address of its instruction (Table 11.4), and the run it was made in. -/
structure GWrite where
  serial : Nat
  cref : CRef
  opSerial : Nat
  ctx : Nat
  batch : Nat
  pa : Nat
  va : Nat
  mask : BitVec 64
  data : BitVec 256
  ifc : Nat
  eng : Nat
  idx : Nat
  pc : BitVec 18
  run : Nat
  deriving DecidableEq, Repr

/-- One cached translation (R213): interface, page base, page size exponent, physical base, write right. -/
structure TlbEntry where
  ifc : Nat
  va : Nat
  bits : Nat
  pa : Nat
  w : Bool
  deriving DecidableEq, Repr

/-- An entry of a log ring (Tables 8.8, 8.9, 15.9), as its 256 bits. -/
abbrev LogEntry := BitVec 256

/-- A log ring (R228, R373, R417): write and read pointers, lost count, entries by slot. -/
structure Ring where
  wptr : Nat
  rptr : Nat
  lost : Nat
  ents : Sparse LogEntry
  deriving DecidableEq, Repr

/-- An empty ring. -/
def Ring.zero : Ring := ⟨0, 0, 0, []⟩

/-- One memory hub (R216, R226 to R228): its SRAM window and its SECDED damage, its two log rings. -/
structure Hub where
  win : Memory
  winErr : Sparse Nat
  stk : Ring
  xfr : Ring
  deriving DecidableEq, Repr

/-- One HBM data lane of a channel (R227): consecutive errors and the physical lane that carries it
(0 its own, 1 spare 0, 2 spare 1). -/
structure Lane where
  count : Nat
  on : Nat
  deriving DecidableEq, Repr

/-- A write to sector `k` of a chunk: its nibble mask and data. -/
structure SecWr where
  k : Nat
  mask : Nat
  data : Nat
  deriving DecidableEq, Repr

/-- Who asks a hub for an access: what names the requester among those with accesses under way (nothing where it takes no answer),
the die it asks from, its interface and its engine code (Table 8.8). -/
structure Asker where
  who : List Nat
  die : Nat
  ifc : Nat
  eng : Nat
  deriving DecidableEq, Repr

/-- An access to a chunk of HBM at its hub (R225, R248, R376): a read, a write of sectors, an atomic on one word, or the writing of
sectors whose new values are known (none where a sector's read has failed), with the number 8 for the granule an atomic has read. -/
inductive HubOp
  | read
  | write (ws : List SecWr)
  | amo (pa : Nat) (op : AmoOp) (ty : Ty) (b cmp : Nat)
  | put (res : List (Nat × Option Nat))
  deriving DecidableEq, Repr

/-- An access that waits at its hub while its frame is on the move (R222). -/
structure HubWait where
  asker : Asker
  base : Nat
  op : HubOp
  deriving DecidableEq, Repr

/-- What an access to a chunk came to, kept for its requester: by sector number, the value read or written, none where the sector's
access failed. -/
structure HubAnswer where
  who : List Nat
  base : Nat
  vals : List (Nat × Option Nat)
  deriving DecidableEq, Repr

/-- HBM of the package (R217 to R224): the stored bytes of each sector, map codes, overflow check bytes by
chunk, chunks that hold a way, raw-pool and unprotected frames, damaged cells (a mask of flipped bits by byte),
the events the array ECC reports by sector (1 corrected, 2 uncorrectable), frames on the move with the ck the move
ends and the next chunk to move, lanes and spares by channel (spare bit 0 and 1 in use, 2 and 3 failed), parity errors to come by
channel (one lane mask per attempt), by channel the ck at which the pause of a lane swap ends, the accesses that wait for a move in
the order of their arrival, the answers not yet taken, the sectors written whose monitors have still to see it, and by stack the
reads counted for its latency monitor (R399). -/
structure Hbm where
  mem : Memory
  map : Sparse Nat
  ovf : Memory
  ways : Sparse Nat
  pool : Sparse Nat
  unprot : Sparse Bool
  flip : Sparse Byte
  ecc : Sparse Nat
  move : Sparse (Nat × Nat)
  lane : Sparse Lane
  spare : Sparse Nat
  noise : Sparse (List Nat)
  pause : Sparse Nat
  waits : List HubWait
  answers : List HubAnswer
  changed : List (Nat × Nat)
  reads : Sparse Nat
  deriving DecidableEq, Repr

/-- The shadow lanes of a group of bundles that rotate together (R387, R388): the number of the 2^20 ck period of the device
clock in which they last turned, the data lane they carry in every bundle that still rotates (0 none yet, else lane + 1), and,
by bundle, what its shadow lane is permanently used for (lane + 1; 9 given up, R418). -/
structure Bundles where
  period : Nat
  rotor : Nat
  used : Sparse Nat
  deriving DecidableEq, Repr

/-- Bundles at reset: nothing carried by a shadow lane. -/
def Bundles.zero : Bundles := ⟨0, 0, []⟩

/-- The state of a die (Table 17.3) and of its interposer link (R387, R388): its bundles, retrains that failed in a row, a retrain
under way and the device ck by which its pause ends; and whether the sequence of R384 has been asked for and whether step 3 need
wait for no boundary. -/
structure Die where
  state : Nat
  forced : Bool
  qreq : Bool
  qdl : Nat
  shadow : Nat
  retrain : Nat
  temp : BitVec 16
  resets : Nat
  deadline : Nat
  bundles : Bundles
  retrainFails : Nat
  retraining : Bool
  retrainEnds : Nat
  ask : Bool
  direct : Bool
  deriving DecidableEq, Repr

/-- A die after package reset (Table 17.3). -/
def Die.zero : Die := ⟨1, false, false, 255, 0, 0, 0, 0, 0, Bundles.zero, 0, false, 0, false, false⟩

/-- The last map of a stack (R164): defect masks, and per core its front end, positions and gang flags. -/
structure LastEntry where
  fe : Nat
  apos : Nat
  bpos : Nat
  valid : Bool
  gstate : Nat
  g2 : Bool
  g4 : Bool
  deriving DecidableEq, Repr

/-- The last map header and entries (R164). -/
structure LastMap where
  deffe : Word
  defa : Word
  defb : Word
  ncores : Nat
  ents : List LastEntry
  deriving DecidableEq, Repr

/-- An empty last map (Table 6.1). -/
def LastMap.zero : LastMap := ⟨0, 0, 0, 0, []⟩

/-- A lasting under way (R163, R184): socket, lowest core, width, cores concerned, the device ck it ends. -/
structure Lasting where
  sk : Nat
  lead : Nat
  width : Nat
  ends : Nat
  deriving DecidableEq, Repr

/-- A scale-up port (R419 to R422): state register fields, sequence numbers, retry buffer, replays, the flits that wait to be
sent, those put on the link in the last exchange, and the data and flood flits delivered in order; `rate` is
the SPEED of its last training, 0 before the first (R448). -/
structure Port where
  state : Nat
  retrain : Nat
  farDev : Nat
  farPort : Nat
  txSeq : Nat
  rxSeq : Nat
  retry : List Flit
  replaySeq : Nat
  replays : Nat
  tries : Nat
  rate : Nat
  outbox : List Flit
  wire : List Flit
  inbox : List Flit
  deriving DecidableEq, Repr

/-- A port at reset (Table 18.9). -/
def Port.zero : Port := ⟨0, 0, 0, 0, 0, 0, [], 0, 0, 0, 0, [], [], []⟩

/-- A collective in progress on this device (R432 to R441): the context and operation it belongs to, the
peers, the version and trees (edges as (parent, child, parent port)), per chunk its tree, mark and value, the chunks written
here, the trees of a newer version while the members still combine what each knows to be committed (R438), and the events of
versions not yet adopted, as (version, chunk, whether a commit) (R439). -/
structure Collective where
  cref : CRef
  serial : Nat
  peers : List PeerOp
  version : Nat
  trees : List (Nat × List (Nat × Nat × Nat))
  assign : Sparse Nat
  mark : Sparse Nat
  value : Sparse (List Byte)
  written : Sparse Bool
  next : Option (List (Nat × List (Nat × Nat × Nat)))
  held : List (Nat × Nat × Bool)
  deriving DecidableEq, Repr

/-- One monitor record (Table 17.8). -/
structure MonRec where
  count : Nat
  sum : Nat
  min : Nat
  max : Nat
  bins : Sparse Nat
  deriving DecidableEq, Repr

/-- A monitor record at reset (Table 17.8). -/
def MonRec.zero : MonRec := ⟨0, 0, 0xFFFFFFFF, 0, []⟩

/-- The Sundial (R174 to R177, R351, R394): PHASE, the superstep's ck, the ck of boundary work left, the mode and a
held selection, each with its free-mode interface plus 1 (65 once that interface's share has been written to 0), the stretch factor in sixteenths above 1 demanded by droop and by heat or power, the hold,
the event that asks for a boundary of an idle
device, the superstep ck of all supersteps so far, and of R395 the reference clock in sixteenths of a ck, whether the rails ask k
to rise (1), to fall (2) or neither (0), and the reference clock of its last change or step. -/
structure Sundial where
  phase : Word
  ck : Nat
  work : Nat
  metered : Bool
  heldMode : Option Bool
  heldIfc : Nat
  stretch : Nat
  stretchHeat : Nat
  holdAsked : Bool
  parked : Bool
  want : Bool
  modeIfc : Nat
  total : Nat
  ref : Nat
  volt : Nat
  voltSince : Nat
  deriving DecidableEq, Repr

/-- Power and thermal state (R378 to R402); the rails VD0 to VD3 and VIN (4) in tenths of a percent of their set points, and the
temperature of each die as last read, which no reset changes. -/
structure Power where
  on : Bool
  failed : Bool
  lost : Sparse Bool
  rails : Sparse Nat
  pwrwarn : Bool
  throttled : Sparse Bool
  tripped : Sparse Bool
  thermtrip : Bool
  pcap : Nat
  power : Nat
  temps : Sparse (BitVec 16)
  deriving DecidableEq, Repr

/-- Lifecycle, firmware, test access and sideband (R389 to R392, R412 to R414); change notices sent, as keeper, version and the 72
entries (R425); stacks whose retirement is still to be logged, with the launch concerned (R372); VF Enable of the
PF (R410), and by monitor the period in which it last sampled (R399). -/
structure Mgmt where
  lcState : Nat
  wiping : Bool
  stfail : Bool
  selfTest : Bool
  recovery : Bool
  rcvstat : Nat
  image : List Byte
  flash : List Byte
  monFreeze : Bool
  mons : Sparse MonRec
  devnum : Nat
  mgFenced : Bool
  ltver : Nat
  table : Sparse (BitVec 32)
  cbscore : Sparse Nat
  retired : Sparse Bool
  cbthr : Nat
  rellog : Ring
  tapIr : Nat
  tapOut : Word
  pins : List Bool
  i3cAddr : BitVec 7
  i3cIdx : Byte
  i3cOut : Word
  inReset : Bool
  floods : List (Nat × Nat)
  notices : List (Nat × Nat × List (Nat × BitVec 32))
  retiring : List (Nat × Nat × Nat × Nat × Nat)
  rcvGo : Bool
  vfEnable : Bool
  monLast : Sparse Nat
  deriving DecidableEq, Repr

/-- Host-side buffers an event leaves its answer in, and host memory (R408, R411). -/
structure HostSide where
  mem : Memory
  rdata : List Byte
  unsupported : Bool
  rerr : Sparse Bool
  word : Word
  deriving DecidableEq, Repr

/-- A STATUS word the distributor has still to write (R167, R173): the interface, the address and value, the launch, and, for
a termination, the counters to update after it, IRQ, and whether the state is not DONE. -/
structure Owed where
  ifc : Nat
  va : Nat
  word : Nat
  launch : Nat
  ends : Option (List Nat × Bool × Bool)
  deriving DecidableEq, Repr

/-- A chunk at mark 2 of a collective that has ended, still to be written (R443, R445, R446): the context, run, launch and
operation it belongs to, its number, the interface, and the bytes by virtual address; `after` are the buffered writes of the releases
issued before the operation, which go first (R242), `done` the chunks its collective had at mark 2, and `stuck` stands while a
translation fault holds it. -/
structure Drain where
  cref : CRef
  run : Nat
  launch : Nat
  serial : Nat
  chunk : Nat
  ifc : Nat
  va : Nat
  bytes : List Byte
  after : List Nat
  done : Nat
  stuck : Bool
  deriving DecidableEq, Repr

/-- A failure of context 6 that is recorded once the chunks at mark 2 have been written (R443): the context, its run, the operation,
CAUSE, SUB, SIDE, ADDR and DONE of Table 19.5. -/
structure Ending where
  cref : CRef
  run : Nat
  serial : Nat
  cause : Nat
  sub : Nat
  side : Nat
  addr : Word
  done : Nat
  deriving DecidableEq, Repr

/-- A cancel by job or graph number whose record reads are still to be made (R169): the interface, the job or graph number, and the ready
records as (local queue, slot). -/
structure CancelRead where
  ifc : Nat
  graph : Bool
  id : Nat
  slots : List (Nat × Nat)
  deriving DecidableEq, Repr

/-- How far the read or write of a span of global bytes has come (R376, R445): who makes it, the die it is made from, whether an access
of it is under way, granules written, the granules read (newest first), and the first granule whose write failed, with its SUB. -/
structure Span where
  key : List Nat
  die : Nat
  out : Bool
  done : Nat
  vals : List Nat
  bad : Option (Nat × Nat)
  deriving DecidableEq, Repr

/-- An aperture access that has been sent and not yet made (R407, R408): its function and virtual address, the bytes to write or
the number to read. -/
structure Posted where
  fn : Nat
  va : Nat
  bytes : List Byte
  rd : Nat
  deriving DecidableEq, Repr

/-- A management request to registers behind an interposer link that retrains (R388, R417, R418): a write of a ring's RPTR, or a read of
its lost count or, from number 16 on, of a PORTSTAT. -/
inductive MgmtReq
  | rptr (ring : Nat) (v : Word)
  | read (reg : Nat)
  deriving DecidableEq, Repr

/-- A buffered write that a read has returned and that its stack observes once the read's batch is acquired (R243): the
context that read, its timeline context, the batch (0 while open), and the write's serial number. -/
structure Seen where
  cref : CRef
  ctx : Nat
  batch : Nat
  serial : Nat
  deriving DecidableEq, Repr

/-- A walk that a hub makes wait (R213): the die, the interface and the virtual address it is for, and the level and table it has
reached. -/
structure Walk where
  die : Nat
  ifc : Nat
  va : Nat
  level : Nat
  base : Nat
  deriving DecidableEq, Repr

/-- The device outside the cores; `mgmtReqs` are the management requests that wait for a link, `resets` the interfaces under a function
level reset (R410), `bundles` the scale-up bundles (R418). -/
structure Device where
  clock : Nat
  sun : Sundial
  ifcs : Sparse Ifc
  queues : Sparse Queue
  counters : Sparse Word
  launches : List Launch
  runs : List Run
  nextId : Nat
  ptr : Nat
  placePtr : Nat
  rot : Sparse Nat
  reserved : Option Nat
  resPair : Option (Nat × Nat)
  resPtr : Nat
  maps : Sparse LastMap
  lastings : List Lasting
  dies : Sparse Die
  hubs : Sparse Hub
  hbm : Hbm
  gbuf : Sparse (List GWrite)
  copies : Sparse (Sparse (BitVec 256))
  observed : Sparse (List Nat)
  released : Sparse (List Nat)
  seen : List Seen
  walks : List Walk
  tlb : Sparse (List TlbEntry)
  invals : List Nat
  gseq : Nat
  ports : Sparse Port
  cols : List Collective
  owed : List Owed
  drains : List Drain
  endings : List Ending
  cancels : List CancelRead
  spans : List Span
  posted : List Posted
  mgmtReqs : List MgmtReq
  resets : List Nat
  bundles : Sparse Bundles
  power : Power
  mgmt : Mgmt
  host : HostSide
  deriving DecidableEq, Repr

/-- The whole machine: the acting core, the other cores in the order in which they act next, the number of
cores that have acted in the current ck, the events that have arrived (taken before the next core acts), the
number of the next arrival, and the device. -/
structure State where
  core : Core
  others : List Core
  turn : Nat
  pending : List Instr
  arrival : Nat
  dev : Device
  deriving DecidableEq, Repr

/-- The device right after a package reset of a powered package whose lifecycle store holds `lc`. -/
def Device.reset (lc : Nat) : Device where
  clock := 0
  sun := { phase := 0, ck := 0, work := 0, metered := false, heldMode := none, heldIfc := 0, stretch := 0,
           stretchHeat := 0, holdAsked := false, parked := false, want := false, modeIfc := 0,
           total := 0, ref := 0, volt := 0, voltSince := 0 }
  ifcs := []
  queues := []
  counters := []
  launches := []
  runs := []
  nextId := 1
  ptr := 0
  placePtr := 0
  rot := []
  reserved := none
  resPair := none
  resPtr := 0
  maps := []
  lastings := []
  dies := []
  hubs := []
  hbm := { mem := [], map := [], ovf := [], ways := [], pool := [], unprot := [], flip := [], ecc := [], move := [],
           lane := [], spare := [], noise := [], pause := [], waits := [], answers := [], changed := [], reads := [] }
  gbuf := []
  copies := []
  observed := []
  released := []
  seen := []
  walks := []
  tlb := []
  invals := []
  gseq := 0
  ports := []
  cols := []
  owed := []
  drains := []
  endings := []
  cancels := []
  spans := []
  posted := []
  mgmtReqs := []
  resets := []
  bundles := []
  power := { on := true, failed := false, lost := [], rails := [], pwrwarn := false, throttled := [],
             tripped := [], thermtrip := false, pcap := 3000, power := 0, temps := [] }
  mgmt := { lcState := lc, wiping := false, stfail := false, selfTest := false, recovery := false,
            rcvstat := 0, image := [], flash := [], monFreeze := false, mons := [], devnum := 0,
            mgFenced := false, ltver := 0, table := [], cbscore := [], retired := [], cbthr := 96,
            rellog := Ring.zero, tapIr := 0, tapOut := 0, pins := [], i3cAddr := 0, i3cIdx := 0,
            i3cOut := 0, inReset := false, floods := [], notices := [], retiring := [],
            rcvGo := false, vfEnable := false, monLast := [] }
  host := { mem := [], rdata := [], unsupported := false, rerr := [], word := 0 }

/-- The core slots of the package in acting order: stack core index within socket (R1, R161). -/
def coreSlots : List (Nat × Nat) :=
  (List.range 768).map (fun n => (n / 48, n % 48))

/-- The machine right after a package reset: no launch placed, every core idle and unbound, every table at
its reset value (R39, R182, Table 17.3). -/
def State.reset : State where
  core := Core.reset 0 0
  others := (coreSlots.drop 1).map (fun p => Core.reset p.1 p.2)
  turn := 0
  pending := []
  arrival := 0
  dev := Device.reset 2

end Sys2Proof.Machine
end

