-- ==== Sys2Proof/Machine/Store.lean ====
section
/-! DEFINITION. Sparse tables and byte memories in canonical form: one lookup and one update, byte order
decided once (R4, R41), and the elements of vector registers (R10). -/
namespace Sys2Proof.Machine
open Sys2Proof

/-! ### Sparse tables -/

/-- The value at a key; `d` for a key that is not listed. -/
def look {α : Type} (d : α) : Sparse α → Nat → α
  | [], _ => d
  | (k, v) :: r, a => if k = a then v else look d r a

/-- Put a value that is not the default at a key, keeping keys rising. -/
def ins {α : Type} : Sparse α → Nat → α → Sparse α
  | [], a, x => [(a, x)]
  | (k, v) :: r, a, x =>
    if k < a then (k, v) :: ins r a x
    else if k = a then (a, x) :: r
    else (a, x) :: (k, v) :: r

/-- Set the value at a key; writing the default removes the entry. -/
def store {α : Type} [DecidableEq α] (d : α) (m : Sparse α) (a : Nat) (x : α) : Sparse α :=
  if x = d then m.filter (fun p => p.1 ≠ a) else ins m a x

/-- Keys strictly rising. -/
def keysUp {α : Type} : Sparse α → Bool
  | [] => true
  | [_] => true
  | p :: q :: r => decide (p.1 < q.1) && keysUp (q :: r)

/-- The canonical form: keys strictly rising and no entry equal to the default. -/
def tableWf {α : Type} [DecidableEq α] (d : α) (m : Sparse α) : Bool :=
  keysUp m && m.all (fun p => decide (p.2 ≠ d))

/-- The canonical form of a byte memory, whose unlisted bytes read 0. -/
def Memory.wf (m : Memory) : Bool := tableWf (0 : Byte) m

/-! ### Byte memories -/

/-- One byte. -/
def byteAt (m : Memory) (a : Nat) : Byte := look 0 m a

/-- Write one byte. -/
def setByte (m : Memory) (a : Nat) (b : Byte) : Memory := store 0 m a b

/-- The `n` bytes from `a` as a list. -/
def bytesAt (m : Memory) (a : Nat) : Nat → List Byte
  | 0 => []
  | n + 1 => byteAt m a :: bytesAt m (a + 1) n

/-- Write a list of bytes from `a` upward. -/
def setBytes (m : Memory) (a : Nat) : List Byte → Memory
  | [] => m
  | b :: r => setBytes (setByte m a b) (a + 1) r

/-- The number whose little-endian bytes are given. -/
def ofBytes : List Byte → Nat
  | [] => 0
  | b :: r => b.toNat + 256 * ofBytes r

/-- The `n` little-endian bytes of a number. -/
def toBytes : Nat → Nat → List Byte
  | 0, _ => []
  | n + 1, x => BitVec.ofNat 8 x :: toBytes n (x / 256)

/-- The little-endian number in the `n` bytes at `a`. -/
def readLe (m : Memory) (a n : Nat) : Nat := ofBytes (bytesAt m a n)

/-- Write the low `n` bytes of a number at `a`, little-endian. -/
def writeLe (m : Memory) (a n x : Nat) : Memory := setBytes m a (toBytes n x)

/-- Set the bytes a predicate selects among the `n` bytes from `a` (byte k when `sel k`). -/
def setSel (m : Memory) (a : Nat) (sel : Nat → Bool) (val : Nat → Byte) : Nat → Memory
  | 0 => m
  | n + 1 => let m' := setSel m a sel val n
             if sel n then setByte m' (a + n) (val n) else m'

/-- Zero every byte of a range (whole entries leave the list). -/
def zeroRange (m : Memory) (a n : Nat) : Memory := m.filter (fun p => p.1 < a || a + n ≤ p.1)

/-! ### Elements of a register -/

/-- Element `i` of width `ew` bits of a register's bits (R10). -/
def elemOf (x ew i : Nat) : Nat := (x >>> (ew * i)) % 2 ^ ew

/-- The number whose elements of width `ew`, lowest first, are given. -/
def packElems (ew : Nat) : List Nat → Nat
  | [] => 0
  | v :: r => v % 2 ^ ew + 2 ^ ew * packElems ew r

/-- Replace the elements of `old` that a mask selects by those of `new`, over `n` elements of `ew` bits. -/
def mergeElems (ew : Nat) (mask old new : Nat) : Nat → Nat
  | 0 => old >>> 0
  | n => packElems ew ((List.range n).map fun i =>
      if mask.testBit i then elemOf new ew i else elemOf old ew i) + 2 ^ (ew * n) * (old >>> (ew * n))

/-- The width in bits of an element type (Table 2.2). -/
def tyBits : Ty → Nat
  | .i8 | .n8 | .e4m3 | .e5m2 => 8
  | .i16 | .n16 | .f16 | .bf16 => 16
  | .i32 | .n32 | .f32 => 32
  | .i64 | .n64 => 64
  | .b4 => 4

/-- Elements of a type per register at gang width `g` (R10). -/
def tyCount (g : Nat) (t : Ty) : Nat := 2048 * g / tyBits t

/-- Whether a type is a signed integer (Table 2.2). -/
def tySigned : Ty → Bool
  | .i8 | .i16 | .i32 | .i64 => true
  | _ => false

/-- Set bits 0 to n - 1. -/
def ones (n : Nat) : Nat := 2 ^ n - 1

end Sys2Proof.Machine
end

