-- ==== Sys2Proof/Machine/Fp.lean ====
section
/-! DEFINITION. Floating-point values, the one rounding (R79 to R81), the arithmetic of R74 to R77, the
conversions of R86 to R88, CBG-64 (R82), and the transcendental functions of R143. -/
namespace Sys2Proof.Machine
open Sys2Proof

/-! ### Formats and values -/

/-- A format of Table 3.1: exponent bits, fraction bits, bias, and whether it is E4M3 (Table 3.2). -/
structure FpFmt where
  eb : Nat
  fb : Nat
  bias : Nat
  e4 : Bool
  deriving DecidableEq, Repr

/-- The format of a floating-point type (Table 3.1). -/
def fpFmt : Ty → FpFmt
  | .f16 => ⟨5, 10, 15, false⟩
  | .bf16 => ⟨8, 7, 127, false⟩
  | .e5m2 => ⟨5, 2, 15, false⟩
  | .e4m3 => ⟨4, 3, 7, true⟩
  | _ => ⟨8, 23, 127, false⟩

/-- A floating-point value: NaN, an infinity, or (-1)^neg * m * 2^e with a sign also on zero. -/
inductive FVal
  | nan
  | inf (neg : Bool)
  | fin (neg : Bool) (m : Nat) (e : Int)
  deriving DecidableEq, Repr

/-- The value of a pattern (R72, Table 3.2). -/
def fpVal (t : Ty) (x : Nat) : FVal :=
  let f := fpFmt t
  let neg := x.testBit (f.eb + f.fb)
  let ex := bitsOf x f.fb f.eb
  let fr := x % 2 ^ f.fb
  let top := 2 ^ f.eb - 1
  if ex = top && f.e4 && fr = 2 ^ f.fb - 1 then .nan
  else if ex = top && !f.e4 then (if fr = 0 then .inf neg else .nan)
  else if ex = 0 then .fin neg fr (1 - (f.bias : Int) - f.fb)
  else .fin neg (2 ^ f.fb + fr) ((ex : Int) - f.bias - f.fb)

/-- The canonical NaN (Table 3.2). -/
def fpNan (t : Ty) : Nat :=
  match t with
  | .f16 => 0x7E00
  | .bf16 => 0x7FC0
  | .e5m2 => 0x7E
  | .e4m3 => 0x7F
  | _ => 0x7FC00000

/-- The pattern of an infinity, and for E4M3 of the largest magnitude (Table 3.2, R80). -/
def fpInfMag (t : Ty) : Nat :=
  let f := fpFmt t
  if f.e4 then 0x7E else (2 ^ f.eb - 1) * 2 ^ f.fb

/-- The pattern of the largest finite magnitude (Table 3.1). -/
def fpMaxMag (t : Ty) : Nat :=
  let f := fpFmt t
  if f.e4 then 0x7E else (2 ^ f.eb - 1) * 2 ^ f.fb - 1

/-- Put a sign on a magnitude pattern. -/
def fpSign (t : Ty) (neg : Bool) (mag : Nat) : Nat :=
  let f := fpFmt t
  (if neg then 2 ^ (f.eb + f.fb) else 0) + mag

/-- Whether a value is a NaN or an infinity (R85: such an operand sets NF). -/
def FVal.nonFinite : FVal → Bool
  | .fin _ _ _ => false
  | _ => true

/-- Whether a pattern is subnormal (R78). -/
def fpSubnormal (t : Ty) (x : Nat) : Bool :=
  let f := fpFmt t
  bitsOf x f.fb f.eb = 0 && x % 2 ^ f.fb ≠ 0

/-- A source element under FZ: a subnormal reads as a zero of its sign (R78). -/
def fpSrc (t : Ty) (fz : Bool) (x : Nat) : FVal :=
  if fz && t.isFlt && fpSubnormal t x then .fin (x.testBit ((fpFmt t).eb + (fpFmt t).fb)) 0 0 else fpVal t x

/-! ### Flags (Table 3.5, bits 8 to 14 of FPCTL) -/

/-- The flags of one result, bit k for FPCTL bit 8 + k. -/
abbrev Flags := BitVec 7
/-- NV. -/
def fNV : Flags := 1
/-- DZ. -/
def fDZ : Flags := 2
/-- OF. -/
def fOF : Flags := 4
/-- UF. -/
def fUF : Flags := 8
/-- NX. -/
def fNX : Flags := 16
/-- NF. -/
def fNF : Flags := 32
/-- SV. -/
def fSV : Flags := 64
/-- A flag when a condition holds. -/
def flagIf (b : Bool) (f : Flags) : Flags := if b then f else 0

/-! ### The one rounding -/

/-- Round (m + d) * 2^e, where 0 < d < 1 when `sticky` and d = 0 otherwise, to a multiple of 2^q: the multiple
and whether it differs (Table 3.4, R81; `u` is the 32-bit draw of RS). -/
def roundAt (md : Rm) (u : Nat) (neg : Bool) (m : Nat) (e : Int) (sticky : Bool) (q : Int) : Nat × Bool :=
  if q ≤ e then (m <<< (e - q).toNat, sticky)
  else
    let d := (q - e).toNat
    let lo := m >>> d
    let r := m % 2 ^ d
    let inex := r ≠ 0 || sticky
    let up : Bool :=
      match md with
      | .dyn | .rne => 2 ^ (d - 1) < r || (r = 2 ^ (d - 1) && (sticky || lo.testBit 0))
      | .rtz => false
      | .ru => inex && !neg
      | .rd => inex && neg
      | .rs => inex && decide (2 ^ 32 ≤ (r * 2 ^ 32) >>> d + u)
    (lo + b2n up, inex)

/-- floor(log2 m) for m > 0. -/
def log2n (m : Nat) : Nat := Nat.log2 m

/-- The magnitude pattern of n * 2^q where q is at least the format's least exponent step. -/
def packMag (f : FpFmt) (n : Nat) (q : Int) : Nat :=
  if n < 2 ^ f.fb then n
  else ((q - (1 - (f.bias : Int) - f.fb) + 1).toNat) * 2 ^ f.fb + (n - 2 ^ f.fb)

/-- Round a nonzero exact value into a type (R78 to R81, R75): its pattern and flags. `fz` is FPCTL.FZ where
the form flushes. Under RS an exact magnitude at or above the infinity position becomes an infinity: Table 3.4 leaves the choice to t,
which R81 does not give there. DESIGN CHOICE, log entry 102. -/
def roundFp (t : Ty) (md : Rm) (u : Nat) (fz : Bool) (neg : Bool) (m : Nat) (e : Int) (sticky : Bool) :
    Nat × Flags :=
  let f := fpFmt t
  let ex : Int := e + log2n m
  let qmin : Int := 1 - (f.bias : Int) - f.fb
  let q := max (ex - f.fb) qmin
  let (n, inex) := roundAt md u neg m e sticky q
  let mag := packMag f n q
  let (tn, _) := roundAt .rtz 0 neg m e sticky q
  let tmag := packMag f tn q
  let tooBig := if f.e4 then decide (0x7F ≤ tmag) || (tmag = 0x7E && inex) else decide (fpInfMag t ≤ mag)
  if tooBig then
    let toMax : Bool :=
      match md with
      | .rtz => true
      | .ru => neg
      | .rd => !neg
      | _ => false
    if f.e4 then (fpSign t neg 0x7E, fOF ||| fNX)
    else if toMax then (fpSign t neg (fpMaxMag t), fOF ||| fNX)
    else (fpSign t neg (fpInfMag t), fOF ||| fNX ||| fNF)
  else
    let (un, _) := roundAt md u neg m e sticky (ex - f.fb)
    let tiny : Bool := decide (ex < 1 - (f.bias : Int)) &&
      !(decide (ex = -(f.bias : Int)) && un = 2 ^ (f.fb + 1))
    let fl := flagIf inex fNX ||| flagIf (tiny && inex) fUF
    if fz && t.isFlt && mag ≠ 0 && decide (mag < 2 ^ f.fb) then (fpSign t neg 0, fUF ||| fNX)
    else (fpSign t neg mag, fl)

/-- Round an exact value, a zero keeping the sign given (R74). -/
def rndFp (t : Ty) (md : Rm) (u : Nat) (fz : Bool) (neg : Bool) (m : Nat) (e : Int) (sticky : Bool) :
    Nat × Flags :=
  if m = 0 && !sticky then (fpSign t neg 0, 0)
  else if m = 0 then roundFp t md u fz neg 1 (e - 4096) true
  else roundFp t md u fz neg m e sticky

/-- The canonical NaN with NF. -/
def nanRes (t : Ty) : Nat × Flags := (fpNan t, fNF)

/-! ### Arithmetic (R74, R75) -/

/-- The exact sum of two finite values: sign, magnitude, exponent. -/
def exactAdd (s1 : Bool) (m1 : Nat) (e1 : Int) (s2 : Bool) (m2 : Nat) (e2 : Int) : Int × Int :=
  let e := min e1 e2
  let a : Int := (m1 <<< (e1 - e).toNat : Nat)
  let b : Int := (m2 <<< (e2 - e).toNat : Nat)
  ((if s1 then -a else a) + (if s2 then -b else b), e)

/-- The sum of two values, rounded once. -/
def fpAdd (t : Ty) (md : Rm) (u : Nat) (fz : Bool) (a b : FVal) : Nat × Flags :=
  match a, b with
  | .nan, _ | _, .nan => nanRes t
  | .inf s, .inf s' => if s = s' then (fpSign t s (fpInfMag t), fNF) else (fpNan t, fNV ||| fNF)
  | .inf s, .fin _ _ _ | .fin _ _ _, .inf s => (fpSign t s (fpInfMag t), fNF)
  | .fin s1 m1 e1, .fin s2 m2 e2 =>
    let (x, e) := exactAdd s1 m1 e1 s2 m2 e2
    if x = 0 then
      let neg := if m1 = 0 && m2 = 0 && s1 = s2 then s1 else md = .rd
      (fpSign t neg 0, 0)
    else rndFp t md u fz (decide (x < 0)) x.natAbs e false

/-- The value with its sign turned. -/
def FVal.negate : FVal → FVal
  | .nan => .nan
  | .inf s => .inf (!s)
  | .fin s m e => .fin (!s) m e

/-- The difference of two values, rounded once. -/
def fpSub (t : Ty) (md : Rm) (u : Nat) (fz : Bool) (a b : FVal) : Nat × Flags := fpAdd t md u fz a b.negate

/-- The exact product of two values; `none` for the product of zero and infinity. -/
def exactMul : FVal → FVal → Option FVal
  | .nan, _ | _, .nan => some .nan
  | .inf s, .inf s' => some (.inf (s != s'))
  | .inf s, .fin s' m _ | .fin s' m _, .inf s => if m = 0 then none else some (.inf (s != s'))
  | .fin s m e, .fin s' m' e' => some (.fin (s != s') (m * m') (e + e'))

/-- The product of two values, rounded once. -/
def fpMul (t : Ty) (md : Rm) (u : Nat) (fz : Bool) (a b : FVal) : Nat × Flags :=
  match exactMul a b with
  | none => (fpNan t, fNV ||| fNF)
  | some .nan => nanRes t
  | some (.inf s) => (fpSign t s (fpInfMag t), fNF)
  | some (.fin s m e) => rndFp t md u fz s m e false

/-- a * b + c, rounded once (R74); a NaN operand comes first (R75). -/
def fpFma (t : Ty) (md : Rm) (u : Nat) (fz : Bool) (a b c : FVal) : Nat × Flags :=
  match c with
  | .nan => nanRes t
  | _ =>
    match exactMul a b with
    | none => (fpNan t, fNV ||| fNF)
    | some p => fpAdd t md u fz p c

/-- a * 2^k, rounded once (R142). -/
def fpScale (t : Ty) (md : Rm) (u : Nat) (fz : Bool) (a : FVal) (k : Int) : Nat × Flags :=
  match a with
  | .nan => nanRes t
  | .inf s => (fpSign t s (fpInfMag t), fNF)
  | .fin s m e => rndFp t md u fz s m (e + k) false

/-! ### Comparison (R76, R77) -/

/-- The order of two values that are not NaN: -1, 0 or 1. -/
def fpOrd : FVal → FVal → Int
  | .inf s, .inf s' => if s = s' then 0 else if s then -1 else 1
  | .inf s, _ => if s then -1 else 1
  | _, .inf s => if s then 1 else -1
  | .fin s m e, .fin s' m' e' => (exactAdd s m e (!s') m' e').1.sign
  | _, _ => 0

/-- Whether a cc b holds for integers. -/
def ccInt (c : Cc) (a b : Int) : Bool :=
  match c with
  | .eq => a = b
  | .ne => a ≠ b
  | .lt => a < b
  | .le => a ≤ b
  | .gt => b < a
  | .ge => b ≤ a
  | .un => false
  | .or => true

/-- Whether a cc b holds for floating-point values (R76). -/
def ccFp (c : Cc) (a b : FVal) : Bool :=
  if a = .nan || b = .nan then (c = .ne || c = .un) else ccInt c (fpOrd a b) 0

/-- The flags of a comparison: NF for a non-finite operand (R76). -/
def cmpFlags (a b : FVal) : Flags := flagIf (a.nonFinite || b.nonFinite) fNF

/-- Write a value of a type back as its pattern (exact). -/
def fpPat (t : Ty) : FVal → Nat
  | .nan => fpNan t
  | .inf s => fpSign t s (fpInfMag t)
  | .fin s m e => (rndFp t .rtz 0 false s m e false).1

/-- min_num (least = true) or max_num of two values (R77), with NF for a non-finite operand. -/
def fpMinMax (t : Ty) (least : Bool) (a b : FVal) : Nat × Flags :=
  let fl := cmpFlags a b
  match a, b with
  | .nan, .nan => (fpNan t, fl)
  | .nan, y => (fpPat t y, fl)
  | x, .nan => (fpPat t x, fl)
  | x, y =>
    let o := fpOrd x y
    let xLess : Bool :=
      if o < 0 then true else if o > 0 then false
      else match x with
        | .fin true _ _ => true
        | _ => false
    (fpPat t (if xLess = least then x else y), fl)

/-! ### Conversions (R86 to R88) -/

/-- FP to FP. -/
def cvtFpFp (td : Ty) (md : Rm) (u : Nat) (fz : Bool) (x : FVal) : Nat × Flags :=
  match x with
  | .nan => nanRes td
  | .inf s => if td = .e4m3 then (fpNan td, fNV ||| fNF) else (fpSign td s (fpInfMag td), fNF)
  | .fin s m e => rndFp td md u fz s m e false

/-- FP to an integer of w bits (R87): the value and flags. -/
def cvtFpInt (w : Nat) (sgn : Bool) (md : Rm) (u : Nat) (x : FVal) : Int × Flags :=
  let lo : Int := if sgn then -((2 ^ (w - 1) : Nat) : Int) else 0
  let hi : Int := if sgn then ((2 ^ (w - 1) : Nat) : Int) - 1 else ((2 ^ w : Nat) : Int) - 1
  match x with
  | .nan => (0, fNV ||| fNF)
  | .inf s => (if s then lo else hi, fNV ||| fNF)
  | .fin s m e =>
    let (n, inex) := roundAt md u s m e false 0
    let v : Int := if s then -(n : Int) else n
    if v < lo then (lo, fNV) else if hi < v then (hi, fNV) else (v, flagIf inex fNX)

/-- An integer to FP (R88); the integer 0 gives a zero of the sign that R74 gives an exact zero: - under RD, else +. -/
def cvtIntFp (td : Ty) (md : Rm) (u : Nat) (fz : Bool) (x : Int) : Nat × Flags :=
  rndFp td md u fz (decide (x < 0) || (x = 0 && md = .rd)) x.natAbs 0 false

/-! ### CBG-64 (R82) -/

/-- One round of CBG-64. -/
def cbgRound (key : Nat) (k x : Nat) : Nat :=
  let x := x ^^^ ((key + k * 0xB5AD4ECEDA1CE2A9) % 2 ^ 64)
  let x := (x * 0xD6E8FEB86659FD93) % 2 ^ 64
  x ^^^ (x >>> 32)

/-- cbg64(ctr, key). -/
def cbg64 (ctr key : Nat) : Nat :=
  cbgRound key 3 (cbgRound key 2 (cbgRound key 1 (cbgRound key 0 (ctr % 2 ^ 64))))

/-! ### Transcendental functions (R143) -/

/-- floor(ln 2 * 2^512). -/
def ln2Fix : Nat :=
  0xb17217f7d1cf79abc9e3b39803f2f6af40f343267298b62d8a0d175b8baafa2be7b876206debac98559552fb4afa1b10ed2eae35c138214427573b291169b825

/-- Terms k, k+1, ... of sum y^i/i! in 512-bit fixed point, from the term given. -/
def expTerms (y : Nat) : Nat → Nat → Nat → Nat
  | 0, _, _ => 0
  | n + 1, k, term => term + expTerms y n (k + 1) ((term * y) >>> 512 / (k + 1))

/-- e^y for 0 ≤ y < 1 in 512-bit fixed point. -/
def expFix (y : Nat) : Nat := expTerms y 130 0 (2 ^ 512)

/-- Terms of sum t^(2i+1)/(2i+1) in 512-bit fixed point. -/
def atanhTerms (t2 : Nat) : Nat → Nat → Nat → Nat
  | 0, _, _ => 0
  | n + 1, k, p => p / k + atanhTerms t2 n (k + 2) ((p * t2) >>> 512)

/-- floor(sqrt x) from bit n down. -/
def isqrtFrom (x : Nat) : Nat → Nat → Nat
  | 0, r => r
  | n + 1, r =>
    let c := r + 2 ^ n
    isqrtFrom x n (if c * c ≤ x then c else r)

/-- m * 2^e in 512-bit fixed point, rounded down. -/
def toFix (m : Nat) (e : Int) : Nat :=
  if 0 ≤ e + 512 then m <<< (e + 512).toNat else m >>> (-(e + 512)).toNat

/-- A magnitude just below m * 2^e. -/
def justBelow (m : Nat) (e : Int) : Nat × Int × Bool := (m * 2 ^ 200 - 1, e - 200, true)

/-- A magnitude just above 0. -/
def justAboveZero : Nat × Int × Bool := (1, -4096, true)

/-- 1/(m * 2^e) for m > 0: magnitude, exponent, whether bits remain. -/
def recipMag (m : Nat) (e : Int) : Nat × Int × Bool :=
  let k := log2n m + 200
  (2 ^ k / m, -e - k, 2 ^ k % m ≠ 0)

/-- 1/sqrt(m * 2^e) for m > 0. -/
def rsqrtMag (m : Nat) (e : Int) : Nat × Int × Bool :=
  let odd := e % 2 ≠ 0
  let m := if odd then 2 * m else m
  let e := if odd then e - 1 else e
  let k := log2n m + 200
  let x := 2 ^ (2 * k) / m
  let r := isqrtFrom x (k + 2) 0
  (r, -(e / 2) - k, r * r * m ≠ 2 ^ (2 * k))

/-- 2^(±m * 2^e) for m > 0. -/
def exp2Mag (neg : Bool) (m : Nat) (e : Int) : Nat × Int × Bool :=
  if e + log2n m ≥ 12 then (if neg then justAboveZero else (1, 4096, true))
  else
    let x : Int := toFix m e
    let x := if neg then -x else x
    let n := x / (2 ^ 512 : Nat)
    let f := (x % (2 ^ 512 : Nat)).toNat
    if f = 0 then (1, n, false)
    else (expFix ((f * ln2Fix) >>> 512) >>> 64, n - 448, true)

/-- log2(m * 2^e) for m > 0: sign and magnitude. -/
def log2Mag (m : Nat) (e : Int) : Bool × Nat × Int × Bool :=
  let l := log2n m
  let n : Int := e + l
  if m = 2 ^ l then (decide (n < 0), n.natAbs, 0, false)
  else
    let z := toFix m (-(l : Int))
    let big := decide (2 ^ 1025 < z * z)
    let n := if big then n + 1 else n
    let z := if big then z / 2 else z
    let one := 2 ^ 512
    let below := decide (z < one)
    let t := ((if below then one - z else z - one) * one) / (z + one)
    let ln := 2 * atanhTerms ((t * t) >>> 512) 110 1 t
    let lg : Int := (ln * one / ln2Fix : Nat)
    let v : Int := n * (one : Nat) + (if below then -lg else lg)
    (decide (v < 0), v.natAbs >>> 32, -480, true)

/-- e^-x for x = m * 2^e in 512-bit fixed point with 0 < x < 1024: (r, k) with e^-x = 2^-k / r and r = e^rem. -/
def expNeg (m : Nat) (e : Int) : Nat × Nat :=
  let u := toFix m e
  let k := u / ln2Fix
  (expFix (u % ln2Fix), k)

/-- 1/(1 + e^-a) for a = ±m * 2^e, m > 0. -/
def sigmMag (neg : Bool) (m : Nat) (e : Int) : Nat × Int × Bool :=
  let top := e + log2n m
  if neg then
    if top ≥ 10 then justAboveZero
    else
      let (r, k) := expNeg m e
      (2 ^ 1024 / (r + ((2 ^ 512) >>> k)), -512 - (k : Int), true)
  else
    if top ≥ 7 then justBelow 1 0
    else
      let (r, k) := expNeg m e
      (2 ^ 1024 / (2 ^ 512 + (2 ^ 1024 / r) >>> k), -512, true)

/-- tanh(m * 2^e) for m > 0. -/
def tanhMag (m : Nat) (e : Int) : Nat × Int × Bool :=
  let top := e + log2n m
  if top < -40 then justBelow m e
  else if top ≥ 6 then justBelow 1 0
  else
    let (r, k) := expNeg m (e + 1)
    let en := (2 ^ 1024 / r) >>> k
    ((2 ^ 512 - en) * 2 ^ 512 / (2 ^ 512 + en), -512, true)

/-- The six transcendental forms (R143, R75). -/
inductive Fn
  | rcp | rsq | exp2 | log2 | sigm | tanh
  deriving DecidableEq, Repr

/-- A transcendental form of a value, rounded once (R143, R75, R79). -/
def fpFn (fn : Fn) (t : Ty) (md : Rm) (u : Nat) (fz : Bool) (a : FVal) : Nat × Flags :=
  let one := fpSign t false (((fpFmt t).bias) * 2 ^ (fpFmt t).fb)
  let rnd := fun (s : Bool) (x : Nat × Int × Bool) => rndFp t md u fz s x.1 x.2.1 x.2.2
  match fn, a with
  | _, .nan => nanRes t
  | .rcp, .inf s => (fpSign t s 0, fNF)
  | .rcp, .fin s m e => if m = 0 then (fpSign t s (fpInfMag t), fDZ ||| fNF) else rnd s (recipMag m e)
  | .rsq, .inf s => if s then (fpNan t, fNV ||| fNF) else (fpSign t false 0, fNF)
  | .rsq, .fin s m e =>
    if m = 0 then (fpSign t s (fpInfMag t), fDZ ||| fNF)
    else if s then (fpNan t, fNV ||| fNF) else rnd false (rsqrtMag m e)
  | .exp2, .inf s => if s then (fpSign t false 0, fNF) else (fpInfMag t, fNF)
  | .exp2, .fin s m e => if m = 0 then (one, 0) else rnd false (exp2Mag s m e)
  | .log2, .inf s => if s then (fpNan t, fNV ||| fNF) else (fpInfMag t, fNF)
  | .log2, .fin s m e =>
    if m = 0 then (fpSign t true (fpInfMag t), fDZ ||| fNF)
    else if s then (fpNan t, fNV ||| fNF)
    else let (sg, x) := log2Mag m e
         rnd sg x
  | .sigm, .inf s => if s then (fpSign t false 0, fNF) else (one, fNF)
  | .sigm, .fin s m e => if m = 0 then rnd false (1, -1, false) else rnd false (sigmMag s m e)
  | .tanh, .inf s => (fpSign t s one, fNF)
  | .tanh, .fin s m e => if m = 0 then (fpSign t s 0, 0) else rnd s (tanhMag m e)

end Sys2Proof.Machine
end

