-- ==== Sys2Proof/Machine/Quant.lean ====
section
/-! DEFINITION. The 4-bit block formats (R89 to R91), the Hadamard transform (R92), and the group sums of the
matrix engine (R93 to R96). -/
namespace Sys2Proof.Machine
open Sys2Proof

/-! ### Codes (Table 3.7) -/

/-- Eight times the magnitude of a code whose bit 3 is clear, by code type. -/
def codeMag8 (ct c : Nat) : Nat :=
  match ct with
  | 0 => 8 * c
  | 1 => ([0, 4, 8, 12, 16, 24, 32, 48] : List Nat).getD c 0
  | 2 => 2 ^ c
  | _ => 8 * ([0, 1, 2, 3, 4, 6, 8, 12] : List Nat).getD c 0

/-- Eight times code_value(CT, c) (Table 3.7). -/
def codeVal8 (ct c : Nat) : Int :=
  match ct with
  | 0 => 8 * (if c < 8 then (c : Int) else (c : Int) - 16)
  | 2 => if c = 8 then 0 else if c < 8 then codeMag8 2 c else -(codeMag8 2 (c - 8) : Nat)
  | _ => if c < 8 then codeMag8 ct c else -(codeMag8 ct (c - 8) : Nat)

/-- The zero code of a code type (R91 step 2). -/
def zeroCode (ct : Nat) : Nat := if ct = 2 then 8 else 0

/-- Cmax of a code type (R91). -/
def codeMax (ct : Nat) : Nat := ([7, 6, 16, 12] : List Nat).getD ct 7

/-- The codes of a code type in rising order of value, one per value (zero as the zero code). -/
def codesUp (ct : Nat) : List Nat :=
  match ct with
  | 0 => [8, 9, 10, 11, 12, 13, 14, 15, 0, 1, 2, 3, 4, 5, 6, 7]
  | 2 => [15, 14, 13, 12, 11, 10, 9, 8, 0, 1, 2, 3, 4, 5, 6, 7]
  | _ => [15, 14, 13, 12, 11, 10, 9, 0, 1, 2, 3, 4, 5, 6, 7]

/-- The value of a code under a scale byte (R90). -/
def codeVal (scale c : Nat) : FVal :=
  let ct := bitsOf scale 6 2
  let es := scale % 64
  if es = 63 then .nan
  else
    let v := codeVal8 ct c
    let neg := v < 0 || (v = 0 && c = 8 && ct ≠ 2)
    .fin neg v.natAbs ((es : Int) - 35)

/-! ### Quantising a block (R91) -/

/-- Compare m * 2^e with n * 2^k: m * 2^e ≤ n * 2^k. -/
def dyLe (m : Nat) (e : Int) (n : Nat) (k : Int) : Bool :=
  let lo := min e k
  decide (m <<< (e - lo).toNat ≤ n <<< (k - lo).toNat)

/-- The least ES in 0 to 62 with a ≤ Cmax * 2^(ES - 32), searching `n` values from `es` (R91 step 3). -/
def leastEs (ct m : Nat) (e : Int) : Nat → Nat → Option Nat
  | 0, _ => none
  | n + 1, es => if dyLe m e (codeMax ct) ((es : Int) - 32) then some es else leastEs ct m e n (es + 1)

/-- The neighbours of q among the codes: the last one not above q and the first one not below q, where q and
the code values are compared after scaling both to integers. -/
def codeNear (q : Int) (val : Nat → Int) : List Nat → Option Nat → Option Nat × Option Nat
  | [], lo => (lo, none)
  | c :: r, lo => if val c < q then codeNear q val r (some c) else if val c = q then (some c, some c) else (lo, some c)

/-- One code of a block (R91 step 4): code and whether it saturated. `u` is the draw of RS. -/
def quantCode (ct es : Nat) (md : Rm) (u : Nat) (neg : Bool) (m : Nat) (e : Int) : Nat × Bool :=
  let sh := e - es + 35
  let q : Int := (m <<< sh.toNat : Nat)
  let q := if neg then -q else q
  let d := (-sh).toNat
  let val : Nat → Int := fun c => codeVal8 ct c * (2 ^ d : Nat)
  match codeNear q val (codesUp ct) none with
  | (some a, some b) =>
    if a = b then (a, false)
    else
      let x := val a
      let y := val b
      let small := if x.natAbs < y.natAbs then a else b
      let large := if x.natAbs < y.natAbs then b else a
      let c :=
        match md with
        | .ru => b
        | .rd => a
        | .rtz => small
        | .rs =>
          let t := ((q.natAbs - (val small).natAbs) * 2 ^ 32) / (y - x).natAbs
          if 2 ^ 32 ≤ t + u then large else small
        | _ =>
          if q - x < y - q then a else if y - q < q - x then b
          else if a % 2 = 0 && b % 2 = 0 then small else if a % 2 = 0 then a else b
      (c, false)
  | (some a, none) => (a, true)
  | (none, some b) => (b, true)
  | (none, none) => (zeroCode ct, false)

/-- A finite nonzero magnitude larger than the one found so far. -/
def absMax : List FVal → Nat × Int → Nat × Int
  | [], p => p
  | .fin _ m e :: r, p => absMax r (if dyLe m e p.1 p.2 then p else (m, e))
  | _ :: r, p => absMax r p

/-- Quantise a block (R91): scale byte, codes, flags. `draw j` is the RS draw of element j. -/
def quantBlock (ct : Nat) (md : Rm) (draw : Nat → Nat) (ys : List FVal) : Nat × List Nat × Flags :=
  if ys.any FVal.nonFinite then (64 * ct + 63, ys.map (fun _ => 0), fNF)
  else
    let (am, ae) := absMax ys (0, 0)
    if am = 0 then (64 * ct, ys.map (fun _ => zeroCode ct), 0)
    else
      let (es, tooBig) := match leastEs ct am ae 63 0 with
        | some es => (es, false)
        | none => (62, true)
      let res := (ys.zip (List.range ys.length)).map fun p =>
        match p.1 with
        | .fin neg m e =>
          if m = 0 then (zeroCode ct, false, false, false)
          else
            let (c, sat) := quantCode ct es md (draw p.2) neg m e
            let z := codeVal8 ct c = 0
            let c' := if z then zeroCode ct else c
            let v := codeVal (64 * ct + es) c'
            (c', sat, fpOrd v (.fin neg m e) ≠ 0, z)
        | _ => (0, false, false, false)
      (64 * ct + es, res.map (·.1),
        flagIf tooBig fOF ||| flagIf (res.any (·.2.1)) fSV ||| flagIf (res.any (·.2.2.1)) fNX |||
        flagIf (res.any (·.2.2.2)) fUF)

/-! ### The Hadamard transform (R92) -/

/-- One stage of the butterfly on F32 patterns. -/
def hadStage (h : Nat) (x : List Nat) : List Nat :=
  (List.range x.length).map fun j =>
    let a := fun k => fpVal .f32 (x.getD k 0)
    if (j / h) % 2 = 0 then (fpAdd .f32 .rne 0 false (a j) (a (j + h))).1
    else (fpSub .f32 .rne 0 false (a (j - h)) (a j)).1

/-- The transform of a block of 16 or 32 F32 patterns with c = 2^-cs. -/
def hadamard (cs : Nat) (x : List Nat) : List Nat :=
  let y := hadStage 8 (hadStage 4 (hadStage 2 (hadStage 1 x)))
  let y := if x.length = 32 then hadStage 16 y else y
  y.map fun v => (fpScale .f32 .rne 0 false (fpVal .f32 v) (-(cs : Int))).1

/-! ### Group sums (R93 to R96) -/

/-- The product of two inputs; a product of zero and infinity is a NaN (R96). -/
def prodOf (a b : FVal) : FVal := (exactMul a b).getD .nan

/-- The exact products summed in the 48-bit window at 2^q (R94). -/
def windowSum (q : Int) : List FVal → Int
  | [] => 0
  | .fin neg m e :: r =>
    let t : Int := (roundAt .rtz 0 false m e false q).1
    (if neg then -t else t) + windowSum q r
  | _ :: r => windowSum q r

/-- The largest floor(log2 |p|) over the nonzero products. -/
def topExp : List FVal → Option Int → Option Int
  | [], o => o
  | .fin _ m e :: r, o =>
    if m = 0 then topExp r o
    else
      let x := e + log2n m
      topExp r (some (match o with
        | none => x
        | some y => max x y))
  | _ :: r, o => topExp r o

/-- A group sum of zero with a product that is not a negative zero is +0, a window sum that rounds to zero among them (R95). -/
def plusZero (x : Nat) : Nat := if x = 0x80000000 then 0 else x

/-- A group sum as an F32 pattern (R94 to R96). -/
def groupSum (ps : List FVal) : Nat :=
  let posInf := ps.contains (.inf false)
  let negInf := ps.contains (.inf true)
  if ps.contains .nan || (posInf && negInf) then fpNan .f32
  else if posInf then fpInfMag .f32
  else if negInf then fpSign .f32 true (fpInfMag .f32)
  else match topExp ps none with
    | none => if ps.all (fun p => match p with
        | .fin neg _ _ => neg
        | _ => false) then 0x80000000 else 0
    | some ex =>
      let q := ex - 41
      let sg := windowSum q ps
      plusZero (rndFp .f32 .rne 0 false (decide (sg < 0)) sg.natAbs q false).1

end Sys2Proof.Machine
end

