-- ==== Sys2Proof/Machine/Flags.lean ====
section
/-! DEFINITION. The FPCTL register: its rounding mode, its flush bit and its sticky flags (Table 3.5, R79,
R84, R85). -/
namespace Sys2Proof.Machine
open Sys2Proof

/-- The rounding mode a code of Table 2.4 names. -/
def rmOfCode (n : Nat) : Rm :=
  match n with
  | 2 => .rtz
  | 3 => .ru
  | 4 => .rd
  | 5 => .rs
  | _ => .rne

/-- FPCTL.RM. -/
def fpctlRm (f : Word) : Rm := rmOfCode (f.toNat % 8)

/-- FPCTL.FZ. -/
def fpctlFz (f : Word) : Bool := f.toNat.testBit 3

/-- The effective mode of a vector rounding form (R79). -/
def effRm (f : Word) (r : Rm) : Rm := if r = .dyn then fpctlRm f else r

/-- RS is replaced by RNE in the scalar forms and in VRSUM (R79). -/
def noRs (r : Rm) : Rm := if r = .rs then .rne else r

/-- The effective mode of a scalar FP form (R79, R107). -/
def effRmScalar (f : Word) (r : Rm) : Rm := noRs (effRm f r)

/-- OR flags into FPCTL [14:8] (R85). -/
def fpctlOr (f : Word) (fl : BitVec 7) : Word := f ||| (fl.setWidth 64 <<< 8)

/-- Whether a value may stand in FPCTL: RM is a code 1 to 5 (R84). -/
def fpctlOk (v : Word) : Bool := decide (1 ≤ v.toNat % 8) && decide (v.toNat % 8 ≤ 5)

/-- The flag-bearing and writable bits of FPCTL (Table 3.5). -/
def fpctlMask : Word := 0x7F0F

/-- FPCTL after a CSR write of `v` in a ck in which results carrying `ck` completed (R84, R85). -/
def fpctlWrite (v : Word) (ck : BitVec 7) : Word := fpctlOr (v &&& fpctlMask) ck

/-- ROTCFG.VRS and PRS (Table 1.2). -/
def rotNv (r : Word) : Nat := 8 * (r.toNat % 512)

/-- NP of ROTCFG (R20). -/
def rotNp (r : Word) : Nat := 8 * bitsOf r.toNat 16 3

/-- The writable bits of ROTCFG (Table 1.2). -/
def rotMask : Word := 0x701FF

/-- Whether a value may stand in ROTCFG (R23). -/
def rotOk (r : Word) : Bool := decide (rotNv r ≤ 2048) && decide (rotNp r ≤ 32)

/-- A rotation base reduced modulo the size of its region, 0 when there is none (R23). -/
def reduceBase (v : Word) (n : Nat) : Word := if n = 0 then 0 else BitVec.ofNat 64 (v.toNat % n)

/-- The base after LOOP (R22). -/
def stepBase (b : Word) (n : Nat) : Word :=
  if n = 0 then b else BitVec.ofNat 64 ((b.toNat + n - 1) % n)

end Sys2Proof.Machine
end

