-- ==== Sys2Proof/Machine/Operands.lean ====
section
/-! DEFINITION. Reading operands at issue (R21, R45, R97, R132): scalar, predicate and vector registers with
renaming, latches, governing predicates, and the SECDED checks of the register files (R206). -/
namespace Sys2Proof.Machine
open Sys2Proof

/-! ### SECDED words (R206) -/

/-- Whether a word reads with an error that cannot be corrected: a double-bit error (2), or damaged cells (3 and more), which count their
writes: 3 + 2n where n numbers what they now hold, and one more where a partial write has stored a code that reads as an error. -/
def wordErr (x : Nat) : Bool := x = 2 || (decide (3 ≤ x) && ((x - 3) % 2 = 1 || Config.cellsBad ((x - 3) / 2)))

/-- A word's error after a write, whole or of fewer bytes; none when it is sound. No write mends damaged cells (R206). -/
def wordAfter (x : Nat) (whole : Bool) : Option Nat :=
  if 3 ≤ x then some (3 + 2 * ((x - 3) / 2 + 1) + b2n (!whole && wordErr x))
  else if whole || x ≠ 2 then none else some 2

/-! ### Registers -/

/-- S(f): s0 reads as zero (R13). -/
def sreg (c : Ctx) (r : BitVec 6) : Word := if r = 0 then 0 else look 0 c.sregs r.toNat

/-- Write a scalar register; a write to s0 is discarded (R13). -/
def setSreg (c : Ctx) (r : BitVec 6) (v : Word) : Ctx :=
  if r = 0 then c else { c with sregs := store 0 c.sregs r.toNat v, errS := store 0 c.errS r.toNat ((wordAfter (look 0 c.errS r.toNat) true).getD 0) }

/-- The physical vector register of a register number (R21). -/
def physV (c : Ctx) (n : BitVec 12) : Nat :=
  let nv := rotNv c.rotcfg
  let bv := 4096 - nv
  if n.toNat < bv then n.toNat else bv + (n.toNat - bv + c.vrb.toNat) % nv

/-- The physical predicate register of a register number (R21). -/
def physP (c : Ctx) (n : BitVec 6) : Nat :=
  let np := rotNp c.rotcfg
  let bp := 64 - np
  if n.toNat < bp then n.toNat else bp + (n.toNat - bp + c.prb.toNat) % np

/-- Bits of a predicate register at gang width `g` (Table 1.1). -/
def predBits (g : Nat) : Nat := 512 * g

/-- P(f): p0 reads as all ones (R13, R14). -/
def predOf (g : Nat) (c : Ctx) (n : BitVec 6) : Nat :=
  let k := physP c n
  if k = 0 then ones (predBits g) else (look 0 c.pregs k).toNat

/-- A latch (R15, R45). -/
def latchAt (l : Latches) (k : BitVec 3) : VReg :=
  match k.toNat with
  | 0 => l.q0
  | 1 => l.q1
  | 2 => l.q2
  | 3 => l.q3
  | 4 => l.q4
  | 5 => l.q5
  | 6 => l.q6
  | _ => l.q7

/-- One result enters the latches (R15). -/
def latchPush (l : Latches) (v : VReg) : Latches := ⟨v, l.q0, l.q1, l.q2, l.q3, l.q4, l.q5, l.q6⟩

/-- The register VD names, read as a source (R29). -/
def vregOf (c : Ctx) (n : BitVec 12) : Nat := (look 0 c.vregs (physV c n)).toNat

/-- A vector source field (R45); latches are not renamed (R21). -/
def vsrc (c : Ctx) (v : VSrc) : Nat :=
  match v with
  | .reg n => vregOf c n
  | .latch k => (latchAt c.lat k).toNat

/-- The active elements among `n`: P(PG) exclusive-ORed with PN (R47, R132). -/
def active (g : Nat) (c : Ctx) (gov : Gov) (n : Nat) : Nat :=
  let p := predOf g c gov.pg % 2 ^ n
  if gov.pn then ones n - p else p

/-- The pattern of an integer or FP element read as an integer of its type (R70). -/
def elemInt (t : Ty) (x : Nat) : Int := if tySigned t then sxNat x (tyBits t) else (x : Int)

/-! ### SECDED of the register files (R206) -/

/-- A register an instruction reads. -/
inductive Src
  | s (n : BitVec 6)
  | v (x : VSrc)
  | p (n : BitVec 6)
  deriving DecidableEq, Repr

/-- TRAPVAL for a failing register word: file 0 scalar, 1 vector, 2 predicate, 3 latch (R206). -/
def regErrVal (file num off : Nat) : Word :=
  BitVec.ofNat 64 (2 ^ 63 + file * 2 ^ 60 + num * 2 ^ 16 + off)

/-- The first damaged word of a register: tables hold 256 keys per register number, one for each 8-byte word,
and a value of 2 or more marks a double-bit error. -/
def firstBad (t : Sparse Nat) (num words : Nat) : Option Nat :=
  (t.find? fun p => p.1 / 256 = num && decide (p.1 % 256 < words) && wordErr p.2).map (·.1 % 256)

/-- The failing word of one source register, if its read meets a double-bit error. A predicate source is read whole, whatever the type's
element count. DESIGN CHOICE, log entry 111. -/
def srcBad (g : Nat) (c : Ctx) : Src → Option Word
  | .s n => if n ≠ 0 && wordErr (look 0 c.errS n.toNat) then some (regErrVal 0 n.toNat 0) else none
  | .v (.reg n) => (firstBad c.errV (physV c n) (32 * g)).map fun w => regErrVal 1 (physV c n) (8 * w)
  | .v (.latch k) => (firstBad c.errQ k.toNat (32 * g)).map fun w => regErrVal 3 k.toNat (8 * w)
  | .p n => if physP c n = 0 then none else (firstBad c.errP (physP c n) (8 * g)).map fun w => regErrVal 2 (physP c n) (8 * w)

/-- The first failing word among an instruction's register sources (R206). -/
def srcsBad (g : Nat) (c : Ctx) : List Src → Option Word
  | [] => none
  | x :: r =>
    match srcBad g c x with
    | some w => some w
    | none => srcsBad g c r

/-- The predicate source of a governing predicate. -/
def govSrc (gov : Gov) : Src := .p gov.pg

end Sys2Proof.Machine
end

