-- ==== Sys2Proof/Machine/Local.lean ====
section
/-! DEFINITION. The local memories of a context (R202 to R209): partition sizes, the trap-frame area, valid
bits, SECDED, reads and writes, and the watermark check of R30. Spaces are coded as the copy engine codes them:
1 scratchpad, 3 accumulator memory, 5 operand memory. -/
namespace Sys2Proof.Machine
open Sys2Proof

/-! ### Partitions -/

/-- The size of a partition of a local memory at gang width `g` (Table 8.1). -/
def partSize (g : Nat) (metered : Bool) (space : Nat) : Nat :=
  let whole :=
    match space with
    | 1 => 1048576 * g
    | 3 => 131072 * g
    | _ => 262144 * g
  if metered then whole / 2 else whole

/-- FB, the base of the trap-frame area (R205, R339). -/
def frameBase (g : Nat) (metered : Bool) : Nat := partSize g metered 1 - 4096

/-- The addresses an access of the running stream may reach: at U the trap-frame area counts as outside
(R112, R156, R205). -/
def reach (g : Nat) (c : Ctx) (space : Nat) : Nat :=
  if space = 1 && c.priv = .u then frameBase g c.metered else partSize g c.metered space

/-- Whether a launch is protected: class S or D (R171, R207). -/
def prot (c : Ctx) : Bool := c.cls ≠ .n

/-- A local memory of a context. -/
def memOf (c : Ctx) (space : Nat) : Memory :=
  match space with
  | 1 => c.scr
  | 3 => c.acc
  | _ => c.opm

/-- The SECDED damage of a local memory, by word: 1 single-bit, 2 double-bit, 3 damaged cells that no write
repairs (R206). -/
def errOf (c : Ctx) (space : Nat) : Sparse Nat :=
  match space with
  | 1 => c.errScr
  | 3 => c.errAcc
  | _ => c.errOpm

/-- Put a local memory and its damage table back. -/
def setMem (c : Ctx) (space : Nat) (m : Memory) (e : Sparse Nat) : Ctx :=
  match space with
  | 1 => { c with scr := m, errScr := e }
  | 3 => { c with acc := m, errAcc := e }
  | _ => { c with opm := m, errOpm := e }

/-! ### SECDED words (R206) -/

/-- TRAPVAL of a failing local word (R206). -/
def memErrVal (space word : Nat) : Word := BitVec.ofNat 64 (space * 2 ^ 56 + (8 * word) % 2 ^ 22)

/-- The first word with a double-bit error among those that hold the given bytes. -/
def wordBad (e : Sparse Nat) : List Nat → Option Nat
  | [] => none
  | a :: r => if wordErr (look 0 e (a / 8)) then some (a / 8) else wordBad e r

/-- The first failing word of a read of a contiguous range, in address order. -/
def rangeBad (e : Sparse Nat) (a n : Nat) : Option Nat :=
  if n = 0 then none
  else (e.find? fun p => decide (a / 8 ≤ p.1) && decide (p.1 ≤ (a + n - 1) / 8) && wordErr p.2).map (·.1)

/-- A byte written: address, the nibbles written (bit 0 low, bit 1 high), value. -/
structure WByte where
  addr : Nat
  nibs : Nat
  val : Byte
  deriving DecidableEq, Repr

/-- A byte with only the selected nibbles replaced. -/
def mergeNibs (old new : Byte) (nibs : Nat) : Byte :=
  match nibs with
  | 1 => (old &&& 0xF0) ||| (new &&& 0x0F)
  | 2 => (old &&& 0x0F) ||| (new &&& 0xF0)
  | 0 => old
  | _ => new

/-- Write bytes in order. -/
def putBytes (m : Memory) : List WByte → Memory
  | [] => m
  | b :: r => putBytes (setByte m b.addr (mergeNibs (byteAt m b.addr) b.val b.nibs)) r

/-- The damage table after a write: a word written whole is mended unless its cells are damaged; a partial
write keeps a double-bit error and mends a single-bit one (R206). -/
def errAfter (e : Sparse Nat) (bs : List WByte) : Sparse Nat :=
  e.filterMap fun p =>
    let here := bs.filter fun b => b.addr / 8 = p.1
    if here.isEmpty then some p
    else
      let whole := (List.range 8).all fun k => here.any fun b => b.addr = 8 * p.1 + k && b.nibs = 3
      (wordAfter p.2 whole).map fun x => (p.1, x)

/-- Whole bytes at consecutive addresses. -/
def wbytes (a : Nat) : List Byte → List WByte
  | [] => []
  | b :: r => ⟨a, 3, b⟩ :: wbytes (a + 1) r

/-! ### Valid bits (R207) -/

/-- Set or clear the valid bit of a 128-byte line; class N keeps none. -/
def setValid (c : Ctx) (line : Nat) (v : Bool) : Ctx :=
  if prot c then { c with valid := store false c.valid line v } else c

/-- Set the valid bits of every line a write touches. -/
def validAll (c : Ctx) : List WByte → Ctx
  | [] => c
  | b :: r => validAll (setValid c (b.addr / 128) true) r

/-- Whether a scratchpad byte may be read: lines of the trap-frame area are always valid (R207, R208). -/
def lineOk (g : Nat) (c : Ctx) (a : Nat) : Bool :=
  !prot c || decide (frameBase g c.metered ≤ a) || look false c.valid (a / 128)

/-- A write into a local memory by the core, the staging or an engine. -/
def writeMem (c : Ctx) (space : Nat) (bs : List WByte) : Ctx :=
  setMem c space (putBytes (memOf c space) bs) (errAfter (errOf c space) bs)

/-- A store of the core or a staging write: the line's valid bit is set (R158, R199, R207). -/
def storeLocal (c : Ctx) (space : Nat) (bs : List WByte) : Ctx :=
  let c' := writeMem c space bs
  if space = 1 then validAll c' bs else c'

/-! ### The watermark check (R30, R31) -/

/-- The watermark register of a channel. -/
def wmOf (c : Ctx) (n : Nat) : WMark :=
  match n with
  | 0 => c.wm0
  | 1 => c.wm1
  | 2 => c.wm2
  | _ => c.wm3

/-- Replace the watermark register of a channel. -/
def setWm (c : Ctx) (n : Nat) (w : WMark) : Ctx :=
  match n with
  | 0 => { c with wm0 := w }
  | 1 => { c with wm1 := w }
  | 2 => { c with wm2 := w }
  | _ => { c with wm3 := w }

/-- Whether a channel's watermark holds back a byte (R30). -/
def wmHolds (w : WMark) (space a : Nat) : Bool :=
  w.act && w.space.toNat = space && decide (w.base.toNat ≤ a / 32) && decide (a / 32 < w.endg.toNat) &&
    decide (w.limit.toNat ≤ a / 32)

/-- A timeline context by number. -/
def tlOf (c : Ctx) (n : Nat) : TlCtx :=
  match n with
  | 0 => c.t0
  | 1 => c.t1
  | 2 => c.t2
  | 3 => c.t3
  | 4 => c.t4
  | 5 => c.t5
  | _ => c.t6

/-- Replace a timeline context. -/
def setTl (c : Ctx) (n : Nat) (t : TlCtx) : Ctx :=
  match n with
  | 0 => { c with t0 := t }
  | 1 => { c with t1 := t }
  | 2 => { c with t2 := t }
  | 3 => { c with t3 := t }
  | 4 => { c with t4 := t }
  | 5 => { c with t5 := t }
  | _ => { c with t6 := t }

/-- Whether a read stalls, and if a failed channel holds it back the lowest stalled byte (R31). -/
inductive Stall
  | no
  | wait
  | failed (a : Nat)
  deriving DecidableEq, Repr

/-- The channels that hold a byte back. -/
def holders (c : Ctx) (space a : Nat) : List Nat :=
  [0, 1, 2, 3].filter fun n => wmHolds (wmOf c n) space a

/-- The lowest of a list of addresses. -/
def lowest : List Nat → Option Nat
  | [] => none
  | a :: r =>
    match lowest r with
    | none => some a
    | some b => some (min a b)

/-- The stall of a read of the given bytes (R30, R31). -/
def stallOf (c : Ctx) (space : Nat) (addrs : List Nat) : Stall :=
  let held := addrs.filter fun a => !(holders c space a).isEmpty
  if held.isEmpty then .no
  else
    if held.any fun a => (holders c space a).any fun n => (tlOf c n).failed.isSome then
      .failed ((lowest held).getD 0)
    else .wait

end Sys2Proof.Machine
end

