-- ==== Sys2Proof/Machine/Report.lean ====
section
/-! DEFINITION. What the device reports: MSI-X vectors (R405), IFERR (Table 18.4), the log rings (R228, R417),
the monitors (R399, R400), the Cobbler's scores and RELLOG (R370 to R373), and detections (R353). -/
namespace Sys2Proof.Machine
open Sys2Proof

/-! ### Record access -/

/-- Change the running context of the acting core. -/
def State.mapCtx (s : State) (f : Ctx → Ctx) : State := { s with core := { s.core with ctx := f s.core.ctx } }

/-- Replace the running context of the acting core. -/
def State.setCtx (s : State) (c : Ctx) : State := { s with core := { s.core with ctx := c } }

/-- Change the device. -/
def State.mapDev (s : State) (f : Device → Device) : State := { s with dev := f s.dev }

/-- A function's registers (Table 18.4). -/
def ifcOf (d : Device) (fn : Nat) : Ifc := look Ifc.zero d.ifcs fn

/-- Replace a function's registers. -/
def setIfc (d : Device) (fn : Nat) (r : Ifc) : Device := { d with ifcs := store Ifc.zero d.ifcs fn r }

/-- A run by its number. -/
def runOf (d : Device) (id : Nat) : Option Run := d.runs.find? fun r => r.id = id

/-- Replace a run. -/
def setRun (d : Device) (r : Run) : Device :=
  { d with runs := d.runs.map fun x => if x.id = r.id then r else x }

/-- A launch by its number. -/
def launchOf (d : Device) (id : Nat) : Option Launch := d.launches.find? fun l => l.id = id

/-- Replace a launch. -/
def setLaunch (d : Device) (l : Launch) : Device :=
  { d with launches := d.launches.map fun x => if x.id = l.id then l else x }

/-- The state of a die by socket. -/
def dieOf (d : Device) (sk : Nat) : Die := look Die.zero d.dies sk

/-- Replace the state of a die. -/
def setDie (d : Device) (sk : Nat) (x : Die) : Device := { d with dies := store Die.zero d.dies sk x }

/-- Whether a die is fenced: fenced, resetting, retired or without its domain (R384, R386). -/
def dieFenced (d : Device) (sk : Nat) : Bool :=
  let st := (dieOf d sk).state
  st = 4 || st = 5 || st = 7 || st = 8

/-- Whether a run has a core on a stack and has not given it back. -/
def stackBusy (d : Device) (sk : Nat) : Bool := d.runs.any fun r => r.cores.any fun p => p.1 = sk

/-- The runs with a core on a stack that is lost keep when it was, and the lowest CORE_ID there (R344, R372, R386). -/
def markLost (d : Device) (sk : Nat) : Device :=
  { d with runs := d.runs.map fun r => match r.cores.findIdx? fun p => p.1 = sk with
      | some id => if r.lost.isNone then { r with lost := some (d.clock, id) } else r
      | none => r }

/-- The sequence of R384 is asked for on a READY die; where no launch has a core on it, step 3 waits for no boundary. -/
def askQuiesce (d : Device) (sk : Nat) : Device :=
  let x := dieOf d sk
  if x.state = 2 && !x.ask then
    let d := markLost (setDie d sk { x with ask := true, direct := !stackBusy d sk }) sk
    { d with sun := { d.sun with want := true } }
  else d

/-! ### Vectors and IFERR -/

/-- Raise an MSI-X vector: sent when enabled and unmasked, else its pending bit is set (R405). -/
def raiseVec (d : Device) (fn vec : Nat) : Device :=
  let r := ifcOf d fn
  if r.msixEn && !r.fnMask && !r.masked.testBit vec then setIfc d fn { r with sent := r.sent + 1 }
  else setIfc d fn { r with pending := r.pending ||| 2 ^ vec }

/-- Set a bit of IFERR; vector 1 is raised when the bit becomes 1 (Tables 18.3, 18.4). -/
def setErr (d : Device) (fn bit : Nat) : Device :=
  let r := ifcOf d fn
  if r.iferr.toNat.testBit bit then d
  else raiseVec (setIfc d fn { r with iferr := r.iferr ||| BitVec.ofNat 64 (2 ^ bit) }) fn 1

/-! ### Rings -/

/-- One event enters a ring of `cap` slots, or is counted lost when the ring is full (R228, R417), modulo 2^32. DESIGN CHOICE, log
entry 114. -/
def ringPush (r : Ring) (cap : Nat) (e : LogEntry) : Ring :=
  if (r.wptr + 1) % cap = r.rptr then { r with lost := (r.lost + 1) % 2 ^ 32 }
  else { r with wptr := (r.wptr + 1) % cap, ents := store 0 r.ents r.wptr e }

/-- An empty hub. -/
def Hub.zero : Hub := ⟨[], [], Ring.zero, Ring.zero⟩

/-- A hub's state. -/
def hubOf (d : Device) (m : Nat) : Hub := look Hub.zero d.hubs m

/-- Replace a hub's state. -/
def setHub (d : Device) (m : Nat) (h : Hub) : Device := { d with hubs := store Hub.zero d.hubs m h }

/-- The hub that serves an HBM stack or its own window: stacks 4m to 4m + 3 belong to hub Mm. -/
def hubOfStack (st : Nat) : Nat := st / 4

/-- A STKLOG entry (Table 8.8). -/
def stkEntry (d : Device) (src chan pa kind mode nsym ifc eng : Nat) : LogEntry :=
  BitVec.ofNat 256 (d.clock % 2 ^ 64 + src * 2 ^ 64 + chan * 2 ^ 72 + pa * 2 ^ 80 + kind * 2 ^ 128 +
    mode * 2 ^ 132 + nsym * 2 ^ 134 + ifc * 2 ^ 136 + eng * 2 ^ 142)

/-- Log into a hub's STKLOG. -/
def stkLog (d : Device) (hub : Nat) (e : LogEntry) : Device :=
  let h := hubOf d hub
  setHub d hub { h with stk := ringPush h.stk 4096 e }

/-- An XFRLOG entry (Table 8.9). -/
def xfrEntry (d : Device) (st chan lane dir consec action attempt pa : Nat) : LogEntry :=
  BitVec.ofNat 256 (d.clock % 2 ^ 64 + st * 2 ^ 64 + chan * 2 ^ 68 + lane * 2 ^ 73 + dir * 2 ^ 80 +
    min consec 7 * 2 ^ 81 + action * 2 ^ 84 + attempt * 2 ^ 87 + pa * 2 ^ 91)

/-- Log into a hub's XFRLOG. -/
def xfrLog (d : Device) (hub : Nat) (e : LogEntry) : Device :=
  let h := hubOf d hub
  setHub d hub { h with xfr := ringPush h.xfr 4096 e }

/-! ### Monitors (R399, R400) -/

/-- The bin of a sample. -/
def binOf (v : Nat) : Nat := if v = 0 then 0 else min 15 (Nat.log2 v + 1)

/-- A record after a sample. -/
def addSample (r : MonRec) (v : Nat) : MonRec :=
  { count := min (2 ^ 64 - 1) (r.count + 1), sum := min (2 ^ 64 - 1) (r.sum + v), min := Nat.min r.min v
    max := Nat.max r.max v
    bins := store 0 r.bins (binOf v) (Nat.min (2 ^ 32 - 1) (look 0 r.bins (binOf v) + 1)) }

/-- A monitor takes a sample: below 0 it is 0, above 2^32 - 1 that; none while FREEZE holds, and in a hold only the droop
monitors sample. -/
def sample (d : Device) (x : Nat) (v : Int) : Device :=
  if d.mgmt.monFreeze || (d.sun.parked && !(decide (19 ≤ x) && decide (x ≤ 22))) then d
  else
    let n := min (2 ^ 32 - 1) v.toNat
    { d with mgmt := { d.mgmt with
        mons := store MonRec.zero d.mgmt.mons x (addSample (look MonRec.zero d.mgmt.mons x) n) } }

/-! ### The Cobbler -/

/-- The launch an event concerns, as RELLOG names it: interface, queue, slot, replica (Table 15.9). -/
structure Who where
  ifc : Nat
  queue : Nat
  slot : Nat
  replica : Nat
  deriving DecidableEq, Repr

/-- No launch. -/
def Who.none : Who := ⟨0, 0, 0, 0⟩

/-- The REPLICA code of a role (Table 15.9). -/
def roleCode : Role → Nat
  | .primary => 0
  | .secondary => 1
  | .tieBreak => 2
  | .rerun => 3

/-- The launch of a run, as RELLOG names it. -/
def whoOf (d : Device) (run : Nat) : Who :=
  match runOf d run with
  | none => Who.none
  | some r =>
    match launchOf d r.launch with
    | none => ⟨0, 0, 0, roleCode r.role⟩
    | some l => ⟨l.ifc, l.queue, l.slot, roleCode r.role⟩

/-- A RELLOG entry (Table 15.9). -/
def relEntry (d : Device) (event stack : Nat) (w : Who) (score cause : Nat) : LogEntry :=
  BitVec.ofNat 256 (d.clock % 2 ^ 64 + event * 2 ^ 64 + stack * 2 ^ 68 + w.ifc * 2 ^ 72 + w.queue * 2 ^ 78 +
    w.slot * 2 ^ 91 + w.replica * 2 ^ 107 + score * 2 ^ 109 + cause * 2 ^ 125)

/-- One RELLOG event (R373). -/
def relLog (d : Device) (event stack : Nat) (w : Who) (cause : Nat) : Device :=
  let score := if event = 5 || event = 9 then 0 else look 0 d.mgmt.cbscore stack
  { d with mgmt := { d.mgmt with
      rellog := ringPush d.mgmt.rellog 1024 (relEntry d event stack w score cause) } }

/-- Retire a stack (R372 step 1): RETIRED, and the sequence of R384 is asked for, which handles its launches at the next boundary
and quiesces and resets it (steps 2 and 3). Step 4 is owed until then. -/
def retireStack (d : Device) (stack : Nat) (w : Who) : Device :=
  askQuiesce { d with mgmt := { d.mgmt with
    retired := store false d.mgmt.retired stack true
    retiring := d.mgmt.retiring ++ [(stack, w.ifc, w.queue, w.slot, w.replica)] } } stack

/-- The step 4 of a stack's retirement (R372): RELLOG event 8 and the management vector. -/
def retireLogged (d : Device) (stack : Nat) : Device :=
  let mine := d.mgmt.retiring.filter fun p => p.1 = stack
  let d := { d with mgmt := { d.mgmt with retiring := d.mgmt.retiring.filter fun p => p.1 ≠ stack } }
  mine.foldl (fun d p => raiseVec (relLog d 8 stack ⟨p.2.1, p.2.2.1, p.2.2.2.1, p.2.2.2.2⟩ 0) 0 2) d

/-- A scoring event (R370, R372). -/
def scoreEvent (d : Device) (event stack amount : Nat) (w : Who) (cause : Nat) : Device :=
  let sc := min 0xFFFF (look 0 d.mgmt.cbscore stack + amount)
  let d := { d with mgmt := { d.mgmt with cbscore := store 0 d.mgmt.cbscore stack sc } }
  let d := relLog d event stack w cause
  if d.mgmt.cbthr ≠ 0 && decide (d.mgmt.cbthr ≤ sc) && !look false d.mgmt.retired stack then
    retireStack d stack w
  else d

/-! ### Detections -/

/-- Whether one stopping event comes before another: the earlier ck, then the lower CORE_ID, then the lower
KIND (R344). -/
def haltBefore (a b : Nat × Nat × Nat) : Bool :=
  decide (a.1 < b.1) || (a.1 = b.1 && (decide (a.2.1 < b.2.1) ||
    (a.2.1 = b.2.1 && decide (a.2.2 / 2 ^ 20 < b.2.2 / 2 ^ 20))))

/-- The event that comes first of two (R344). -/
def firstEvent (a b : Nat × Nat × Nat) : Nat × Nat × Nat := if haltBefore b a then b else a

/-- Record an event that stops a run at its next boundary (R344). -/
def haltRun (r : Run) (ck id detail : Nat) : Run :=
  match r.halt with
  | none => { r with halt := some (ck, id, detail) }
  | some h => if haltBefore (ck, id, detail) h then { r with halt := some (ck, id, detail) } else r

/-- The detection of a launch-fault cause 0x40 to 0x43 on a core of a run (R353, Table 15.2): the stack is
scored, and the run stops from the next ck in class S or D, and in class N for a segment mismatch; the run keeps the ck of its first
detection. The retirement that the score may bring is no loss to a run that the detection itself stops (R344, R372). DEDUCED, log entry 117. -/
def detect (d : Device) (run sk id : Nat) (cls : PClass) (cause : Nat) : Device :=
  let d' := scoreEvent d (cause - 0x40) sk (if cause = 0x40 then 8 else 4) (whoOf d run) cause
  if cls ≠ .n || cause = 0x40 then
    match runOf d' run with
    | none => d'
    | some r =>
      setRun d' { haltRun r d.clock id (4 * 2 ^ 20 + cause) with
        lost := ((runOf d run).map (·.lost)).getD none
        detCk := some (r.detCk.getD d.clock)
        detStacks := if r.detStacks.contains sk then r.detStacks else sk :: r.detStacks
        abandonCause := some (firstEvent (r.abandonCause.getD (d.clock, id, 4 * 2 ^ 20 + cause)) (d.clock, id, 4 * 2 ^ 20 + cause)) }
  else d'

end Sys2Proof.Machine
end

