-- ==== Sys2Proof/Machine/Ops.lean ====
section
/-! DEFINITION. The named operations of the core: completing results (R15, R16, R25, R26, R132, R135), the reads
of issued loads (R157), faults in flight (R335), taking a trap and returning from one (R330 to R343), the control
segment (R354), and how an instruction issues (R24, R28, R32, R36, R60). -/
namespace Sys2Proof.Machine
open Sys2Proof

/-- What one step answers. -/
abbrev Out := Host.Outcome State Fault Refusal

/-! ### Signatures (R135, R358) -/

/-- res(x): the sum of the nibbles modulo 15 is x modulo 15 (R358). -/
def resOf (x : Nat) : Nat := x % 15

/-- The half-pipeline of element `i` of width `ew` bits (R135). -/
def halfOf (ew i : Nat) : Nat := (i * ew / 8 / 128) % 2

/-- Fold the active elements of half `h` among those listed, in increasing index (R135). -/
def foldHalf (ew act val h : Nat) : List Nat → Nat → Nat
  | [], sig => sig
  | i :: r, sig =>
    foldHalf ew act val h r
      (if act.testBit i && halfOf ew i = h then (2 * sig + resOf (elemOf val ew i)) % 15 else sig)

/-- SIGVh after a result. -/
def foldSig (g ew act val h : Nat) (sig : Word) : Word :=
  BitVec.ofNat 64 (foldHalf ew act val h (List.range (2048 * g / ew)) sig.toNat)

/-! ### Completing results -/

/-- The SECDED damage of a vector register after a write of its active elements: damaged cells stay (R206). -/
def errVAfter (e : Sparse Nat) (num ew act : Nat) : Sparse Nat :=
  e.filterMap fun p =>
    if p.1 / 256 = num then
      let lo := 64 * (p.1 % 256) / ew
      let n := max 1 (64 / ew)
      let bits := (act >>> lo) % 2 ^ n
      if bits = 0 then some p else (wordAfter p.2 (bits = ones n)).map fun x => (p.1, x)
    else some p

/-- A file whose words are all written: only damaged cells stay (R206). -/
def errWritten (e : Sparse Nat) : Sparse Nat := e.filterMap fun p => (wordAfter p.2 true).map fun x => (p.1, x)

/-- Errors move with the latches, and damaged cells stay where they are; the new latch is sound but for them. -/
def errQPush (e : Sparse Nat) : Sparse Nat :=
  (e.filter fun p => decide (p.2 < 3) && decide (p.1 < 7 * 256)).foldl
    (fun t p => if look 0 t (p.1 + 256) = 0 then store 0 t (p.1 + 256) p.2 else t) (errWritten (e.filter fun p => decide (3 ≤ p.2)))

/-- A vector result is written, enters the latches and folds (R15, R132, R135). -/
def completeVector (g : Nat) (c : Ctx) (num : Nat) (ws : Bool) (ew : Nat) (act : PReg) (val : VReg) : Ctx :=
  let n := 2048 * g / ew
  let a := act.toNat
  let v := val.toNat
  let c :=
    if ws then c
    else { c with
      vregs := store 0 c.vregs num (BitVec.ofNat 8192 (mergeElems ew a (look 0 c.vregs num).toNat v n))
      dirty := store false c.dirty num true
      errV := errVAfter c.errV num ew a }
  { c with
    lat := latchPush c.lat (BitVec.ofNat 8192 (mergeElems ew a 0 v n))
    errQ := errQPush c.errQ
    sigv0 := foldSig g ew a v 0 c.sigv0
    sigv1 := foldSig g ew a v 1 c.sigv1 }

/-- A predicate result; p0 discards it (R13). -/
def completePred (c : Ctx) (num : Nat) (v : PReg) : Ctx :=
  if num = 0 then c
  else { c with pregs := store 0 c.pregs num v
                errP := c.errP.filterMap fun p =>
                  if p.1 / 256 = num then (wordAfter p.2 true).map fun x => (p.1, x) else some p }

/-- One result completes: its destination is written and its flags are ORed into FPCTL (R25, R85). -/
def completeRes (g : Nat) (c : Ctx) (f : Flight) : Ctx :=
  let c' :=
    match f.res with
    | .scalar r v => setSreg c r v
    | .pred p v => completePred c p v
    | .vector n ws ew act val => completeVector g c n ws ew act val
  { c' with fpctl := fpctlOr c'.fpctl f.flags, ckFlags := c'.ckFlags ||| f.flags }

/-! ### The reads of issued loads -/

/-- The F32 maximum of a list of patterns, canonical NaN if any is a NaN (R295). -/
def maxF32 (l : List Nat) : Nat :=
  if l.any fun x => fpVal .f32 x = .nan then fpNan .f32
  else l.foldl (fun m x => (fpMinMax .f32 false (fpVal .f32 m) (fpVal .f32 x)).1) (fpSign .f32 true (fpInfMag .f32))

/-- What AMXRD answers for a 128-byte record (R295). -/
def amxResult (m : Memory) (a : Nat) (all : Bool) : Nat :=
  let head := readLe m (a + 0x78) 1
  if 11 < head then fpNan .f32
  else
    maxF32 (((List.range 12).filter fun k => all || k ≠ head).map fun k => readLe m (a + 0x48 + 4 * k) 4)

/-- The byte addresses an element access touches. -/
def elemBytes (ew a : Nat) : List Nat := (List.range (max 1 (ew / 8))).map (a + ·)

/-- The bits an element reads: for a 4-bit type the nibble its index selects. -/
def elemRead (m : Memory) (ew : Nat) (p : Nat × Nat) : Nat :=
  if ew = 4 then (readLe m p.2 1 >>> (4 * (p.1 % 2))) % 16 else readLe m p.2 (ew / 8)

/-- The elements of a vector load, each in its place. -/
def elemsVal (m : Memory) (ew : Nat) : List (Nat × Nat) → Nat
  | [] => 0
  | p :: r => elemsVal m ew r ||| elemRead m ew p <<< (ew * p.1)

/-- The bytes of a load in read order. -/
def loadBytes : LoadReq → List Nat
  | .scalar a w _ => (List.range w).map (a + ·)
  | .vec _ ew el => el.flatMap fun p => elemBytes ew p.2
  | .amx a _ => (List.range 128).map (a + ·)

/-- The space a load reads. -/
def loadSpace : LoadReq → Nat
  | .vec true _ _ => 3
  | _ => 1

/-- The value a load reads. -/
def loadVal (m : Memory) : LoadReq → Nat
  | .scalar a w sg =>
    let x := readLe m a w
    if sg then (wrap64 (sxNat x (8 * w))).toNat else x
  | .vec _ ew el => elemsVal m ew el
  | .amx a all => amxResult m a all

/-- The invalid-line fault of a read: the lowest byte accessed in the first invalid line of the read order
(R112, R157, R208). -/
def invalidAt (g : Nat) (c : Ctx) (bytes : List Nat) : Option Nat :=
  match bytes.find? fun a => !lineOk g c a with
  | none => none
  | some a => lowest (bytes.filter fun b => b / 128 = a / 128)

/-- Perform the read of an issued load, if it has still to be made: the result takes its value, an
uncorrectable word becomes a fault at completion, and an invalid line a fault now (R157, R335, Table 14.3). -/
def performLoad (g : Nat) (c : Ctx) (f : Flight) : Flight × Option LateFault :=
  match f.load with
  | none => (f, none)
  | some q =>
    let bytes := loadBytes q
    let sp := loadSpace q
    let x := loadVal (memOf c sp) q
    let res :=
      match f.res with
      | .scalar r _ => Result.scalar r (BitVec.ofNat 64 x)
      | .pred p v => .pred p v
      | .vector n ws ew act _ => .vector n ws ew act (BitVec.ofNat 8192 x)
    let bad :=
      match f.bad with
      | some b => some b
      | none => (wordBad (errOf c sp) bytes).map fun w => ⟨0x13, memErrVal sp w⟩
    ({ f with res := res, load := none, bad := bad },
      if sp = 1 then (invalidAt g c bytes).map fun a => ⟨0x11, BitVec.ofNat 64 a⟩ else none)

/-! ### The start of an advancing ck (R24, R25, R335) -/

/-- Where a result in flight stands after the start of an advancing ck. -/
inductive Stand
  | keep (f : Flight)
  | done (f : Flight)
  | bad (f : Flight) (e : LateFault)
  deriving DecidableEq, Repr

/-- The invalid-line fault of a read already made, which is raised in the first advancing ck after the issue and not at
completion (R157, Table 14.3). -/
def lineFault (f : Flight) : Option LateFault := f.bad.filter fun e => e.cause = 0x11

/-- One result at the start of an advancing ck. -/
def standOf (g : Nat) (c : Ctx) (f : Flight) : Stand :=
  let (f', read) := performLoad g c f
  let now := read.or (lineFault f)
  let f' := { f' with due := f'.due - 1 }
  match now with
  | some e => .bad f' e
  | none =>
    if f'.due = 0 then
      match f'.bad with
      | some e => .bad f' e
      | none => .done f'
    else .keep f'

/-- Complete the results that are due, in program order (R16). -/
def completeAll (g : Nat) (c : Ctx) : List Stand → Ctx
  | [] => c
  | .done f :: r => completeAll g (completeRes g c f) r
  | _ :: r => completeAll g c r

/-- The results still in flight. -/
def keptOf : List Stand → List Flight
  | [] => []
  | .keep f :: r => f :: keptOf r
  | _ :: r => keptOf r

/-- The results that fault in this ck, oldest first. -/
def badOf : List Stand → List (Flight × LateFault)
  | [] => []
  | .bad f e :: r => (f, e) :: badOf r
  | _ :: r => badOf r

/-- The slots a trap of this ck would snapshot, in program order (R335, R338). -/
def slotsOf : List Stand → List Slot
  | [] => []
  | .keep f :: r => ⟨f, true⟩ :: slotsOf r
  | .bad f _ :: r => ⟨f, false⟩ :: slotsOf r
  | .done _ :: r => slotsOf r

/-- The start of an advancing ck: the results in flight, and the context once the due ones have completed. -/
def advance (g : Nat) (c : Ctx) : List Stand × Ctx :=
  let st := c.inflight.map (standOf g c)
  let c' := completeAll g { c with ckFlags := 0 } st
  (st, { c' with inflight := keptOf st })

/-! ### The control segment (R354, R355) -/

/-- One byte of the CRC-32C register (R355): eight single-bit steps. -/
def crcBits : Nat → Nat → Nat
  | 0, r => r
  | n + 1, r => crcBits n (if r % 2 = 1 then (r / 2) ^^^ 0x82F63B78 else r / 2)

/-- crc_byte of R355. -/
def crcByte (reg : Nat) (b : Nat) : Nat := crcBits 8 (reg ^^^ b)

/-- The register after a list of bytes. -/
def crcBytes (reg : Nat) (l : List Byte) : Nat := l.foldl (fun r b => crcByte r b.toNat) reg

/-- The register after an instruction word, byte 0 first (R355). -/
def crcWord (reg : BitVec 32) (w : Word) : BitVec 32 :=
  BitVec.ofNat 32 (crcBytes reg.toNat (toBytes 8 w.toNat))

/-- SEGCRC.REG: the base register after the words that may still be withdrawn (R354). -/
def segReg (c : Ctx) : BitVec 32 := c.segNew.foldl (fun r e => crcWord r e.word) c.segBase

/-- SEGCRC.NSEG (R354). -/
def segCount (c : Ctx) : Nat := (c.segOld + c.segNew.length) % 2 ^ 24

/-- Words of instructions that no longer have a result in flight cannot be withdrawn: they enter the base. -/
def segSettle (c : Ctx) : List SegEntry → BitVec 32 → Nat → Ctx
  | [], b, n => { c with segBase := b, segOld := n % 2 ^ 24, segNew := [] }
  | e :: r, b, n =>
    if c.inflight.any (·.serial ≤ e.serial) || c.snap.any (·.fl.serial ≤ e.serial) then
      { c with segBase := b, segOld := n % 2 ^ 24, segNew := e :: r }
    else segSettle c r (crcWord b e.word) (n + 1)

/-- The count an instruction that faulted in flight had added is withdrawn (R33, R342, R354). -/
def withdraw (c : Ctx) (f : Flight) : Ctx :=
  if f.counted then
    { c with issuecnt := c.issuecnt - 1, segNew := c.segNew.filter fun e => e.serial ≠ f.serial }
  else c

/-! ### Taking a trap (R330 to R339) -/

/-- A slot descriptor (Table 14.5); in a stall ck DUE counts one fewer, since the results due have not
completed (R338). -/
def slotDesc (stall : Bool) (x : Slot) : Nat :=
  let j := if stall then x.fl.due - 1 else x.fl.due
  let (kind, dest, ws) :=
    match x.fl.res with
    | .scalar r _ => (0, r.toNat, false)
    | .vector n ws _ _ _ => (1, n, ws)
    | .pred p _ => (2, p, false)
  j % 8 + kind * 8 + dest * 32 + b2n ws * 2 ^ 17 + b2n x.valid * 2 ^ 18 + x.fl.flags.toNat * 2 ^ 19 +
    x.fl.pc.toNat * 2 ^ 32

/-- DATA of a slot: the value of a scalar result that was not withheld (R338, Table 14.4). -/
def slotData (x : Slot) : Nat :=
  match x.fl.res with
  | .scalar _ v => if x.valid then v.toNat else 0
  | _ => 0

/-- The words of the frame (Table 14.4), 32 of them. -/
def frameWords (c : Ctx) (cycle : Word) (cause tpc val : Word) (fpc : Nat) (stall : Bool) (sl : List Slot) :
    List Nat :=
  let pad := fun (l : List Nat) (n : Nat) => l ++ List.replicate (n - l.length) 0
  [cause.toNat, tpc.toNat, val.toNat, fpc, c.issuecnt.toNat, cycle.toNat, c.fpctl.toNat, c.srcnt.toNat,
    c.sigv0.toNat, c.sigv1.toNat, c.rotcfg.toNat, c.vrb.toNat, c.prb.toNat, sl.length] ++
    pad (sl.map (slotDesc stall)) 8 ++ pad (sl.map slotData) 8 ++ [0, 0]

/-- The bytes of a list of 64-bit words. -/
def wordsBytes : List Nat → List Byte
  | [] => []
  | w :: r => toBytes 8 w ++ wordsBytes r

/-- TRAPCAUSE (Table 14.2): code, FLIGHT, MORE, INT. -/
def causeWord (code : Nat) (flight : Bool) (more : Nat) : Word :=
  BitVec.ofNat 64 (code + b2n flight * 256 + min more 15 * 4096 + (if 0x20 ≤ code then 2 ^ 63 else 0))

/-- Entry clears the live latches, the rotation and FPCTL, and enters S at TRAPVEC (R337 steps 4 to 6). A double-bit error of a latch is not
kept with it. DESIGN CHOICE, log entry 110. -/
def enterS (c : Ctx) (hold : Nat) : Ctx :=
  { c with lat := Latches.zero, errQ := errWritten c.errQ, rotcfg := 0, vrb := 0, prb := 0, fpctl := 1,
           priv := .s, pc := c.trapvec, hold := hold, phended := false }

/-- A slot whose read has still to be made reads before the handler's first access (R233); an invalid line
then faults in the stream's next advancing ck (Table 14.3). -/
def readSlot (g : Nat) (c : Ctx) (x : Slot) : Slot :=
  let (f, now) := performLoad g c x.fl
  { x with fl := { f with bad := match now with
      | some e => some e
      | none => f.bad } }

/-- Taking a trap at U (R337): cause registers, snapshot, frame, entry. `sl` are the results in flight, `tpc`
the resume position, `fpc` the address of the instruction that faulted in flight. The ck in which the trap is
taken is the first of the eight entry ck. -/
def takeTrap (g : Nat) (cycle : Word) (c : Ctx) (code : Nat) (val : Word) (tpc : Nat) (fpc : Option Nat)
    (more : Nat) (stall : Bool) (sl : List Slot) : Ctx :=
  let sl := (sl.take 8).map (readSlot g c)
  let cause := causeWord code fpc.isSome more
  let pcw := BitVec.ofNat 64 (tpc % 2 ^ 18)
  let words := frameWords c cycle cause pcw val (fpc.getD 0) stall sl
  let c := { c with
    trapcause := cause, trappc := pcw, trapval := val
    snap := sl.map fun x => { x with fl := { x.fl with due := (if stall then x.fl.due - 1 else x.fl.due) + 1 } }
    snapLat := c.lat, snapPh := c.phended, inflight := [] }
  enterS (storeLocal c 1 (wbytes (frameBase g c.metered) (wordsBytes words))) 7

/-- TRAPPC of a trap raised at issue: the address of the instruction at issue, and of a TRAP the address plus 8 (R128, R333). -/
def issuePc (c : Ctx) (code : Nat) : Nat := if code = 0x10 then c.pc.toNat + 8 else c.pc.toNat

/-- A trap raised at S is not resumed: the core stops, and the launch ends at the next boundary as FAULTED,
KIND 2 for TRAP and KIND 3 for any other cause (R331, Table 14.6). It writes TRAPCAUSE, TRAPPC and TRAPVAL as one at U does (R36, R59,
R333), and nothing else of an entry takes place. DEDUCED, log entry 59. -/
def trapAtS (clock : Nat) (c : Ctx) (code : Nat) (val : Word) (flight : Bool := false) (more : Nat := 0) : Ctx :=
  { c with
    trapcause := causeWord code flight more, trappc := BitVec.ofNat 64 (issuePc c code % 2 ^ 18), trapval := val
    stop := some (if code = 0x10 then .trapS (val.toNat % 65536) else .otherS code), stopCk := clock }

/-- The slots of the results in flight when nothing has been withheld. -/
def liveSlots (c : Ctx) : List Slot := c.inflight.map fun f => ⟨f, true⟩

/-- CYCLE of the acting core as a word. -/
def cycleOf (s : State) : Word := s.core.cycle

/-- A trap raised at issue by the acting core's stream (R332 to R334). -/
def trapIssue (s : State) (code : Nat) (val : Word) : State :=
  let c := s.core.ctx
  match c.priv with
  | .s => s.setCtx (trapAtS s.dev.clock c code val)
  | .u =>
    s.setCtx (takeTrap s.core.gang s.core.cycle c code val (issuePc c code) none 0 false (liveSlots c))

/-- A trap raised at issue in a stall ck: results due in it have not completed (R31, R338). -/
def trapStall (s : State) (code : Nat) (val : Word) : State :=
  let c := s.core.ctx
  match c.priv with
  | .s => s.setCtx (trapAtS s.dev.clock c code val)
  | .u => s.setCtx (takeTrap s.core.gang s.core.cycle c code val c.pc.toNat none 0 true (liveSlots c))

/-! ### Interrupts (R336) -/

/-- Whether the device is in an exchange superstep (R174). -/
def exchange (s : State) : Bool := s.dev.sun.phase.toNat.testBit 0

/-- TMCTL.ARM. -/
def tmArm (c : Ctx) : Bool := c.tmctl.toNat.testBit 0

/-- TMCTL.PEND. -/
def tmPend (c : Ctx) : Bool := c.tmctl.toNat.testBit 1

/-- The timer fires: PEND 1, ARM 0 (R130). -/
def timerFires (cycle : Word) (c : Ctx) : Ctx :=
  if tmArm c && decide (c.timecmp.toNat ≤ cycle.toNat) then { c with tmctl := 2 } else c

/-- The lowest context whose engine-stop interrupt is pending (R336). -/
def stopPending (c : Ctx) : Option Nat :=
  (List.range 7).find? fun n => (tlOf c n).stopPend

/-- A pending interrupt: code, TRAPVAL, and the context with it no longer pending (R334, R336). -/
def interruptOf (c : Ctx) : Option (Nat × Word × Ctx) :=
  match stopPending c with
  | some n =>
    let t := tlOf c n
    some (0x20, BitVec.ofNat 64 (t.stopVa.toNat % 2 ^ 56 + n * 2 ^ 60), setTl c n { t with stopPend := false })
  | none => if tmPend c then some (0x21, 0, { c with tmctl := c.tmctl &&& 1 }) else none

/-- Whether the stream is one that takes interrupts in this ck: at U in a compute superstep (R336). -/
def mayInterrupt (s : State) : Bool := s.core.ctx.priv = .u && !exchange s

/-! ### Returning from a trap (R341, R343) -/

/-- Word `k` of the frame as it stands in memory. -/
def frameWord (g : Nat) (c : Ctx) (k : Nat) : Nat := readLe c.scr (frameBase g c.metered + 8 * k) 8

/-- Whether the restored words may stand in their registers (R341). -/
def restoreOk (g : Nat) (c : Ctx) : Bool :=
  rotOk (BitVec.ofNat 64 (frameWord g c 10) &&& rotMask) && fpctlOk (BitVec.ofNat 64 (frameWord g c 6)) &&
    decide (frameWord g c 8 % 16 ≤ 14) && decide (frameWord g c 9 % 16 ≤ 14)

/-- The frame words that TRET reads: the restored words, and of each scalar slot its descriptor and DATA (R341). -/
def frameReads (c : Ctx) : List Nat :=
  [6, 7, 8, 9, 10, 11, 12] ++ (c.snap.zip (List.range c.snap.length)).flatMap fun p =>
    match p.1.fl.res with
    | .scalar _ _ => [14 + p.2, 22 + p.2]
    | _ => []

/-- The first word TRET reads that holds a double-bit error (R206). -/
def frameBad (g : Nat) (c : Ctx) : Option Nat :=
  wordBad c.errScr ((frameReads c).map fun k => frameBase g c.metered + 8 * k)

/-- The results that TRET re-injects (R341): a scalar slot takes VALID and DATA from the frame. -/
def restoreSlots (g : Nat) (c : Ctx) : List Slot → Nat → List Flight
  | [], _ => []
  | x :: r, i =>
    match x.fl.res with
    | .scalar d _ =>
      if (frameWord g c (14 + i)).testBit 18 then
        { x.fl with res := .scalar d (BitVec.ofNat 64 (frameWord g c (22 + i)))
                    load := none
                    bad := if x.valid then x.fl.bad else none } :: restoreSlots g c r (i + 1)
      else restoreSlots g c r (i + 1)
    | _ => if x.valid then x.fl :: restoreSlots g c r (i + 1) else restoreSlots g c r (i + 1)

/-- The stream resumes at TRAPPC at U (R341). The exit ck are handler ck: a stream that had issued PHEND, with no result
left, has arrived in the ck after them (R175, R337). -/
def resumeU (g : Nat) (c : Ctx) : Ctx :=
  let slots := restoreSlots g c c.snap 0
  let rot := BitVec.ofNat 64 (frameWord g c 10) &&& rotMask
  { c with
    fpctl := BitVec.ofNat 64 (frameWord g c 6) &&& fpctlMask
    srcnt := BitVec.ofNat 64 (frameWord g c 7)
    sigv0 := BitVec.ofNat 64 (frameWord g c 8 % 16)
    sigv1 := BitVec.ofNat 64 (frameWord g c 9 % 16)
    rotcfg := rot
    vrb := reduceBase (BitVec.ofNat 64 (frameWord g c 11 % 2 ^ 11)) (rotNv rot)
    prb := reduceBase (BitVec.ofNat 64 (frameWord g c 12 % 2 ^ 5)) (rotNp rot)
    lat := c.snapLat
    errQ := errWritten c.errQ
    inflight := slots
    snap := []
    snapLat := Latches.zero
    phended := c.snapPh
    snapPh := false
    priv := .u
    pc := c.trappc.setWidth 18
    hold := if c.snapPh && slots.isEmpty then 8 else 7 }

/-- Chained entry (R343): the interrupt is taken without resuming the stream. -/
def chainedEntry (g : Nat) (c : Ctx) (code : Nat) (val : Word) : Ctx :=
  let cause := causeWord code false 0
  let words := [cause.toNat, c.trappc.toNat, val.toNat, 0]
  let c := { c with trapcause := cause, trapval := val }
  enterS (storeLocal c 1 (wbytes (frameBase g c.metered) (wordsBytes words))) 8

/-! ### Issue -/

/-- The instruction word at an address of instruction memory (R35). -/
def wordAt (c : Core) (a : Nat) : Word := BitVec.ofNat 64 (readLe c.imem a 8)

/-- The word standing at issue. -/
def wordNow (s : State) : Word := wordAt s.core s.core.ctx.pc.toNat

/-- Whether sequential issue would continue past the region of the current privilege (R36). -/
def seqBad (c : Ctx) : Bool :=
  match c.priv with
  | .u => decide (0x30000 ≤ c.pc.toNat + 8)
  | .s => decide (0x40000 ≤ c.pc.toNat + 8)

/-- The address of the next word. -/
def nextPc (c : Ctx) : Word := BitVec.ofNat 64 (c.pc.toNat + 8)

/-- The traps of a decoded instruction that continues to the next word, in the order of R60: sequential access
(R36), privilege, phase (R98, R189); then `k`. -/
def gate (s : State) (privOk phaseOk : Bool) (k : State → Out) : Out :=
  let c := s.core.ctx
  if seqBad c then .next (trapIssue s 0x01 (nextPc c))
  else if !privOk then .next (trapIssue s 0x04 (wordNow s))
  else if !phaseOk && c.priv = .u then .next (trapIssue s 0x05 (wordNow s))
  else k s

/-- An instruction legal at U and S, in both phases. -/
def gateAny (s : State) (k : State → Out) : Out := gate s true true k

/-- An instruction legal at U and S, at U only in a compute superstep. -/
def gateComp (s : State) (k : State → Out) : Out := gate s true (!exchange s) k

/-- An instruction legal at S only. -/
def gateS (s : State) (k : State → Out) : Out := gate s (s.core.ctx.priv = .s) true k

/-- Count an issued instruction (R32, R33, R354): ISSUECNT, and the segment unless the word is a SEGEND. -/
def countIssue (c : Ctx) (w : Word) (seg : Bool) : Ctx :=
  match c.priv with
  | .s => { c with serial := c.serial + 1 }
  | .u =>
    let c' := segSettle { c with issuecnt := c.issuecnt + 1, serial := c.serial + 1 } c.segNew c.segBase c.segOld
    if seg then { c' with segNew := c'.segNew ++ [⟨c.serial, w⟩] } else c'

/-- The instruction at issue issues and the next word stands at issue next (R28). -/
def issueNext (s : State) : Ctx :=
  let c := countIssue s.core.ctx (wordNow s) true
  { c with pc := c.pc + 8 }

/-- A result of the issuing instruction (R25). -/
def flightOf (c : Ctx) (lat : Nat) (res : Result) (fl : Flags) (load : Option LoadReq)
    (bad : Option LateFault) : Flight :=
  ⟨lat, res, fl, load, bad, c.pc, c.serial, c.priv = .u⟩

/-- The late fault of a register source (R206). -/
def srcFault (g : Nat) (c : Ctx) (srcs : List Src) : Option LateFault :=
  (srcsBad g c srcs).map fun v => ⟨0x13, v⟩

/-- Issue an instruction with a register result (R25). -/
def issueResult (s : State) (lat : Nat) (res : Result) (fl : Flags) (load : Option LoadReq)
    (bad : Option LateFault) : State :=
  let c := s.core.ctx
  let f := flightOf c lat res fl load bad
  let c' := issueNext s
  s.setCtx { c' with inflight := c'.inflight ++ [f] }

/-- Issue an instruction with a scalar result. -/
def issueScalar (s : State) (srcs : List Src) (sd : BitVec 6) (lat : Nat) (v : Word) (fl : Flags) : State :=
  issueResult s lat (.scalar sd v) fl none (srcFault s.core.gang s.core.ctx srcs)

/-- The detection or trap of a double-bit error met at issue by an instruction with no register result (R206,
R353): in classes S and D a detection and no trap, in class N trap 0x13. -/
def localErrIssue (s : State) (v : Word) : State :=
  let c := s.core.ctx
  let d := detect s.dev c.run s.core.sk c.coreId c.cls 0x42
  let s := { s with dev := d }
  if prot c then s else trapIssue s 0x13 v

/-- Issue an instruction with no register result, unless a register source it reads holds a double-bit error
(R206). -/
def issuePlain (s : State) (srcs : List Src) (f : Ctx → Ctx) : State :=
  match srcsBad s.core.gang s.core.ctx srcs with
  | some v => localErrIssue s v
  | none => s.setCtx (f (issueNext s))

end Sys2Proof.Machine
end

