-- ==== Sys2Proof/Machine/Scalar.lean ====
section
/-! DEFINITION. Scalar integer and address arithmetic (R100 to R106): opcodes 0x01 to 0x2E. Every form is legal
at U and S in both phases (R98) and has latency 1. -/
namespace Sys2Proof.Machine
open Sys2Proof

/-! ### Values (Table 4.2, R101, R103) -/

/-- A scalar result of latency 1, legal in every phase. -/
def aluOp (s : State) (srcs : List Src) (sd : BitVec 6) (v : Ctx → Word) : Out :=
  gateAny s fun s => .next (issueScalar s srcs sd 1 (v s.core.ctx) 0)

/-- A two-source form. -/
def alu2 (s : State) (sd sa sb : BitVec 6) (f : Word → Word → Word) : Out :=
  aluOp s [.s sa, .s sb] sd fun c => f (sreg c sa) (sreg c sb)

/-- A one-source form. -/
def alu1 (s : State) (sd sa : BitVec 6) (f : Word → Word) : Out :=
  aluOp s [.s sa] sd fun c => f (sreg c sa)

/-- An immediate form: b is the sign-extended immediate (R104). -/
def aluI (s : State) (sd sa : BitVec 6) (imm : BitVec 38) (f : Word → Word → Word) : Out :=
  aluOp s [.s sa] sd fun c => f (sreg c sa) (imm.signExtend 64)

/-- floor(signed(a) * signed(b) / 2^64). -/
def mulhVal (a b : Word) : Word := wrap64 ((a.toInt * b.toInt) / (2 ^ 64 : Int))

/-- floor(a * b / 2^64). -/
def mulhnVal (a b : Word) : Word := BitVec.ofNat 64 (a.toNat * b.toNat / 2 ^ 64)

/-- DIV (R101). -/
def divVal (a b : Word) : Word :=
  if b = 0 then BitVec.allOnes 64
  else if a.toInt = -(2 ^ 63) && b.toInt = -1 then a
  else wrap64 (a.toInt.tdiv b.toInt)

/-- DIVN (R101). -/
def divnVal (a b : Word) : Word := if b = 0 then BitVec.allOnes 64 else BitVec.ofNat 64 (a.toNat / b.toNat)

/-- REM (R101). -/
def remVal (a b : Word) : Word :=
  if b = 0 then a
  else if a.toInt = -(2 ^ 63) && b.toInt = -1 then 0
  else wrap64 (a.toInt - b.toInt * a.toInt.tdiv b.toInt)

/-- REMN (R101). -/
def remnVal (a b : Word) : Word := if b = 0 then a else BitVec.ofNat 64 (a.toNat - b.toNat * (a.toNat / b.toNat))

/-- b AND 63, the shift amount (R100). -/
def shAmt (b : Word) : Nat := b.toNat % 64

/-- SHL. -/
def shlVal (a b : Word) : Word := a <<< shAmt b

/-- SHR. -/
def shrVal (a b : Word) : Word := a >>> shAmt b

/-- SRA. -/
def sraVal (a b : Word) : Word := a.sshiftRight (shAmt b)

/-- A Bool as a word. -/
def boolWord (b : Bool) : Word := if b then 1 else 0

/-- SLT. -/
def sltVal (a b : Word) : Word := boolWord (decide (a.toInt < b.toInt))

/-- SLTN. -/
def sltnVal (a b : Word) : Word := boolWord (decide (a.toNat < b.toNat))

/-- SEQ. -/
def seqVal (a b : Word) : Word := boolWord (a == b)

/-- The number of one bits among bits 0 to n - 1. -/
def popCount (x : Nat) : Nat → Nat
  | 0 => 0
  | n + 1 => popCount x n + b2n (x.testBit n)

/-- The number of leading zero bits of a 64-bit pattern. -/
def clzVal (a : Word) : Word := BitVec.ofNat 64 (if a = 0 then 64 else 63 - Nat.log2 a.toNat)

/-! ### Register forms -/

/-- ADD (Table 4.2). -/
def execAdd (sd sa sb : BitVec 6) (s : State) : Out := alu2 s sd sa sb (· + ·)
/-- SUB. -/
def execSub (sd sa sb : BitVec 6) (s : State) : Out := alu2 s sd sa sb (· - ·)
/-- MUL. -/
def execMul (sd sa sb : BitVec 6) (s : State) : Out := alu2 s sd sa sb (· * ·)
/-- MULH. -/
def execMulh (sd sa sb : BitVec 6) (s : State) : Out := alu2 s sd sa sb mulhVal
/-- MULHN. -/
def execMulhn (sd sa sb : BitVec 6) (s : State) : Out := alu2 s sd sa sb mulhnVal
/-- DIV (R101). -/
def execDiv (sd sa sb : BitVec 6) (s : State) : Out := alu2 s sd sa sb divVal
/-- DIVN (R101). -/
def execDivn (sd sa sb : BitVec 6) (s : State) : Out := alu2 s sd sa sb divnVal
/-- REM (R101). -/
def execRem (sd sa sb : BitVec 6) (s : State) : Out := alu2 s sd sa sb remVal
/-- REMN (R101). -/
def execRemn (sd sa sb : BitVec 6) (s : State) : Out := alu2 s sd sa sb remnVal
/-- AND. -/
def execAnd (sd sa sb : BitVec 6) (s : State) : Out := alu2 s sd sa sb (· &&& ·)
/-- OR. -/
def execOr (sd sa sb : BitVec 6) (s : State) : Out := alu2 s sd sa sb (· ||| ·)
/-- XOR. -/
def execXor (sd sa sb : BitVec 6) (s : State) : Out := alu2 s sd sa sb (· ^^^ ·)
/-- SHL. -/
def execShl (sd sa sb : BitVec 6) (s : State) : Out := alu2 s sd sa sb shlVal
/-- SHR. -/
def execShr (sd sa sb : BitVec 6) (s : State) : Out := alu2 s sd sa sb shrVal
/-- SRA. -/
def execSra (sd sa sb : BitVec 6) (s : State) : Out := alu2 s sd sa sb sraVal
/-- MIN. -/
def execMin (sd sa sb : BitVec 6) (s : State) : Out :=
  alu2 s sd sa sb fun a b => if a.toInt ≤ b.toInt then a else b
/-- MINN. -/
def execMinn (sd sa sb : BitVec 6) (s : State) : Out :=
  alu2 s sd sa sb fun a b => if a.toNat ≤ b.toNat then a else b
/-- MAX. -/
def execMax (sd sa sb : BitVec 6) (s : State) : Out :=
  alu2 s sd sa sb fun a b => if b.toInt ≤ a.toInt then a else b
/-- MAXN. -/
def execMaxn (sd sa sb : BitVec 6) (s : State) : Out :=
  alu2 s sd sa sb fun a b => if b.toNat ≤ a.toNat then a else b
/-- SLT. -/
def execSlt (sd sa sb : BitVec 6) (s : State) : Out := alu2 s sd sa sb sltVal
/-- SLTN. -/
def execSltn (sd sa sb : BitVec 6) (s : State) : Out := alu2 s sd sa sb sltnVal
/-- SEQ. -/
def execSeq (sd sa sb : BitVec 6) (s : State) : Out := alu2 s sd sa sb seqVal
/-- SEL (R102). -/
def execSel (sd sa sb sc : BitVec 6) (s : State) : Out :=
  aluOp s [.s sa, .s sb, .s sc] sd fun c => if sreg c sa ≠ 0 then sreg c sb else sreg c sc
/-- CLZ (R103). -/
def execClz (sd sa : BitVec 6) (s : State) : Out := alu1 s sd sa clzVal
/-- POPC (R103). -/
def execPopc (sd sa : BitVec 6) (s : State) : Out :=
  alu1 s sd sa fun a => BitVec.ofNat 64 (popCount a.toNat 64)
/-- SEXT (R103): bits [w-1:0] sign-extended. -/
def execSext (ty : Ty) (sd sa : BitVec 6) (s : State) : Out :=
  alu1 s sd sa fun a => wrap64 (sxNat a.toNat (tyBits ty))
/-- ZEXT (R103). -/
def execZext (ty : Ty) (sd sa : BitVec 6) (s : State) : Out :=
  alu1 s sd sa fun a => BitVec.ofNat 64 (a.toNat % 2 ^ tyBits ty)

/-! ### Immediate forms (Table 4.3) -/

/-- ADDI. -/
def execAddi (sd sa : BitVec 6) (imm : BitVec 38) (s : State) : Out := aluI s sd sa imm (· + ·)
/-- MULI. -/
def execMuli (sd sa : BitVec 6) (imm : BitVec 38) (s : State) : Out := aluI s sd sa imm (· * ·)
/-- ANDI. -/
def execAndi (sd sa : BitVec 6) (imm : BitVec 38) (s : State) : Out := aluI s sd sa imm (· &&& ·)
/-- ORI. -/
def execOri (sd sa : BitVec 6) (imm : BitVec 38) (s : State) : Out := aluI s sd sa imm (· ||| ·)
/-- XORI. -/
def execXori (sd sa : BitVec 6) (imm : BitVec 38) (s : State) : Out := aluI s sd sa imm (· ^^^ ·)
/-- SHLI. -/
def execShli (sd sa : BitVec 6) (imm : BitVec 6) (s : State) : Out :=
  alu1 s sd sa fun a => shlVal a (imm.setWidth 64)
/-- SHRI. -/
def execShri (sd sa : BitVec 6) (imm : BitVec 6) (s : State) : Out :=
  alu1 s sd sa fun a => shrVal a (imm.setWidth 64)
/-- SRAI. -/
def execSrai (sd sa : BitVec 6) (imm : BitVec 6) (s : State) : Out :=
  alu1 s sd sa fun a => sraVal a (imm.setWidth 64)
/-- SLTI. -/
def execSlti (sd sa : BitVec 6) (imm : BitVec 38) (s : State) : Out := aluI s sd sa imm sltVal
/-- SLTNI. -/
def execSltni (sd sa : BitVec 6) (imm : BitVec 38) (s : State) : Out := aluI s sd sa imm sltnVal
/-- SEQI. -/
def execSeqi (sd sa : BitVec 6) (imm : BitVec 38) (s : State) : Out := aluI s sd sa imm seqVal
/-- LIMM (R105). -/
def execLimm (sd : BitVec 6) (imm : BitVec 44) (s : State) : Out :=
  aluOp s [] sd fun _ => imm.signExtend 64
/-- LIMMH (R105): reads its own destination. -/
def execLimmh (sd : BitVec 6) (imm : BitVec 20) (s : State) : Out :=
  aluOp s [.s sd] sd fun c => BitVec.ofNat 64 ((sreg c sd).toNat % 2 ^ 44 + imm.toNat * 2 ^ 44)
/-- ADDSC (R106). -/
def execAddsc (sd sa sb : BitVec 6) (sh : BitVec 3) (off : BitVec 29) (s : State) : Out :=
  aluOp s [.s sa, .s sb] sd fun c => sreg c sa + (sreg c sb <<< sh.toNat) + off.signExtend 64

end Sys2Proof.Machine
end

