-- ==== Sys2Proof/Machine/Branch.lean ====
section
/-! DEFINITION. Control transfers (R113 to R119): branches, LOOP, calls, returns, jumps and NOP. Legal at U and S,
at U only in a compute superstep, but for NOP (R98). -/
namespace Sys2Proof.Machine
open Sys2Proof

/-- The trap of a transfer to a target, the first of R36 that applies. -/
def targetTrap (c : Ctx) (t : Word) : Option Nat :=
  if 0x40000 ≤ t.toNat then some 0x01
  else if t.toNat % 8 ≠ 0 then some 0x02
  else
    match c.priv with
    | .u => if 0x30000 ≤ t.toNat then some 0x01 else none
    | .s => if t.toNat < 0x30000 then some 0x01 else none

/-- The checks of a control transfer in the order of R60: its target when it is taken (R36), sequential access
when it is not, phase (R98); then it issues with `k`. -/
def transfer (s : State) (taken : Bool) (target : Word) (k : State → Out) : Out :=
  let c := s.core.ctx
  if taken then
    match targetTrap c target with
    | some cause => .next (trapIssue s cause target)
    | none => if c.priv = .u && exchange s then .next (trapIssue s 0x05 (wordNow s)) else k s
  else gateComp s k

/-- The target of a BC branch: its address plus 8 * sx(OFF20, 20) (R113). -/
def bcTarget (c : Ctx) (off : BitVec 20) : Word := c.pc.setWidth 64 + (off.signExtend 64 <<< 3)

/-- The pc after a transfer. -/
def jumpTo (taken : Bool) (target : Word) (c : Ctx) : Ctx :=
  if taken then { c with pc := target.setWidth 18 } else c

/-- A branch with no result (R114, R115). -/
def branchOp (s : State) (srcs : List Src) (off : BitVec 20) (cond : State → Bool) : Out :=
  let t := bcTarget s.core.ctx off
  transfer s (cond s) t fun s => .next (issuePlain s srcs (jumpTo (cond s) t))

/-- A compare-and-branch (R114). -/
def branch2 (s : State) (sa sb : BitVec 6) (off : BitVec 20) (f : Word → Word → Bool) : Out :=
  branchOp s [.s sa, .s sb] off fun s => f (sreg s.core.ctx sa) (sreg s.core.ctx sb)

/-- B. -/
def execB (off : BitVec 20) (s : State) : Out := branchOp s [] off fun _ => true
/-- BEQ. -/
def execBeq (sa sb : BitVec 6) (off : BitVec 20) (s : State) : Out := branch2 s sa sb off fun a b => a == b
/-- BNE. -/
def execBne (sa sb : BitVec 6) (off : BitVec 20) (s : State) : Out := branch2 s sa sb off fun a b => a != b
/-- BLT. -/
def execBlt (sa sb : BitVec 6) (off : BitVec 20) (s : State) : Out :=
  branch2 s sa sb off fun a b => decide (a.toInt < b.toInt)
/-- BGE. -/
def execBge (sa sb : BitVec 6) (off : BitVec 20) (s : State) : Out :=
  branch2 s sa sb off fun a b => decide (b.toInt ≤ a.toInt)
/-- BLTN. -/
def execBltn (sa sb : BitVec 6) (off : BitVec 20) (s : State) : Out :=
  branch2 s sa sb off fun a b => decide (a.toNat < b.toNat)
/-- BGEN. -/
def execBgen (sa sb : BitVec 6) (off : BitVec 20) (s : State) : Out :=
  branch2 s sa sb off fun a b => decide (b.toNat ≤ a.toNat)

/-- Bits 0 to n - 1 of a predicate, n the element count of a type (R115). -/
def predElems (s : State) (ty : Ty) (p : BitVec 6) : Nat :=
  predOf s.core.gang s.core.ctx p % 2 ^ tyCount s.core.gang ty

/-- BANY (R115). -/
def execBany (ty : Ty) (pa : BitVec 6) (off : BitVec 20) (s : State) : Out :=
  branchOp s [.p pa] off fun s => predElems s ty pa ≠ 0
/-- BALL (R115). -/
def execBall (ty : Ty) (pa : BitVec 6) (off : BitVec 20) (s : State) : Out :=
  branchOp s [.p pa] off fun s => predElems s ty pa = ones (tyCount s.core.gang ty)

/-- LOOP (R22, R116): the count visible to the next instruction, both bases stepped, branch while the count is
not 0. -/
def execLoop (sa : BitVec 6) (off : BitVec 20) (s : State) : Out :=
  let n := sreg s.core.ctx sa - 1
  let t := bcTarget s.core.ctx off
  transfer s (n ≠ 0) t fun s =>
    .next ((issueScalar s [.s sa] sa 1 n 0).mapCtx fun c =>
      jumpTo (n ≠ 0) t { c with vrb := stepBase c.vrb (rotNv c.rotcfg), prb := stepBase c.prb (rotNp c.rotcfg) })

/-- CALL (R117). -/
def execCall (sa : BitVec 6) (off : BitVec 20) (s : State) : Out :=
  let t := bcTarget s.core.ctx off
  transfer s true t fun s => .next ((issueScalar s [] sa 1 (nextPc s.core.ctx) 0).mapCtx (jumpTo true t))

/-- CALLR (R117): the target is the value before the link is written. -/
def execCallr (sa sb : BitVec 6) (s : State) : Out :=
  let t := sreg s.core.ctx sb
  transfer s true t fun s => .next ((issueScalar s [.s sb] sa 1 (nextPc s.core.ctx) 0).mapCtx (jumpTo true t))

/-- A register jump (R118). -/
def jumpReg (s : State) (sb : BitVec 6) : Out :=
  let t := sreg s.core.ctx sb
  transfer s true t fun s => .next (issuePlain s [.s sb] (jumpTo true t))

/-- RET (R118). -/
def execRet (sb : BitVec 6) (s : State) : Out := jumpReg s sb
/-- JR (R118). -/
def execJr (sb : BitVec 6) (s : State) : Out := jumpReg s sb

/-- NOP (R119). -/
def execNop (s : State) : Out := gateAny s fun s => .next (issuePlain s [] id)

end Sys2Proof.Machine
end

