-- ==== Sys2Proof/Machine/Hbm.lean ====
section
/-! DEFINITION. Memory behind the hubs (R212, R216 to R228): the physical map, the sector modes and payloads, the
Reed-Solomon codes, overflow ways and the raw-coded pool, lane parity with spares, and the reads and writes a hub
makes, with their logs. -/
namespace Sys2Proof.Machine
open Sys2Proof

/-! ### The physical map (Table 8.4, R212) -/

/-- Bytes of HBM: frames 0 to 21,789,535. -/
def hbmBytes : Nat := 21789536 * 65536

/-- Whether a physical address exists (Table 8.4). -/
def paOk (pa : Nat) : Bool :=
  decide (pa < hbmBytes) ||
    (decide (0x800000000000 ≤ pa) && decide ((pa - 0x800000000000) / 0x8000000 < 4) &&
      decide ((pa - 0x800000000000) % 0x8000000 < 0x7F00000))

/-- Whether an address lies in a hub's SRAM window. -/
def paWin (pa : Nat) : Bool := decide (0x800000000000 ≤ pa)

/-- The hub of a window address. -/
def winHub (pa : Nat) : Nat := (pa - 0x800000000000) / 0x8000000

/-- The offset of a window address in its hub's window. -/
def winOff (pa : Nat) : Nat := (pa - 0x800000000000) % 0x8000000

/-- The HBM stack of an address. -/
def stackOf (pa : Nat) : Nat := pa / 65536 % 16

/-- The local chunk number of an address within its stack (R212). -/
def chunkOf (pa : Nat) : Nat := 256 * (pa / 65536 / 16) + pa % 65536 / 256

/-- The channel of an address. -/
def chanOf (pa : Nat) : Nat := chunkOf pa % 32

/-- A key for a stack's channel. -/
def chanKey (pa : Nat) : Nat := 32 * stackOf pa + chanOf pa

/-- A key for a stack's chunk. -/
def chunkKey (pa : Nat) : Nat := pa / 256

/-- The hub that owns an address (R217). -/
def hubFor (pa : Nat) : Nat := if paWin pa then winHub pa else hubOfStack (stackOf pa)

/-! ### GF(2^8) and the sector codes (R220) -/

/-- Multiplication in GF(2^8) modulo 0x11D, `n` bits of the second factor. -/
def gfMul (a b : Nat) : Nat → Nat
  | 0 => 0
  | n + 1 =>
    let r := gfMul a b n
    let r := if 256 ≤ 2 * r then (2 * r) ^^^ 0x11D else 2 * r
    if b.testBit (7 - n) then r ^^^ a else r

/-- a * b in GF(2^8). -/
def gf (a b : Nat) : Nat := gfMul a b 8

/-- alpha^n. -/
def gfPow : Nat → Nat
  | 0 => 1
  | n + 1 => gf (gfPow n) 2

/-- a^254, the inverse of a nonzero element. -/
def gfInv (a : Nat) : Nat := (List.range 253).foldl (fun x _ => gf x a) a

/-- The coefficients of g(x) = (x - a^0)(x - a^1)(x - a^2)(x - a^3) below x^4, highest first. -/
def rsGen : List Nat := [15, 54, 120, 64]

/-- The check bytes of a data word: the remainder of m(x) x^4 by g(x), coefficient of x^3 first (R220). -/
def rsCheck (data : List Nat) : List Nat :=
  data.foldl (fun rem b =>
    let fb := b ^^^ rem.headD 0
    let sh := rem.tail ++ [0]
    (sh.zip rsGen).map fun p => p.1 ^^^ gf fb p.2) [0, 0, 0, 0]

/-- The syndrome at alpha^k. -/
def rsSyn (k : Nat) (cw : List Nat) : Nat := cw.foldl (fun s b => gf s (gfPow k) ^^^ b) 0

/-- Change one symbol of a word. -/
def xorAt (cw : List Nat) (i e : Nat) : List Nat :=
  (cw.zip (List.range cw.length)).map fun p => if p.2 = i then p.1 ^^^ e else p.1

/-- Whether a word is a codeword. -/
def rsOk (cw : List Nat) : Bool := (List.range 4).all fun k => rsSyn k cw = 0

/-- Decode within distance 2 (R220): the corrected word and the number of symbols corrected. -/
def rsFix (cw : List Nat) : Option (List Nat × Nat) :=
  if rsOk cw then some (cw, 0)
  else
    let n := cw.length
    let s0 := rsSyn 0 cw
    let s1 := rsSyn 1 cw
    match (List.range n).find? fun i => rsOk (xorAt cw i s0) with
    | some i => some (xorAt cw i s0, 1)
    | none =>
      let pairs := (List.range n).flatMap fun i => (List.range i).map fun j => (i, j)
      let try2 := fun (p : Nat × Nat) =>
        let x := gfPow (n - 1 - p.1)
        let y := gfPow (n - 1 - p.2)
        let e2 := gf (s1 ^^^ gf s0 x) (gfInv (x ^^^ y))
        xorAt (xorAt cw p.1 (s0 ^^^ e2)) p.2 e2
      match pairs.find? fun p => rsOk (try2 p) with
      | some p => some (try2 p, 2)
      | none => none

/-! ### Sector modes (R218, R219); a sector is its 32 bytes as one little-endian number -/

/-- Word k of a sector. -/
def secWord (x k : Nat) : Nat := bitsOf x (32 * k) 32
/-- Halfword k of a sector. -/
def secHalf (x k : Nat) : Nat := bitsOf x (16 * k) 16
/-- Byte k of a sector. -/
def secByte (x k : Nat) : Nat := bitsOf x (8 * k) 8

/-- The fields h[14:7] of the sixteen halfwords. -/
def halfExps (x : Nat) : List Nat := (List.range 16).map fun k => bitsOf (secHalf x k) 7 8

/-- The greatest of a list of numbers. -/
def maxOf (l : List Nat) : Nat := l.foldl max 0
/-- The least of a list of numbers. -/
def minOf (l : List Nat) : Nat := l.foldl min (l.headD 0)

/-- The map code of a sector's data (Table 8.7): the first mode that applies. -/
def secMode (x : Nat) : Nat :=
  if (List.range 8).all fun k => let t := bitsOf (secWord x k) 27 5
                                 t = 0 || t = 31 then 1
  else if maxOf (halfExps x) - minOf (halfExps x) ≤ 31 then 2
  else if (List.range 32).all fun k => (secByte x k).testBit 7 = (secByte x k).testBit 6 then 3
  else 0

/-- A sum of fields, each at its place. -/
def placeAll (w : Nat) (f : Nat → Nat) (n : Nat) : Nat :=
  (List.range n).foldl (fun a k => a + f k * 2 ^ (w * k)) 0

/-- The payload P of a compressed sector (R219). -/
def secPayload (mode x : Nat) : Nat :=
  match mode with
  | 1 => placeAll 28 (fun k => secWord x k % 2 ^ 28) 8
  | 2 =>
    let b := minOf (halfExps x)
    b + 256 * placeAll 13 (fun k =>
      let h := secHalf x k
      bitsOf h 15 1 * 4096 + (bitsOf h 7 8 - b) * 128 + h % 128) 16
  | _ => placeAll 7 (fun k => secByte x k % 128) 32

/-- The data a payload decodes to (R219). -/
def secData (mode p : Nat) : Nat :=
  match mode with
  | 1 => placeAll 32 (fun k =>
      let v := bitsOf p (28 * k) 28
      if v.testBit 27 then v + 0xF * 2 ^ 28 else v) 8
  | 2 =>
    let b := p % 256
    placeAll 16 (fun k =>
      let f := bitsOf p (8 + 13 * k) 13
      bitsOf f 12 1 * 2 ^ 15 + ((bitsOf f 7 5 + b) % 256) * 128 + f % 128) 16
  | _ => placeAll 8 (fun k =>
      let v := bitsOf p (7 * k) 7
      if v.testBit 6 then v + 128 else v) 32

/-- The bytes of a number as a list of numbers. -/
def natBytes (n x : Nat) : List Nat := (toBytes n x).map BitVec.toNat

/-- The number of a list of byte values. -/
def ofNatBytes : List Nat → Nat
  | [] => 0
  | b :: r => b + 256 * ofNatBytes r

/-! ### Array access -/

/-- The 32 stored bytes of a sector as the array returns them: damaged cells flip bits (R224). -/
def arrayBytes (h : Hbm) (pa : Nat) : List Nat :=
  (List.range 32).map fun k => (byteAt h.mem (pa + k) ^^^ look 0 h.flip (pa + k)).toNat

/-- What a sector decodes to: data and symbols corrected, or nothing (R220, R223). -/
def secDecode (h : Hbm) (pa : Nat) : Option (Nat × Nat) :=
  let code := look 1 h.map (pa / 32)
  let stored := arrayBytes h pa
  if code ≠ 0 then (rsFix stored).map fun r => (secData code (ofNatBytes (r.1.take 28)), r.2)
  else if look false h.unprot (pa / 65536) then some (ofNatBytes stored, 0)
  else
    let chk := (List.range 4).map fun k => (byteAt h.ovf (pa / 32 * 4 + k)).toNat
    (rsFix (stored ++ chk)).map fun r => (ofNatBytes (r.1.take 32), r.2)

/-- Store a sector's data: in a frame of the raw-coded pool with RS(36,32), else encoded in its mode (R218, R222). -/
def secStore (h : Hbm) (pa x : Nat) : Hbm :=
  let code := if look 0 h.pool (pa / 65536) ≠ 0 then 0 else secMode x
  if code ≠ 0 then
    let p := natBytes 28 (secPayload code x)
    let all := p ++ rsCheck p
    { h with mem := setBytes h.mem pa (all.map (BitVec.ofNat 8)), map := store 1 h.map (pa / 32) code
             ovf := zeroRange h.ovf (pa / 32 * 4) 4 }
  else
    let d := natBytes 32 x
    { h with mem := setBytes h.mem pa (d.map (BitVec.ofNat 8)), map := store 1 h.map (pa / 32) 0
             ovf := if look false h.unprot (pa / 65536) then zeroRange h.ovf (pa / 32 * 4) 4
                    else setBytes h.ovf (pa / 32 * 4) ((rsCheck d).map (BitVec.ofNat 8)) }

/-- Whether a chunk holds an incompressible sector. -/
def chunkHasRaw (h : Hbm) (pa : Nat) : Bool :=
  (List.range 8).any fun k => look 1 h.map (pa / 256 * 8 + k) = 0

/-- Ways in use in the set of a chunk of its stack (R221). -/
def waysUsed (h : Hbm) (pa : Nat) : Nat :=
  (h.ways.filter fun p =>
    stackOf (256 * p.1) = stackOf pa && chunkOf (256 * p.1) % 2 ^ 22 = chunkOf pa % 2 ^ 22).length

/-- Frames of a stack in the raw-coded pool, or on their way there (R222). -/
def poolUsed (h : Hbm) (pa : Nat) : Nat :=
  (h.pool.filter fun p => p.1 % 16 = stackOf pa).length + (h.move.filter fun p => p.1 % 16 = stackOf pa).length

/-- Whether a frame is on its way into the pool: every access to it waits (R222). -/
def moving (d : Device) (pa : Nat) : Bool := look (0, 0) d.hbm.move (pa / 65536) ≠ (0, 0)

/-! ### Bursts and lanes (R226, R227, R376) -/

/-- A lane at reset. -/
def Lane.zero : Lane := ⟨0, 0⟩

/-- One erroring lane of a failed attempt: its new state, the spares, the logged CONSEC and ACTION. A lane whose count has passed 4
without a swap is swapped at its next error. DESIGN CHOICE, log entry 89. -/
def laneError (l : Lane) (spare attempt : Nat) : Lane × Nat × Nat × Nat :=
  let k := l.count + 1
  if attempt = 9 then (⟨k, l.on⟩, spare, k, 4)
  else if 4 ≤ k then
    let free0 := l.on = 0 && !spare.testBit 0 && !spare.testBit 2
    let free1 := !spare.testBit 1 && !spare.testBit 3 && l.on ≠ 2
    if free0 then (⟨0, 1⟩, spare ||| 1, k, 1)
    else if free1 then (⟨0, 2⟩, (if l.on = 1 then spare ||| 6 else spare ||| 2), k, 2)
    else (⟨k, l.on⟩, spare, k, 3)
  else (⟨k, l.on⟩, spare, k, 0)

/-- The lanes of a failed attempt, one log entry each; whether a lane was swapped. -/
def laneErrors (d : Device) (pa dir attempt mask : Nat) : List Nat → Bool → Device × Bool
  | [], sw => (d, sw)
  | i :: r, sw =>
    let key := chanKey pa * 64 + i
    let l := look Lane.zero d.hbm.lane key
    if mask.testBit i then
      let (l', sp, consec, action) := laneError l (look 0 d.hbm.spare (chanKey pa)) attempt
      let d := { d with hbm := { d.hbm with
        lane := store Lane.zero d.hbm.lane key l', spare := store 0 d.hbm.spare (chanKey pa) sp } }
      let d := xfrLog d (hubFor pa)
        (xfrEntry d (stackOf pa) (chanOf pa) i dir consec action attempt (pa / 256 * 256))
      laneErrors d pa dir attempt mask r (sw || action = 1 || action = 2)
    else
      laneErrors { d with hbm := { d.hbm with lane := store Lane.zero d.hbm.lane key { l with count := 0 } } }
        pa dir attempt mask r sw

/-- Whether a channel's traffic pauses for a lane swap (R227). -/
def channelPaused (d : Device) (pa : Nat) : Bool := decide (d.clock < look 0 d.hbm.pause (chanKey pa))

/-- A swap pauses the traffic of its channel for 1,024 ck, or until the recalibration is told (R227). -/
def pauseChannel (d : Device) (pa : Nat) : Device :=
  { d with hbm := { d.hbm with pause := store 0 d.hbm.pause (chanKey pa) (max d.clock (look 0 d.hbm.pause (chanKey pa)) + 1024) } }

/-- The attempts of a burst from attempt `a`, with `n` still allowed: whether one of them passed (R227). They are made in one event, and
a swap's pause holds back what the burst came to and every other access to the channel. DEDUCED, log entry 85. -/
def burstFrom (d : Device) (base dir a : Nat) : Nat → Device × Bool
  | 0 => (d, false)
  | n + 1 =>
    let key := chanKey base
    let (mask, rest) := match look [] d.hbm.noise key with
      | [] => (0, [])
      | m :: r => (m % 2 ^ 64, r)
    let d := { d with hbm := { d.hbm with noise := store [] d.hbm.noise key rest } }
    let (d, sw) := laneErrors d base dir a mask (List.range 64) false
    let d := if sw then pauseChannel d base else d
    if mask = 0 then (d, true) else burstFrom d base dir (a + 1) n

/-- A burst of a chunk in a direction (0 read, 1 write): nine attempts at most (R227, R376). -/
def burst (d : Device) (base dir : Nat) : Device × Bool := burstFrom d base dir 1 9

/-! ### Hub reads (R216, R224) -/

/-- The array ECC's report of a sector is logged (R226). -/
def eccLog (d : Device) (pa ifc eng : Nat) : Device :=
  let k := look 0 d.hbm.ecc (pa / 32)
  if k = 0 then d
  else stkLog d (hubFor pa) (stkEntry d (stackOf pa) (chanOf pa) (pa / 32 * 32) (k - 1)
    (look 1 d.hbm.map (pa / 32)) 0 ifc eng)

/-- Decode one sector of a chunk that has been transferred; its data and whether it was corrected (R220, R224). -/
def sectorRead (d : Device) (pa ifc eng : Nat) : Device × Option (Nat × Bool) :=
  let code := look 1 d.hbm.map (pa / 32)
  match secDecode d.hbm pa with
  | none => (stkLog d (hubFor pa) (stkEntry d (stackOf pa) (chanOf pa) pa 3 code 0 ifc eng), none)
  | some (x, 0) => (d, some (x, false))
  | some (x, n) => (stkLog d (hubFor pa) (stkEntry d (stackOf pa) (chanOf pa) pa 2 code n ifc eng), some (x, true))

/-- Decode sectors 0 to n - 1 of a chunk in increasing address. -/
def chunkSectors (d : Device) (base ifc eng : Nat) : Nat → Device × List (Option (Nat × Bool))
  | 0 => (d, [])
  | n + 1 =>
    let (d, l) := chunkSectors d base ifc eng n
    let (d, x) := sectorRead d (base + 32 * n) ifc eng
    (d, l ++ [x])

/-- Re-encode sectors of a chunk in the array from what they decode to (R224). -/
def restoreSectors (h : Hbm) (base : Nat) (ks : List Nat) : Hbm :=
  ks.foldl (fun h k =>
    match secDecode h (base + 32 * k) with
    | some (x, _) => secStore h (base + 32 * k) x
    | none => h) h

/-- The hub's write-back of a chunk's corrected sectors, a burst of its own; one that gives up leaves the sectors as they are (R224,
R227). -/
def writeBack (d : Device) (base : Nat) (ks : List Nat) : Device :=
  if ks.isEmpty then d
  else
    match burst d base 1 with
    | (d, true) => { d with hbm := restoreSectors d.hbm base ks }
    | (d, false) => d

/-- The sectors of a chunk that an access writes. -/
def HubOp.sectors : HubOp → List Nat
  | .read => []
  | .write ws => ws.map (·.k)
  | .amo pa _ _ _ _ => [pa % 256 / 32]
  | .put res => (res.filter (·.2.isSome)).map (·.1)

/-- The sectors of a chunk with a write pending in the hub's write queue: one of the accesses that wait there (R224). -/
def pendingSectors (waits : List HubWait) (base : Nat) : List Nat :=
  (waits.filter fun x => x.base = base).flatMap fun x => x.op.sectors

/-- Read a whole chunk as one burst: its eight sectors, none where uncorrectable (R224, R376). The array is accessed, and its
ECC reports, once (R226). A corrected sector is written back unless a write to it is `pending`: one that the access that reads is about to
make, or one that waits. -/
def chunkNow (d : Device) (base ifc eng : Nat) (pending : List Nat) : Device × List (Option Nat) :=
  match burst ((List.range 8).foldl (fun d k => eccLog d (base + 32 * k) ifc eng) d) base 0 with
  | (d, false) => (d, List.replicate 8 none)
  | (d, true) =>
    let (d, l) := chunkSectors d base ifc eng 8
    let fixed := (List.range 8).filter fun k =>
      ((l.getD k none).map (·.2)).getD false && !pending.contains k
    (writeBack d base fixed, l.map fun x => x.map (·.1))

/-- A read counted for its stack's latency monitor, which samples one in 64 (R399). -/
def countRead (d : Device) (pa : Nat) : Device :=
  { d with hbm := { d.hbm with reads := store 0 d.hbm.reads (stackOf pa) (look 0 d.hbm.reads (stackOf pa) + 1) } }

/-- SECDED of the words of a window granule that a test selects (R216): whether they read, with their log. -/
def winCheck (d : Device) (pa ifc eng : Nat) (sel : Nat → Bool) : Device × Bool :=
  let m := winHub pa
  let o := winOff pa
  (List.range 4).foldl (fun (r : Device × Bool) k =>
    let e := look 0 (hubOf r.1 m).winErr (o / 8 + k)
    if e = 0 || !sel k then r
    else (stkLog r.1 m (stkEntry r.1 0x10 0 (pa / 32 * 32) (if wordErr e then 7 else 6) 0 0 ifc eng),
      r.2 && !wordErr e)) (d, true)

/-- Whether an interposer link between a die and an address's hub is retraining, so that requests wait (R388). -/
def linkPaused (d : Device) (die pa : Nat) : Bool :=
  (look Die.zero d.dies (16 + hubFor pa)).retraining || (look Die.zero d.dies die).retraining

/-- The sector at a physical address among those of its chunk's burst. -/
def sectorOf (pa : Nat) (l : List (Option Nat)) : Option Nat := l.getD (pa % 256 / 32) none

/-! ### Hub writes (R216, R221 to R225) -/

/-- Nibble k of a granule. -/
def secNib (x k : Nat) : Nat := bitsOf x (4 * k) 4

/-- Replace the nibbles a mask selects among the 64 of a granule. -/
def mergeNib (old new mask : Nat) : Nat :=
  (List.range 64).foldl (fun a k => a + (if mask.testBit k then secNib new k else secNib old k) * 2 ^ (4 * k)) 0

/-- The nibble mask of a byte mask. -/
def nibMask (m : Nat) : Nat := (List.range 32).foldl (fun a k => a + (if m.testBit k then 3 * 4 ^ k else 0)) 0

/-- The nibble mask and data of writes within the granule at `g`. -/
def granuleOf (g : Nat) : List WByte → Nat → Nat → Nat × Nat
  | [], mask, data => (mask, data)
  | b :: r, mask, data =>
    let k := b.addr - g
    let m := b.nibs * 4 ^ k
    granuleOf g r (mask ||| m) (mergeNib data (b.val.toNat * 256 ^ k) m)

/-- The bytes of a granule that a nibble mask selects. -/
def granuleBytes (g mask data : Nat) : List WByte :=
  ((List.range 32).filter fun k => bitsOf mask (2 * k) 2 ≠ 0).map fun k =>
    ⟨g + k, bitsOf mask (2 * k) 2, BitVec.ofNat 8 (secByte data k)⟩

/-- What the place of a chunk's new data asks for, decided before anything is written (R221 to R223): nothing, a way, a move
of its frame into the pool, or that its frame be marked unprotected. -/
inductive Place
  | fits | way | move | bare
  deriving DecidableEq, Repr

/-- The place of new sector data for a chunk. -/
def placeOf (d : Device) (base : Nat) (news : List Nat) : Place :=
  let f := base / 65536
  if news.all (fun x => secMode x ≠ 0) || look 0 d.hbm.pool f ≠ 0 || look false d.hbm.unprot f ||
      look 0 d.hbm.ways (chunkKey base) ≠ 0 then .fits
  else if waysUsed d.hbm base < 16 then .way
  else if poolUsed d.hbm base < 40690 then .move
  else .bare

/-- The place is taken; `bare` is logged and reported to the Cobbler (R223). CHAN of its entry is that of the chunk written. DESIGN CHOICE,
log entry 115. -/
def takePlace (d : Device) (base ifc eng : Nat) (p : Place) : Device :=
  match p with
  | .way => { d with hbm := { d.hbm with ways := store 0 d.hbm.ways (chunkKey base) 1 } }
  | .bare =>
    let f := base / 65536
    let d := { d with hbm := { d.hbm with unprot := store false d.hbm.unprot f true } }
    relLog (stkLog d (hubFor base) (stkEntry d (stackOf base) (chanOf base) (f * 65536) 5 0 0 ifc eng)) 9 0 Who.none 0
  | _ => d

/-- What a sector holds after a write; none where its read-modify-write fails (R225). -/
def newSector (l : List (Option Nat)) (w : SecWr) : Option Nat :=
  if w.mask % 2 ^ 64 = ones 64 then some w.data else (l.getD w.k none).map fun old => mergeNib old w.data w.mask

/-- An answer not yet taken shows what a write of its chunk has put into the sectors it holds: its requester reads them as they stand
(R238, R239). DEDUCED, log entry 120. -/
def freshAnswer (base : Nat) (res : List (Nat × Option Nat)) (a : HubAnswer) : HubAnswer :=
  if a.base = base then
    { a with vals := a.vals.map fun v => if v.2.isSome then
        (match res.find? fun p => p.1 = v.1 && p.2.isSome with
          | some p => p
          | none => v) else v }
  else a

/-- Store sectors of a chunk whose place is settled; once they stand, the chunk's way is freed when no sector of it needs one (R221). -/
def putSectors (d : Device) (base : Nat) (res : List (Nat × Option Nat)) : Device :=
  let h := res.foldl (fun h p => match p.2 with
    | some x => secStore h (base + 32 * p.1) x
    | none => h) d.hbm
  let h := if chunkHasRaw h base then h else { h with ways := store 0 h.ways (chunkKey base) 0 }
  { d with hbm := { h with
      changed := h.changed ++ res.filterMap fun p => p.2.map fun x => (base + 32 * p.1, x)
      answers := h.answers.map (freshAnswer base res) } }

/-- The word of a granule at an address. -/
def wordIn (x pa : Nat) (ty : Ty) : Nat := bitsOf x (8 * (pa % 32)) (tyBits ty)

/-- The new word of an AAMO (R265). -/
def amoVal (op : AmoOp) (ty : Ty) (old b cmp : Nat) : Nat :=
  let w := tyBits ty
  let b := b % 2 ^ w
  match op with
  | .add => (old + b) % 2 ^ w
  | .min => if elemInt ty old ≤ elemInt ty b then old else b
  | .max => if elemInt ty b ≤ elemInt ty old then old else b
  | .and => old &&& b
  | .or => old ||| b
  | .xor => old ^^^ b
  | .swap => b
  | .cas => if old = cmp % 2 ^ w then b else old
  | .fadd => (fpAdd .f32 .rne 0 false (fpVal .f32 old) (fpVal .f32 b)).1

/-- A granule with a word replaced. -/
def putWord (x pa w v : Nat) : Nat :=
  mergeNib x (v * 2 ^ (8 * (pa % 32))) ((2 ^ (w / 4) - 1) * 2 ^ (2 * (pa % 32)))

/-- How far an access gets: it is done, or its write must wait for a move of its frame, with what is left to do. -/
inductive HubStep
  | done (d : Device) (vals : List (Nat × Option Nat))
  | move (d : Device) (op : HubOp)

/-- The write burst of an access whose sectors' new values are known; nothing is written when none is, or when the burst gives up
(R225, R227). -/
def putNow (d : Device) (base ifc eng : Nat) (res : List (Nat × Option Nat)) : HubStep :=
  let secs := res.filter fun p => decide (p.1 < 8)
  let news := secs.filterMap (·.2)
  if news.isEmpty then .done d res
  else
    match placeOf d base news with
    | .move => .move d (.put res)
    | pl =>
      match burst d base 1 with
      | (d, false) => .done d (res.map fun p => (p.1, none))
      | (d, true) => .done (putSectors (takePlace d base ifc eng pl) base secs) res

/-- An access to a chunk is made: each sector of a write is judged alone (R225, R248, R376). `later` are the sectors of the writes that wait
behind it. -/
def hubDo (d : Device) (base ifc eng : Nat) (later : List Nat) : HubOp → HubStep
  | .read =>
    let (d, l) := chunkNow (countRead d base) base ifc eng later
    .done d ((List.range 8).zip l)
  | .write ws =>
    if ws.all fun w => w.mask % 2 ^ 64 = ones 64 then putNow d base ifc eng (ws.map fun w => (w.k, some w.data))
    else
      let (d, l) := chunkNow (countRead d base) base ifc eng (ws.map (·.k) ++ later)
      putNow d base ifc eng (ws.map fun w => (w.k, newSector l w))
  | .amo pa op ty b cmp =>
    let (d, l) := chunkNow (countRead d base) base ifc eng (pa % 256 / 32 :: later)
    match sectorOf pa l with
    | none => .done d [(pa % 256 / 32, none)]
    | some x =>
      putNow d base ifc eng [(pa % 256 / 32, some (putWord x pa (tyBits ty) (amoVal op ty (wordIn x pa ty) b cmp))), (8, some x)]
  | .put res => putNow d base ifc eng res

/-! ### A requester and its hub (R222, R227, R388) -/

/-- How a hub access ends: it waits (a link or a channel that pauses, a frame on the move), it is done, or it fails. -/
inductive Hub3 (α : Type)
  | wait (d : Device)
  | done (d : Device) (x : α)
  | bad (d : Device)

/-- Whether a kept answer is one of a requester's, for a chunk. -/
def isAnswer (who : List Nat) (base : Nat) (x : HubAnswer) : Bool := x.who = who && x.base = base

/-- Whether a requester's access to a chunk waits at the hub. -/
def queuedAt (d : Device) (who : List Nat) (base : Nat) : Bool := d.hbm.waits.any fun x => x.asker.who = who && x.base = base

/-- Whether accesses to a frame wait: it is on the move, or some that came in the meantime have still to be made (R222). -/
def frameBusy (d : Device) (pa : Nat) : Bool := moving d pa || d.hbm.waits.any fun x => x.base / 65536 = pa / 65536

/-- An access joins those that wait at its hub, in the order of arrival; a fetch that nobody takes is made anew (R222). -/
def waitAtHub (d : Device) (a : Asker) (base : Nat) (op : HubOp) : Device :=
  if a.who.isEmpty then d else { d with hbm := { d.hbm with waits := d.hbm.waits ++ [⟨a, base, op⟩] } }

/-- An answer is kept for its requester. -/
def keepAnswer (d : Device) (who : List Nat) (base : Nat) (vals : List (Nat × Option Nat)) : Device :=
  if who.isEmpty then d else { d with hbm := { d.hbm with answers := d.hbm.answers ++ [⟨who, base, vals⟩] } }

/-- A frame begins to move into the raw-coded pool: at most 4,096 ck (R222). -/
def startMove (d : Device) (base : Nat) : Device :=
  { d with hbm := { d.hbm with move := store (0, 0) d.hbm.move (base / 65536) (d.clock + 4096, 0) } }

/-- A requester's access to a chunk of HBM. One that its channel's pause or a move of its frame has held up is made once, and answered
when the pause, or the move and the accesses before it, are over (R222, R227). -/
def hubAsk (d : Device) (a : Asker) (base : Nat) (op : HubOp) : Hub3 (List (Nat × Option Nat)) :=
  match d.hbm.answers.find? (isAnswer a.who base) with
  | some x =>
    if channelPaused d base then .wait d
    else .done { d with hbm := { d.hbm with answers := d.hbm.answers.filter (· ≠ x) } } x.vals
  | none =>
    if linkPaused d a.die base || queuedAt d a.who base then .wait d
    else if frameBusy d base then .wait (waitAtHub d a base op)
    else if channelPaused d base then .wait d
    else
      match hubDo d base a.ifc a.eng [] op with
      | .move d op => .wait (startMove (waitAtHub d a base op) base)
      | .done d vals =>
        if channelPaused d base && !a.who.isEmpty then .wait (keepAnswer d a.who base vals) else .done d vals

/-- An access that waits at its hub is made when its turn has come: its frame no longer moves, none before it waits for the same frame,
and its channel does not pause (R222). `later` are the accesses behind it. -/
def serveWait (d : Device) (x : HubWait) (later : List HubWait) : Device :=
  let keep := { d with hbm := { d.hbm with waits := d.hbm.waits ++ [x] } }
  if frameBusy d x.base || channelPaused d x.base then keep
  else
    match hubDo d x.base x.asker.ifc x.asker.eng (pendingSectors later x.base) x.op with
    | .move d op => startMove { d with hbm := { d.hbm with waits := d.hbm.waits ++ [{ x with op := op }] } } x.base
    | .done d vals => keepAnswer d x.asker.who x.base vals

/-- Accesses that wait are tried in order. -/
def serveEach (d : Device) : List HubWait → Device
  | [] => d
  | x :: later => serveEach (serveWait d x later) later

/-- Every access that waits at a hub is tried, in the order of arrival. -/
def serveWaits (d : Device) : Device := serveEach { d with hbm := { d.hbm with waits := [] } } d.hbm.waits

/-! ### Granules at their hubs -/

/-- The sectors of a read chunk. -/
def sectorVals (l : List (Nat × Option Nat)) : List (Option Nat) := l.map (·.2)

/-- Read the 32-byte granule at a physical address at its hub. -/
def hubGranule (d : Device) (a : Asker) (pa : Nat) : Hub3 Nat :=
  let pa := pa / 32 * 32
  if paWin pa then
    if linkPaused d a.die pa then .wait d
    else
      match winCheck d pa a.ifc a.eng (fun _ => true) with
      | (d, true) => .done d (readLe (hubOf d (winHub pa)).win (winOff pa) 32)
      | (d, false) => .bad d
  else
    match hubAsk d a (pa / 256 * 256) .read with
    | .wait d => .wait d
    | .bad d => .bad d
    | .done d l =>
      match sectorOf pa (sectorVals l) with
      | some x => .done d x
      | none => .bad d

/-- The sectors of a chunk: those of the burst just moved, or a burst of its own. -/
def chunkHeld (d : Device) (a : Asker) (pa : Nat) (held : Option (Nat × List (Option Nat))) : Hub3 (List (Option Nat)) :=
  let ask := match hubAsk d a (pa / 256 * 256) .read with
    | .wait d => Hub3.wait d
    | .bad d => .bad d
    | .done d l => .done d (sectorVals l)
  match held with
  | some (c, l) => if c = pa / 256 then .done d l else ask
  | none => ask

/-- Read a granule, from the burst of its chunk where that has just been moved (R376); answers the burst held now. -/
def readHeld (d : Device) (a : Asker) (pa : Nat) (held : Option (Nat × List (Option Nat))) :
    Hub3 (Nat × Option (Nat × List (Option Nat))) :=
  if paWin pa then
    match hubGranule d a pa with
    | .wait d => .wait d
    | .bad d => .bad d
    | .done d x => .done d (x, none)
  else
    match chunkHeld d a pa held with
    | .wait d => .wait d
    | .bad d => .bad d
    | .done d l =>
      match sectorOf pa l with
      | some x => .done d (x, some (pa / 256, l))
      | none => .bad d

/-- Whether a nibble mask of a granule takes in part of an 8-byte word and not the whole of it. -/
def partWord (mask k : Nat) : Bool := bitsOf mask (16 * k) 16 ≠ 0 && bitsOf mask (16 * k) 16 ≠ ones 16

/-- Write the masked nibbles of a granule of a hub's window; answers the granule's new value (R216). A write of part of an 8-byte word
reads the word: a corrected error is logged, and an uncorrectable one is logged and returned, with nothing of the granule written.
DESIGN CHOICE, log entry 88. -/
def windowPut (d : Device) (a : Asker) (pa mask data : Nat) : Hub3 Nat :=
  let pa := pa / 32 * 32
  if linkPaused d a.die pa then .wait d
  else
    match winCheck d pa a.ifc a.eng (partWord mask) with
    | (d, false) => .bad d
    | (d, true) =>
      let m := winHub pa
      let o := winOff pa
      let h := hubOf d m
      let bs := granuleBytes o mask data
      let win := putBytes h.win bs
      .done (setHub d m { h with win := win, winErr := errAfter h.winErr bs }) (readLe win o 32)

/-- The plain contents of a granule, without an access: what its hub would deliver; none where it would not. -/
def granuleSeen (d : Device) (pa : Nat) : Option Nat :=
  let pa := pa / 32 * 32
  if paWin pa then
    if (List.range 4).any fun k => wordErr (look 0 (hubOf d (winHub pa)).winErr (winOff pa / 8 + k)) then none
    else some (readLe (hubOf d (winHub pa)).win (winOff pa) 32)
  else (secDecode d.hbm pa).map (·.1)

/-- The plain contents of a granule, 0 where its hub would deliver none. -/
def granulePeek (d : Device) (pa : Nat) : Nat := (granuleSeen d pa).getD 0

/-! ### Moves into the raw-coded pool (R222), recalibration (R227) -/

/-- Re-encode one chunk of a frame that moves: read, decoded and written with RS(36,32); an uncorrectable sector keeps its
contents. -/
def moveChunk (d : Device) (base : Nat) : Device :=
  let (d, l) := chunkNow d base 0 5 (pendingSectors d.hbm.waits base)
  match burst d base 1 with
  | (d, false) => d
  | (d, true) =>
    let f := base / 65536
    let raw := { d.hbm with pool := store 0 d.hbm.pool f 1 }
    let h := (l.zip (List.range 8)).foldl (fun h p => match p.1 with
      | some x => secStore h (base + 32 * p.2) x
      | none => h) raw
    { d with hbm := { h with pool := store 0 h.pool f 0 } }

/-- The chunks of a moving frame from number `k` on; one whose channel pauses holds the rest up. Answers the next chunk to move. -/
def moveChunks (d : Device) (f k : Nat) : Nat → Device × Nat
  | 0 => (d, k)
  | n + 1 =>
    let base := 65536 * f + 256 * k
    if channelPaused d base then (d, k) else moveChunks (moveChunk d base) f (k + 1) n

/-- A frame's move ends: its chunks stand re-encoded, its ways are free, the pool directory records it, and STKLOG takes kind 4
(R222, Table 8.8); the accesses that waited for it are made in the order of their arrival. A channel that pauses holds the move
up. CHAN of the entry is that of the frame's first chunk. DESIGN CHOICE, log entry 115. -/
def moveDone (d : Device) (f : Nat) : Device :=
  let m := look (0, 0) d.hbm.move f
  match moveChunks d f m.2 (256 - m.2) with
  | (d, k) =>
    if k < 256 then { d with hbm := { d.hbm with move := store (0, 0) d.hbm.move f (m.1, k) } }
    else
      let pa := 65536 * f
      serveWaits (stkLog { d with hbm := { d.hbm with
          move := store (0, 0) d.hbm.move f (0, 0), pool := store 0 d.hbm.pool f 1
          ways := d.hbm.ways.filter fun p => p.1 / 256 ≠ f } }
        (hubFor pa) (stkEntry d (stackOf pa) (chanOf pa) pa 4 0 0 0 5))

/-- Every channel's traffic goes on. -/
def allGo (d : Device) : Device := { d with hbm := { d.hbm with pause := [] } }

/-- A frame's move is carried to its end, `n` steps at most: each moves at least one chunk. -/
def finishMove (d : Device) (f : Nat) : Nat → Device
  | 0 => d
  | n + 1 => if moving d (65536 * f) then finishMove (moveDone (allGo d) f) f n else d

/-- The hubs finish the transactions they hold: moves of frames, and the accesses that wait, one at least in each of `n` rounds (R396). It
takes no ck. DEDUCED, log entry 118. -/
def finishHubs (d : Device) : Nat → Device
  | 0 => d
  | n + 1 =>
    if d.hbm.move.isEmpty && d.hbm.waits.isEmpty then d
    else finishHubs (serveWaits (allGo ((d.hbm.move.map (·.1)).foldl (fun d f => finishMove d f 257) d))) n

/-- The recalibration of a channel is over: its traffic goes on (R227). -/
def channelGoes (d : Device) (chan : Nat) : Device := { d with hbm := { d.hbm with pause := store 0 d.hbm.pause chan 0 } }

end Sys2Proof.Machine
end

