-- ==== Sys2Proof/Machine/Csr.lean ====
section
/-! DEFINITION. The control and status registers (R124 to R126, Table 4.6): access rights, read values, the values a
write may not place, and what a write changes; CSRR to CSRWI and VROT (R127). -/
namespace Sys2Proof.Machine
open Sys2Proof

/-! ### Access (Table 4.6, R125) -/

/-- The rights of a CSR at U and at S: 0 no access, 1 RO, 2 RW. -/
def csrRights (n : Nat) : Nat × Nat :=
  if n = 0x000 then (1, 1)
  else if n = 0x001 then (1, 2)
  else if n = 0x002 then (1, 1)
  else if n = 0x008 || n = 0x009 || n = 0x00A then (1, 1)
  else if n = 0x010 || n = 0x011 || n = 0x012 then (2, 2)
  else if n = 0x018 || n = 0x019 || n = 0x01A then (2, 2)
  else if 0x020 ≤ n && n ≤ 0x023 then (1, 1)
  else if 0x028 ≤ n && n ≤ 0x02E then (1, 2)
  else if n = 0x030 then (2, 2)
  else if n = 0x031 then (1, 2)
  else if n = 0x032 || n = 0x033 || n = 0x038 then (2, 2)
  else if n = 0x040 || n = 0x041 || n = 0x042 then (1, 2)
  else if n = 0x048 || n = 0x049 || n = 0x050 || n = 0x051 || n = 0x052 then (0, 2)
  else if n = 0x060 || n = 0x061 then (1, 1)
  else (0, 0)

/-- Whether an access is allowed at a privilege. -/
def csrAllowed (p : Priv) (n : Nat) (wr : Bool) : Bool :=
  let r := match p with
    | .u => (csrRights n).1
    | .s => (csrRights n).2
  if wr then r = 2 else decide (1 ≤ r)

/-! ### Reading -/

/-- The word of a watermark register (Table 1.5). -/
def wmWord (w : WMark) : Word :=
  BitVec.ofNat 64 (w.limit.toNat + w.base.toNat * 2 ^ 18 + w.endg.toNat * 2 ^ 36 + w.space.toNat * 2 ^ 54 +
    b2n w.act * 2 ^ 63)

/-- VLEN (Table 1.10). -/
def vlenWord (g : Nat) : Word :=
  BitVec.ofNat 64 (64 * g + 128 * g * 2 ^ 16 + 256 * g * 2 ^ 32 + 512 * g * 2 ^ 48)

/-- SEGCRC (Table 15.3). -/
def segcrcWord (c : Ctx) : Word := BitVec.ofNat 64 ((segReg c).toNat + segCount c * 2 ^ 32)

/-- The value of a CSR in the ck of issue. -/
def csrRead (s : State) (n : Nat) : Word :=
  let c := s.core.ctx
  match n with
  | 0x000 => s.core.cycle
  | 0x001 => c.issuecnt
  | 0x002 => s.dev.sun.phase
  | 0x008 => vlenWord s.core.gang
  | 0x009 => BitVec.ofNat 64 s.core.gang
  | 0x00A => BitVec.ofNat 64 (c.coreId + c.ncore * 2 ^ 16)
  | 0x010 => c.rotcfg
  | 0x011 => c.vrb
  | 0x012 => c.prb
  | 0x018 => c.fpctl
  | 0x019 => c.seed
  | 0x01A => c.srcnt
  | 0x020 => wmWord c.wm0
  | 0x021 => wmWord c.wm1
  | 0x022 => wmWord c.wm2
  | 0x023 => wmWord c.wm3
  | 0x028 => c.t0.tlc
  | 0x029 => c.t1.tlc
  | 0x02A => c.t2.tlc
  | 0x02B => c.t3.tlc
  | 0x02C => c.t4.tlc
  | 0x02D => c.t5.tlc
  | 0x02E => c.t6.tlc
  | 0x030 => c.lscale
  | 0x031 => c.lsgen
  | 0x032 => c.lsgrow
  | 0x033 => c.cktol
  | 0x038 => c.diemask
  | 0x040 => segcrcWord c
  | 0x041 => c.sigv0
  | 0x042 => c.sigv1
  | 0x048 => c.timecmp
  | 0x049 => c.tmctl
  | 0x050 => c.trapcause
  | 0x051 => c.trappc
  | 0x052 => c.trapval
  | 0x060 => c.sswall
  | 0x061 => c.xwall
  | _ => 0

/-! ### Writing -/

/-- Whether a timeline context takes a write of its TLC (R256): a failed one, or one with nothing incomplete. -/
def tlcWritable (t : TlCtx) : Bool :=
  t.failed.isSome || (t.openOps = 0 && t.ops.isEmpty && t.tlc = t.closed)

/-- Whether a value may be written (R23, R84, R256, R359). -/
def csrOk (s : State) (n : Nat) (v : Word) : Bool :=
  let c := s.core.ctx
  if n = 0x010 then rotOk (v &&& rotMask)
  else if n = 0x018 then fpctlOk v
  else if n = 0x041 || n = 0x042 then decide (v.toNat ≤ 14)
  else if 0x028 ≤ n && n ≤ 0x02E then tlcWritable (tlOf c (n - 0x028))
  else true

/-- A register with the bits of a mask replaced; the others keep their value (R126). -/
def maskWrite (old v mask : Word) : Word := (old &&& ~~~mask) ||| (v &&& mask)

/-- ROTCFG written: both bases become 0 (R23). -/
def setRot (c : Ctx) (v : Word) : Ctx := { c with rotcfg := v &&& rotMask, vrb := 0, prb := 0 }

/-- A TLC written: TLC and CLOSED take the value, and the failure is cleared with its record and watermark
(R256). -/
def setTlc (c : Ctx) (n : Nat) (v : Word) : Ctx :=
  let c' := setTl c n { TlCtx.zero with closed := v, tlc := v, acquired := v.toNat }
  if n < 4 then setWm c' n WMark.zero else c'

/-- SEGCRC written (Table 15.3). -/
def setSegcrc (c : Ctx) (v : Word) : Ctx :=
  { c with segBase := v.setWidth 32, segOld := bitsOf v.toNat 32 24, segNew := [] }

/-- CKTOL written: EN and ACT are held in classes S and D (R316). -/
def ckTolMask (c : Ctx) : Word := if prot c then 0x3F else 0x33F

/-- What a CSR write changes (R126), in a context whose instruction has issued. -/
def csrWrite (n : Nat) (v : Word) (c : Ctx) : Ctx :=
  match n with
  | 0x001 => { c with issuecnt := v }
  | 0x010 => setRot c v
  | 0x011 => { c with vrb := reduceBase v (rotNv c.rotcfg) }
  | 0x012 => { c with prb := reduceBase v (rotNp c.rotcfg) }
  | 0x018 => { c with fpctl := fpctlWrite v c.ckFlags }
  | 0x019 => { c with seed := v }
  | 0x01A => { c with srcnt := v }
  | 0x028 => setTlc c 0 v
  | 0x029 => setTlc c 1 v
  | 0x02A => setTlc c 2 v
  | 0x02B => setTlc c 3 v
  | 0x02C => setTlc c 4 v
  | 0x02D => setTlc c 5 v
  | 0x02E => setTlc c 6 v
  | 0x030 => { c with lscale := maskWrite c.lscale v 0xFFFFFFFF }
  | 0x031 => { c with lsgen := maskWrite c.lsgen v 0xFFFF }
  | 0x032 => { c with lsgrow := maskWrite c.lsgrow v 0xFFFFFFFF }
  | 0x033 => { c with cktol := maskWrite c.cktol v (ckTolMask c) }
  | 0x038 => { c with diemask := maskWrite c.diemask v 0xFFFF }
  | 0x040 => setSegcrc c v
  | 0x041 => { c with sigv0 := v }
  | 0x042 => { c with sigv1 := v }
  | 0x048 => { c with timecmp := v }
  | 0x049 => { c with tmctl := (v &&& 1) ||| (c.tmctl &&& 2 &&& ~~~v) }
  | 0x050 => { c with trapcause := v &&& 0x800000000000F1FF }
  | 0x051 => { c with trappc := v &&& 0x3FFF8 }
  | 0x052 => { c with trapval := v }
  | _ => c

/-! ### The instructions (R126) -/

/-- A CSR access: `sd` receives the old value when given, and `v` computes the new value from the old one when it is
a write. A refused value raises the illegal-instruction trap and changes nothing. A register source with a
double-bit error withholds the result, or is met at issue where there is no result (R206). -/
def csrOp (s : State) (n : Nat) (srcs : List Src) (sd : Option (BitVec 6)) (v : Option (Word → Ctx → Word)) : Out :=
  gate s (csrAllowed s.core.ctx.priv n v.isSome) (!exchange s) fun s =>
    let old := csrRead s n
    let new := v.map fun f => f old s.core.ctx
    if (new.map (csrOk s n)).getD true then
      let put := fun c => match new with
        | some x => csrWrite n x c
        | none => c
      match sd with
      | none => .next (issuePlain s srcs put)
      | some r =>
        let s' := issueScalar s srcs r 1 old 0
        .next (if (srcFault s.core.gang s.core.ctx srcs).isSome then s' else s'.mapCtx put)
    else .next (trapIssue s 0x03 (wordNow s))

/-- CSRR. -/
def execCsrr (sd : BitVec 6) (csr : BitVec 12) (s : State) : Out := csrOp s csr.toNat [] (some sd) none
/-- CSRW. -/
def execCsrw (csr : BitVec 12) (sa : BitVec 6) (s : State) : Out :=
  csrOp s csr.toNat [.s sa] none (some fun _ c => sreg c sa)
/-- CSRX. -/
def execCsrx (sd : BitVec 6) (csr : BitVec 12) (sa : BitVec 6) (s : State) : Out :=
  csrOp s csr.toNat [.s sa] (some sd) (some fun _ c => sreg c sa)
/-- CSRS: a read access when SA is 0 (R125). -/
def execCsrs (sd : BitVec 6) (csr : BitVec 12) (sa : BitVec 6) (s : State) : Out :=
  csrOp s csr.toNat [.s sa] (some sd) (if sa = 0 then none else some fun old c => old ||| sreg c sa)
/-- CSRC: a read access when SA is 0 (R125). -/
def execCsrc (sd : BitVec 6) (csr : BitVec 12) (sa : BitVec 6) (s : State) : Out :=
  csrOp s csr.toNat [.s sa] (some sd) (if sa = 0 then none else some fun old c => old &&& ~~~(sreg c sa))
/-- CSRWI. -/
def execCsrwi (csr : BitVec 12) (imm : BitVec 16) (s : State) : Out :=
  csrOp s csr.toNat [] none (some fun _ _ => imm.setWidth 64)

/-- VROT (R127). -/
def execVrot (vrs : BitVec 9) (prs : BitVec 3) (s : State) : Out :=
  gateComp s fun s =>
    let v : Word := BitVec.ofNat 64 (vrs.toNat + prs.toNat * 2 ^ 16)
    if rotOk v then .next (issuePlain s [] fun c => setRot c v)
    else .next (trapIssue s 0x03 (wordNow s))

end Sys2Proof.Machine
end

