-- ==== Sys2Proof/Machine/Sys.lean ====
section
/-! DEFINITION. System instructions (R128 to R130, R341 to R343, R354 to R356, R188): TRAP, TRET, the timer,
SEGEND, SEGEND.NC, and the signature reads. -/
namespace Sys2Proof.Machine
open Sys2Proof

/-- TRAP (R128): at U in a compute superstep, or at S; it does not issue and does not continue to a next word. -/
def execTrap (code : BitVec 16) (s : State) : Out :=
  if s.core.ctx.priv = .u && exchange s then .next (trapIssue s 0x05 (wordNow s))
  else .next (trapIssue s 0x10 (code.setWidth 64))

/-- TRET (R129, R341, R343): it waits for the handler's own results, checks what it restores, and resumes the
stream at U or, when an interrupt is pending that may be taken, enters the handler again without reading the restored
words (R343). A TRAPPC at or above 0x3_0000 goes before a restored word that is illegal: DESIGN CHOICE, log entry 60. A
double-bit error in a word it reads comes after both (R206). -/
def execTret (s : State) : Out :=
  let c := s.core.ctx
  let g := s.core.gang
  if c.priv = .u then .next (trapIssue s 0x04 (wordNow s))
  else if !c.inflight.isEmpty then .next s
  else if 0x30000 ≤ c.trappc.toNat then .next (trapIssue s 0x01 c.trappc)
  else
    match (if exchange s || c.snapPh then none else interruptOf c) with
    | some (code, val, c') => .next (s.setCtx (chainedEntry g c' code val))
    | none =>
      if !restoreOk g c then .next (trapIssue s 0x03 (wordNow s))
      else
        match frameBad g c with
        | some w => .next (localErrIssue s (memErrVal 1 w))
        | none => .next (s.setCtx (resumeU g c))

/-- TMARM (R130). -/
def execTmarm (sa : BitVec 6) (s : State) : Out :=
  gateS s fun s =>
    let v := sreg s.core.ctx sa
    .next (issuePlain s [.s sa] fun c => { c with timecmp := v, tmctl := 1 })

/-- TMOFF (R130). -/
def execTmoff (s : State) : Out := gateS s fun s => .next (issuePlain s [] fun c => { c with tmctl := 0 })

/-! ### Control segments (R356) -/

/-- Issue a SEGEND: it is counted by ISSUECNT and not by the segment it closes; the next segment opens. -/
def segIssue (s : State) : State :=
  let c := countIssue s.core.ctx (wordNow s) false
  s.setCtx { c with pc := c.pc + 8, segBase := 0xFFFFFFFF, segOld := 0, segNew := [] }

/-- SEGEND: a count or CRC that differs is a detection, not a trap (R353, R356). -/
def execSegend (count : BitVec 24) (crc : BitVec 32) (s : State) : Out :=
  gate s (s.core.ctx.priv = .u) true fun s =>
    let c := s.core.ctx
    let s' := segIssue s
    if segCount c = count.toNat && (segReg c ^^^ 0xFFFFFFFF) = crc then .next s'
    else .next { s' with dev := detect s'.dev c.run s.core.sk c.coreId c.cls 0x40 }

/-- SEGEND.NC: closes the segment without a check. -/
def execSegendNc (_count : BitVec 24) (_crc : BitVec 32) (s : State) : Out :=
  gate s (s.core.ctx.priv = .u) true fun s => .next (segIssue s)

end Sys2Proof.Machine
end

