-- ==== Sys2Proof/Machine/Superstep.lean ====
section
/-! DEFINITION. Superstep and exchange instructions (R186 to R201): PHEND, XCYC, the transfers and their delivery into
inbound staging, and the signature reads (R361). -/
namespace Sys2Proof.Machine
open Sys2Proof

/-! ### Cycle tags (R187) -/

/-- TRAPVAL of a timetable deviation: XCLK and the tag. -/
def deviation (xclk : Nat) (tag : BitVec 16) : Word := BitVec.ofNat 64 (xclk % 2 ^ 32 + tag.toNat * 2 ^ 32)

/-- The exchange slack of a tagged instruction that has just reached issue (Table 17.7, monitor 18). -/
def markSlack (s : State) (tag : BitVec 16) : State :=
  if s.core.ctx.tagWait then s
  else
    let x := tag.toNat - s.core.xclk
    s.mapCtx fun c => { c with tagWait := true, slack := some (match c.slack with
      | some y => min x y
      | none => x) }

/-- A tagged instruction in an exchange superstep: it waits for its tag, issues at it, or deviates. -/
def atTag (s : State) (tag : BitVec 16) (k : State → Out) : Out :=
  let s := markSlack s tag
  if s.core.xclk < tag.toNat then .next s
  else
    let s := s.mapCtx fun c => { c with tagWait := false }
    if tag.toNat < s.core.xclk then .next (trapIssue s 0x06 (deviation s.core.xclk tag))
    else k s

/-- PHEND (R191): the core issues nothing further in the superstep. -/
def execPhend (tag : BitVec 16) (s : State) : Out :=
  gate s (s.core.ctx.priv = .u) true fun s =>
    let k := fun s => Host.Outcome.next (issuePlain s [] fun c => { c with phended := true })
    if exchange s then atTag s tag k else k s

/-- XCYC (R192). -/
def execXcyc (tag : BitVec 16) (s : State) : Out :=
  gate s (s.core.ctx.priv = .u) (exchange s) fun s => atTag s tag fun s => .next (issuePlain s [] id)

/-! ### Transfers (R193 to R197) -/

/-- A transfer as its operands name it. -/
structure Send where
  src : Nat
  daddr : Nat
  first : Nat
  cnt : Nat
  ngr : Nat
  bytes : Nat
  badBits : Bool
  badLen : Bool
  fromReg : Bool
  deriving DecidableEq, Repr

/-- XSEND (one target) or XSENDM (a range). -/
def sendOf (c : Ctx) (sa sb sc : BitVec 6) (multi : Bool) : Send :=
  let w := (sreg c sb).toNat
  let l := (sreg c sc).toNat
  let dcnt := bitsOf w 42 10
  { src := (sreg c sa).toNat, daddr := w % 2 ^ 22, first := bitsOf w 32 10, cnt := if multi then dcnt else 1
    ngr := l % 8192, bytes := 32 * (l % 8192)
    badBits := bitsOf w 22 10 ≠ 0 || bitsOf w 52 12 ≠ 0 || (!multi && dcnt ≠ 0) || l / 8192 ≠ 0
    badLen := l % 8192 = 0 || decide (4096 < l % 8192), fromReg := false }

/-- XSENDS. -/
def sendReg (c : Ctx) (sb : BitVec 6) : Send :=
  let w := (sreg c sb).toNat
  { src := 0, daddr := w % 2 ^ 22, first := bitsOf w 32 10, cnt := 1, ngr := 1, bytes := 8
    badBits := bitsOf w 22 10 ≠ 0 || bitsOf w 42 22 ≠ 0, badLen := false, fromReg := true }

/-- Whether any granule of a source is being filled at or above LIMIT (R30, R194). -/
def unfilled (c : Ctx) (src ngr : Nat) : Bool :=
  (List.range ngr).any fun k => !(holders c 1 (src + 32 * k)).isEmpty

/-- The first check of R194 that fails: cause and TRAPVAL. Of a misaligned source and destination the source address is the offending one:
DESIGN CHOICE, log entry 100. The address of an invalid line is that of the lowest source granule in one: DESIGN CHOICE, log entry
101. -/
def sendCheck (g : Nat) (c : Ctx) (x : Send) : Option (Nat × Word) :=
  let fb := frameBase g c.metered
  let al := if x.fromReg then 8 else 32
  if x.badBits then some (0x09, 1)
  else if x.badLen then some (0x09, 2)
  else if c.ncore ≤ x.first || x.cnt = 0 || decide (c.ncore < x.first + x.cnt) then some (0x09, 3)
  else if !x.fromReg && x.src % 32 ≠ 0 then some (0x07, BitVec.ofNat 64 x.src)
  else if x.daddr % al ≠ 0 then some (0x07, BitVec.ofNat 64 x.daddr)
  else if !x.fromReg && decide (fb < x.src + x.bytes) then some (0x08, BitVec.ofNat 64 (max x.src fb))
  else if fb < x.daddr + x.bytes then some (0x09, 4)
  else if !x.fromReg && unfilled c x.src x.ngr then some (0x09, 5)
  else if x.fromReg then none
  else
    match (List.range x.ngr).find? fun k => !lineOk g c (x.src + 32 * k) with
    | some k => some (0x11, BitVec.ofNat 64 (x.src + 32 * k))
    | none => none

/-- The stack of a core of a run, by CORE_ID. -/
def coreSeat (d : Device) (run id : Nat) : Nat × Nat :=
  match runOf d run with
  | some r => r.cores.getD id (0, 0)
  | none => (0, 0)

/-- Lbase (Table 7.4). -/
def latBase (a b : Nat × Nat) : Nat :=
  if a = b then 4
  else if a.1 = b.1 then 12
  else
    match max (a.1 / 4) (b.1 / 4) - min (a.1 / 4) (b.1 / 4) with
    | 0 => 40
    | 1 => 56
    | 2 => 72
    | _ => 88

/-- Start a transfer (R196): the port takes it when free, and its last granule is delivered at the end of ck D; the core
has not arrived before ck D + 1 (R191). -/
def startSend (d : Device) (xclk : Nat) (tag : BitVec 16) (x : Send) (bytes : List Byte) (c : Ctx) : Ctx :=
  let t0 := max xclk c.portFree
  let occ := (x.ngr + 1) / 2
  let targets := (List.range x.cnt).map (x.first + ·)
  let me := coreSeat d c.run c.coreId
  let lb := (targets.map fun t => latBase me (coreSeat d c.run t)).foldl max 0
  { c with
    portFree := t0 + occ
    xdone := max c.xdone (t0 + occ - 1 + lb + 2)
    xseq := c.xseq + 1
    transfers := c.transfers ++
      [⟨t0 + occ - 1 + lb, tag.toNat, c.coreId, c.xseq, targets, x.daddr, bytes, max 32 x.bytes⟩] }

/-- A transfer at its tag: the checks of R194, then it issues. Of several words of its source that hold double-bit errors the first that
the model finds is named, and before an error of a source register. DESIGN CHOICE, log entry 109. -/
def sendOp (s : State) (tag : BitVec 16) (srcs : List Src) (form : Ctx → Send) (val : Ctx → List Byte) : Out :=
  gate s (s.core.ctx.priv = .u) (exchange s) fun s => atTag s tag fun s =>
    let c := s.core.ctx
    let x := form c
    match sendCheck s.core.gang c x with
    | some (cause, v) => .next (trapIssue s cause v)
    | none =>
      match (if x.fromReg then none else rangeBad c.errScr x.src x.bytes) with
      | some w => .next (localErrIssue s (memErrVal 1 w))
      | none =>
        let bytes := if x.fromReg then val c else bytesAt c.scr x.src x.bytes
        .next (issuePlain s srcs (startSend s.dev s.core.xclk tag x bytes))

/-- XSEND. -/
def execXsend (sa sb sc : BitVec 6) (tag : BitVec 16) (s : State) : Out :=
  sendOp s tag [.s sa, .s sb, .s sc] (fun c => sendOf c sa sb sc false) fun _ => []
/-- XSENDM. -/
def execXsendm (sa sb sc : BitVec 6) (tag : BitVec 16) (s : State) : Out :=
  sendOp s tag [.s sa, .s sb, .s sc] (fun c => sendOf c sa sb sc true) fun _ => []
/-- XSENDS. -/
def execXsends (sa sb : BitVec 6) (tag : BitVec 16) (s : State) : Out :=
  sendOp s tag [.s sa, .s sb] (fun c => sendReg c sb) fun c => toBytes 8 (sreg c sa).toNat

/-! ### Delivery into staging (R196, R198) -/

/-- Change every core. -/
def State.mapCores (s : State) (f : Core → Core) : State := { s with core := f s.core, others := s.others.map f }

/-- Bytes enter a core's staging, counted against its capacity; the ck in which it first overflows is kept (R198, R344). -/
def stageIn (clock g : Nat) (bs : List Staged) (charge : Nat) (c : Ctx) : Ctx :=
  { c with staging := c.staging ++ bs, staged := c.staged + charge
           stOver := c.stOver.or (if 65536 * g < c.staged + charge then some clock else none) }

/-- The staged bytes of a transfer. -/
def stagedOf (t : Transfer) : List Staged :=
  (t.bytes.zip (List.range t.bytes.length)).map fun p => ⟨t.tag, t.sender, t.seq, t.daddr + p.2, 3, p.1⟩

/-- A transfer is delivered to its targets of a run. -/
def deliver (s : State) (run : Nat) (t : Transfer) : State :=
  s.mapCores fun k =>
    if k.mode = .active && k.ctx.run = run && t.targets.contains k.ctx.coreId then
      { k with ctx := stageIn s.dev.clock k.gang (stagedOf t) t.charge k.ctx }
    else k

/-- The end of an exchange ck of the acting core: its transfers due at this XCLK are delivered. -/
def deliverDue (s : State) : State :=
  let c := s.core.ctx
  let due := c.transfers.filter fun t => decide (t.due ≤ s.core.xclk)
  let s := s.mapCtx fun c => { c with transfers := c.transfers.filter fun t => decide (s.core.xclk < t.due) }
  due.foldl (fun s t => deliver s c.run t) s

/-- TRANSFER DELIVERY: the acting core's transfers whose delivery ck this is enter staging (R196). -/
def execTransferDelivery (s : State) : Out := .next (deliverDue s)

/-! ### Signature reads (R361) -/

/-- A signature read: latency 1, at U in a compute superstep only. -/
def sigOp (s : State) (sd : BitVec 6) (v : State → Word) : Out :=
  gateComp s fun s => .next (issueScalar s [] sd 1 (v s) 0)

/-- SIGRV. -/
def execSigrv (h : Bool) (sd : BitVec 6) (s : State) : Out :=
  sigOp s sd fun s => if h then s.core.ctx.sigv1 else s.core.ctx.sigv0
/-- SIGRC. -/
def execSigrc (sd : BitVec 6) (s : State) : Out := sigOp s sd fun s => segcrcWord s.core.ctx ^^^ 0xFFFFFFFF
/-- SIGRS: the launch signature so far, 0 in class N. -/
def execSigrs (sd : BitVec 6) (s : State) : Out :=
  sigOp s sd fun s =>
    match runOf s.dev s.core.ctx.run with
    | some r => if prot s.core.ctx then BitVec.ofNat 64 ((r.lreg ^^^ 0xFFFFFFFF).toNat + r.nss % 2 ^ 32 * 2 ^ 32) else 0
    | none => 0

end Sys2Proof.Machine
end

