-- ==== Sys2Proof/Machine/Timeline.lean ====
section
/-! DEFINITION. Timeline contexts (R254 to R262): closing batches, counting them, failures, joining operations;
TLCLOSE, TLREAD, TLWAIT, MARK, and ENDL (R120). -/
namespace Sys2Proof.Machine
open Sys2Proof

/-! ### Batches (R255, R257) -/

/-- The greatest n for which batches 1 to n are complete: below every closed batch with an operation left and below
the failed one. -/
def tlcReach (t : TlCtx) : Nat :=
  let held := (t.ops.filter fun o => o.batch ≠ 0).map (·.batch - 1)
  let lim := match t.failed with
    | some f => f - 1
    | none => t.closed.toNat
  held.foldl min (min t.closed.toNat lim)

/-- TLC after batches have completed; it never decreases. -/
def tlSettle (t : TlCtx) : TlCtx := { t with tlc := BitVec.ofNat 64 (max t.tlc.toNat (tlcReach t)) }

/-- The closed batches with an operation left below the failed one, each once. -/
def openBatches (t : TlCtx) : List Nat := ((t.ops.map (·.batch)).filter (· ≠ 0)).eraseDups

/-- The number of closed batches not yet complete (R255): from a failed batch on none completes, but for those above it that were
complete when it failed (R257). -/
def incomplete (t : TlCtx) : Nat :=
  match t.failed with
  | none => (openBatches t).length
  | some f => ((openBatches t).filter (· < f)).length + (t.closed.toNat + 1 - f - t.sound)

/-- Batch `b` fails: the closed batches above it that are complete stay so (R255, R257). -/
def markFailed (t : TlCtx) (b : Nat) (addr : Word) : TlCtx :=
  let top := match t.failed with
    | some f => f - 1
    | none => t.closed.toNat
  { t with
    failed := some b, failAddr := addr
    sound := t.sound + (top - b - ((openBatches t).filter fun x => decide (b < x) && decide (x ≤ top)).length) }

/-- Whether the open batch, once numbered, would be incomplete: it holds an operation not yet performed, or follows a
failure (R255, R257). -/
def openIncomplete (t : TlCtx) : Bool := t.failed.isSome || t.ops.any fun o => o.batch = 0

/-- Whether a close must wait: it would leave a 65th incomplete batch. -/
def closeWaits (t : TlCtx) : Bool := decide (64 ≤ incomplete t) && openIncomplete t

/-- The open batch is numbered (R255). -/
def tlClose (t : TlCtx) : TlCtx :=
  let n := t.closed.toNat + 1
  tlSettle { t with
    closed := BitVec.ofNat 64 n, openOps := 0
    ops := t.ops.map fun o => if o.batch = 0 then { o with batch := n } else o }

/-- The running context of the acting core, as engine operations name it. -/
def meRef (s : State) : CRef := ⟨s.core.sk, s.core.ix, s.core.ctx.part⟩

/-- Close the open batch of a context: buffered writes of the batch, and those its reads have returned, take its number. -/
def closeBatch (s : State) (n : Nat) : State :=
  let t := tlClose (tlOf s.core.ctx n)
  let me := meRef s
  let run := s.core.ctx.run
  let tag := fun (w : GWrite) =>
    if w.cref = me && w.run = run && w.ctx = n && w.batch = 0 then { w with batch := t.closed.toNat } else w
  let mark := fun (x : Seen) => if x.cref = me && x.ctx = n && x.batch = 0 then { x with batch := t.closed.toNat } else x
  { s.setCtx (setTl s.core.ctx n t) with
    dev := { s.dev with
      gbuf := store [] s.dev.gbuf s.core.sk ((look [] s.dev.gbuf s.core.sk).map tag), seen := s.dev.seen.map mark } }

/-- An operation leaves its context once performed; its batch may now be complete. -/
def opDone (t : TlCtx) (serial : Nat) : TlCtx :=
  tlSettle { t with ops := t.ops.filter fun o => o.serial ≠ serial }

/-- Replace an operation. -/
def opSet (t : TlCtx) (o : Op) : TlCtx :=
  { t with ops := t.ops.map fun x => if x.serial = o.serial then o else x }

/-- The number of an operation's batch: that of the open batch is the next one. -/
def batchNo (t : TlCtx) (o : Op) : Nat := if o.batch = 0 then t.closed.toNat + 1 else o.batch

/-- Whether the operations of a context run without order among themselves: memory requests and collectives (R245, R441). -/
def unordered (n : Nat) : Bool := n = 5 || n = 6

/-- A batch fails: the earliest failure stands; operations of later batches are discarded, and in a context whose
engine works in order every operation after the failed one (R257, R289). -/
def tlFail (n : Nat) (t : TlCtx) (batch serial : Nat) (addr : Word) : TlCtx :=
  let t := match t.failed with
    | some f => if f ≤ batch then t else markFailed t batch addr
    | none => markFailed t batch addr
  let keep := fun (o : Op) => o.serial ≠ serial && (if unordered n then decide (batchNo t o ≤ batch) else decide (o.serial < serial))
  tlSettle { t with ops := t.ops.filter keep }

/-- An operation joins the open batch of a context in the ck it issues; a failed context discards it (R254,
R257). -/
def joinOp (n : Nat) (what : EngOp) (serial : Nat) (pc : BitVec 18) (c : Ctx) : Ctx :=
  let t := tlOf c n
  let gone := match t.failed with
    | some f => !unordered n || decide (f < t.closed.toNat + 1)
    | none => false
  let t' := { t with openOps := t.openOps + 1 }
  setTl c n (if gone then t' else { t' with ops := t'.ops ++ [⟨serial, 0, what, pc, .fresh⟩] })

/-! ### TLCLOSE, TLREAD, MARK (R260, R262) -/

/-- TLCLOSE: closes even an empty batch. -/
def execTlclose (ctx : BitVec 3) (sd : BitVec 6) (s : State) : Out :=
  gateComp s fun s =>
    if closeWaits (tlOf s.core.ctx ctx.toNat) then .next s
    else
      let s := closeBatch s ctx.toNat
      .next (issueScalar s [] sd 1 (tlOf s.core.ctx ctx.toNat).closed 0)

/-- TLREAD. -/
def execTlread (ctx : BitVec 3) (sd : BitVec 6) (s : State) : Out :=
  gateComp s fun s => .next (issueScalar s [] sd 1 (tlOf s.core.ctx ctx.toNat).tlc 0)

/-- MARK: a local fence; the core's accesses are performed in program order, so it only issues. -/
def execMark (s : State) : Out := gateComp s fun s => .next (issuePlain s [] id)

/-! ### TLWAIT (R261) -/

/-- The trap of a failed context: cause and TRAPVAL. -/
def failTrap (n : Nat) (t : TlCtx) (f : Nat) : Nat × Word :=
  if n = 5 then (0x0E, t.failAddr)
  else (if n = 4 then 0x0D else if n = 6 then 0x0F else 0x0C, BitVec.ofNat 64 f)

/-- Close the open batch of a context that is not empty; none when the close must wait. -/
def closeIfOpen (s : State) (n : Nat) : Option State :=
  let t := tlOf s.core.ctx n
  if t.openOps = 0 then some s else if closeWaits t then none else some (closeBatch s n)

/-- What a wait for batch `v` of a context finds. -/
inductive Waits
  | trap (cause : Nat) (val : Word)
  | wait
  | ready
  deriving DecidableEq, Repr

/-- The state of a wait for batches 1 to `v` of a context. -/
def waitFor (c : Ctx) (n : Nat) (v : Word) : Waits :=
  let t := tlOf c n
  if t.closed.toNat < v.toNat then .trap 0x0B v
  else
    match t.failed with
    | some f =>
      if f ≤ v.toNat then .trap (failTrap n t f).1 (failTrap n t f).2
      else if v.toNat ≤ t.tlc.toNat then .ready else .wait
    | none => if v.toNat ≤ t.tlc.toNat then .ready else .wait

/-- The core has acquired batches 1 to `v` (R236). -/
def acquireTo (n v : Nat) (c : Ctx) : Ctx :=
  let t := tlOf c n
  setTl c n { t with acquired := max t.acquired v }

/-- The buffered writes that acquired batches of the acting core have read are observed by its stack (R243). -/
def observeAcquired (s : State) : State :=
  let me := meRef s
  let got := fun (x : Seen) => x.cref = me && x.batch ≠ 0 && decide (x.batch ≤ (tlOf s.core.ctx x.ctx).acquired)
  let new := (s.dev.seen.filter got).map (·.serial)
  if new.isEmpty then s
  else { s with dev := { s.dev with
    seen := s.dev.seen.filter fun x => !got x
    observed := store [] s.dev.observed s.core.sk ((look [] s.dev.observed s.core.sk ++ new).eraseDups) } }

/-- TLWAIT. -/
def execTlwait (ctx : BitVec 3) (sa : BitVec 6) (imm : BitVec 26) (s : State) : Out :=
  gateComp s fun s =>
    let n := ctx.toNat
    match closeIfOpen s n with
    | none => .next s
    | some s =>
      let v := sreg s.core.ctx sa + imm.setWidth 64
      match waitFor s.core.ctx n v with
      | .trap cause x => .next (trapIssue s cause x)
      | .wait => .next s
      | .ready => .next (observeAcquired (issuePlain s [.s sa] (acquireTo n v.toNat)))

/-! ### ENDL (R120) -/

/-- Close every open batch that is not empty, as far as the limit lets it; whether all are closed. -/
def closeAll (s : State) : List Nat → State × Bool
  | [] => (s, true)
  | n :: r =>
    match closeIfOpen s n with
    | some s' => closeAll s' r
    | none => let (s', _) := closeAll s r; (s', false)

/-- The waits of ENDL over the contexts in order: the first failed one traps. -/
def endWaits (c : Ctx) : List Nat → Waits
  | [] => .ready
  | n :: r =>
    match waitFor c n (tlOf c n).closed with
    | .trap cause v => .trap cause v
    | .wait =>
      match endWaits c r with
      | .trap cause v => .trap cause v
      | _ => .wait
    | .ready => endWaits c r

/-- ENDL: it closes, waits for every batch of every context and for the results in flight, and ends the launch on
this core. It does not continue to a next word. -/
def execEndl (s : State) : Out :=
  let c := s.core.ctx
  if c.priv = .s then .next (trapIssue s 0x04 (wordNow s))
  else if exchange s then .next (trapIssue s 0x05 (wordNow s))
  else
    let (s, all) := closeAll s [0, 1, 2, 3, 4, 5, 6]
    match endWaits s.core.ctx [0, 1, 2, 3, 4, 5, 6] with
    | .trap cause v => .next (trapIssue s cause v)
    | .wait => .next s
    | .ready =>
      if !all || !s.core.ctx.inflight.isEmpty then .next s
      else
        let c := countIssue s.core.ctx (wordNow s) true
        .next (s.setCtx { c with ended := true, phended := true, pc := c.pc + 8 })

end Sys2Proof.Machine
end

