-- ==== Sys2Proof/Machine/Global.lean ====
section
/-! DEFINITION. Global memory as the engines see it: translation (R210 to R215), the global buffer of a stack (R239),
containment (R247, R366), reads and writes by a context, and the drain of a buffer to the hubs (R240, R451). -/
namespace Sys2Proof.Machine
open Sys2Proof

/-! ### Contexts by name -/

/-- The context a core holds in a partition, running or suspended. -/
def ctxIn (k : Core) (pt : Nat) : Option Ctx :=
  if k.mode = .active && k.ctx.part = pt then some k.ctx else k.susp.find? fun c => c.part = pt

/-- Every core of the package. -/
def State.cores (s : State) : List Core := s.core :: s.others

/-- The core a context reference names. -/
def coreAt (s : State) (sk ix : Nat) : Option Core := s.cores.find? fun k => k.sk = sk && k.ix = ix

/-- A context, running or suspended. -/
def getCtx (s : State) (r : CRef) : Option Ctx :=
  match coreAt s r.sk r.ix with
  | none => none
  | some k => ctxIn k r.pt

/-- A context with its core: operations issued before a suspension go on through it (R347). -/
def liveCtx (s : State) (r : CRef) : Option (Core × Ctx) :=
  match coreAt s r.sk r.ix with
  | none => none
  | some k => (ctxIn k r.pt).map fun c => (k, c)

/-- A context whose launch runs in this superstep, with its core. -/
def runningCtx (s : State) (r : CRef) : Option (Core × Ctx) :=
  match coreAt s r.sk r.ix with
  | none => none
  | some k => if k.mode = .active && k.ctx.part = r.pt then some (k, k.ctx) else none

/-- Whether the engines of a stack may make progress: its die is not fenced, and the cores are not parked (R351, R385). -/
def stackGoes (d : Device) (sk : Nat) : Bool := !dieFenced d sk && !d.sun.parked

/-- Whether a context's engine may make progress now: its stack's engines may, and no translation fault stops it (R290). -/
def engineRuns (s : State) (cr : CRef) (c : Ctx) (n : Nat) : Bool := !(tlOf c n).stopped && stackGoes s.dev cr.sk

/-- Replace a context on its core. -/
def putIn (r : CRef) (c : Ctx) (k : Core) : Core :=
  if k.sk = r.sk && k.ix = r.ix then
    if k.mode = .active && k.ctx.part = r.pt then { k with ctx := c }
    else { k with susp := k.susp.map fun x => if x.part = r.pt then c else x }
  else k

/-- Replace a context. -/
def putCtx (s : State) (r : CRef) (c : Ctx) : State := s.mapCores (putIn r c)

/-! ### Translation (R210 to R215) -/

/-- How a translation ends: the hub makes it wait, a physical address, or a fault kind (Table 8.6). -/
inductive Tr
  | wait
  | ok (pa : Nat)
  | fault (kind : Nat)
  deriving DecidableEq, Repr

/-- The translation cache of the host die; a stack's and a fabric die's cache has its socket number (R213). -/
def tlbHost : Nat := 20
/-- The cache a collective of a context goes through: that of one of the three fabric dies. DESIGN CHOICE, log entry 61. -/
def tlbFabric (cr : CRef) : Nat := 21 + cr.sk % 3

/-- Table 8.2: the lowest index bit and the number of index bits of a level. -/
def levelBits (l : Nat) : Nat × Nat := ([(47, 9), (34, 13), (29, 5), (21, 8), (16, 5)] : List (Nat × Nat)).getD l (16, 5)

/-- One entry of a walk: the next table, a leaf, or a fault kind (R211, R215, Table 8.6). -/
inductive Pte
  | next (base : Nat)
  | leaf (base : Nat) (w : Bool)
  | bad (kind : Nat)
  deriving DecidableEq, Repr

/-- Judge an entry at a level. -/
def pteOf (l e : Nat) : Pte :=
  let b := (levelBits l).1
  let addr := bitsOf e 12 36 * 4096
  if !bitOf e 0 then .bad 1
  else if bitsOf e 3 9 ≠ 0 || bitsOf e 48 16 ≠ 0 then .bad 3
  else if bitOf e 1 then
    if l = 4 || bitOf e 2 || (l = 0 && bitsOf e 12 4 ≠ 0) then .bad 3
    else if !paOk addr then .bad 4
    else .next addr
  else if l = 0 || addr % 2 ^ b ≠ 0 then .bad 3
  else if !paOk addr then .bad 4
  else .leaf addr (bitOf e 2)

/-- How far a walk has come: it waits at a level and table, or it has ended with a leaf's base, size and right, or in a fault. -/
inductive WalkEnd
  | wait (level base : Nat)
  | leaf (pa bits : Nat) (w : Bool)
  | fault (kind : Nat)
  deriving DecidableEq, Repr

/-- Walk from a table at a level; `n` bounds the levels left (R210, R213). -/
def walk (d : Device) (a : Asker) (va : Nat) (l base : Nat) : Nat → Device × WalkEnd
  | 0 => (d, .fault 3)
  | n + 1 =>
    let lb := levelBits l
    let ea := base + 8 * bitsOf va lb.1 lb.2
    match hubGranule d a ea with
    | .wait d => (d, .wait l base)
    | .bad d => (d, .fault 5)
    | .done d x =>
      match pteOf l (bitsOf x (8 * (ea % 32)) 64) with
      | .bad k => (d, .fault k)
      | .next t => walk d a va (l + 1) t n
      | .leaf p w => (d, .leaf p lb.1 w)

/-- The size, in address bits, of the page that the tables as they stand give an address; 64 KiB where they map none. -/
def pageBits (d : Device) (va : Nat) (l base : Nat) : Nat → Nat
  | 0 => 16
  | n + 1 =>
    let lb := levelBits l
    let ea := base + 8 * bitsOf va lb.1 lb.2
    match granuleSeen d ea with
    | none => 16
    | some x =>
      match pteOf l (bitsOf x (8 * (ea % 32)) 64) with
      | .bad _ => 16
      | .next t => pageBits d va (l + 1) t n
      | .leaf _ _ => lb.1

/-- Whether an outstanding walk is for the page of an address of an interface on a die (R213). The page of a walk that has not ended is
what the tables say as they stand. DEDUCED, log entry 90. -/
def walkFor (d : Device) (die ifc va root : Nat) (w : Walk) : Bool :=
  w.die = die && w.ifc = ifc && (let b := pageBits d w.va 0 root 5; va / 2 ^ b = w.va / 2 ^ b)

/-- Whether a die's cache may start a walk: not while the die quiesces, is fenced or resets, nor without its domain (R384, R386). -/
def mayWalk (d : Device) (die : Nat) : Bool := (dieOf d die).state ≠ 3 && !dieFenced d die

/-- Walk for an address on a die: an outstanding walk for its page goes on where it waits, and no second one starts (R213). Answers
the address that was walked for. -/
def walkOn (d : Device) (die ifc va root : Nat) : Device × Nat × WalkEnd :=
  match d.walks.find? (walkFor d die ifc va root), mayWalk d die with
  | none, false => (d, va, .wait 0 root)
  | o, _ =>
    let w := o.getD ⟨die, ifc, va, 0, root⟩
    let (d, e) := walk d ⟨[4, die, ifc, w.va], die, ifc, 3⟩ w.va w.level w.base (5 - w.level)
    let rest := d.walks.filter (· ≠ w)
    match e with
    | .wait l base => ({ d with walks := { w with level := l, base := base } :: rest }, w.va, e)
    | _ => ({ d with walks := rest }, w.va, e)

/-- Whether a cache entry covers an address. -/
def tlbHit (ifc va : Nat) (e : TlbEntry) : Bool := e.ifc = ifc && va / 2 ^ e.bits = e.va / 2 ^ e.bits

/-- The result of a leaf for an access. -/
def leafTr (base bits : Nat) (w : Bool) (va : Nat) (wr : Bool) : Tr :=
  let pa := base + va % 2 ^ bits
  if !paOk pa then .fault 4 else if wr && !w then .fault 2 else .ok pa

/-- The walks of an interface on a die for addresses that agree with `va` above `bits` end: they are needed no longer. -/
def endWalks (d : Device) (die ifc va bits : Nat) : Device :=
  { d with walks := d.walks.filter fun w => !(w.die = die && w.ifc = ifc && va / 2 ^ bits = w.va / 2 ^ bits) }

/-- Translate an address of an interface in a die's cache (R215). A full cache drops its oldest entry. DESIGN CHOICE, log entry 91. -/
def translate (d : Device) (die ifc va : Nat) (wr : Bool) : Device × Tr :=
  let root := (ifcOf d ifc).ttroot.toNat
  if 2 ^ 56 ≤ va then (d, .fault 4)
  else if !bitOf root 0 then (endWalks d die ifc va 16, .fault 1)
  else
    match (look [] d.tlb die).find? (tlbHit ifc va) with
    | some e => (endWalks d die ifc va e.bits, leafTr e.pa e.bits e.w va wr)
    | none =>
      let base := bitsOf root 12 36 * 4096
      if !paOk base then (endWalks d die ifc va 16, .fault 4)
      else
        match walkOn d die ifc va base with
        | (d, at', .leaf p b w) =>
          let ent : TlbEntry := ⟨ifc, at' / 2 ^ b * 2 ^ b, b, p, w⟩
          ({ d with tlb := store [] d.tlb die ((ent :: look [] d.tlb die).take 4096) },
            if va / 2 ^ b = at' / 2 ^ b then leafTr p b w va wr else .wait)
        | (d, _, .wait _ _) => (d, .wait)
        | (d, at', .fault k) => (d, if va / 65536 = at' / 65536 then .fault k else .wait)

/-- Every outstanding walk goes on by itself (R213, R214). -/
def walksOn (d : Device) : Device := d.walks.foldl (fun d w => (translate d w.die w.ifc w.va false).1) d

/-! ### Requesters -/

/-- Who makes a global access: the stack whose buffer serves it, the context and context number, the operation, its
batch, the interface, the engine code of the logs, the run and its class. -/
structure Req where
  sk : Nat
  cref : CRef
  ctx : Nat
  serial : Nat
  batch : Nat
  ifc : Nat
  eng : Nat
  run : Nat
  cls : PClass
  deriving DecidableEq, Repr

/-- A requester as the hubs know it: the run, the context and the operation name it. -/
def Req.asker (q : Req) : Asker := ⟨[2, q.run, q.cref.sk, q.cref.ix, q.cref.pt, q.ctx, q.serial], q.sk, q.ifc, q.eng⟩

/-- The requester of an operation of a context. -/
def reqOf (r : CRef) (c : Ctx) (n : Nat) (o : Op) (eng : Nat) : Req :=
  ⟨r.sk, r, n, o.serial, o.batch, c.ifc, eng, c.run, c.cls⟩

/-! ### Containment (R366) -/

/-- The 128-byte granules with an entry. -/
def containUnits (m : Sparse Bool) : List Nat := (m.map (·.1 / 128)).eraseDups

/-- Entries in use by a replica. -/
def containUsed (x : Contain) : Nat := (containUnits x.glbMask).length + (containUnits x.hostMask).length

/-- Mark bytes as written. -/
def maskSet (m : Sparse Bool) : List WByte → Sparse Bool
  | [] => m
  | b :: r => maskSet (store false m b.addr true) r

/-- The entries a launch's replicas may hold: CONTAIN * 512. -/
def containCap (d : Device) (r : Run) : Nat :=
  match launchOf d r.launch with
  | some l => l.recd.contain * 512
  | none => 0

/-- The bytes a replica sees in place of those it is about to write, so that a nibble write leaves the other nibble. -/
def wholeBytes (seen : Nat → Byte) (bs : List WByte) : List WByte :=
  bs.map fun b => ⟨b.addr, 3, mergeNibs (seen b.addr) b.val b.nibs⟩

/-- Contain a write that core `id` of a replica makes to global or host memory; entries beyond the reservation stop the launch with
cause 0x44 (R344, R366). -/
def containWrite (d : Device) (run id : Nat) (host : Bool) (bs : List WByte) : Device :=
  match runOf d run with
  | none => d
  | some r =>
    let k := r.cont
    let k' := if host then { k with host := putBytes k.host bs, hostMask := maskSet k.hostMask bs }
      else { k with glb := putBytes k.glb bs, glbMask := maskSet k.glbMask bs }
    if containCap d r < containUsed k' then
      setRun d { haltRun r d.clock id (4 * 2 ^ 20 + 0x44) with spilled := true }
    else setRun d { r with cont := k' }

/-- A granule seen through the containment of a run of a class. -/
def containSeen (d : Device) (cls : PClass) (run : Nat) (host : Bool) (a x : Nat) : Nat :=
  if cls ≠ .d then x
  else
    match runOf d run with
    | none => x
    | some r =>
      let m := if host then r.cont.hostMask else r.cont.glbMask
      let b := if host then r.cont.host else r.cont.glb
      mergeNib x (readLe b a 32)
        (nibMask ((List.range 32).foldl (fun s k => s + (if look false m (a + k) then 2 ^ k else 0)) 0))

/-- A granule as a requester sees it through its containment. -/
def containOver (d : Device) (q : Req) (host : Bool) (a x : Nat) : Nat := containSeen d q.cls q.run host a x

/-- Whether a run of class D holds every byte of a word of global memory, so that a read of it needs no memory. -/
def wordHeld (d : Device) (cls : PClass) (run pa n : Nat) : Bool :=
  cls = .d && (match runOf d run with
    | some r => (List.range n).all fun k => look false r.cont.glbMask (pa + k)
    | none => false)

/-! ### The global buffer (R239) -/

/-- Buffered writes of a granule, in issue order, over a value. -/
def bufferOver (ws : List GWrite) (pa x : Nat) : Nat :=
  ws.foldl (fun x w => if w.pa = pa then mergeNib x w.data.toNat w.mask.toNat else x) x

/-- The buffered writes that a read of a granule returns are kept until the read's batch is acquired (R243). -/
def observe (d : Device) (q : Req) (pa : Nat) : Device :=
  let new := ((look [] d.gbuf q.sk).filter fun w => w.pa = pa).map fun w => (⟨q.cref, q.ctx, q.batch, w.serial⟩ : Seen)
  if new.isEmpty then d else { d with seen := (d.seen ++ new).eraseDups }

/-- A granule copy enters a stack's buffer. -/
def copyIn (d : Device) (sk pa x : Nat) : Device :=
  { d with copies := store [] d.copies sk (ins (look [] d.copies sk) pa (BitVec.ofNat 256 x)) }

/-- A stack's buffer drops its copy of a granule. -/
def dropCopy (d : Device) (sk pa : Nat) : Device :=
  { d with copies := store [] d.copies sk ((look [] d.copies sk).filter fun p => p.1 ≠ pa / 32 * 32) }

/-- A copy the stack's buffer holds and still serves. -/
def copyOf (d : Device) (sk pa : Nat) : Option Nat :=
  ((look [] d.copies sk).find? fun p => p.1 = pa && Config.bufferKeeps d.gseq).map fun p => p.2.toNat

/-- Read a granule by physical address for a context: its own containment, the stack's buffered writes, a copy the
buffer serves, or the hub (R239, R247). -/
def readPa (d : Device) (q : Req) (pa : Nat) : Hub3 Nat :=
  let pa := pa / 32 * 32
  let fin := fun (d : Device) (x : Nat) =>
    Hub3.done (observe d q pa) (containOver d q false pa (bufferOver (look [] d.gbuf q.sk) pa x))
  let d := { d with gseq := d.gseq + 1 }
  match copyOf d q.sk pa with
  | some x => fin d x
  | none =>
    match hubGranule d q.asker pa with
    | .wait d => .wait d
    | .bad d => .bad d
    | .done d x => fin (copyIn d q.sk pa x) x

/-- What a context reads of a granule the hub delivered. -/
def readFin (d : Device) (q : Req) (pa x : Nat) : Nat :=
  containOver d q false pa (bufferOver (look [] d.gbuf q.sk) pa x)

/-- The granules of one HBM chunk that a context reads with one burst (R376): `ks` are their places in the chunk; a
granule of which the buffer serves a copy comes from the buffer (R239). -/
def readBurst (d : Device) (q : Req) (pa : Nat) (ks : List Nat) : Hub3 (List (Nat × Option Nat)) :=
  let base := pa / 256 * 256
  match hubAsk { d with gseq := d.gseq + 1 } q.asker base .read with
  | .wait d => .wait d
  | .bad d => .bad d
  | .done d l =>
    let take := fun (r : Device × List (Nat × Option Nat)) k =>
      let g := base + 32 * k
      match copyOf r.1 q.sk g, sectorOf g (sectorVals l) with
      | some x, _ => (observe r.1 q g, r.2 ++ [(k, some (readFin r.1 q g x))])
      | none, some x =>
        let d := copyIn r.1 q.sk g x
        (observe d q g, r.2 ++ [(k, some (readFin d q g x))])
      | none, none => (r.1, r.2 ++ [(k, none)])
    let r := ks.foldl take (d, [])
    .done r.1 r.2

/-- Write nibbles of a granule for a context on core `id` of its launch: contained in class D, else into the stack's buffer. `idx` and
`pc` place the write in its operation. -/
def writePa (d : Device) (q : Req) (id pa va mask data idx : Nat) (pc : BitVec 18) : Device :=
  let pa := pa / 32 * 32
  if q.cls = .d then
    let seen := containOver d q false pa (granulePeek d pa)
    containWrite d q.run id false
      (wholeBytes (fun a => BitVec.ofNat 8 (secByte seen (a - pa))) (granuleBytes pa mask data))
  else
    let w : GWrite := { serial := d.gseq, cref := q.cref, opSerial := q.serial, ctx := q.ctx, batch := q.batch, pa := pa
                        va := va / 32 * 32, mask := BitVec.ofNat 64 mask, data := BitVec.ofNat 256 data, ifc := q.ifc
                        eng := q.eng, idx := idx, pc := pc, run := q.run }
    { d with gseq := d.gseq + 1, gbuf := store [] d.gbuf q.sk (look [] d.gbuf q.sk ++ [w]) }

/-! ### Accesses by virtual address -/

/-- How a context's access to a granule ends. -/
inductive Acc (α : Type)
  | wait (d : Device)
  | done (d : Device) (x : α)
  | bad (d : Device)
  | fault (d : Device) (kind : Nat)

/-- Read the granule that holds a virtual address. -/
def readVa (d : Device) (q : Req) (va : Nat) : Acc Nat :=
  match translate d q.sk q.ifc va false with
  | (d, .wait) => .wait d
  | (d, .fault k) => .fault d k
  | (d, .ok pa) =>
    match readPa d q pa with
    | .wait d => .wait d
    | .bad d => .bad d
    | .done d x => .done d x

/-- Write masked nibbles of the granule that holds a virtual address; answers its physical address. -/
def writeVa (d : Device) (q : Req) (id va mask data idx : Nat) (pc : BitVec 18) : Acc Nat :=
  match translate d q.sk q.ifc va true with
  | (d, .wait) => .wait d
  | (d, .fault k) => .fault d k
  | (d, .ok pa) => .done (writePa d q id pa va mask data idx pc) pa

/-! ### Engine stops (R215, R336) -/

/-- A translation fault stops a context at a granule boundary and pends the engine-stop interrupt. -/
def stopCtx (n : Nat) (va : Nat) (c : Ctx) : Ctx :=
  setTl c n { tlOf c n with stopped := true, stopPend := true, stopVa := BitVec.ofNat 64 va }

/-! ### WAITV monitors (R251, R268, R269) -/

/-- Whether a WAITV's condition holds of a word. -/
def waitHolds (o : ReqOp) (x : Nat) : Bool := ccInt o.cc (elemInt o.ty x) (elemInt o.ty (o.b.toNat % 2 ^ tyBits o.ty))

/-- Whether a lock word names an owner of an interface that is suspended (R268). -/
def ownerSuspended (d : Device) (ifc x : Nat) : Bool :=
  bitOf x 63 && d.launches.any fun l =>
    l.ifc = ifc && l.queue = bitsOf x 50 13 && l.slot = bitsOf x 34 16 &&
      d.runs.any fun r => r.launch = l.id && r.phase = .suspended

/-- The line of a result becomes valid again when the result lands (R207, R266). -/
def landResult (c : Ctx) (addr : Word) (bytes : List Byte) : Ctx := storeLocal c 1 (wbytes addr.toNat bytes)

/-- The value a result writes: sign-extended for I types (R265, R269). -/
def extendTy (ty : Ty) (x : Nat) : Nat := (wrap64 (elemInt ty x)).toNat

/-- A WAITV completes with a value and a status: its record lands and its operation is performed (R269). -/
def waitFinish (c : Ctx) (op : Op) (o : ReqOp) (x status : Nat) : Ctx :=
  let c := landResult c o.dst (toBytes 8 (extendTy o.ty x) ++ toBytes 8 status)
  setTl c 5 (opDone (tlOf c 5) op.serial)

/-- The status an armed WAITV has reached, lowest first (R269). -/
def waitStatus (d : Device) (ifc : Nat) (o : ReqOp) (since x : Nat) : Option Nat :=
  if waitHolds o x then some 0
  else if o.own && ownerSuspended d ifc x then some 1
  else if o.tmo ≠ 0 && decide (o.tmo * 1024 ≤ d.sun.total - since) then some 2
  else none

/-- An operation of context 5 fails its batch (R257, R266, R269). -/
def failOp5 (c : Ctx) (op : Op) (o : ReqOp) : Ctx :=
  setTl c 5 (tlFail 5 c.t5 (batchNo c.t5 op) op.serial o.addr)

/-- The word an armed WAITV reads of a granule whose hub delivers `x` (none where it cannot): through the containment of its
run, where it has one; none for an uncorrectable read (R251, R266, R269). -/
def monitorWord (d : Device) (c : Ctx) (o : ReqOp) (pa : Nat) (x : Option Nat) : Option Nat :=
  let g := pa / 32 * 32
  match x with
  | some x => some (wordIn (containSeen d c.cls c.run false g x) pa o.ty)
  | none =>
    if wordHeld d c.cls c.run pa (tyBits o.ty / 8) then some (wordIn (containSeen d c.cls c.run false g 0) pa o.ty) else none

/-- An armed WAITV has read `x`: it completes, or waits on. -/
def monitorSees (d : Device) (c : Ctx) (op : Op) (o : ReqOp) (since pa x : Nat) : Ctx :=
  match waitStatus d c.ifc o since x with
  | some st => waitFinish c op o x st
  | none => setTl c 5 (opSet (tlOf c 5) { op with prog := .armed since (BitVec.ofNat 64 x) pa })

/-- Let the armed WAITVs of a context look at a granule's new contents, or, without one, at their last value; one that the failure of
an earlier one has discarded looks no more. -/
def wakeOps (d : Device) (c : Ctx) (seen : Option (Nat × Option Nat)) : List Op → Ctx
  | [] => c
  | op :: r =>
    let c' :=
      match op.what, op.prog with
      | .req o, .armed since last pa =>
        if c.t5.ops.all fun y => y.serial ≠ op.serial then c
        else (match seen with
          | some (g, v) =>
            if pa / 32 * 32 = g then
              match monitorWord d c o pa v with
              | some x => monitorSees d c op o since pa x
              | none => failOp5 c op o
            else monitorSees d c op o since pa last.toNat
          | none => monitorSees d c op o since pa last.toNat)
      | _, _ => c
    wakeOps d c' seen r

/-- The armed WAITVs of every context of one run (or of all) look at a granule. -/
def wakeAll (s : State) (only : Option Nat) (seen : Option (Nat × Option Nat)) : State :=
  let f := fun (c : Ctx) =>
    if (match only with
        | some r => c.run = r
        | none => true) && !c.t5.ops.isEmpty then wakeOps s.dev c seen c.t5.ops else c
  s.mapCores fun k => { k with ctx := if k.mode = .active then f k.ctx else k.ctx, susp := k.susp.map f }

/-- Whether a context has a monitor on a granule. -/
def monitors (g : Nat) (c : Ctx) : Bool :=
  c.t5.ops.any fun o => match o.prog with
    | .armed _ _ pa => pa / 32 * 32 = g
    | _ => false

/-- The stacks with a monitor on a granule drop their copies of it: a later read returns no older write than the monitor
returned (R239). -/
def dropWatched (s : State) (g : Nat) : State :=
  let sks := ((s.cores.filter fun k => (k.mode = .active && monitors g k.ctx) || k.susp.any (monitors g)).map (·.sk)).eraseDups
  { s with dev := sks.foldl (fun d sk => dropCopy d sk g) s.dev }

/-- A write has been performed at a hub and leaves the granule with value `x`: monitors see it (R251). -/
def hubChanged (s : State) (pa x : Nat) : State :=
  let g := pa / 32 * 32
  wakeAll (dropWatched s g) none (some (g, some x))

/-- A contained write of a run: its own monitors see the granule as the replica sees it (R269). -/
def containedChanged (s : State) (q : Req) (pa : Nat) : State :=
  let g := pa / 32 * 32
  wakeAll s (some q.run) (some (g, granuleSeen s.dev g))

/-! ### The drain of a buffer (R239, R240, R451) -/

/-- The four words of a fault record (Tables 11.4, 19.5). -/
def setRec (t : TlCtx) (cause sub side batch : Nat) (addr : Word) (done : Nat) (pc : BitVec 18) : TlCtx :=
  { t with
    rec0 := BitVec.ofNat 64 (cause + sub * 2 ^ 8 + side * 2 ^ 12 + 2 ^ 31 + batch % 2 ^ 32 * 2 ^ 32)
    rec1 := addr
    rec2 := BitVec.ofNat 64 done
    rec3 := pc.setWidth 64 }

/-- A write the hub failed: it fails its operation's batch with cause 7 while that batch is incomplete, the later
buffered writes of the operation with it, and is lost afterwards, or when its launch has ended (R289, R443, R451). -/
def failWrite (s : State) (w : GWrite) : State :=
  let lost := { s with dev := setErr s.dev w.ifc 4 }
  match getCtx s w.cref with
  | none => lost
  | some c =>
    let t := tlOf c w.ctx
    if c.run ≠ w.run || (w.batch ≠ 0 && w.batch ≤ t.tlc.toNat) then lost
    else
      let b := if w.batch = 0 then t.closed.toNat + 1 else w.batch
      let t' := tlFail w.ctx t b w.opSerial 0
      let t' := setRec t' 7 0 1 w.batch (BitVec.ofNat 64 w.va) w.idx w.pc
      let keep := fun (v : GWrite) => !(v.cref = w.cref && v.run = w.run && v.opSerial = w.opSerial && decide (w.idx < v.idx))
      let d := s.dev
      putCtx { s with dev := { d with gbuf := store [] d.gbuf w.cref.sk ((look [] d.gbuf w.cref.sk).filter keep) } }
        w.cref (setTl c w.ctx t')

/-- Whether the batch of a buffered write has been counted. -/
def counted (s : State) (w : GWrite) : Bool :=
  match getCtx s w.cref with
  | none => true
  | some c => c.run ≠ w.run || (w.batch ≠ 0 && decide (w.batch ≤ (tlOf c w.ctx).tlc.toNat))

/-- The i-th write of a buffer that may drain: no earlier write of its granule stands before it (R239), and, until its batch is
counted, no earlier write of its copy, so that a failure leaves every later granule unwritten (R289). -/
def drainable (s : State) (ws : List GWrite) (k : Nat) : Option GWrite :=
  match ws[k]? with
  | none => none
  | some w =>
    let mine := fun (v : GWrite) => v.cref = w.cref && v.run = w.run && v.opSerial = w.opSerial && decide (v.idx < w.idx)
    if ((ws.take k).any fun v => v.pa = w.pa) || (!counted s w && ws.any mine) then none else some w

/-- The writes that follow in one burst of a chunk of HBM: the next granules of the same operation while every one before is written
whole, so that a failure leaves the later ones unwritten (R289, R376). -/
def burstRest (ws : List GWrite) (w : GWrite) : List GWrite → List GWrite
  | [] => []
  | v :: r =>
    let first := !((ws.takeWhile (· ≠ v)).any fun y => y.pa = v.pa)
    if w.mask = BitVec.allOnes 64 && v.pa / 256 = w.pa / 256 && first then v :: burstRest ws v r else []

/-- The writes of a buffer that go to the hub with one that may drain: the burst that waits there already, else a new one. -/
def burstGroup (d : Device) (sk : Nat) (ws : List GWrite) (w : GWrite) : List GWrite :=
  let sent := (d.hbm.waits.map (·.asker.who)).find? fun who =>
    who.headD 0 = 1 && who.getD 1 0 = sk && (who.drop 2).contains w.serial
  match sent with
  | some who => ws.filter fun v => (who.drop 2).contains v.serial
  | none =>
    if paWin w.pa then [w]
    else w :: burstRest ws w (ws.filter fun v => v.cref = w.cref && v.run = w.run && v.opSerial = w.opSerial && decide (w.idx < v.idx))

/-- Parity errors the environment lays on the next attempts of an address's channel. -/
def setNoise (d : Device) (pa : Nat) (noise : List Nat) : Device :=
  if noise.isEmpty then d else { d with hbm := { d.hbm with noise := store [] d.hbm.noise (chanKey pa) noise } }

/-- A write has left a stack's buffer: nothing need observe it any longer. -/
def leaveBuffer (d : Device) (sk serial : Nat) : Device :=
  { d with
    gbuf := store [] d.gbuf sk ((look [] d.gbuf sk).filter fun v => v.serial ≠ serial)
    observed := store [] d.observed sk ((look [] d.observed sk).filter (· ≠ serial))
    released := store [] d.released sk ((look [] d.released sk).filter (· ≠ serial))
    seen := d.seen.filter fun x => x.serial ≠ serial }

/-- A write of the buffer has been made at its hub: it leaves the buffer, and the stack drops its older copy of the granule (R238). One
the hub has failed fails its operation, and its value is lost at once (DESIGN CHOICE, log entry 113); one that an earlier failure has taken
out of the buffer is no longer there. -/
def endWrite (sk : Nat) (s : State) (w : GWrite) (ok : Bool) : State :=
  if !(look [] s.dev.gbuf sk).contains w then s
  else if ok then { s with dev := dropCopy (leaveBuffer s.dev sk w.serial) sk w.pa }
  else failWrite { s with dev := leaveBuffer s.dev sk w.serial } w

/-- Whether a sector's access succeeded, among what a chunk's access came to. -/
def sectorDone (vals : List (Nat × Option Nat)) (k : Nat) : Bool := vals.any fun p => p.1 = k && p.2.isSome

/-- The writes of a stack's buffer that one burst of a chunk has made leave the buffer, each as its sector's access ended. -/
def endWrites (sk : Nat) (s : State) (ws : List GWrite) (vals : List (Nat × Option Nat)) : State :=
  ws.foldl (fun s v => endWrite sk s v (sectorDone vals (v.pa % 256 / 32))) s

/-- Whether a kept answer is that of writes of a stack's buffer. -/
def isWriteAnswer (x : HubAnswer) : Bool := x.who.headD 0 = 1

/-- Writes made at their hubs leave their buffers at once, whatever holds their channel back: a stack's reads see them, and every later
write of another stack, in the hub's order (R238, R244). -/
def takeWrites (s : State) : State :=
  (s.dev.hbm.answers.filter isWriteAnswer).foldl (fun s x =>
      let sk := x.who.getD 1 0
      endWrites sk s ((look [] s.dev.gbuf sk).filter fun v => (x.who.drop 2).contains v.serial) x.vals)
    { s with dev := { s.dev with hbm := { s.dev.hbm with answers := s.dev.hbm.answers.filter fun x => !isWriteAnswer x } } }

/-- What the hubs have made since: writes of the buffers leave them, and what was written is shown to the monitors, in order (R251). -/
def settleChanged (s : State) : State :=
  let s := takeWrites s
  s.dev.hbm.changed.foldl (fun s p => hubChanged s p.1 p.2) { s with dev := { s.dev with hbm := { s.dev.hbm with changed := [] } } }

/-- HUB WRITE: the k-th buffered write of a stack reaches its hub, with those of its operation that its chunk's burst takes along (R216
to R225, R239, R376). A fenced stack's buffer does not drain, nor any in a hold (R385, R396). -/
def execHubWrite (sk k : Nat) (noise : List Nat) (s : State) : Out :=
  let ws := look [] s.dev.gbuf sk
  match (if stackGoes s.dev sk then drainable s ws k else none) with
  | none => .next s
  | some w =>
    let d := setNoise s.dev w.pa noise
    let a : Asker := ⟨[1, sk, w.serial], sk, w.ifc, w.eng⟩
    if paWin w.pa then
      match windowPut d a w.pa w.mask.toNat w.data.toNat with
      | .wait d => .next { s with dev := d }
      | .bad d => .next (endWrite sk { s with dev := d } w false)
      | .done d x => .next (hubChanged (endWrite sk { s with dev := d } w true) w.pa x)
    else
      let g := burstGroup d sk ws w
      let put := fun (v : GWrite) => (⟨v.pa % 256 / 32, v.mask.toNat, v.data.toNat⟩ : SecWr)
      match hubAsk d { a with who := 1 :: sk :: g.map (·.serial) } (w.pa / 256 * 256) (.write (g.map put)) with
      | .wait d => .next (settleChanged { s with dev := d })
      | .bad d => .next { s with dev := d }
      | .done d vals => .next (settleChanged (endWrites sk { s with dev := d } g vals))

/-- HUB READ: a requester's fetch of a granule at its hub, with what the hub corrects and logs (R224); none in a hold, in which
HBM refreshes itself (R396). -/
def execHubRead (pa fn eng : Nat) (noise : List Nat) (s : State) : Out :=
  if !paOk pa || s.dev.sun.parked then .next s
  else
    match hubGranule (setNoise s.dev pa noise) ⟨[], 16 + hubFor pa, fn, eng⟩ pa with
    | .wait d => .next { s with dev := d }
    | .bad d => .next { s with dev := d }
    | .done d _ => .next { s with dev := d }

/-! ### Requesters that are gone -/

/-- Whether an operation of a context of a run is still there. -/
def opLives (s : State) (run : Nat) (cr : CRef) (n serial : Nat) : Bool :=
  match getCtx s cr with
  | some c => c.run = run && (tlOf c n).ops.any fun o => o.serial = serial
  | none => false

/-- Whether the requester of a kept answer can still take it: an operation, a walk, or another of the package's own accesses. -/
def askerLives (s : State) (who : List Nat) : Bool :=
  match who with
  | [2, run, sk, ix, pt, n, serial] => opLives s run ⟨sk, ix, pt⟩ n serial
  | [4, die, ifc, va] => s.dev.walks.any fun w => w.die = die && w.ifc = ifc && w.va = va
  | 0 :: key => s.dev.spans.any fun x => x.key = key
  | [3, l] => s.dev.launches.any fun x => x.id = l && x.releasing.isSome
  | _ => false

/-- Answers that nobody is left to take are dropped. -/
def dropAnswers (s : State) : State :=
  if s.dev.hbm.answers.isEmpty then s
  else { s with dev := { s.dev with hbm := { s.dev.hbm with answers := s.dev.hbm.answers.filter fun x => askerLives s x.who } } }

/-- What waits at the hubs goes on (R222). -/
def hubsOn (s : State) : State := dropAnswers (settleChanged { s with dev := serveWaits s.dev })

end Sys2Proof.Machine
end

