-- ==== Sys2Proof/Machine/Pred.lean ====
section
/-! DEFINITION. Predicate operations (R121 to R123): opcodes 0x50 to 0x57, latency 1, at U only in a compute
superstep. -/
namespace Sys2Proof.Machine
open Sys2Proof

/-- Issue an instruction with a predicate result; its physical register is fixed at issue (R21), and bits at or
above 512 G are never set (R14). -/
def issuePred (s : State) (srcs : List Src) (pd : BitVec 6) (lat : Nat) (v : Nat) (fl : Flags) : State :=
  let g := s.core.gang
  issueResult s lat (.pred (physP s.core.ctx pd) (BitVec.ofNat 2048 (v % 2 ^ predBits g))) fl none
    (srcFault g s.core.ctx srcs)

/-- A form over all 512 G bits (R121). -/
def predOp (s : State) (srcs : List Src) (pd : BitVec 6) (v : Nat → Ctx → Nat) : Out :=
  gateComp s fun s => .next (issuePred s srcs pd 1 (v s.core.gang s.core.ctx) 0)

/-- PAND. -/
def execPand (pd pa pb : BitVec 6) (s : State) : Out :=
  predOp s [.p pa, .p pb] pd fun g c => predOf g c pa &&& predOf g c pb
/-- POR. -/
def execPor (pd pa pb : BitVec 6) (s : State) : Out :=
  predOp s [.p pa, .p pb] pd fun g c => predOf g c pa ||| predOf g c pb
/-- PXOR. -/
def execPxor (pd pa pb : BitVec 6) (s : State) : Out :=
  predOp s [.p pa, .p pb] pd fun g c => predOf g c pa ^^^ predOf g c pb
/-- PANDN. -/
def execPandn (pd pa pb : BitVec 6) (s : State) : Out :=
  predOp s [.p pa, .p pb] pd fun g c => predOf g c pa &&& (ones (predBits g) ^^^ predOf g c pb)
/-- PNOT. -/
def execPnot (pd pa : BitVec 6) (s : State) : Out :=
  predOp s [.p pa] pd fun g c => ones (predBits g) ^^^ predOf g c pa

/-- PWHILE (R122): bits below min(S(SA), n) are 1. -/
def execPwhile (ty : Ty) (pd sa : BitVec 6) (s : State) : Out :=
  predOp s [.s sa] pd fun g c => ones (min (sreg c sa).toNat (tyCount g ty))

/-- The index of the lowest one among bits k, k+1, ..., or the end of the range (R123). -/
def lowestBit (x : Nat) : Nat → Nat → Nat
  | 0, k => k
  | n + 1, k => if x.testBit k then k else lowestBit x n (k + 1)

/-- PCNT (R123). -/
def execPcnt (ty : Ty) (sd pa : BitVec 6) (s : State) : Out :=
  gateComp s fun s =>
    .next (issueScalar s [.p pa] sd 1
      (BitVec.ofNat 64 (popCount (predElems s ty pa) (tyCount s.core.gang ty))) 0)
/-- PFF (R123). -/
def execPff (ty : Ty) (sd pa : BitVec 6) (s : State) : Out :=
  gateComp s fun s =>
    .next (issueScalar s [.p pa] sd 1
      (BitVec.ofNat 64 (lowestBit (predElems s ty pa) (tyCount s.core.gang ty) 0)) 0)

end Sys2Proof.Machine
end

