-- ==== Sys2Proof/Machine/Vector.lean ====
section
/-! DEFINITION. Element-wise vector forms (R132 to R149): arithmetic, logic, shifts, fused multiply-add, one-source
forms, transcendental forms, select, conversion and the block quantiser and dequantiser. Legal at U and S, at U
only in a compute superstep (R137). -/
namespace Sys2Proof.Machine
open Sys2Proof

/-! ### The common element loop (R132, R133) -/

/-- The values and flags of a form's elements: `f i` for an active element, nothing for another. -/
def vecVals (n act : Nat) (f : Nat → Nat × Flags) : List (Nat × Flags) :=
  (List.range n).map fun i => if act.testBit i then f i else (0, 0)

/-- The flags of all elements together (R85). -/
def orFlags (l : List (Nat × Flags)) : Flags := l.foldl (fun f p => f ||| p.2) 0

/-- The residue fault of a checked form: a transient error strikes one active element (R136, Table 14.1). -/
def residueFault (checked : Bool) (upset : Option Nat) (ew act : Nat) : Option LateFault :=
  if checked then
    match upset with
    | none => none
    | some i => if act.testBit i then some ⟨0x12, BitVec.ofNat 64 (i + 2048 * halfOf ew i)⟩ else none
  else none

/-- Issue a form with a vector destination (R132, R136). A double-bit error in a source and a residue mismatch of one result, both due
in the same ck, report the double-bit error only. DESIGN CHOICE, log entry 67. -/
def issueVec (s : State) (srcs : List Src) (d : VDst) (ew act lat : Nat) (checked : Bool)
    (vals : List (Nat × Flags)) : State :=
  let c := s.core.ctx
  let res := residueFault checked s.core.upset ew act
  let bad :=
    match srcFault s.core.gang c srcs with
    | some e => some e
    | none => res
  let s := { s with core := { s.core with upset := if res.isSome then none else s.core.upset } }
  issueResult s lat
    (.vector (physV c d.vd) d.ws ew (BitVec.ofNat 2048 act) (BitVec.ofNat 8192 (packElems ew (vals.map (·.1)))))
    (orFlags vals) none bad

/-- SRCNT after the issue of a form whose effective mode is RS (R83). -/
def bumpRs (s : State) (rs : Bool) : State :=
  if rs then s.mapCtx fun c => { c with srcnt := c.srcnt + 1 } else s

/-- The RS draw of destination element i (R81, R83). -/
def rsDraw (c : Ctx) (i : Nat) : Nat := cbg64 (c.srcnt.toNat * 4096 + i) c.seed.toNat / 2 ^ 32

/-- The effective mode of a form: none for a form that rounds nothing (R79). -/
def modeOf (c : Ctx) (rm : Option Rm) : Rm :=
  match rm with
  | none => .rne
  | some r => effRm c.fpctl r

/-- A governed element-wise form: `f` gets the context, the effective mode, the draw and the element index. -/
def vecOp (s : State) (ty : Ty) (g : Gov) (d : VDst) (srcs : List Src) (lat : Nat) (checked : Bool)
    (rm : Option Rm) (f : Ctx → Rm → Nat → Nat → Nat × Flags) : Out :=
  gateComp s fun s =>
    let c := s.core.ctx
    let n := tyCount s.core.gang ty
    let act := active s.core.gang c g n
    let md := modeOf c rm
    let vals := vecVals n act fun i => f c md (rsDraw c i) i
    .next (issueVec (bumpRs s (rm.isSome && md = .rs)) (srcs ++ [govSrc g]) d (tyBits ty) act lat checked vals)

/-- Element i of a vector source. -/
def vElem (ty : Ty) (v : VSrc) (c : Ctx) (i : Nat) : Nat := elemOf (vsrc c v) (tyBits ty) i

/-- s: the low bits of a scalar register as an element (R133). -/
def sElem (ty : Ty) (r : BitVec 6) (c : Ctx) (_ : Nat) : Nat := (sreg c r).toNat % 2 ^ tyBits ty

/-- The latency of a form that is integer or FLT by type (Table 5.1). -/
def latBy (ty : Ty) : Nat := if ty.isFlt then 4 else 2

/-- The rounding field of a form that rounds for FLT types only. -/
def rmFlt (ty : Ty) (rm : Rm) : Option Rm := if ty.isFlt then some rm else none

/-- FPCTL.FZ, which governs the vector forms of F32, F16 and BF16 (R78). -/
def fzOf (c : Ctx) : Bool := fpctlFz c.fpctl

/-- An exact integer result brought into its type by wrapping or saturating (R71, R133). -/
def fitInt (ty : Ty) (sat : Bool) (x : Int) : Nat × Flags :=
  let w := tyBits ty
  let y : Int :=
    if !sat then x
    else if tySigned ty then max (-(2 ^ (w - 1) : Nat)) (min x ((2 ^ (w - 1) : Nat) - 1))
    else max 0 (min x ((2 ^ w : Nat) - 1))
  ((y % (2 ^ w : Nat)).toNat, flagIf (sat && y ≠ x) fSV)

/-! ### Two-source element functions (Table 5.2) -/

/-- An element function of two patterns, with mode, draw and FZ. -/
abbrev Elem2 := Rm → Nat → Bool → Nat → Nat → Nat × Flags

/-- VADD. -/
def addE (ty : Ty) (sat : Bool) : Elem2 := fun md u fz a b =>
  if ty.isFlt then fpAdd ty md u fz (fpSrc ty fz a) (fpSrc ty fz b)
  else fitInt ty sat (elemInt ty a + elemInt ty b)

/-- VSUB. -/
def subE (ty : Ty) (sat : Bool) : Elem2 := fun md u fz a b =>
  if ty.isFlt then fpSub ty md u fz (fpSrc ty fz a) (fpSrc ty fz b)
  else fitInt ty sat (elemInt ty a - elemInt ty b)

/-- VMUL. -/
def mulE (ty : Ty) (sat : Bool) : Elem2 := fun md u fz a b =>
  if ty.isFlt then fpMul ty md u fz (fpSrc ty fz a) (fpSrc ty fz b)
  else fitInt ty sat (elemInt ty a * elemInt ty b)

/-- VMULH. -/
def mulhE (ty : Ty) : Elem2 := fun _ _ _ a b =>
  fitInt ty false (elemInt ty a * elemInt ty b / (2 ^ tyBits ty : Nat))

/-- VMIN (`least`) and VMAX. -/
def minMaxE (ty : Ty) (least : Bool) : Elem2 := fun _ _ fz a b =>
  if ty.isFlt then fpMinMax ty least (fpSrc ty fz a) (fpSrc ty fz b)
  else ((if decide (elemInt ty a ≤ elemInt ty b) = least then a else b), 0)

/-- A bitwise form. -/
def bitE (f : Nat → Nat → Nat) : Elem2 := fun _ _ _ a b => (f a b, 0)

/-- VSHL. -/
def shlE (ty : Ty) (sat : Bool) : Elem2 := fun _ _ _ a b =>
  fitInt ty sat (elemInt ty a * (2 ^ (b % tyBits ty) : Nat))

/-- VSHR. -/
def shrE (ty : Ty) : Elem2 := fun _ _ _ a b => (a / 2 ^ (b % tyBits ty), 0)

/-- VSRA. -/
def sraE (ty : Ty) : Elem2 := fun _ _ _ a b =>
  fitInt ty false (sxNat a (tyBits ty) / (2 ^ (b % tyBits ty) : Nat))

/-- A two-source form; B is a vector or a scalar element (R138, R139). -/
def vec2 (s : State) (ty : Ty) (g : Gov) (d : VDst) (a : VSrc) (bs : Src) (b : Ctx → Nat → Nat) (lat : Nat)
    (checked : Bool) (rm : Option Rm) (e : Elem2) : Out :=
  vecOp s ty g d [.v a, bs] lat checked rm fun c md u i => e md u (fzOf c) (vElem ty a c i) (b c i)

/-- VADD. -/
def execVadd (ty : Ty) (g : Gov) (d : VDst) (a b : VSrc) (rm : Rm) (sat : Bool) (s : State) : Out :=
  vec2 s ty g d a (.v b) (vElem ty b) (latBy ty) (!ty.isFlt) (rmFlt ty rm) (addE ty sat)
/-- VSUB. -/
def execVsub (ty : Ty) (g : Gov) (d : VDst) (a b : VSrc) (rm : Rm) (sat : Bool) (s : State) : Out :=
  vec2 s ty g d a (.v b) (vElem ty b) (latBy ty) (!ty.isFlt) (rmFlt ty rm) (subE ty sat)
/-- VMUL. -/
def execVmul (ty : Ty) (g : Gov) (d : VDst) (a b : VSrc) (rm : Rm) (sat : Bool) (s : State) : Out :=
  vec2 s ty g d a (.v b) (vElem ty b) (latBy ty) true (rmFlt ty rm) (mulE ty sat)
/-- VMULH. -/
def execVmulh (ty : Ty) (g : Gov) (d : VDst) (a b : VSrc) (s : State) : Out :=
  vec2 s ty g d a (.v b) (vElem ty b) 2 true none (mulhE ty)
/-- VMIN. -/
def execVmin (ty : Ty) (g : Gov) (d : VDst) (a b : VSrc) (s : State) : Out :=
  vec2 s ty g d a (.v b) (vElem ty b) (latBy ty) false none (minMaxE ty true)
/-- VMAX. -/
def execVmax (ty : Ty) (g : Gov) (d : VDst) (a b : VSrc) (s : State) : Out :=
  vec2 s ty g d a (.v b) (vElem ty b) (latBy ty) false none (minMaxE ty false)
/-- VAND. -/
def execVand (ty : Ty) (g : Gov) (d : VDst) (a b : VSrc) (s : State) : Out :=
  vec2 s ty g d a (.v b) (vElem ty b) 2 false none (bitE (· &&& ·))
/-- VOR. -/
def execVor (ty : Ty) (g : Gov) (d : VDst) (a b : VSrc) (s : State) : Out :=
  vec2 s ty g d a (.v b) (vElem ty b) 2 false none (bitE (· ||| ·))
/-- VXOR. -/
def execVxor (ty : Ty) (g : Gov) (d : VDst) (a b : VSrc) (s : State) : Out :=
  vec2 s ty g d a (.v b) (vElem ty b) 2 false none (bitE (· ^^^ ·))
/-- VSHL. -/
def execVshl (ty : Ty) (g : Gov) (d : VDst) (a b : VSrc) (sat : Bool) (s : State) : Out :=
  vec2 s ty g d a (.v b) (vElem ty b) 2 false none (shlE ty sat)
/-- VSHR. -/
def execVshr (ty : Ty) (g : Gov) (d : VDst) (a b : VSrc) (s : State) : Out :=
  vec2 s ty g d a (.v b) (vElem ty b) 2 false none (shrE ty)
/-- VSRA. -/
def execVsra (ty : Ty) (g : Gov) (d : VDst) (a b : VSrc) (s : State) : Out :=
  vec2 s ty g d a (.v b) (vElem ty b) 2 false none (sraE ty)

/-! ### Scalar-operand forms (R139) -/

/-- VADDS. -/
def execVadds (ty : Ty) (g : Gov) (d : VDst) (a : VSrc) (sb : BitVec 6) (rm : Rm) (sat : Bool) (s : State) : Out :=
  vec2 s ty g d a (.s sb) (sElem ty sb) (latBy ty) (!ty.isFlt) (rmFlt ty rm) (addE ty sat)
/-- VMULS. -/
def execVmuls (ty : Ty) (g : Gov) (d : VDst) (a : VSrc) (sb : BitVec 6) (rm : Rm) (sat : Bool) (s : State) : Out :=
  vec2 s ty g d a (.s sb) (sElem ty sb) (latBy ty) true (rmFlt ty rm) (mulE ty sat)
/-- VSHLS. -/
def execVshls (ty : Ty) (g : Gov) (d : VDst) (a : VSrc) (sb : BitVec 6) (sat : Bool) (s : State) : Out :=
  vec2 s ty g d a (.s sb) (sElem ty sb) 2 false none (shlE ty sat)
/-- VSHRS. -/
def execVshrs (ty : Ty) (g : Gov) (d : VDst) (a : VSrc) (sb : BitVec 6) (s : State) : Out :=
  vec2 s ty g d a (.s sb) (sElem ty sb) 2 false none (shrE ty)
/-- VSRAS. -/
def execVsras (ty : Ty) (g : Gov) (d : VDst) (a : VSrc) (sb : BitVec 6) (s : State) : Out :=
  vec2 s ty g d a (.s sb) (sElem ty sb) 2 false none (sraE ty)

/-! ### Fused multiply-add (R140) -/

/-- a * b + D, or a * b - D, with D the register VD names as it stands at issue (R29). -/
def fmaOp (s : State) (ty : Ty) (g : Gov) (d : VDst) (a b : VSrc) (rm : Rm) (neg : Bool) : Out :=
  vecOp s ty g d [.v a, .v b, .v (.reg d.vd)] 4 true (some rm) fun c md u i =>
    let fz := fzOf c
    let x := fpSrc ty fz (elemOf (vregOf c d.vd) (tyBits ty) i)
    fpFma ty md u fz (fpSrc ty fz (vElem ty a c i)) (fpSrc ty fz (vElem ty b c i)) (if neg then x.negate else x)

/-- VFMA. -/
def execVfma (ty : Ty) (g : Gov) (d : VDst) (a b : VSrc) (rm : Rm) (s : State) : Out := fmaOp s ty g d a b rm false
/-- VFMS. -/
def execVfms (ty : Ty) (g : Gov) (d : VDst) (a b : VSrc) (rm : Rm) (s : State) : Out := fmaOp s ty g d a b rm true

/-! ### One-source forms (R141, R142) -/

/-- A one-source form on patterns with FZ. -/
def vec1 (s : State) (ty : Ty) (g : Gov) (d : VDst) (a : VSrc) (lat : Nat) (f : Bool → Nat → Nat × Flags) : Out :=
  vecOp s ty g d [.v a] lat false none fun c _ _ i => f (fzOf c) (vElem ty a c i)

/-- A FLT value with its sign set as given, written exactly (R141). -/
def signE (ty : Ty) (fz : Bool) (x : Nat) (f : Bool → Bool) : Nat × Flags :=
  match fpSrc ty fz x with
  | .nan => nanRes ty
  | .inf n => (fpSign ty (f n) (fpInfMag ty), fNF)
  | .fin n m e => (fpPat ty (.fin (f n) m e), 0)

/-- VABS. -/
def execVabs (ty : Ty) (g : Gov) (d : VDst) (a : VSrc) (sat : Bool) (s : State) : Out :=
  vec1 s ty g d a (latBy ty) fun fz x =>
    if ty.isFlt then signE ty fz x fun _ => false else fitInt ty sat (elemInt ty x).natAbs
/-- VNEG. -/
def execVneg (ty : Ty) (g : Gov) (d : VDst) (a : VSrc) (sat : Bool) (s : State) : Out :=
  vec1 s ty g d a (latBy ty) fun fz x =>
    if ty.isFlt then signE ty fz x not else fitInt ty sat (-(elemInt ty x))
/-- VNOT. -/
def execVnot (ty : Ty) (g : Gov) (d : VDst) (a : VSrc) (s : State) : Out :=
  vec1 s ty g d a 2 fun _ x => (ones (tyBits ty) - x, 0)
/-- VMOV. -/
def execVmov (ty : Ty) (g : Gov) (d : VDst) (a : VSrc) (s : State) : Out :=
  vec1 s ty g d a 2 fun _ x => (x, 0)

/-- The class of a value (R142). -/
def classE (ty : Ty) (fz : Bool) (x : Nat) : Nat × Flags :=
  match fpSrc ty fz x with
  | .nan => (256, fNF)
  | .inf n => ((if n then 1 else 128), fNF)
  | .fin n m _ =>
    ((if m = 0 then (if n then 8 else 16)
      else if fpSubnormal ty x then (if n then 4 else 32)
      else if n then 2 else 64), 0)

/-- VCLASS. -/
def execVclass (ty : Ty) (g : Gov) (d : VDst) (a : VSrc) (s : State) : Out := vec1 s ty g d a 4 (classE ty)

/-- VSCALE (R142). -/
def execVscale (ty : Ty) (g : Gov) (d : VDst) (a b : VSrc) (rm : Rm) (s : State) : Out :=
  vec2 s ty g d a (.v b) (vElem ty b) 4 false (some rm) fun md u fz x k =>
    fpScale ty md u fz (fpSrc ty fz x) (sxNat k (tyBits ty))

/-! ### Transcendental forms (R143) -/

/-- A transcendental form. -/
def fnOp (s : State) (fn : Fn) (ty : Ty) (g : Gov) (d : VDst) (a : VSrc) (rm : Rm) : Out :=
  vecOp s ty g d [.v a] 8 false (some rm) fun c md u i =>
    fpFn fn ty md u (fzOf c) (fpSrc ty (fzOf c) (vElem ty a c i))

/-- VRCP. -/
def execVrcp (ty : Ty) (g : Gov) (d : VDst) (a : VSrc) (rm : Rm) (s : State) : Out := fnOp s .rcp ty g d a rm
/-- VRSQ. -/
def execVrsq (ty : Ty) (g : Gov) (d : VDst) (a : VSrc) (rm : Rm) (s : State) : Out := fnOp s .rsq ty g d a rm
/-- VEXP2. -/
def execVexp2 (ty : Ty) (g : Gov) (d : VDst) (a : VSrc) (rm : Rm) (s : State) : Out := fnOp s .exp2 ty g d a rm
/-- VLOG2. -/
def execVlog2 (ty : Ty) (g : Gov) (d : VDst) (a : VSrc) (rm : Rm) (s : State) : Out := fnOp s .log2 ty g d a rm
/-- VSIGM. -/
def execVsigm (ty : Ty) (g : Gov) (d : VDst) (a : VSrc) (rm : Rm) (s : State) : Out := fnOp s .sigm ty g d a rm
/-- VTANH. -/
def execVtanh (ty : Ty) (g : Gov) (d : VDst) (a : VSrc) (rm : Rm) (s : State) : Out := fnOp s .tanh ty g d a rm

/-! ### Select and conversion (R145, R146) -/

/-- VSEL: every element is written (R145). -/
def execVsel (ty : Ty) (g : Gov) (d : VDst) (a b : VSrc) (s : State) : Out :=
  gateComp s fun s =>
    let c := s.core.ctx
    let n := tyCount s.core.gang ty
    let p := active s.core.gang c g n
    let vals := vecVals n (ones n) fun i => (if p.testBit i then vElem ty a c i else vElem ty b c i, 0)
    .next (issueVec s [.v a, .v b, govSrc g] d (tyBits ty) (ones n) 2 false vals)

/-- cvt of R146: the element conversions of R86 to R88; sources are never flushed. -/
def cvtE (td ts : Ty) (md : Rm) (u : Nat) (fz : Bool) (x : Nat) : Nat × Flags :=
  if ts.isFp then
    if td.isFp then cvtFpFp td md u (fz && td.isFlt) (fpVal ts x)
    else
      let r := cvtFpInt (tyBits td) (tySigned td) md u (fpVal ts x)
      ((fitInt td false r.1).1, r.2)
  else
    if td.isFp then cvtIntFp td md u (fz && td.isFlt) (elemInt ts x)
    else fitInt td false (elemInt ts x)

/-- VCVT (R146): governed under the destination type. -/
def execVcvt (td ts : Ty) (g : Gov) (d : VDst) (a : VSrc) (rm : Rm) (s : State) : Out :=
  vecOp s td g d [.v a] 4 false (if td.isFp || ts.isFp then some rm else none) fun c md u i =>
    if i < tyCount s.core.gang ts then cvtE td ts md u (fzOf c) (vElem ts a c i) else (0, 0)

/-! ### Block quantiser and dequantiser (R147 to R149) -/

/-- The type a QTy names. -/
def qTy : QTy → Ty
  | .f32 => .f32
  | .f16 => .f16
  | .bf16 => .bf16

/-- The source values of block j of k elements. -/
def blockVals (t : Ty) (x k j : Nat) : List FVal :=
  (List.range k).map fun i => fpVal t (elemOf x (tyBits t) (j * k + i))

/-- VQBLK (R148): the result's bytes and flags. -/
def qblkVals (g : Nat) (t : Ty) (k : Nat) (had : Bool) (md : Rm) (draw : Nat → Nat) (x y : Nat) :
    List (Nat × Flags) :=
  let n := tyCount g t
  let blocks := (List.range (n / k)).map fun j =>
    let ys := blockVals t x k j
    let ys := if had && !ys.any FVal.nonFinite then
        (hadamard (if k = 16 then 2 else 3) (ys.map (fpPat .f32))).map (fpVal .f32)
      else ys
    quantBlock (elemOf y 8 (128 * g + j) / 64) md (fun i => draw (j * k + i)) ys
  let codes := packElems 4 (blocks.flatMap (·.2.1))
  let scales := packElems 8 (blocks.map (·.1))
  let whole := codes + scales * 2 ^ (8 * (128 * g))
  let fl := blocks.foldl (fun f b => f ||| b.2.2) 0
  (List.range (256 * g)).map fun i => (elemOf whole 8 i, fl)

/-- VQBLK (R148). -/
def execVqblk (ty : QTy) (k32 had : Bool) (d : VDst) (a b : VSrc) (rm : Rm) (s : State) : Out :=
  gateComp s fun s =>
    let c := s.core.ctx
    let g := s.core.gang
    let md := effRm c.fpctl rm
    let vals := qblkVals g (qTy ty) (if k32 then 32 else 16) had md (rsDraw c) (vsrc c a) (vsrc c b)
    .next (issueVec (bumpRs s (md = .rs)) [.v a, .v b] d 8 (ones (256 * g)) (if had then 8 else 4) false vals)

/-- VDQBLK (R149): the values of the destination elements. -/
def dqblkVals (g : Nat) (t : Ty) (k : Nat) (had : Bool) (md : Rm) (draw : Nat → Nat) (x : Nat) :
    List (Nat × Flags) :=
  let n := tyCount g t
  (List.range (n / k)).flatMap fun j =>
    let scale := elemOf x 8 (128 * g + j)
    let vs := (List.range k).map fun i => codeVal scale (elemOf x 4 (j * k + i))
    let vs := if had then (hadamard 2 (vs.map (fpPat .f32))).map (fpVal .f32) else vs
    (vs.zip (List.range k)).map fun p => cvtFpFp t md (draw (j * k + p.2)) false p.1

/-- VDQBLK (R149). -/
def execVdqblk (ty : QTy) (k32 had : Bool) (d : VDst) (a : VSrc) (rm : Rm) (s : State) : Out :=
  gateComp s fun s =>
    let c := s.core.ctx
    let g := s.core.gang
    let md := effRm c.fpctl rm
    let vals := dqblkVals g (qTy ty) (if k32 then 32 else 16) had md (rsDraw c) (vsrc c a)
    .next (issueVec (bumpRs s (md = .rs)) [.v a] d (tyBits (qTy ty)) (ones (tyCount g (qTy ty))) (if had then 8 else 4)
      false vals)

/-! ### Permutes, slides, broadcast and iota (R151 to R153) -/

/-- VPERM (R151). -/
def execVperm (ty : Ty) (g : Gov) (d : VDst) (a b : VSrc) (s : State) : Out :=
  vecOp s ty g d [.v a, .v b] 2 false none fun c _ _ i =>
    let k := vElem ty b c i
    (if k < tyCount s.core.gang ty then vElem ty a c k else 0, 0)
/-- VSLIDEU (R152). -/
def execVslideu (ty : Ty) (g : Gov) (d : VDst) (a : VSrc) (sb : BitVec 6) (s : State) : Out :=
  vecOp s ty g d [.v a, .s sb] 2 false none fun c _ _ i =>
    let k := (sreg c sb).toNat
    (if k ≤ i then vElem ty a c (i - k) else 0, 0)
/-- VSLIDED (R152). -/
def execVslided (ty : Ty) (g : Gov) (d : VDst) (a : VSrc) (sb : BitVec 6) (s : State) : Out :=
  vecOp s ty g d [.v a, .s sb] 2 false none fun c _ _ i =>
    let k := (sreg c sb).toNat
    (if i + k < tyCount s.core.gang ty then vElem ty a c (i + k) else 0, 0)
/-- VBCAST (R153). -/
def execVbcast (ty : Ty) (g : Gov) (d : VDst) (sb : BitVec 6) (s : State) : Out :=
  vecOp s ty g d [.s sb] 2 false none fun c _ _ i => (sElem ty sb c i, 0)
/-- VIOTA (R153). -/
def execViota (ty : Ty) (g : Gov) (d : VDst) (sb : BitVec 6) (s : State) : Out :=
  vecOp s ty g d [.s sb] 2 true none fun c _ _ i => (((sreg c sb).toNat + i) % 2 ^ tyBits ty, 0)

end Sys2Proof.Machine
end

