-- ==== Sys2Proof/Machine/VReduce.lean ====
section
/-! DEFINITION. Vector forms with a scalar or predicate result: compares (R144), extract (R154) and reductions over
a fixed tree (R150). -/
namespace Sys2Proof.Machine
open Sys2Proof

/-! ### Compares (R144) -/

/-- One comparison: 1 or 0, with flags. -/
def cmpE (ty : Ty) (cc : Cc) (fz : Bool) (a b : Nat) : Nat × Flags :=
  if ty.isFlt then
    let x := fpSrc ty fz a
    let y := fpSrc ty fz b
    (b2n (ccFp cc x y), cmpFlags x y)
  else (b2n (ccInt cc (elemInt ty a) (elemInt ty b)), 0)

/-- A compare into a predicate. -/
def cmpOp (s : State) (ty : Ty) (cc : Cc) (g : Gov) (pd : BitVec 6) (a : VSrc) (bs : Src)
    (b : Ctx → Nat → Nat) : Out :=
  gateComp s fun s =>
    let c := s.core.ctx
    let n := tyCount s.core.gang ty
    let act := active s.core.gang c g n
    let vals := vecVals n act fun i => cmpE ty cc (fzOf c) (vElem ty a c i) (b c i)
    .next (issuePred s [.v a, bs, govSrc g] pd (latBy ty) (packElems 1 (vals.map (·.1))) (orFlags vals))

/-- VCMP. -/
def execVcmp (ty : Ty) (cc : Cc) (g : Gov) (pd : BitVec 6) (a b : VSrc) (s : State) : Out :=
  cmpOp s ty cc g pd a (.v b) (vElem ty b)
/-- VCMPS. -/
def execVcmps (ty : Ty) (cc : Cc) (g : Gov) (pd : BitVec 6) (a : VSrc) (sb : BitVec 6) (s : State) : Out :=
  cmpOp s ty cc g pd a (.s sb) (sElem ty sb)

/-- An element extended to 64 bits: by sign for I types (R154). -/
def extendE (ty : Ty) (x : Nat) : Word := wrap64 (elemInt ty x)

/-- VEXT (R154). -/
def execVext (ty : Ty) (sd : BitVec 6) (a : VSrc) (sb : BitVec 6) (s : State) : Out :=
  gateComp s fun s =>
    let c := s.core.ctx
    let k := (sreg c sb).toNat
    .next (issueScalar s [.v a, .s sb] sd 2
      (if k < tyCount s.core.gang ty then extendE ty (vElem ty a c k) else 0) 0)

/-! ### Reductions (R150) -/

/-- One level of the tree: neighbours combine, an absent one yields the other. -/
def pairUp (comb : Nat → Nat → Nat × Flags) : List (Option Nat) → List (Option Nat) × Flags
  | some x :: some y :: r =>
    let (z, f) := comb x y
    let (l, fl) := pairUp comb r
    (some z :: l, f ||| fl)
  | some x :: none :: r => let (l, fl) := pairUp comb r; (some x :: l, fl)
  | none :: y :: r => let (l, fl) := pairUp comb r; (y :: l, fl)
  | [x] => ([x], 0)
  | [] => ([], 0)

/-- The whole tree over at most 2^m slots. -/
def treeOf (comb : Nat → Nat → Nat × Flags) : Nat → List (Option Nat) → Option Nat × Flags
  | 0, l => (l.headD none, 0)
  | m + 1, l =>
    let (l', f) := pairUp comb l
    let (x, fl) := treeOf comb m l'
    (x, f ||| fl)

/-- The active elements as tree inputs. -/
def inputsOf (s : State) (ty : Ty) (g : Gov) (a : VSrc) : List (Option Nat) :=
  let c := s.core.ctx
  let n := tyCount s.core.gang ty
  let act := active s.core.gang c g n
  (List.range n).map fun i => if act.testBit i then some (vElem ty a c i) else none

/-- A reduction of FLT patterns: `pre` prepares an input, `comb` combines, `ident` stands for no input. -/
def reduceFlt (s : State) (ty : Ty) (g : Gov) (a : VSrc) (pre : FVal → Nat)
    (comb : FVal → FVal → Nat × Flags) (ident : Nat) : Word × Flags :=
  let fz := fzOf s.core.ctx
  let ins := inputsOf s ty g a
  let vals := ins.map fun o => o.map fun x => pre (fpSrc ty fz x)
  let nf := flagIf (ins.any fun o => match o with
    | some x => (fpSrc ty fz x).nonFinite
    | none => false) fNF
  let (r, f) := treeOf (fun x y => comb (fpVal ty x) (fpVal ty y)) 11 vals
  match r with
  | some x => (BitVec.ofNat 64 x, f ||| nf)
  | none => (BitVec.ofNat 64 ident, flagIf (fpVal ty ident).nonFinite fNF)

/-- A reduction of integers by an exact operation. -/
def reduceInt (s : State) (ty : Ty) (g : Gov) (a : VSrc) (comb : Int → Int → Int) (ident : Int) : Word :=
  let ins := (inputsOf s ty g a).filterMap fun o => o.map (elemInt ty)
  match ins with
  | [] => wrap64 ident
  | x :: r => wrap64 (r.foldl comb x)

/-- The type's largest value. -/
def intMax (ty : Ty) : Int := if tySigned ty then (2 ^ (tyBits ty - 1) : Nat) - 1 else (2 ^ tyBits ty : Nat) - 1

/-- The type's smallest value. -/
def intMin (ty : Ty) : Int := if tySigned ty then -(2 ^ (tyBits ty - 1) : Nat) else 0

/-- Issue a reduction. -/
def reduceOp (s : State) (ty : Ty) (g : Gov) (sd : BitVec 6) (a : VSrc) (v : State → Word × Flags) : Out :=
  gateComp s fun s =>
    let r := v s
    .next (issueScalar s [.v a, govSrc g] sd (latBy ty) r.1 r.2)

/-- VRSUM: an exact integer sum, or an FP sum rounded at each node (Table 5.4). -/
def execVrsum (ty : Ty) (g : Gov) (sd : BitVec 6) (a : VSrc) (s : State) : Out :=
  reduceOp s ty g sd a fun s =>
    if ty.isFlt then
      reduceFlt s ty g a (fpPat ty)
        (fpAdd ty (noRs (fpctlRm s.core.ctx.fpctl)) 0 (fzOf s.core.ctx)) 0
    else (reduceInt s ty g a (· + ·) 0, 0)
/-- VRMIN. -/
def execVrmin (ty : Ty) (g : Gov) (sd : BitVec 6) (a : VSrc) (s : State) : Out :=
  reduceOp s ty g sd a fun s =>
    if ty.isFlt then reduceFlt s ty g a (fpPat ty) (fpMinMax ty true) (fpInfMag ty)
    else (reduceInt s ty g a min (intMax ty), 0)
/-- VRMAX. -/
def execVrmax (ty : Ty) (g : Gov) (sd : BitVec 6) (a : VSrc) (s : State) : Out :=
  reduceOp s ty g sd a fun s =>
    if ty.isFlt then reduceFlt s ty g a (fpPat ty) (fpMinMax ty false) (fpSign ty true (fpInfMag ty))
    else (reduceInt s ty g a max (intMin ty), 0)

/-- The magnitude of a value as a pattern; a NaN is canonical. -/
def absPat (ty : Ty) : FVal → Nat
  | .nan => fpNan ty
  | .inf _ => fpInfMag ty
  | .fin _ m e => fpPat ty (.fin false m e)

/-- The larger of two magnitudes; canonical NaN if either is a NaN (Table 5.4). -/
def amaxComb (ty : Ty) (x y : FVal) : Nat × Flags :=
  if x = .nan || y = .nan then nanRes ty
  else (if fpOrd x y < 0 then fpPat ty y else fpPat ty x, 0)

/-- VRAMAX. -/
def execVramax (ty : Ty) (g : Gov) (sd : BitVec 6) (a : VSrc) (s : State) : Out :=
  reduceOp s ty g sd a fun s => reduceFlt s ty g a (absPat ty) (amaxComb ty) 0

end Sys2Proof.Machine
end

