-- ==== Sys2Proof/Machine/VMem.lean ====
section
/-! DEFINITION. Local loads and stores (R111, R112, R155 to R159): LDS, STS and the vector forms. A load checks its
access, then the watermark stall, and its read is made in the next advancing ck; a store writes at issue. -/
namespace Sys2Proof.Machine
open Sys2Proof

/-! ### The checks -/

/-- What the checks of a local access answer. -/
inductive Access
  | trap (cause : Nat) (val : Word)
  | go
  deriving DecidableEq, Repr

/-- The lowest byte outside the reach of an access. -/
def outside (g : Nat) (c : Ctx) (space : Nat) (bytes : List Nat) : Option Nat :=
  lowest (bytes.filter fun a => decide (reach g c space ≤ a))

/-- A vector access: where it starts, whether that is aligned, and its active elements (index, address). -/
structure VAcc where
  space : Nat
  ew : Nat
  base : Word
  aligned : Bool
  elems : List (Nat × Nat)
  deriving DecidableEq, Repr

/-- The bytes a vector access touches. -/
def VAcc.bytes (a : VAcc) : List Nat := a.elems.flatMap fun p => elemBytes a.ew p.2

/-- The checks of a vector access (R156): alignment, then range. -/
def VAcc.check (g : Nat) (c : Ctx) (a : VAcc) : Access :=
  if !a.aligned then .trap 0x07 a.base
  else
    match outside g c a.space a.bytes with
    | some b => .trap 0x08 (BitVec.ofNat 64 b)
    | none => .go

/-- The active elements of a type with their addresses. -/
def vElems (s : State) (ty : Ty) (g : Gov) (addr : Nat → Word) : List (Nat × Nat) :=
  let n := tyCount s.core.gang ty
  let act := active s.core.gang s.core.ctx g n
  ((List.range n).filter act.testBit).map fun i => (i, (addr i).toNat)

/-- The step of an element of a contiguous or strided form: pairs of 4-bit elements share a byte (R155). -/
def elemStep (ty : Ty) (i : Nat) : Nat := if ty = .b4 then i / 2 else i

/-- Bytes of an element, 1 for a pair of 4-bit elements. -/
def elemSize (ty : Ty) : Nat := max 1 (tyBits ty / 8)

/-- VLD, VST, VLDA: contiguous from S(SA) + 32 * OFF. -/
def accUnit (s : State) (ty : Ty) (g : Gov) (space : Nat) (sa : BitVec 6) (off : Word) : VAcc :=
  let base := sreg s.core.ctx sa + (off <<< 5)
  { space := space, ew := tyBits ty, base := base, aligned := base.toNat % 32 = 0
    elems := vElems s ty g fun i => base + BitVec.ofNat 64 (elemStep ty i * elemSize ty) }

/-- VLDS, VSTS: strided. -/
def accStride (s : State) (ty : Ty) (g : Gov) (sa sb : BitVec 6) (off : Word) : VAcc :=
  let base := sreg s.core.ctx sa + (off <<< 5)
  let st := sreg s.core.ctx sb
  { space := 1, ew := tyBits ty, base := base
    aligned := base.toNat % elemSize ty = 0 && st.toNat % elemSize ty = 0
    elems := vElems s ty g fun i => base + BitVec.ofNat 64 (elemStep ty i) * st }

/-- VLDX, VSTX: indexed. -/
def accIndex (s : State) (ty : Ty) (g : Gov) (sa : BitVec 6) (idx : VSrc) : VAcc :=
  let base := sreg s.core.ctx sa
  { space := 1, ew := tyBits ty, base := base, aligned := base.toNat % elemSize ty = 0
    elems := vElems s ty g fun i => base + BitVec.ofNat 64 (vElem ty idx s.core.ctx i * elemSize ty) }

/-! ### Loads -/

/-- A load that has passed its checks stands under the stall rule (R30, R31): it waits, raises the copy error, or
issues. -/
def stalling (s : State) (space : Nat) (bytes : List Nat) (k : State → Out) : Out :=
  match stallOf s.core.ctx space bytes with
  | .wait => .next s
  | .failed a => .next (trapStall s 0x0C (BitVec.ofNat 64 a))
  | .no => k s

/-- A vector load (R156, R157). -/
def loadVec (s : State) (g : Gov) (d : VDst) (srcs : List Src) (lat : Nat) (acc : State → VAcc) : Out :=
  gateComp s fun s =>
    let a := acc s
    match a.check s.core.gang s.core.ctx with
    | .trap cause v => .next (trapIssue s cause v)
    | .go => stalling s a.space a.bytes fun s =>
      let c := s.core.ctx
      let act := packElems 1 ((List.range 2048).map fun i => b2n (a.elems.any fun p => p.1 = i))
      .next (issueResult s lat (.vector (physV c d.vd) d.ws a.ew (BitVec.ofNat 2048 act) 0) 0
        (some (.vec (a.space = 3) a.ew a.elems)) (srcFault s.core.gang c (srcs ++ [govSrc g])))

/-- VLD. -/
def execVld (ty : Ty) (g : Gov) (d : VDst) (sa : BitVec 6) (off : BitVec 14) (s : State) : Out :=
  loadVec s g d [.s sa] 6 fun s => accUnit s ty g 1 sa (off.signExtend 64)
/-- VLDS. -/
def execVlds (ty : Ty) (g : Gov) (d : VDst) (sa sb : BitVec 6) (off : BitVec 14) (s : State) : Out :=
  loadVec s g d [.s sa, .s sb] 6 fun s => accStride s ty g sa sb (off.signExtend 64)
/-- VLDA: the accumulator partition. -/
def execVlda (ty : Ty) (g : Gov) (d : VDst) (sa : BitVec 6) (off : BitVec 14) (s : State) : Out :=
  loadVec s g d [.s sa] 8 fun s => accUnit s ty g 3 sa (off.signExtend 64)
/-- VLDX. -/
def execVldx (ty : Ty) (g : Gov) (d : VDst) (a : VSrc) (sb : BitVec 6) (s : State) : Out :=
  loadVec s g d [.v a, .s sb] 6 fun s => accIndex s ty g sb a

/-! ### Stores (R158) -/

/-- The bytes an element stores: for a 4-bit type its nibble only. -/
def storeElem (ew x : Nat) (p : Nat × Nat) : List WByte :=
  let v := elemOf x ew p.1
  if ew = 4 then [⟨p.2, if p.1 % 2 = 0 then 1 else 2, BitVec.ofNat 8 (17 * v)⟩]
  else wbytes p.2 (toBytes (ew / 8) v)

/-- A vector store. It is performed at its issue and a load when it reads, so that both go in program order. DESIGN CHOICE, log
entry 108. -/
def storeVec (s : State) (g : Gov) (src : VSrc) (srcs : List Src) (acc : State → VAcc) : Out :=
  gateComp s fun s =>
    let a := acc s
    match a.check s.core.gang s.core.ctx with
    | .trap cause v => .next (trapIssue s cause v)
    | .go =>
      let x := vsrc s.core.ctx src
      .next (issuePlain s (.v src :: srcs ++ [govSrc g]) fun c =>
        storeLocal c 1 (a.elems.flatMap (storeElem a.ew x)))

/-- VST. -/
def execVst (ty : Ty) (g : Gov) (src : VSrc) (sa : BitVec 6) (off : BitVec 13) (s : State) : Out :=
  storeVec s g src [.s sa] fun s => accUnit s ty g 1 sa (off.signExtend 64)
/-- VSTS. -/
def execVsts (ty : Ty) (g : Gov) (src : VSrc) (sa sb : BitVec 6) (off : BitVec 13) (s : State) : Out :=
  storeVec s g src [.s sa, .s sb] fun s => accStride s ty g sa sb (off.signExtend 64)
/-- VSTX. -/
def execVstx (ty : Ty) (g : Gov) (src idx : VSrc) (sa : BitVec 6) (s : State) : Out :=
  storeVec s g src [.v idx, .s sa] fun s => accIndex s ty g sa idx

/-! ### LDS and STS (R111, R112) -/

/-- The effective address. -/
def ldsAddr (c : Ctx) (sa : BitVec 6) (off : BitVec 38) : Word := sreg c sa + off.signExtend 64

/-- The checks of a scalar access (R112): range, then alignment. -/
def scalarCheck (g : Nat) (c : Ctx) (ea : Word) (w : Nat) : Access :=
  if reach g c 1 < ea.toNat + w then .trap 0x08 ea
  else if ea.toNat % w ≠ 0 then .trap 0x07 ea
  else .go

/-- The bytes of a scalar access. -/
def scalarBytes (ea : Word) (w : Nat) : List Nat := (List.range w).map (ea.toNat + ·)

/-- LDS. -/
def execLds (ty : Ty) (sd sa : BitVec 6) (off : BitVec 38) (s : State) : Out :=
  gateComp s fun s =>
    let ea := ldsAddr s.core.ctx sa off
    let w := tyBits ty / 8
    match scalarCheck s.core.gang s.core.ctx ea w with
    | .trap cause v => .next (trapIssue s cause v)
    | .go => stalling s 1 (scalarBytes ea w) fun s =>
      .next (issueResult s 4 (.scalar sd 0) 0 (some (.scalar ea.toNat w (tySigned ty)))
        (srcFault s.core.gang s.core.ctx [.s sa]))

/-- STS. -/
def execSts (ty : Ty) (sd sa : BitVec 6) (off : BitVec 38) (s : State) : Out :=
  gateComp s fun s =>
    let ea := ldsAddr s.core.ctx sa off
    let w := tyBits ty / 8
    match scalarCheck s.core.gang s.core.ctx ea w with
    | .trap cause v => .next (trapIssue s cause v)
    | .go =>
      let x := sreg s.core.ctx sd
      .next (issuePlain s [.s sd, .s sa] fun c => storeLocal c 1 (wbytes ea.toNat (toBytes w x.toNat)))

end Sys2Proof.Machine
end

