-- ==== Sys2Proof/Machine/Copy.lean ====
section
/-! DEFINITION. The copy engine (R271 to R295): tensor layout records and regions, the copies' element moves, the
engine checks, granules read and landed, watermarks, failures, the absolute-maximum ring, and the instructions that
start, abort and inspect copies. -/
namespace Sys2Proof.Machine
open Sys2Proof

/-! ### Records and regions (R274 to R278) -/

/-- A tensor layout record as read, whether its fields are within Table 11.1, and whether they suit the space it is named for
(R277, R278). -/
structure Rec where
  raw : Nat
  base : Int
  core : Nat
  nd : Nat
  ety : Ty
  swz : Nat
  amx : Bool
  pad : Nat
  bound : List Nat
  stride : List Int
  ok : Bool
  place : Bool
  deriving DecidableEq, Repr

/-- The field of `n` bytes at a byte offset. -/
def fieldAt (x off n : Nat) : Nat := bitsOf x (8 * off) (8 * n)

/-- The code of a copy space. -/
def spaceNo (sp : Space) : Nat := sp.code.toNat

/-- Whether a packed remote address has only its two fields (R278). -/
def remoteOk (x : Nat) : Bool := bitsOf x 22 10 = 0 && bitsOf x 42 22 = 0

/-- Read a record named for a space. -/
def recOf (x : Nat) (sp : Space) : Rec :=
  let nd := fieldAt x 8 1
  let ty := Ty.ofCode (BitVec.ofNat 6 (fieldAt x 9 1))
  let ety := ty.getD .i8
  let swz := fieldAt x 10 1
  let base := fieldAt x 0 8
  let bound := (List.range 5).map fun k => fieldAt x (0x10 + 4 * k) 4
  let strideN := (List.range 4).map fun k => fieldAt x (0x28 + 8 * k) 8
  let rem := sp = .rmt
  { raw := base
    base := if rem then ((base % 2 ^ 22 : Nat) : Int) else (base : Int)
    core := bitsOf base 32 10
    nd := nd, ety := ety, swz := swz, amx := bitOf (fieldAt x 11 1) 0, pad := fieldAt x 12 4
    bound := bound
    stride := 0 :: strideN.map fun v => sxNat v 64
    ok := decide (1 ≤ nd) && decide (nd ≤ 5) && decide (fieldAt x 9 1 < 64) && ty.isSome && ety ≠ .i64 && ety ≠ .n64 &&
      decide (swz ≤ 5) && decide (fieldAt x 11 1 < 2) && fieldAt x 0x24 4 = 0 &&
      decide (fieldAt x 0x78 1 ≤ 11) && fieldAt x 0x79 7 = 0 &&
      decide (fieldAt x 12 4 < 2 ^ tyBits ety) &&
      ((List.range 5).all fun k =>
        let b := bound.getD k 0
        if k < nd then decide (1 ≤ b) && decide (b < 2 ^ 31) else b = 0) &&
      ((List.range 4).all fun k => decide (k + 1 < nd) || strideN.getD k 0 = 0)
    place := !((sp = .glb || sp = .host) && swz ≠ 0) && (!rem || remoteOk base) && (sp ≠ .glb || decide (base < 2 ^ 56)) }

/-- A region descriptor (R275). -/
structure Region where
  so : List Int
  dorg : List Int
  ext : List Nat
  ok : Bool
  deriving DecidableEq, Repr

/-- Read a region for records of `nd` dimensions. -/
def regionOf (x nd : Nat) : Region :=
  let so := (List.range 5).map fun k => sxNat (fieldAt x (4 * k) 4) 32
  let dorg := (List.range 5).map fun k => sxNat (fieldAt x (0x14 + 4 * k) 4) 32
  let ext := (List.range 5).map fun k => fieldAt x (0x28 + 4 * k) 4
  { so := so, dorg := dorg, ext := ext
    ok := fieldAt x 0x3C 4 = 0 && (List.range 5).all fun k =>
      let a := so.getD k 0
      let b := dorg.getD k 0
      let e := ext.getD k 0
      if k < nd then decide (1 ≤ e) && decide (a + e - 1 < 2 ^ 31) && decide (b + e - 1 < 2 ^ 31)
      else a = 0 && b = 0 && e = 0 }

/-- a(c) of R276, exact. -/
def elemAddr (r : Rec) (w : Nat) (c : List Int) : Int :=
  r.base + (c.headD 0 * (w : Int)) / 8 + ((c.zip r.stride).drop 1).foldl (fun s p => s + p.1 * p.2) 0

/-- The swizzle of R277. -/
def swAddr (s : Nat) (a : Int) : Int :=
  if a < 0 then a
  else
    let x := a.toNat
    ((x ^^^ (32 * (x / 1024 % 2 ^ s)) : Nat) : Int)

/-- The index vectors of a region in canonical order, the first index fastest (R283). -/
def idxVecs : List Nat → List (List Int)
  | [] => [[]]
  | e :: r => (idxVecs r).flatMap fun t => (List.range e).map fun i => ((i : Nat) : Int) :: t

/-- Whether a coordinate is in bounds. -/
def inBounds (bound : List Nat) (c : List Int) : Bool :=
  (c.zip bound).all fun p => decide (0 ≤ p.1) && decide (p.1 < (p.2 : Int))

/-! ### Element moves (R283, R286) -/

/-- One element the copy writes: destination address and nibbles, source address and nibble (2 for whole bytes), or
the pad. Addresses are swizzled. -/
structure Mv where
  d : Int
  dn : Nat
  src : Option (Int × Nat)
  deriving DecidableEq, Repr

/-- A copy ready to be performed: element width in bits, elements, pad, the unswizzled addresses of the in-bounds
elements on both sides, the destination's target core, its stamp, and its record's ring. -/
structure Plan where
  w : Nat
  mvs : List Mv
  pad : Nat
  srcAddrs : List Int
  dstAddrs : List Int
  core : Nat
  swz : Nat
  amx : Bool
  ety : Ty
  srcBase : Nat
  dstBase : Nat
  deriving DecidableEq, Repr

/-- Halve the first entry of a list: 4-bit pairs become bytes under CPYT (R283). -/
def halfHead (l : List Int) : List Int := l.headD 0 / 2 :: l.drop 1

/-- The moves of a copy through records; `t` transposes, `fill` reads no source. -/
def planOf (src dst : Rec) (reg : Region) (t fill : Bool) : Plan :=
  let pairs := t && dst.ety = .b4
  let w := if pairs then 8 else tyBits dst.ety
  let hn := fun (l : List Nat) => if pairs then l.headD 0 / 2 :: l.drop 1 else l
  let hi := fun (l : List Int) => if pairs then halfHead l else l
  let nd := dst.nd
  let so := (hi reg.so).take nd
  let dorg := (hi reg.dorg).take nd
  let sb := hn src.bound
  let db := hn dst.bound
  let pad0 := if fill then dst.pad else src.pad
  let vs := idxVecs ((hn reg.ext).take nd)
  let coord := fun (org j : List Int) => (org.zip j).map fun p => p.1 + p.2
  let swap := fun (j : List Int) => if t then j.getD 1 0 :: j.headD 0 :: j.drop 2 else j
  let els := vs.map fun j => (coord so j, coord dorg (swap j))
  let nib := fun (c : List Int) => if w = 4 then (c.headD 0 % 2).toNat else 2
  { w := w
    pad := if pairs then pad0 % 16 * 17 else pad0
    mvs := (els.filter fun e => inBounds db e.2).map fun e =>
      { d := swAddr dst.swz (elemAddr dst w e.2)
        dn := if w = 4 then (if nib e.2 = 0 then 1 else 2) else 3
        src := if !fill && inBounds sb e.1 then some (swAddr src.swz (elemAddr src w e.1), nib e.1) else none }
    srcAddrs := if fill then [] else ((els.filter fun e => inBounds sb e.1).map fun e => elemAddr src w e.1)
    dstAddrs := (els.filter fun e => inBounds db e.2).map fun e => elemAddr dst w e.2
    core := dst.core, swz := dst.swz, amx := dst.amx, ety := dst.ety, srcBase := src.raw, dstBase := dst.raw }

/-- The moves of a raw copy: bytes in increasing address. -/
def planRaw (dstSp : Space) (a b n : Nat) : Plan :=
  let b' := if dstSp = .rmt then b % 2 ^ 22 else b
  { w := 8, pad := 0
    mvs := (List.range n).map fun k => ⟨((b' + k : Nat) : Int), 3, some (((a + k : Nat) : Int), 2)⟩
    srcAddrs := [(a : Int), ((a + n - 1 : Nat) : Int)], dstAddrs := [(b' : Int), ((b' + n - 1 : Nat) : Int)]
    core := bitsOf b 32 10, swz := 0, amx := false, ety := .n8, srcBase := a, dstBase := b }

/-- Whether the types of a destination record may fold a ring (R288). -/
def amxTy (t : Ty) : Bool := t = .f32 || t = .f16 || t = .bf16 || t = .e4m3 || t = .e5m2

/-- Whether the records and the region of a copy leave the granules it would write undefined: a field breaks Table 11.1 or
R275, or NDIM or ETYPE differ (R284). A raw copy's operands always define them. -/
def copyUndefined (o : CopyOp) : Bool :=
  !o.raw &&
    (let dst := recOf o.rdst o.dst
     let src := recOf o.rsrc o.src
     !dst.ok || !(regionOf o.reg dst.nd).ok ||
       (o.kind ≠ 3 && (!src.ok || src.nd ≠ dst.nd || src.ety ≠ dst.ety)))

/-- Whether a captured copy breaks Table 11.1, R275, R277, R278, R283 or R286 (cause 5). -/
def copyInvalid (o : CopyOp) : Bool :=
  if o.raw then
    let a := o.ra.toNat
    let b := o.rb.toNat
    let n := o.rc.toNat
    a % 32 ≠ 0 || b % 32 ≠ 0 || n % 32 ≠ 0 || decide (n < 32) || decide (2 ^ 32 < n) ||
      (o.src = .rmt && !remoteOk a) || (o.dst = .rmt && !remoteOk b)
  else
    let fill := o.kind = 3
    let dst := recOf o.rdst o.dst
    let src := recOf o.rsrc o.src
    let reg := regionOf o.reg dst.nd
    let even := fun (n : Int) => n % 2 = 0
    copyUndefined o || !dst.place || (!fill && !src.place) || (dst.amx && !amxTy dst.ety) ||
      (o.kind = 1 && (decide (dst.nd < 2) || (dst.ety = .b4 &&
        !(even (reg.so.headD 0) && even (reg.dorg.headD 0) && even (reg.ext.headD 0 : Nat) &&
          even (src.bound.headD 0 : Nat) && even (dst.bound.headD 0 : Nat)))))

/-- The plan of a captured copy that is not invalid. -/
def planCopy (o : CopyOp) : Plan :=
  if o.raw then planRaw o.dst o.ra.toNat o.rb.toNat o.rc.toNat
  else
    let dst := recOf o.rdst o.dst
    planOf (if o.kind = 3 then dst else recOf o.rsrc o.src) dst (regionOf o.reg dst.nd) (o.kind = 1) (o.kind = 3)

/-- Spaces refused under cause 6 (Table 11.5). -/
def copyRefused (o : CopyOp) : Bool :=
  let s := spaceNo o.src
  let d := spaceNo o.dst
  (o.kind ≠ 3 && (s = 2 || decide (5 ≤ s))) ||
    (if o.kind = 2 then !(d = 1 || d = 3 || d = 5) else decide (6 ≤ d))

/-- The bytes of an element. -/
def wBytes (w : Nat) : Nat := max 1 (w / 8)

/-- Whether addresses of a space overflow (cause 3). -/
def overflows (sp : Space) (nb : Nat) (l : List Int) : Bool :=
  match sp with
  | .glb => l.any fun a => decide (a < 0) || decide ((2 : Int) ^ 56 < a + nb)
  | .host => l.any fun a => decide (a < 0) || decide ((2 : Int) ^ 64 < a + nb)
  | _ => false

/-- Whether addresses of a local space lie outside (cause 4). -/
def outOfPart (g : Nat) (c : Ctx) (o : CopyOp) (dstSide : Bool) (nb core : Nat) (sp : Space) (l : List Int) : Bool :=
  let lim : Nat :=
    match sp with
    | .loc => if dstSide || o.privU then frameBase g c.metered else partSize g c.metered 1
    | .rmt => if core < c.ncore then frameBase g c.metered else 0
    | .acc => partSize g c.metered 3
    | _ => partSize g c.metered 5
  (sp = .loc || sp = .rmt || sp = .acc || sp = .opm) &&
    l.any fun a => decide (a < 0) || decide ((lim : Int) < a + nb)

/-- The engine checks (R288): cause, side and ADDR of the first that fails. -/
def copyCheck (g : Nat) (c : Ctx) (o : CopyOp) : Option (Nat × Nat × Word) :=
  if copyInvalid o then some (5, 0, 0)
  else if copyRefused o then some (6, 0, 0)
  else
    let p := planCopy o
    let nb := wBytes p.w
    if overflows o.src nb p.srcAddrs then some (3, 0, BitVec.ofNat 64 p.srcBase)
    else if overflows o.dst nb p.dstAddrs then some (3, 1, BitVec.ofNat 64 p.dstBase)
    else if outOfPart g c o false nb 0 o.src p.srcAddrs then some (4, 0, BitVec.ofNat 64 p.srcBase)
    else if outOfPart g c o true nb p.core o.dst p.dstAddrs then some (4, 1, BitVec.ofNat 64 p.dstBase)
    else none

/-! ### Granules -/

/-- The destination granules of a plan, in the order of their first written element (R283). -/
def planGranules (p : Plan) : List Nat :=
  (p.mvs.flatMap fun m => [m.d.toNat / 32, (m.d.toNat + wBytes p.w - 1) / 32]).eraseDups

/-- The source granules that a destination granule needs. -/
def needs (p : Plan) (g : Nat) : List Nat :=
  let here := p.mvs.filter fun m => m.d.toNat / 32 = g || (m.d.toNat + wBytes p.w - 1) / 32 = g
  (here.flatMap fun m => match m.src with
    | none => []
    | some (a, _) => [a.toNat / 32, (a.toNat + wBytes p.w - 1) / 32]).eraseDups

/-- A byte of a source granule that has been read. -/
def cacheByte (k : Sparse (BitVec 256)) (a : Nat) : Nat := secByte (look 0 k (a / 32)).toNat (a % 32)

/-- The pattern of an element. -/
def mvVal (p : Plan) (k : Sparse (BitVec 256)) (m : Mv) : Nat :=
  match m.src with
  | none => p.pad
  | some (a, nib) =>
    if p.w = 4 then bitsOf (cacheByte k a.toNat) (4 * nib) 4
    else (List.range (wBytes p.w)).foldl (fun s i => s + cacheByte k (a.toNat + i) * 256 ^ i) 0

/-- The bytes a plan writes into one destination granule, in canonical order. -/
def granuleWrites (p : Plan) (k : Sparse (BitVec 256)) (g : Nat) : List WByte :=
  (p.mvs.flatMap fun m =>
    let v := mvVal p k m
    if p.w = 4 then [(⟨m.d.toNat, m.dn, BitVec.ofNat 8 (17 * v)⟩ : WByte)]
    else wbytes m.d.toNat (toBytes (wBytes p.w) v)).filter fun b => b.addr / 32 = g

/-! ### Watermarks (R284, R209) -/

/-- LIMIT before rounding: the lowest granule of the range written but not landed, or END. -/
def rawLimit (endg : Nat) (left : List Nat) : Nat := left.foldl min endg

/-- LIMIT: held at a line boundary in a protected launch. -/
def limitOf (c : Ctx) (base endg l : Nat) : Nat := if prot c && l < endg then max base (4 * (l / 4)) else l

/-- The destination granules of a raw copy below a bound, without its moves. -/
def rawGranules (o : CopyOp) (lim : Nat) : List Nat :=
  let lo := o.rb.toNat / 32
  let n := o.rc.toNat
  if n = 0 then [] else (List.range (min lim ((o.rb.toNat + n - 1) / 32 + 1) - lo)).map (lo + ·)

/-- The lowest granule a copy would write and the highest plus one; none when it would write none or one below 0. -/
def granuleBounds (o : CopyOp) : Option (Nat × Nat) :=
  if o.raw then
    if o.rc.toNat = 0 then none else some (o.rb.toNat / 32, (o.rb.toNat + o.rc.toNat - 1) / 32 + 1)
  else
    let p := planCopy o
    let gs := planGranules p
    if gs.isEmpty || p.mvs.any (fun m => decide (m.d < 0)) then none
    else some (gs.foldl min (gs.headD 0), gs.foldl max 0 + 1)

/-- The watermark of an issuing CPYWM (R284). -/
def wmStart (c : Ctx) (o : CopyOp) : WMark :=
  let none' : WMark := ⟨0, 0, 0, BitVec.ofNat 3 (spaceNo o.dst), true⟩
  if copyUndefined o || !(o.dst = .loc || o.dst = .acc || o.dst = .opm) then none'
  else
    match granuleBounds o with
    | none => none'
    | some (lo, hi) =>
      if 2 ^ 18 ≤ hi then none'
      else ⟨BitVec.ofNat 18 (limitOf c lo hi lo), BitVec.ofNat 18 lo, BitVec.ofNat 18 hi, BitVec.ofNat 3 (spaceNo o.dst), true⟩

/-- The watermark after a granule has landed. -/
def wmLand (c : Ctx) (w : WMark) (left : List Nat) : WMark :=
  { w with limit := BitVec.ofNat 18 (limitOf c w.base.toNat w.endg.toNat (rawLimit w.endg.toNat left)) }

/-! ### Reading a source granule (R287, R289) -/

/-- How a source granule's read ends. -/
inductive SrcRead
  | wait (d : Device)
  | ok (d : Device) (x : Nat)
  | failed (d : Device) (sub : Nat)
  | stop (d : Device) (kind : Nat)

/-- Whether a FENCE issued before an operation, of a kind that acquires (or releases), has still to be performed (R263). -/
def fencePending (c : Ctx) (serial : Nat) (acq : Bool) : Bool :=
  c.t5.ops.any fun x => match x.what with
    | .req q => q.kind = 0 && decide (x.serial < serial) && (q.fkind = .ar || (q.fkind = .acq) = acq)
    | _ => false

/-- Whether the global reads of a collective are held: by an acquire issued before it, or by a release at package scope or wider
issued before it, whose writes it reads wholly new (R250, R263, R440). -/
def bucketHeld (c : Ctx) (serial : Nat) : Bool :=
  fencePending c serial true ||
    c.t5.ops.any fun x => match x.what with
      | .req q => q.kind = 0 && decide (x.serial < serial) && q.fkind ≠ .acq && (q.scope = .package || q.scope = .system)
      | _ => false

/-- SUB of an uncorrectable read of a source granule (Table 11.4): HBM, hub SRAM, a local word, an invalid line, the host. -/
def subOf (d : Device) (g : Nat) (c : Ctx) (q : Req) (sp : Space) (a : Nat) : Nat :=
  match sp with
  | .glb => (match (translate d q.sk q.ifc a false).2 with
    | .ok pa => if paWin pa then 1 else 0
    | _ => 0)
  | .host => 4
  | .loc => if lineOk g c a then 2 else 3
  | _ => 2

/-- The granule of host memory that a requester's I/O virtual granule names now (R411). -/
def hostGranule (d : Device) (fn a : Nat) : Option Nat := Config.iommu d.clock fn (a / 32)

/-- What a requester reads of a granule of host memory through its IOMMU and its containment; none for a completion error. -/
def hostSeen (d : Device) (q : Req) (a : Nat) : Option Nat :=
  (hostGranule d q.ifc a).bind fun h =>
    if look false d.host.rerr h then none else some (containOver d q true a (readLe d.host.mem (32 * h) 32))

/-- Whether the host die's interposer link retrains, so that what passes through it waits (R388). -/
def hostLinkPaused (d : Device) : Bool := (dieOf d 20).retraining

/-- Read source granule `a` (its first byte address) of a space. An acquire holds global reads, and host reads with them:
DEDUCED, log entry 64. -/
def readSrc (d : Device) (g : Nat) (c : Ctx) (q : Req) (sp : Space) (a : Nat) : SrcRead :=
  let loc := fun (space : Nat) =>
    if space = 1 && !lineOk g c a then SrcRead.failed d 3
    else if (rangeBad (errOf c space) a 32).isSome then .failed d 2
    else .ok d (readLe (memOf c space) a 32)
  match sp with
  | .glb =>
    if fencePending c q.serial true then .wait d
    else
      match readVa d q a with
      | .wait d => .wait d
      | .done d x => .ok d x
      | .bad d => .failed d (subOf d g c q .glb a)
      | .fault d k => .stop d k
  | .loc => loc 1
  | .acc => loc 3
  | .host =>
    if fencePending c q.serial true || hostLinkPaused d then .wait d
    else
      match hostSeen d q a with
      | some x => .ok d x
      | none => .failed d 4
  | _ => loc 5

/-- What the engine has read of the source: the granules' bytes, and the granules whose read failed, with the SUB of each. -/
abbrev SrcHeld := Sparse (BitVec 256) × List (Nat × Nat)

/-- SUB of a source granule whose read has failed (R290). -/
def lostSub (k : SrcHeld) (x : Nat) : Option Nat := (k.2.find? fun p => p.1 = x).map (·.2)

/-- Keep what a burst delivered. -/
def holdBurst (x : Nat) (k : SrcHeld) (l : List (Nat × Option Nat)) : SrcHeld :=
  l.foldl (fun k p => match p.2 with
    | some v => (ins k.1 (x / 8 * 8 + p.1) (BitVec.ofNat 256 v), k.2)
    | none => (k.1, (x / 8 * 8 + p.1, 0) :: k.2)) k

/-- Read source granule `x`. In HBM, one burst of its chunk serves every granule in `all` of that chunk (R376); each
granule is read once (R289). -/
def readOne (d : Device) (g : Nat) (c : Ctx) (q : Req) (sp : Space) (all : List Nat) (x : Nat) (k : SrcHeld) :
    SrcRead × SrcHeld :=
  let single := match readSrc d g c q sp (32 * x) with
    | .ok d v => (SrcRead.ok d v, (ins k.1 x (BitVec.ofNat 256 v), k.2))
    | o => (o, k)
  if let some sub := lostSub k x then (.failed d sub, k)
  else if sp ≠ .glb || fencePending c q.serial true then single
  else
    match translate d q.sk q.ifc (32 * x) false with
    | (_, .ok pa) =>
      if paWin pa || (copyOf { d with gseq := d.gseq + 1 } q.sk pa).isSome then single
      else
        let d := (translate d q.sk q.ifc (32 * x) false).1
        let ks := (List.range 8).filter fun i =>
          let y := x / 8 * 8 + i
          y = x || (all.contains y && !(k.1.any fun p => p.1 = y) && (lostSub k y).isNone)
        match readBurst d q pa ks with
        | .wait d => (.wait d, k)
        | .bad d => (.failed d 0, k)
        | .done d l =>
          let k' := holdBurst x k l
          if (lostSub k' x).isSome then (.failed d 0, k') else (.ok d 0, k')
    | _ => single

/-- Read the source granules a destination granule needs that have not been read yet. -/
def readNeeds (d : Device) (g : Nat) (c : Ctx) (q : Req) (sp : Space) (all : List Nat) :
    List Nat → SrcHeld → SrcRead × SrcHeld × Nat
  | [], k => (.ok d 0, k, 0)
  | x :: r, k =>
    if k.1.any fun p => p.1 = x then readNeeds d g c q sp all r k
    else
      match readOne d g c q sp all x k with
      | (.ok d _, k) => readNeeds d g c q sp all r k
      | (o, k) => (o, k, 32 * x)

/-- The engine may read one more source granule ahead of its place (R289): a read that fails is kept for the destination granule
that first needs it, and one that must wait, or would stop the context, is not made now. -/
def readAhead (d : Device) (g : Nat) (c : Ctx) (q : Req) (sp : Space) (all : List Nat) (k : SrcHeld) : Device × SrcHeld :=
  let left := all.filter fun x => !(k.1.any fun p => p.1 = x) && (lostSub k x).isNone
  match Config.readAhead d.gseq with
  | 0 => (d, k)
  | i + 1 =>
    match left[i]? with
    | none => (d, k)
    | some x =>
      match readOne d g c q sp left x k with
      | (.ok d _, k) => (d, k)
      | (.failed d sub, k) => (d, if (lostSub k x).isSome then k else (k.1, (x, sub) :: k.2))
      | (.wait d, k) => (d, k)
      | (.stop _ _, k) => (d, k)

/-! ### Endings (R289, R290, R293) -/

/-- The copy a context comes to perform next. -/
def copyHead (c : Ctx) (n : Nat) : Option (Op × CopyOp) :=
  match (tlOf c n).ops with
  | [] => none
  | op :: _ => match op.what with
    | .copy o => some (op, o)
    | _ => none

/-- Clear the valid bits of the lines a plan writes. -/
def clearLines (c : Ctx) (gs : List Nat) : Ctx := gs.foldl (fun c x => setValid c (x / 4) false) c

/-- The bytes a replica's copy has written into containment are discarded (R289). -/
def unContain (d : Device) (q : Req) (sp : Space) (p : Plan) (gs : List Nat) : Device :=
  let addrs := (gs.flatMap fun x => granuleWrites p [] x).map (·.addr)
  match runOf d q.run with
  | none => d
  | some r =>
    let drop := fun (m : Sparse Bool) (l : List Nat) => l.foldl (fun m a => store false m a false) m
    if sp = .host then setRun d { r with cont := { r.cont with hostMask := drop r.cont.hostMask addrs } }
    else
      let pas := addrs.filterMap fun a => match (translate d q.sk q.ifc a true).2 with
        | .ok pa => some pa
        | _ => none
      setRun d { r with cont := { r.cont with glbMask := drop r.cont.glbMask pas } }

/-- A copy fails (R257, R289): record, batch, and in classes S and D what it had written. -/
def failCopy (s : State) (r : CRef) (n : Nat) (c : Ctx) (op : Op) (o : CopyOp) (cause sub side : Nat) (addr : Word)
    (done : Nat) : State :=
  let t := tlOf c n
  let t' := setRec (tlFail n t (batchNo t op) op.serial addr) cause sub side op.batch addr done op.pc
  let c := setTl c n { t' with cache := [], lost := [] }
  if (cause = 1 || cause = 7) && prot c then
    let p := planCopy o
    let c := if o.dst = .loc then clearLines c (planGranules p) else c
    let q := reqOf r c n op 0
    let d := if c.cls = .d && (o.dst = .glb || o.dst = .host) then
        unContain s.dev q o.dst p ((planGranules p).take done) else s.dev
    putCtx { s with dev := d } r c
  else putCtx s r c

/-- A translation fault stops the context at a granule (R290). -/
def stopCopy (s : State) (r : CRef) (n : Nat) (c : Ctx) (op : Op) (kind side va done : Nat) : State :=
  let t := setRec (tlOf c n) 2 kind side op.batch (BitVec.ofNat 64 va) done op.pc
  putCtx s r (stopCtx n va (setTl c n t))

/-- The fold of a finished copy into its destination record's ring (R293): the new context, or the failing word. -/
def ringFold (c : Ctx) (o : CopyOp) (p : Plan) (k : Sparse (BitVec 256)) : Except Nat Ctx :=
  if o.raw || !p.amx then .ok c
  else
    match wordBad c.errScr [o.dstRec + 0x78] with
    | some w => .error w
    | none =>
      let head := readLe c.scr (o.dstRec + 0x78) 1
      if 11 < head then .ok c
      else
        let a := o.dstRec + 0x48 + 4 * head
        match wordBad c.errScr [a] with
        | some w => .error w
        | none =>
          let vals := p.mvs.map fun m => fpVal p.ety (mvVal p k m)
          let r := fpVal .f32 (readLe c.scr a 4)
          let mag := fun (v : FVal) => match v with
            | .fin _ m e => FVal.fin false m e
            | .inf _ => .inf false
            | .nan => .nan
          let new :=
            if r = .nan || vals.contains .nan then 0x7FC00000
            else vals.foldl (fun x v => (fpMinMax .f32 false (fpVal .f32 x) (mag v)).1)
              ((fpMinMax .f32 false r (.fin false 0 0)).1)
          .ok (setValid (writeMem c 1 (wbytes a (toBytes 4 new))) (a / 128) true)

/-- Whether the fold of a copy into global memory must wait: the hubs may still fail a write of it, and its batch could not be
counted without them (R289, R293, R451). -/
def foldHeld (s : State) (r : CRef) (n : Nat) (c : Ctx) (op : Op) (o : CopyOp) (p : Plan) : Bool :=
  o.dst = .glb && !o.raw && p.amx && c.cls ≠ .d &&
    ((look [] s.dev.gbuf r.sk).any fun w => w.cref = r && w.run = c.run && w.ctx = n && w.opSerial = op.serial) &&
    (op.batch = 0 || (tlOf c n).ops.any fun x => x.serial ≠ op.serial && x.batch = op.batch)

/-- A copy whose last granule has landed: ring fold, watermark, batch. -/
def finishCopy (s : State) (r : CRef) (n : Nat) (c : Ctx) (op : Op) (o : CopyOp) (p : Plan) (done : Nat) : State :=
  if foldHeld s r n c op o p then putCtx s r (setTl c n (opSet (tlOf c n) { op with prog := .done }))
  else
    match ringFold c o p (tlOf c n).cache with
    | .error w => failCopy s r n c op o 1 2 1 (BitVec.ofNat 64 (8 * w)) done
    | .ok c =>
      let c := if o.kind = 2 then setWm c n { wmOf c n with act := false } else c
      putCtx s r (setTl c n { opDone (tlOf c n) op.serial with cache := [], lost := [] })

/-- A copy that waits to fold does so once it may. -/
def settleCopy (s : State) (r : CRef) (n : Nat) : State :=
  match getCtx s r with
  | none => s
  | some c =>
    match copyHead c n with
    | some (op, o) =>
      if op.prog = .done then
        let p := planCopy o
        finishCopy s r n c op o p (planGranules p).length
      else s
    | none => s

/-- The contexts of a core, as engine operations name them. -/
def coreRefs (k : Core) : List CRef :=
  (if k.mode = .active then [⟨k.sk, k.ix, k.ctx.part⟩] else []) ++ k.susp.map fun c => ⟨k.sk, k.ix, c.part⟩

/-- Whether a context has a copy that waits to fold. -/
def foldWaits (c : Ctx) (n : Nat) : Bool :=
  match copyHead c n with
  | some (op, _) => op.prog = .done
  | none => false

/-- Every copy that waits to fold. -/
def settleCopies (s : State) : State :=
  let refs := s.cores.flatMap fun k => (coreRefs k).filter fun r => match ctxIn k r.pt with
    | some c => [0, 1, 2, 3].any (foldWaits c)
    | none => false
  refs.foldl (fun s r => [0, 1, 2, 3].foldl (fun s n => settleCopy s r n) s) s

/-! ### Landing a granule (R287) -/

/-- Marks a space keeps once a copy's last granule of a unit has landed: valid lines, tile sidebands, slot stamps. -/
def unitMarks (c : Ctx) (o : CopyOp) (p : Plan) (g : Nat) (left : List Nat) : Ctx :=
  match o.dst with
  | .loc => if left.any fun x => x / 4 = g / 4 then c else setValid c (g / 4) true
  | .acc =>
    if left.any fun x => x / 512 = g / 512 then c
    else
      let side := bitsOf o.lsgen.toNat 0 16 + 2 ^ 16 + bitsOf o.lscale.toNat 0 32 * 2 ^ 32
      { c with mx := { c.mx with side := store 0 c.mx.side (g / 512) (BitVec.ofNat 64 side) } }
  | .opm =>
    if left.any fun x => x / 256 = g / 256 then c
    else { c with mx := { c.mx with stamp := store 0 c.mx.stamp (g / 256) (p.swz + 1) } }
  | _ => c

/-- Change a context of a run by CORE_ID, running or suspended. -/
def mapTarget (s : State) (run id : Nat) (f : Nat → Ctx → Ctx) : State :=
  let hit := fun (c : Ctx) => c.run = run && c.coreId = id
  s.mapCores fun k =>
    { k with ctx := if k.mode = .active && hit k.ctx then f k.gang k.ctx else k.ctx
             susp := k.susp.map fun c => if hit c then f k.gang c else c }

/-- Bytes a function posts to host memory land where its IOMMU maps them; those it rejects are lost in silence (R411). -/
def hostPost (d : Device) (fn : Nat) (bs : List WByte) : Device :=
  let at' := bs.filterMap fun b => (hostGranule d fn b.addr).map fun h => ({ b with addr := 32 * h + b.addr % 32 } : WByte)
  { d with host := { d.host with mem := putBytes d.host.mem at' } }

/-- Write to host memory by core `id` of a launch: posted in issue order, contained in class D (R240, R287). -/
def hostWrite (d : Device) (q : Req) (id : Nat) (bs : List WByte) : Device :=
  if q.cls = .d then
    containWrite d q.run id true (wholeBytes (fun a =>
      BitVec.ofNat 8 (secByte ((hostSeen d q (a / 32 * 32)).getD 0) (a % 32))) bs)
  else hostPost d q.ifc bs

/-- One granule of a copy is landed: `left` are the granules still to come. A release holds its global writes, and its host
writes with them (R242, R263): DEDUCED, log entry 64. Staging counts the bytes the copy writes (R287). A write to a fenced stack
is answered DIE_FENCED: the operation goes no further, and is discarded with its launch's contexts (R385, R386). -/
def landCopy (s : State) (r : CRef) (n : Nat) (c : Ctx) (op : Op) (o : CopyOp) (p : Plan) (g done : Nat)
    (left : List Nat) : State :=
  let bs := granuleWrites p (tlOf c n).cache g
  let q := reqOf r c n op 0
  let next := fun (s : State) (c : Ctx) =>
    let c := setTl c n (opSet (tlOf c n) { op with prog := .running (done + 1) (done + 1) })
    let c := if o.kind = 2 then setWm c n (wmLand c (wmOf c n) left) else c
    let c := unitMarks c o p g left
    if left.isEmpty then finishCopy s r n c { op with prog := .running (done + 1) (done + 1) } o p (done + 1) else putCtx s r c
  match o.dst with
  | .glb =>
    if fencePending c op.serial false then putCtx s r c
    else
      let md := granuleOf (32 * g) bs 0 0
      match writeVa s.dev q c.coreId (32 * g) md.1 md.2 done op.pc with
      | .wait d => putCtx { s with dev := d } r c
      | .fault d k => stopCopy { s with dev := d } r n c op k 1 (32 * g) done
      | .bad d => putCtx { s with dev := d } r c
      | .done d pa =>
        let s := next { s with dev := d } c
        if q.cls = .d then containedChanged s q pa else s
  | .host =>
    if fencePending c op.serial false || (q.cls ≠ .d && hostLinkPaused s.dev) then putCtx s r c else next { s with dev := hostWrite s.dev q c.coreId bs } c
  | .rmt =>
    if dieFenced s.dev (coreSeat s.dev c.run p.core).1 then putCtx s r c
    else
      let st := bs.map fun b => (⟨65536, c.coreId, op.serial, b.addr, b.nibs, b.val⟩ : Staged)
      let s' := next s c
      mapTarget s' c.run p.core fun gw c => stageIn s.dev.clock gw st (bs.map (·.addr)).eraseDups.length c
  | _ => next s (writeMem c (spaceNo o.dst) bs)

/-! ### Engine events -/

/-- COPY START: the engine checks the copy the context comes to perform (R288). -/
def execCopyStart (cr : CRef) (n : Nat) (s : State) : Out :=
  match liveCtx s cr with
  | none => .next s
  | some (k, c) =>
    match copyHead c n with
    | none => .next s
    | some (op, o) =>
      if op.prog ≠ .fresh || o.kind = 4 || !engineRuns s cr c n || decide (3 < n) then .next s
      else
        match copyCheck k.gang c o with
        | some (cause, side, addr) => .next (failCopy s cr n c op o cause 0 side addr 0)
        | none =>
          let p := planCopy o
          if (planGranules p).isEmpty then .next (finishCopy s cr n c op o p 0)
          else .next (putCtx s cr (setTl c n { opSet (tlOf c n) { op with prog := .running 0 0 } with cache := [], lost := [] }))

/-- COPY GRANULE: the next destination granule of the running copy is read and landed (R283, R284, R289, R290). -/
def execCopyGranule (cr : CRef) (n : Nat) (s : State) : Out :=
  match liveCtx s cr with
  | none => .next s
  | some (k, c) =>
    match copyHead c n with
    | none => .next s
    | some (op, o) =>
      match op.prog with
      | .running i done =>
        if !engineRuns s cr c n || decide (3 < n) then .next s
        else
          let p := planCopy o
          let gs := planGranules p
          let g := gs.getD i 0
          let q := reqOf cr c n op 0
          let todo := (needs p g).filter fun x => !((tlOf c n).cache.any fun y => y.1 = x)
          let all := if todo.isEmpty then [] else (gs.drop i).flatMap (needs p)
          let (d, held) := readAhead s.dev k.gang c q o.src ((gs.drop i).flatMap (needs p)).eraseDups
            ((tlOf c n).cache, (tlOf c n).lost)
          let (res, held, addr) := readNeeds d k.gang c q o.src all todo held
          let c := setTl c n { tlOf c n with cache := held.1, lost := held.2 }
          match res with
          | .wait d => .next (putCtx { s with dev := d } cr c)
          | .failed d sub =>
            .next (failCopy { s with dev := d } cr n c op o 1 sub 0 (BitVec.ofNat 64 addr) done)
          | .stop d kind => .next (stopCopy { s with dev := d } cr n c op kind 0 addr done)
          | .ok d _ => .next (landCopy { s with dev := d } cr n c op o p g done (gs.drop (i + 1)))
      | _ => .next s

/-- HOST COMPLETION TIMEOUT: a PCI Express read of the running copy ends in an error (R287, R289). -/
def execHostCompletionTimeout (cr : CRef) (n : Nat) (s : State) : Out :=
  match liveCtx s cr with
  | none => .next s
  | some (_, c) =>
    match copyHead c n with
    | none => .next s
    | some (op, o) =>
      match op.prog with
      | .running i done =>
        let p := planCopy o
        let todo := (needs p ((planGranules p).getD i 0)).filter fun x => !((tlOf c n).cache.any fun y => y.1 = x)
        match todo with
        | [] => .next s
        | x :: _ =>
          if o.src = .host && engineRuns s cr c n && decide (n ≤ 3) then
            .next (failCopy s cr n c op o 1 4 0 (BitVec.ofNat 64 (32 * x)) done)
          else .next s
      | _ => .next s

/-- Advance the ring of each listed record (R294): the new context, or the failing word. -/
def stepRings (c : Ctx) : List Nat → Except Nat Ctx
  | [] => .ok c
  | a :: r =>
    match wordBad c.errScr [a + 0x78] with
    | some w => .error w
    | none =>
      let h := (readLe c.scr (a + 0x78) 1 + 1) % 12
      stepRings (writeMem (writeMem c 1 (wbytes (a + 0x78) (toBytes 1 h))) 1
        (wbytes (a + 0x48 + 4 * h) (toBytes 4 0))) r

/-- AMXSTEP PERFORM: the rings of the listed records advance (R294). -/
def execAmxstepPerform (cr : CRef) (n : Nat) (s : State) : Out :=
  match liveCtx s cr with
  | none => .next s
  | some (k, c) =>
    match copyHead c n with
    | none => .next s
    | some (op, o) =>
      if o.kind ≠ 4 || !engineRuns s cr c n || decide (3 < n) then .next s
      else
        let lim := if o.privU then frameBase k.gang c.metered else partSize k.gang c.metered 1
        if o.badLen || o.alist.any fun a => a % 128 ≠ 0 || decide (lim < a + 128) then
          .next (failCopy s cr n c op o 5 0 0 0 0)
        else
          match stepRings c o.alist with
          | .error w => .next (failCopy s cr n c op o 1 2 0 (BitVec.ofNat 64 (8 * w)) 0)
          | .ok c => .next (putCtx s cr (setTl c n (opDone (tlOf c n) op.serial)))

/-! ### Issue (R271, R272, R281, R282) -/

/-- A range of the scratchpad an engine instruction reads at issue: address, bytes, alignment. -/
structure Area where
  addr : Word
  len : Nat
  align : Nat
  deriving DecidableEq, Repr

/-- The first check of R282 that fails: alignment of each area, range of each, valid bits of each. -/
def areaTrap (g : Nat) (c : Ctx) (as : List Area) : Option (Nat × Word) :=
  match as.find? fun a => a.addr.toNat % a.align ≠ 0 with
  | some a => some (0x07, a.addr)
  | none => (as.find? fun a => decide (reach g c 1 < a.addr.toNat + a.len)).map fun a => (0x08, a.addr)

/-- The first invalid byte of the areas. -/
def areaInvalid (g : Nat) (c : Ctx) (as : List Area) : Option Nat :=
  (as.flatMap fun a => (List.range a.len).map (a.addr.toNat + ·)).find? fun x => !lineOk g c x

/-- The bytes of the areas. -/
def areaBytes (as : List Area) : List Nat := as.flatMap fun a => (List.range a.len).map (a.addr.toNat + ·)

/-- An engine instruction that reads areas of the scratchpad at issue: checks, watermark stall, valid bits, SECDED
(R206, R282); then `k`. -/
def withAreas (s : State) (as : List Area) (k : State → Out) : Out :=
  let g := s.core.gang
  match areaTrap g s.core.ctx as with
  | some (cause, v) => .next (trapIssue s cause v)
  | none => stalling s 1 (areaBytes as) fun s =>
    match areaInvalid g s.core.ctx as with
    | some a => .next (trapIssue s 0x11 (BitVec.ofNat 64 a))
    | none =>
      match wordBad s.core.ctx.errScr (areaBytes as) with
      | some w => .next (localErrIssue s (memErrVal 1 w))
      | none => k s

/-- A copy operation as captured with the operands of its instruction. -/
def captureCopy (c : Ctx) (kind : Nat) (src dst : Space) (raw : Bool) (sa sb sc : BitVec 6) : CopyOp :=
  let a := (sreg c sa).toNat
  let b := (sreg c sb).toNat
  let r := (sreg c sc).toNat
  let rd := fun (sk : Bool) (x n : Nat) => if raw || sk then 0 else readLe c.scr x n
  { kind := kind, src := src, dst := dst, raw := raw, rsrc := rd (kind = 3) a 128, rdst := rd false b 128
    reg := rd false r 64, ra := sreg c sa, rb := sreg c sb, rc := sreg c sc, dstRec := b, privU := c.priv = .u
    lsgen := c.lsgen, lscale := c.lscale, alist := [], badLen := false }

/-- The granules of the scratchpad that the destination range of an issuing copy touches (R207); none where its records leave
them undefined. -/
def dstLines (o : CopyOp) : List Nat :=
  if o.raw then rawGranules o (2 ^ 18)
  else if copyUndefined o then []
  else
    let p := planCopy o
    planGranules { p with mvs := p.mvs.filter fun m => decide (0 ≤ m.d) }

/-- What an issuing copy changes at once: valid bits of its destination lines (R207), its watermark (R284). -/
def copyEffects (n : Nat) (o : CopyOp) (c : Ctx) : Ctx :=
  if (tlOf c n).failed.isSome then c
  else
    let c := if o.dst = .loc && prot c then clearLines c (dstLines o) else c
    if o.kind = 2 then setWm c n (wmStart c o) else c

/-- Issue a copy: it waits while its context holds 64 operations, or for its context's watermark. -/
def issueCopy (s : State) (n : Nat) (srcs : List Src) (o : CopyOp) : Out :=
  let t := tlOf s.core.ctx n
  if 64 ≤ t.ops.length then .next s
  else if o.kind = 2 && (wmOf s.core.ctx n).act && t.failed.isNone then .next s
  else
    let ser := s.core.ctx.serial
    let pc := s.core.ctx.pc
    .next (issuePlain s srcs fun c => joinOp n (.copy o) ser pc (copyEffects n o c))

/-- What a copy instruction reads at issue: its records and region, nothing in a raw form. -/
def copyAreas (c : Ctx) (kind : Nat) (raw : Bool) (sa sb sc : BitVec 6) : List Area :=
  if raw then []
  else (if kind = 3 then [] else [⟨sreg c sa, 128, 128⟩]) ++ [⟨sreg c sb, 128, 128⟩, ⟨sreg c sc, 64, 64⟩]

/-- A copy instruction: raw forms read nothing at issue. -/
def copyOp (s : State) (kind : Nat) (src dst : Space) (raw : Bool) (ctx : BitVec 2) (sa sb sc : BitVec 6) : Out :=
  gateComp s fun s =>
    let c := s.core.ctx
    let srcs : List Src := if kind = 3 then [.s sb, .s sc] else [.s sa, .s sb, .s sc]
    withAreas s (copyAreas c kind raw sa sb sc) fun s => issueCopy s ctx.toNat srcs (captureCopy s.core.ctx kind src dst raw sa sb sc)

/-- CPY. -/
def execCpy (src dst : Space) (raw : Bool) (ctx : BitVec 2) (sa sb sc : BitVec 6) (s : State) : Out :=
  copyOp s 0 src dst raw ctx sa sb sc
/-- CPYT. -/
def execCpyt (src dst : Space) (ctx : BitVec 2) (sa sb sc : BitVec 6) (s : State) : Out :=
  copyOp s 1 src dst false ctx sa sb sc
/-- CPYWM. -/
def execCpywm (src dst : Space) (raw : Bool) (ctx : BitVec 2) (sa sb sc : BitVec 6) (s : State) : Out :=
  copyOp s 2 src dst raw ctx sa sb sc
/-- CPYFILL. -/
def execCpyfill (dst : Space) (ctx : BitVec 2) (sb sc : BitVec 6) (s : State) : Out :=
  copyOp s 3 .glb dst false ctx 0 sb sc

/-- Word w of a fault record. -/
def recWord (t : TlCtx) (w : Nat) : Word :=
  match w with
  | 0 => t.rec0
  | 1 => t.rec1
  | 2 => t.rec2
  | _ => t.rec3

/-- CPYST (R291). -/
def execCpyst (ctx : BitVec 2) (w : BitVec 2) (sd : BitVec 6) (s : State) : Out :=
  gateComp s fun s => .next (issueScalar s [] sd 1 (recWord (tlOf s.core.ctx ctx.toNat) w.toNat) 0)

/-- Granules of a copy written so far. -/
def progDone : Prog → Nat
  | .running _ d => d
  | _ => 0

/-- Granules that an operation has written: all of them when its copy only waits to fold (R292). -/
def granulesDone (op : Op) : Nat :=
  match op.what, op.prog with
  | .copy o, .done => (planGranules (planCopy o)).length
  | _, p => progDone p

/-- The abort of a context (R292): every incomplete operation is discarded, and the lowest incomplete batch fails with
cause 9, unless the context has failed already. A batch below the failed one that loses an operation so never completes: it joins the
failure. DEDUCED, log entry 104. -/
def abortCtx (n : Nat) (c : Ctx) : Ctx :=
  let t := tlOf c n
  match t.ops with
  | [] => if t.failed.isSome then setTl c n { t with stopped := false } else c
  | op :: _ =>
    let b := (openBatches t).foldl min (batchNo t op)
    if t.failed.isSome then
      let t := if t.failed.any fun f => decide (f ≤ b) then t else markFailed t b t.failAddr
      setTl c n { t with ops := [], stopped := false }
    else
      let t' := tlSettle { markFailed t b 0 with ops := [], stopped := false, cache := [], lost := [] }
      setTl c n (setRec t' 9 0 0 (b % 2 ^ 64) 0 (granulesDone op) op.pc)

/-- CPYABT with RES = 0 (R292). -/
def execCpyabt (ctx : BitVec 2) (s : State) : Out :=
  gateComp s fun s =>
    let n := ctx.toNat
    let s := if (tlOf s.core.ctx n).openOps = 0 then s else closeBatch s n
    .next (issuePlain s [] (abortCtx n))

/-- CPYABT with RES = 1 (R281, R290): legal only at S; a context stopped by a translation fault resumes from the stopped
granule, and its record's VALID is cleared. -/
def execCpyabtResume (ctx : BitVec 2) (s : State) : Out :=
  gate s (s.core.ctx.priv = .s) true fun s =>
    let n := ctx.toNat
    .next (issuePlain s [] fun c =>
      let t := tlOf c n
      if t.stopped then
        setTl c n { t with stopped := false, rec0 := t.rec0 &&& ~~~0x80000000 }
      else c)

/-- The list AMXSTEP reads at issue, when its length is one it may have. -/
def amxAreas (c : Ctx) (sa sb : BitVec 6) : List Area :=
  let len := (sreg c sb).toNat
  if len = 0 || decide (64 < len) then [] else [⟨sreg c sa, 4 * len, 4⟩]

/-- AMXSTEP (R294). -/
def execAmxstep (ctx : BitVec 2) (sa sb : BitVec 6) (s : State) : Out :=
  gateComp s fun s =>
    let c := s.core.ctx
    let len := (sreg c sb).toNat
    let bad := len = 0 || decide (64 < len)
    withAreas s (amxAreas c sa sb) fun s =>
      let c := s.core.ctx
      let base := (sreg c sa).toNat
      let o : CopyOp := { captureCopy c 4 .loc .loc true 0 0 0 with
        alist := if bad then [] else (List.range len).map fun k => readLe c.scr (base + 4 * k) 4
        badLen := bad }
      issueCopy s ctx.toNat [.s sa, .s sb] o

/-- AMXRD (R295): a scalar local load of latency 4. -/
def execAmxrd (all : Bool) (sd sa : BitVec 6) (s : State) : Out :=
  gateComp s fun s =>
    let a := sreg s.core.ctx sa
    match areaTrap s.core.gang s.core.ctx [⟨a, 128, 128⟩] with
    | some (cause, v) => .next (trapIssue s cause v)
    | none => stalling s 1 (areaBytes [⟨a, 128, 128⟩]) fun s =>
      .next (issueResult s 4 (.scalar sd 0) 0 (some (.amx a.toNat all)) (srcFault s.core.gang s.core.ctx [.s sa]))

end Sys2Proof.Machine
end

