-- ==== Sys2Proof/Machine/MemReq.lean ====
section
/-! DEFINITION. Memory requests of context 5 (R241 to R252, R263 to R270, R450): FENCE, AAMO and WAITV, their issue
and the events that perform them. -/
namespace Sys2Proof.Machine
open Sys2Proof

/-! ### Issue (R263, R264, R267) -/

/-- The serial numbers of the buffered writes in a release's set: those of batches the core has acquired, and those
its stack has observed (R242, R243). -/
def releaseSet (s : State) : List Nat :=
  let me := meRef s
  let c := s.core.ctx
  (((look [] s.dev.gbuf s.core.sk).filter fun w =>
    w.cref = me && w.run = c.run && w.batch ≠ 0 && decide (w.batch ≤ (tlOf c w.ctx).acquired)).map (·.serial)) ++
    look [] s.dev.observed s.core.sk

/-- An empty request, to be filled in. -/
def ReqOp.zero : ReqOp where
  kind := 0
  scope := .core
  fkind := .acq
  mask := 0
  amo := .add
  cc := .eq
  ty := .n64
  nr := false
  own := false
  tmo := 0
  addr := 0
  b := 0
  cmp := 0
  dst := 0
  acq := []

/-- Whether an operation that joins context 5 now belongs to a batch after a failed one, and is discarded (R257). -/
def reqDiscarded (t : TlCtx) : Bool :=
  match t.failed with
  | some f => decide (f < t.closed.toNat + 1)
  | none => false

/-- Issue a request: it joins context 5, with its effect at issue unless it is discarded. -/
def issueReq (s : State) (srcs : List Src) (o : ReqOp) (f : Ctx → Ctx) : State :=
  let ser := s.core.ctx.serial
  let pc := s.core.ctx.pc
  issuePlain s srcs fun c => joinOp 5 (.req o) ser pc (if reqDiscarded c.t5 then c else f c)

/-- FENCE: never waits at issue. -/
def execFence (scope : Scope) (kind : FenceKind) (s : State) : Out :=
  gateComp s fun s =>
    .next (issueReq s [] { ReqOp.zero with
      scope := scope, fkind := kind, mask := s.core.ctx.diemask.toNat % 2 ^ 16
      acq := if kind = .acq then [] else releaseSet s } id)

/-- The checks of R264 and R267: the global word's alignment, then alignment and range of what is written back. -/
def reqCheck (g : Nat) (c : Ctx) (ty : Ty) (addr dst : Word) (n : Nat) : Option (Nat × Word) :=
  if addr.toNat % (tyBits ty / 8) ≠ 0 then some (0x07, addr)
  else if n = 0 then none
  else if dst.toNat % n ≠ 0 then some (0x07, dst)
  else if reach g c 1 < dst.toNat + n then some (0x08, dst)
  else none

/-- The valid bit of the line of a result is cleared at issue (R266). -/
def clearResult (dst : Word) (c : Ctx) : Ctx := setValid c (dst.toNat / 128) false

/-- AAMO (R264, R265). -/
def execAamo (op : AmoOp) (ty : Ty) (nr : Bool) (sd sa sb sc : BitVec 6) (s : State) : Out :=
  gateComp s fun s =>
    let c := s.core.ctx
    let dst := sreg c sd
    match reqCheck s.core.gang c ty (sreg c sa) dst (if nr then 0 else 8) with
    | some (cause, v) => .next (trapIssue s cause v)
    | none =>
      .next (issueReq s ([.s sa, .s sb, .s sc] ++ (if nr then [] else [.s sd])) { ReqOp.zero with
        kind := 1, amo := op, ty := ty, nr := nr, addr := sreg c sa, b := sreg c sb, cmp := sreg c sc, dst := dst }
        (if nr then id else clearResult dst))

/-- WAITVs of a context that have issued and not completed. -/
def waitsOf (c : Ctx) : Nat :=
  (c.t5.ops.filter fun o => match o.what with
    | .req q => q.kind = 2
    | _ => false).length

/-- WAITVs that a core holds, those of its suspended contexts among them (R267, R270). -/
def waitsHeld (k : Core) : Nat := k.susp.foldl (fun n c => n + waitsOf c) (waitsOf k.ctx)

/-- WAITV (R267): a seventeenth waits at issue. -/
def execWaitv (cc : Cc) (ty : Ty) (own : Bool) (tmo : BitVec 19) (sd sa sb : BitVec 6) (s : State) : Out :=
  gateComp s fun s =>
    let c := s.core.ctx
    let dst := sreg c sd
    match reqCheck s.core.gang c ty (sreg c sa) dst 16 with
    | some (cause, v) => .next (trapIssue s cause v)
    | none =>
      if 16 ≤ waitsHeld s.core then .next s
      else
        .next (issueReq s [.s sa, .s sb, .s sd] { ReqOp.zero with
          kind := 2, cc := cc, ty := ty, own := own, tmo := tmo.toNat, addr := sreg c sa, b := sreg c sb, dst := dst }
          (clearResult dst))

/-! ### Performing (R242 to R245, R248, R251) -/

/-- The k-th operation of context 5, with the operations before it. -/
def reqAt (c : Ctx) (k : Nat) : Option (Op × ReqOp × List Op) :=
  match c.t5.ops[k]? with
  | none => none
  | some op => match op.what with
    | .req o => some (op, o, c.t5.ops.take k)
    | _ => none

/-- Whether a FENCE reaches past its stack: package, system, or a die mask that names another stack of the parterre
(R241, R246). -/
def fenceWide (c : Ctx) (o : ReqOp) : Bool :=
  match o.scope with
  | .core => false
  | .stack => false
  | .dieMask =>
    let d := c.diemask.toNat
    (List.range (bitsOf d 24 5)).any fun j => o.mask.testBit j && j ≠ bitsOf d 16 4
  | _ => true

/-- What a performed FENCE leaves on its stack (R242 to R244): an acquire wider than the stack drops the buffer's copies; the
release set of a performed release is kept, and an acquire on the stack makes the stack observe what has been released there
(R243). -/
def fenceDone (d : Device) (c : Ctx) (sk : Nat) (o : ReqOp) : Device :=
  let here := o.scope ≠ .core
  let held := (look [] d.gbuf sk).map (·.serial)
  let d := if here && o.fkind ≠ .acq then
      { d with released := store [] d.released sk ((look [] d.released sk ++ o.acq).eraseDups.filter held.contains) } else d
  let d := if here && o.fkind ≠ .rel then
      { d with observed := store [] d.observed sk ((look [] d.observed sk ++ look [] d.released sk).eraseDups) } else d
  if fenceWide c o && o.fkind ≠ .rel then { d with copies := store [] d.copies sk [] } else d

/-- FENCE PERFORM: every earlier operation of context 5 has been performed; a release waits until its set has left the
stack's buffer (R242 to R245). -/
def execFencePerform (cr : CRef) (k : Nat) (s : State) : Out :=
  match liveCtx s cr with
  | none => .next s
  | some (_, c) =>
    match reqAt c k with
    | none => .next s
    | some (op, o, before) =>
      let left := (look [] s.dev.gbuf cr.sk).any fun w => o.acq.contains w.serial
      if o.kind ≠ 0 || !before.isEmpty || !stackGoes s.dev cr.sk || (fenceWide c o && o.fkind ≠ .acq && left) then .next s
      else .next (putCtx { s with dev := fenceDone s.dev c cr.sk o } cr (setTl c 5 (opDone c.t5 op.serial)))

/-- Whether a FENCE issued earlier and not yet performed holds a request back (R245, R263). -/
def reqHeld (o : ReqOp) (before : List Op) : Bool :=
  before.any fun x => match x.what with
    | .req q => q.kind = 0 && (o.kind = 1 || q.fkind ≠ .rel)
    | _ => false

/-- Whether an earlier request of the context, sent and not performed, is to the same physical word (R249). -/
def sameWord (pa : Nat) (before : List Op) : Bool :=
  before.any fun x => match x.prog with
    | .running a _ => a / 8 = pa / 8
    | _ => false

/-- Send the i-th request of context 5 to memory (R245): its address is translated, and a translation fault stops the context
there (R450). Answers whether the requests behind it may be sent too. -/
def sendOne (s : State) (cr : CRef) (i : Nat) : State × Bool :=
  match getCtx s cr with
  | none => (s, false)
  | some c =>
    match reqAt c i with
    | none => (s, false)
    | some (op, o, before) =>
      if o.kind = 0 || op.prog ≠ .fresh then (s, true)
      else if c.t5.stopped || reqHeld o before then (s, false)
      else
        match translate s.dev cr.sk c.ifc o.addr.toNat (o.kind = 1) with
        | (d, .wait) => ({ s with dev := d }, false)
        | (d, .fault _) => (putCtx { s with dev := d } cr (stopCtx 5 o.addr.toNat c), false)
        | (d, .ok pa) => (putCtx { s with dev := d } cr (setTl c 5 (opSet c.t5 { op with prog := .running pa 0 })), true)

/-- Send requests in issue order, from the i-th on, `n` at most. -/
def sendFrom (s : State) (cr : CRef) (i : Nat) : Nat → State
  | 0 => s
  | n + 1 =>
    match sendOne s cr i with
    | (s, true) => sendFrom s cr (i + 1) n
    | (s, false) => s

/-- Send the requests of context 5 up to the k-th. -/
def sendOps (s : State) (cr : CRef) (k : Nat) : State := if stackGoes s.dev cr.sk then sendFrom s cr 0 (k + 1) else s

/-- A request of a kind that has been sent and may be performed: with its context and physical address. -/
def sentOp (s : State) (cr : CRef) (k kind : Nat) : Option (Ctx × Op × ReqOp × Nat) :=
  match getCtx s cr with
  | none => none
  | some c =>
    match reqAt c k with
    | none => none
    | some (op, o, before) =>
      match op.prog with
      | .running pa _ => if o.kind = kind && stackGoes s.dev cr.sk && !sameWord pa before then some (c, op, o, pa) else none
      | _ => none

/-- A request fails its batch (R257, R266, R269). -/
def failReq (s : State) (r : CRef) (c : Ctx) (op : Op) (o : ReqOp) : State := putCtx s r (failOp5 c op o)

/-- The result of a performed AAMO lands and its operation is complete (R266). -/
def finishAmo (c : Ctx) (op : Op) (o : ReqOp) (old : Nat) : Ctx :=
  let c := if o.nr then c else landResult c o.dst (toBytes 8 (extendTy o.ty old))
  setTl c 5 (opDone c.t5 op.serial)

/-- Whether a stack's buffer still holds a write of a granule. -/
def bufferHolds (d : Device) (sk g : Nat) : Bool := (look [] d.gbuf sk).any fun w => w.pa = g

/-- Whether a requester's access to a chunk of HBM has reached its hub: it waits there, or its answer waits to be taken. -/
def atHub (d : Device) (who : List Nat) (pa : Nat) : Bool :=
  queuedAt d who (pa / 256 * 256) || d.hbm.answers.any (isAnswer who (pa / 256 * 256))

/-- AAMO PERFORM at a physical address outside containment: one read-modify-write at the home hub (R248). It goes to the hub once the
stack's buffer holds no earlier write of the granule (R239). -/
def amoAtHub (s : State) (r : CRef) (c : Ctx) (op : Op) (o : ReqOp) (q : Req) (pa : Nat) : State :=
  let g := pa / 32 * 32
  let after := fun (d : Device) (old : Nat) => putCtx { s with dev := dropCopy d r.sk g } r (finishAmo c op o old)
  if bufferHolds s.dev r.sk g && !atHub s.dev q.asker.who g then s
  else if paWin g then
    match hubGranule s.dev q.asker g with
    | .wait d => { s with dev := d }
    | .bad d => failReq { s with dev := d } r c op o
    | .done d x =>
      let old := wordIn x pa o.ty
      match windowPut d q.asker g (ones 64) (putWord x pa (tyBits o.ty) (amoVal o.amo o.ty old o.b.toNat o.cmp.toNat)) with
      | .done d y => hubChanged (after d old) g y
      | .wait d => { s with dev := d }
      | .bad d => failReq { s with dev := d } r c op o
  else
    match hubAsk s.dev q.asker (g / 256 * 256) (.amo pa o.amo o.ty o.b.toNat o.cmp.toNat) with
    | .wait d => settleChanged { s with dev := d }
    | .bad d => failReq { s with dev := d } r c op o
    | .done d vals =>
      match (vals.find? fun p => p.1 = 8).bind (·.2) with
      | some x => settleChanged (after d (wordIn x pa o.ty))
      | none => failReq { s with dev := d } r c op o

/-- The word a request reads: from its containment when every byte of it is held there, else from memory (R266). -/
def replicaWord (d : Device) (q : Req) (o : ReqOp) (pa : Nat) : Hub3 Nat :=
  let g := pa / 32 * 32
  if wordHeld d q.cls q.run pa (tyBits o.ty / 8) then .done d (wordIn (containOver d q false g 0) pa o.ty)
  else
    match hubGranule d q.asker g with
    | .wait d => .wait d
    | .bad d => .bad d
    | .done d x => .done d (wordIn (containOver d q false g x) pa o.ty)

/-- AAMO PERFORM in class D: the replica's contained value, written into its containment (R266). -/
def amoContained (s : State) (r : CRef) (c : Ctx) (op : Op) (o : ReqOp) (q : Req) (pa : Nat) : State :=
  match replicaWord s.dev q o pa with
  | .wait d => { s with dev := d }
  | .bad d => failReq { s with dev := d } r c op o
  | .done d old =>
    let v := amoVal o.amo o.ty old o.b.toNat o.cmp.toNat
    let d := containWrite d q.run c.coreId false (wbytes pa (toBytes (tyBits o.ty / 8) v))
    containedChanged (putCtx { s with dev := d } r (finishAmo c op o old)) q pa

/-- AAMO PERFORM: the k-th operation of context 5 is sent, after those before it, and performed (R245, R248, R265, R266, R450). -/
def execAamoPerform (cr : CRef) (k : Nat) (s : State) : Out :=
  let s := sendOps s cr k
  match sentOp s cr k 1 with
  | none => .next s
  | some (c, op, o, pa) =>
    let q := reqOf cr c 5 op 1
    .next (if c.cls = .d then amoContained s cr c op o q pa else amoAtHub s cr c op o q pa)

/-- WAITV ARM: the monitor is armed at the home hub and reads the word; the stack keeps no older copy of it (R239, R251,
R252). Outside containment it waits while the stack's buffer still holds a write of the granule, which it must see (R236, R239,
R240). -/
def execWaitvArm (cr : CRef) (k : Nat) (s : State) : Out :=
  let s := sendOps s cr k
  match sentOp s cr k 2 with
  | none => .next s
  | some (c, op, o, pa) =>
    if c.cls ≠ .d && bufferHolds s.dev cr.sk (pa / 32 * 32) then .next s
    else
      match replicaWord s.dev (reqOf cr c 5 op 1) o pa with
      | .wait d => .next { s with dev := d }
      | .bad d => .next (failReq { s with dev := d } cr c op o)
      | .done d v => .next (putCtx { s with dev := dropCopy d cr.sk pa } cr (monitorSees d c op o d.sun.total pa v))

/-- WAITV TIMEOUT: an armed WAITV whose time has passed, or whose owner is suspended, completes (R269). -/
def execWaitvTimeout (cr : CRef) (k : Nat) (s : State) : Out :=
  match getCtx s cr with
  | none => .next s
  | some c =>
    match reqAt c k with
    | none => .next s
    | some (op, _, _) => if s.dev.sun.parked then .next s else .next (putCtx s cr (wakeOps s.dev c none [op]))

/-! ### Retry after an invalidation (R450) -/

/-- A context of an interface whose stopped operation is to be retried. -/
def askRetry (fn : Nat) (c : Ctx) : Ctx :=
  if c.ifc = fn && c.t5.stopped then { c with t5 := { c.t5 with retry := true } } else c

/-- The first operation of context 5 that has not been sent. -/
def firstFresh (c : Ctx) : Option Nat := c.t5.ops.findIdx? fun o => o.prog = .fresh && (match o.what with
  | .req q => q.kind ≠ 0
  | _ => false)

/-- The retry of a context: it is stopped no longer, and its first unsent operation is sent again; an engine-stop interrupt not
yet taken stays pending. -/
def retryOne (s : State) (cr : CRef) : State :=
  match getCtx s cr with
  | none => s
  | some c =>
    if c.t5.retry then
      let s := putCtx s cr { c with t5 := { c.t5 with stopped := false, retry := false } }
      match firstFresh c with
      | some k => sendOps s cr k
      | none => s
    else s

/-- The contexts whose retry is due in this ck. -/
def retryAll (s : State) : State :=
  (s.cores.flatMap fun k => (coreRefs k).filter fun r => match ctxIn k r.pt with
    | some c => c.t5.retry
    | none => false).foldl retryOne s

end Sys2Proof.Machine
end

