-- ==== Sys2Proof/Machine/Ports.lean ====
section
/-! DEFINITION. Scale-up ports and the live link table (R418 to R426): flits, retry, retraining, table versions. The
adoption of a version by the collectives in progress stands in Collective.lean. -/
namespace Sys2Proof.Machine
open Sys2Proof

/-! ### Flits (R419) -/

/-- One bit of the CRC-64 register, bits of a byte taken from the highest. -/
def crc64Bits : Nat → Nat → Nat
  | 0, r => r
  | n + 1, r => crc64Bits n (if r.testBit 63 then ((2 * r) % 2 ^ 64) ^^^ 0x42F0E1EBA9EA3693 else (2 * r) % 2 ^ 64)

/-- The CRC-64 of a list of bytes: initial value all ones, result inverted. -/
def crc64 (l : List Nat) : Nat :=
  l.foldl (fun r b => crc64Bits 8 (r ^^^ (b * 2 ^ 56))) (ones 64) ^^^ ones 64

/-- Bytes 0 to 247 of a flit. -/
def flitBytes (f : Flit) : List Nat :=
  (toBytes 8 f.hdr.toNat ++ toBytes 240 f.payload.toNat).map (·.toNat)

/-- The header fields. -/
def flitType (f : Flit) : Nat := bitsOf f.hdr.toNat 0 4
/-- SEQ. -/
def flitSeq (f : Flit) : Nat := bitsOf f.hdr.toNat 4 12
/-- ACK. -/
def flitAck (f : Flit) : Nat := bitsOf f.hdr.toNat 16 12

/-- Whether a flit is good: its CRC holds and its TYPE is not reserved. -/
def flitGood (f : Flit) : Bool := crc64 (flitBytes f) = f.crc.toNat && decide (flitType f ≤ 3)

/-- A flit with its CRC. -/
def mkFlit (type seq ack : Nat) (payload : BitVec 1920) : Flit :=
  let h : BitVec 64 := BitVec.ofNat 64 (type + seq * 2 ^ 4 + ack * 2 ^ 16)
  let f : Flit := ⟨h, payload, 0⟩
  { f with crc := BitVec.ofNat 64 (crc64 (flitBytes f)) }

/-! ### Ports (R420 to R422) -/

/-- A port. -/
def portOf (d : Device) (p : Nat) : Port := look Port.zero d.ports p

/-- Replace a port. -/
def setPort (d : Device) (p : Nat) (x : Port) : Device := { d with ports := store Port.zero d.ports p x }

/-- Whether a port is UP. -/
def portUp (d : Device) (p : Nat) : Bool := decide (p < 72) && (portOf d p).state = 2

/-- The ACK a port sends: the highest SEQ received in order. -/
def ackOf (x : Port) : Nat := (x.rxSeq + 4095) % 4096

/-- An idle flit, and a NAK: they carry an ACK and no SEQ (R419). -/
def bareFlit (type : Nat) (x : Port) : Flit := mkFlit type 0 (ackOf x) 0

/-- What a port sends next (R420): the flits that wait, while the retry buffer of 512 has room, else an idle flit, which carries the
ACK. -/
def pump (x : Port) : Port :=
  let room := 512 - x.retry.length
  let now := x.outbox.take room
  let put := (now.zip (List.range now.length)).map fun p =>
    mkFlit (flitType p.1) ((x.txSeq + p.2) % 4096) (ackOf x) p.1.payload
  { x with outbox := x.outbox.drop room, retry := x.retry ++ put, txSeq := (x.txSeq + now.length) % 4096
           wire := if put.isEmpty then [bareFlit 0 x] else put }

/-- An ACK retires the flits up to the SEQ it names; the replays of the first of them have succeeded (R420). -/
def takeAck (x : Port) (ack : Nat) : Port :=
  match x.retry.findIdx? fun f => flitSeq f = ack with
  | some i => { x with retry := x.retry.drop (i + 1), replays := 0, replaySeq := 0 }
  | none => x

/-- The receiver's NAK: its ACK names the last good SEQ (R420). -/
def sendNak (x : Port) : Port := { x with wire := [bareFlit 3 x] }

/-- The sender's replay: every flit of the retry buffer again, in order, with the present ACK (R420). -/
def replay (x : Port) : Port :=
  { x with wire := x.retry.map fun f => mkFlit (flitType f) (flitSeq f) (ackOf x) f.payload }

/-- A data or flood flit in SEQ order is delivered, once, and acknowledged by what the port sends next (R420). -/
def deliverFlit (x : Port) (f : Flit) : Port := pump { x with rxSeq := (x.rxSeq + 1) % 4096, inbox := x.inbox ++ [f] }

/-- The entry of a port of this device (Table 18.10): SPEED is the rate of its last training (R448). -/
def portEntry (d : Device) (p : Nat) : BitVec 32 :=
  let x := portOf d p
  BitVec.ofNat 32 (x.farDev + x.farPort * 2 ^ 8 + b2n (x.state = 2) * 2 ^ 15 + x.rate * 2 ^ 16)

/-! ### The live link table (R423, R425, R426) -/

/-- An entry of a table of links. -/
def linkEntry (t : Sparse (BitVec 32)) (dev p : Nat) : Nat := (look 0 t (72 * dev + p)).toNat

/-- The far end of a link that is up in both its entries (R423). -/
def linkTo (t : Sparse (BitVec 32)) (u p : Nat) : Option (Nat × Nat) :=
  let e := linkEntry t u p
  let v := bitsOf e 0 8
  let q := bitsOf e 8 7
  if bitOf e 15 && decide (q < 72) && bitOf (linkEntry t v q) 15 then some (v, q) else none

/-- The table with this device's own entries as its ports stand. -/
def ownTable (d : Device) : Sparse (BitVec 32) :=
  (List.range 72).foldl (fun t p => store 0 t (72 * d.mgmt.devnum + p) (portEntry d p)) d.mgmt.table

/-- Devices reached in one more hop. -/
def reachStep (t : Sparse (BitVec 32)) (l : List Nat) : List Nat :=
  (l ++ l.flatMap fun u => (List.range 72).filterMap fun p => (linkTo t u p).map (·.1)).eraseDups

/-- Devices reached in at most `n` hops. -/
def reachable (t : Sparse (BitVec 32)) : Nat → List Nat → List Nat
  | 0, l => l
  | n + 1, l =>
    let l' := reachStep t l
    if l'.length = l.length then l else reachable t n l'

/-- The keeper a table gives a device: the lowest DEVNUM connected to it through links that are up (R425). -/
def keeperIn (t : Sparse (BitVec 32)) (dev : Nat) : Nat := (reachable t 256 [dev]).foldl min dev

/-- The keeper of this device. -/
def keeper (d : Device) : Nat := keeperIn (ownTable d) d.mgmt.devnum

/-- V is newer than H (R426). -/
def newer (v h : Nat) : Bool :=
  let x := (v + 2 ^ 32 - h % 2 ^ 32) % 2 ^ 32
  decide (1 ≤ x) && decide (x ≤ 2 ^ 31 - 1)

/-- The flits of a flood wait on every port that is up, but one (R425). -/
def flood (d : Device) (except : Option Nat) : Device :=
  let out := (List.range 72).filter fun p => portUp d p && except ≠ some p
  let fl := (Config.floodPayload d.mgmt.ltver d.mgmt.table).map fun b => mkFlit 2 0 0 b
  let d := { d with mgmt := { d.mgmt with floods := out.map fun p => (p, d.mgmt.ltver) } }
  out.foldl (fun d p => setPort d p (pump { portOf d p with outbox := (portOf d p).outbox ++ fl })) d

/-- An entry as the table holds it: its reserved bits are 0 (Table 18.10). -/
def entryBits (e : BitVec 32) : BitVec 32 := e &&& 0xFFFFFF

/-- Change the entries of one device in a table. -/
def putEntries (t : Sparse (BitVec 32)) (dev : Nat) (l : List (Nat × BitVec 32)) : Sparse (BitVec 32) :=
  l.foldl (fun t p => if p.1 < 72 then store 0 t (72 * dev + p.1) (entryBits p.2) else t) t

/-- The keeper applies a notice: a version newer than its own and the notice's, flooded (R425). -/
def applyNotice (d : Device) (dev ver : Nat) (l : List (Nat × BitVec 32)) : Device :=
  let own := d.mgmt.ltver
  let v := ((if newer ver own then ver else own) + 1) % 2 ^ 32
  flood { d with mgmt := { d.mgmt with ltver := v, table := putEntries d.mgmt.table dev l } } none

/-- This device's 72 entries. -/
def ownEntries (d : Device) : List (Nat × BitVec 32) := (List.range 72).map fun p => (p, portEntry d p)

/-- A port changed to or from UP: the device sends its keeper a notice of its 72 entries and its version, or applies it when it is
the keeper (R425). The flag says that a version has been adopted. -/
def notifyKeeper (d : Device) : Device × Bool :=
  let k := keeper d
  if k = d.mgmt.devnum then (applyNotice d d.mgmt.devnum d.mgmt.ltver (ownEntries d), true)
  else ({ d with mgmt := { d.mgmt with notices := [(k, d.mgmt.ltver, ownEntries d)] } }, false)

/-- A table of another set with this device's set put into it: the entries of every device that this one reaches (R425). -/
def joinTables (d : Device) (t : Sparse (BitVec 32)) : Sparse (BitVec 32) :=
  (reachable (ownTable d) 256 [d.mgmt.devnum]).foldl (fun t u =>
    (List.range 72).foldl (fun t p => store 0 t (72 * u + p) (look 0 (ownTable d) (72 * u + p))) t) t

/-- A flood under this device's own version, with another table, shows that a link has joined two sets of one version. The keeper of the
joined set issues a version above it, and any other device sends that keeper a notice (R425). DEDUCED, log entry 92. -/
def joinSets (d : Device) (t : Sparse (BitVec 32)) : Device × Bool :=
  let j := joinTables d t
  let k := keeperIn j d.mgmt.devnum
  if k = d.mgmt.devnum then
    (applyNotice { d with mgmt := { d.mgmt with table := j } } d.mgmt.devnum d.mgmt.ltver (ownEntries d), true)
  else ({ d with mgmt := { d.mgmt with notices := [(k, d.mgmt.ltver, ownEntries d)] } }, false)

/-- A port changes STATE, which raises management vector 2 (R422). -/
def portState (d : Device) (p st : Nat) (f : Port → Port) : Device :=
  raiseVec (setPort d p { f (portOf d p) with state := st }) 0 2

/-- A port leaves UP (R421): its unacknowledged flits are discarded and SEQ restarts at 0. -/
def leaveUp (x : Port) : Port :=
  { x with retry := [], outbox := [], txSeq := 0, rxSeq := 0, replays := 0, replaySeq := 0, wire := [], inbox := [], tries := 0 }

/-- A port leaves UP to retrain, which RETRAIN counts (R421, Table 18.9). -/
def leaveToRetrain (x : Port) : Port := { leaveUp x with retrain := min 255 (x.retrain + 1) }

/-- Whether this device's entries in the adopted table are those of its ports as they stand. -/
def ownCurrent (d : Device) : Bool := (List.range 72).all fun p => look 0 d.mgmt.table (72 * d.mgmt.devnum + p) = portEntry d p

end Sys2Proof.Machine
end

