-- ==== Sys2Proof/Machine/Collective.lean ====
section
/-! DEFINITION. The collective engine (R427 to R446): records, trees, striping, the reduction of a chunk, marks,
writes, failures, version changes and the collective instructions; and the events of the scale-up ports, which may
bring a new version. -/
namespace Sys2Proof.Machine
open Sys2Proof

/-! ### Records and roles (R427, R428, R434) -/

/-- A collective record as read (Table 19.1). -/
structure ColRec where
  src : Nat
  dst : Nat
  count : Nat
  root : Nat
  lch : Nat
  resv : Nat
  cid : Nat
  members : Nat
  deriving DecidableEq, Repr

/-- Read a record's 64 bytes. -/
def colRec (x : Nat) : ColRec where
  src := fieldAt x 0 8
  dst := fieldAt x 8 8
  count := bitsOf x 128 40
  root := bitsOf x 168 8
  lch := bitsOf x 176 5
  resv := bitsOf x 181 11
  cid := fieldAt x 0x18 8
  members := fieldAt x 0x20 32

/-- The members in increasing DEVNUM. -/
def memberList (m : Nat) : List Nat := (List.range 256).filter fun k => m.testBit k

/-- The rank of a device among the members. -/
def rankOf (ms : List Nat) (dev : Nat) : Nat := (ms.filter (· < dev)).length

/-- Bytes of an element of a reducing form; 1 for the forms that move bytes. -/
def colWidth (o : ColOp) : Nat :=
  match o.form with
  | .red | .rsc => tyBits o.ty / 8
  | _ => 1

/-- Whether a record breaks Table 19.1 or R428 (cause 5). -/
def colInvalid (o : ColOp) (r : ColRec) (dev : Nat) : Bool :=
  r.resv ≠ 0 || r.count = 0 || decide (r.lch < 12) || decide (18 < r.lch) || !r.members.testBit dev ||
    (o.form ≠ .bc && r.root ≠ 0) || (o.form = .bc && !r.members.testBit r.root) ||
    r.src % 32 ≠ 0 || r.dst % 32 ≠ 0 || decide (2 ^ 56 ≤ r.src) || decide (2 ^ 56 ≤ r.dst) ||
    (o.form = .rsc && r.count % (memberList r.members).length ≠ 0)

/-- B of Table 19.4. -/
def colBytes (o : ColOp) (r : ColRec) : Nat :=
  match o.form with
  | .red | .rsc => r.count * colWidth o
  | .bc => r.count
  | .gath => (memberList r.members).length * r.count

/-- The length of this member's source bytes. -/
def srcLen (o : ColOp) (r : ColRec) (dev : Nat) : Nat :=
  match o.form with
  | .red | .rsc => r.count * colWidth o
  | .bc => if r.root = dev then r.count else 0
  | .gath => r.count

/-- The length of a slice: of a rank under CLRSC and CLGATH, else B. -/
def sliceLen (o : ColOp) (r : ColRec) : Nat :=
  match o.form with
  | .rsc => colBytes o r / (memberList r.members).length
  | .gath => r.count
  | _ => colBytes o r

/-- The length of this member's destination bytes. -/
def dstLen (o : ColOp) (r : ColRec) : Nat :=
  match o.form with
  | .rsc => sliceLen o r
  | _ => colBytes o r

/-- The stretch within which chunks are cut: a slice under CLRSC, else B (R433, R434). -/
def cutLen (o : ColOp) (r : ColRec) : Nat := if o.form = .rsc then sliceLen o r else colBytes o r

/-- Chunks in one stretch. -/
def perCut (o : ColOp) (r : ColRec) : Nat := (cutLen o r + 2 ^ r.lch - 1) / 2 ^ r.lch

/-- NCH. -/
def chunkCount (o : ColOp) (r : ColRec) : Nat :=
  perCut o r * (if o.form = .rsc then (memberList r.members).length else 1)

/-- The first byte of a chunk in the buffer, and its length. -/
def chunkSpan (o : ColOp) (r : ColRec) (k : Nat) : Nat × Nat :=
  let s := cutLen o r
  let lo := k / perCut o r * s + k % perCut o r * 2 ^ r.lch
  (lo, min (2 ^ r.lch) ((k / perCut o r + 1) * s - lo))

/-- Whether a member receives a chunk. -/
def receives (o : ColOp) (r : ColRec) (dev k : Nat) : Bool :=
  o.form ≠ .rsc || k / perCut o r = rankOf (memberList r.members) dev

/-- The offset of a chunk in a member's destination. -/
def dstOff (o : ColOp) (r : ColRec) (k : Nat) : Nat :=
  if o.form = .rsc then (chunkSpan o r k).1 % sliceLen o r else (chunkSpan o r k).1

/-! ### Trees and striping (R432, R433) -/

/-- The state of one tree's growth: devices visited, queue, edges as (parent, child, port of the parent), edges used
as (device, port) of either end. -/
structure Grow where
  seen : List Nat
  queue : List Nat
  edges : List (Nat × Nat × Nat)
  used : List (Nat × Nat)
  deriving DecidableEq, Repr

/-- One port of the device taken from the queue. -/
def growPort (t : Sparse (BitVec 32)) (ms : List Nat) (u : Nat) (g : Grow) (p : Nat) : Grow :=
  match linkTo t u p with
  | none => g
  | some (v, q) =>
    if ms.contains v && !g.seen.contains v && !g.used.contains (u, p) then
      { seen := v :: g.seen, queue := g.queue ++ [v], edges := g.edges ++ [(u, v, p)], used := (u, p) :: (v, q) :: g.used }
    else g

/-- Breadth-first growth; each device enters the queue once. -/
def growTree (t : Sparse (BitVec 32)) (ms : List Nat) : Nat → Grow → Grow
  | 0, g => g
  | n + 1, g =>
    match g.queue with
    | [] => g
    | u :: r => growTree t ms n ((List.range 72).foldl (growPort t ms u) { g with queue := r })

/-- SPEED of a link. -/
def speedOf (t : Sparse (BitVec 32)) (u p : Nat) : Nat := bitsOf (linkEntry t u p) 16 8

/-- The rate of a tree: the least SPEED of its edges, 112 without edges. -/
def treeRate (t : Sparse (BitVec 32)) (es : List (Nat × Nat × Nat)) : Nat :=
  match es.map fun e => speedOf t e.1 e.2.2 with
  | [] => 112
  | x :: r => r.foldl min x

/-- The trees with their rates: at most `n` more, edges used so far in `used`. -/
def deriveTrees (t : Sparse (BitVec 32)) (ms : List Nat) : Nat → List (Nat × Nat) → List (Nat × List (Nat × Nat × Nat))
  | 0, _ => []
  | n + 1, used =>
    let root := ms.headD 0
    let g := growTree t ms (ms.length + 1) ⟨[root], [root], [], used⟩
    if g.seen.length ≠ ms.length then []
    else if g.edges.isEmpty then [(112, [])]
    else (treeRate t g.edges, g.edges) :: deriveTrees t ms n g.used

/-- The trees of R432. -/
def treesOf (t : Sparse (BitVec 32)) (ms : List Nat) : List (Nat × List (Nat × Nat × Nat)) := deriveTrees t ms 16 []

/-- Whether tree `a` with n chunks comes before tree `b` with m: (n + 1) / rate, exactly. -/
def comesFirst (n ra m rb : Nat) : Bool := decide ((n + 1) * rb < (m + 1) * ra)

/-- The tree with the least (n + 1) / rate, ties to the lowest. -/
def pickTree (rates ns : List Nat) : Nat :=
  (List.range rates.length).foldl (fun b i =>
    if comesFirst (ns.getD i 0) (rates.getD i 1) (ns.getD b 0) (rates.getD b 1) then i else b) 0

/-- Assign chunks in increasing order (R433); the table holds tree + 1. -/
def assignChunks (rates : List Nat) : List Nat → List Nat → Sparse Nat → Sparse Nat
  | [], _, m => m
  | k :: r, ns, m =>
    let t := pickTree rates ns
    assignChunks rates r ((List.range rates.length).map fun i => ns.getD i 0 + (if i = t then 1 else 0)) (store 0 m k (t + 1))

/-! ### Reduction (R435) -/

/-- An element as the partial values carry it: F16 and BF16 widened to F32. -/
def colWiden (ty : Ty) (x : Nat) : Nat :=
  match ty with
  | .f16 | .bf16 => (cvtFpFp .f32 .rne 0 false (fpVal ty x)).1
  | _ => x

/-- The root's element in the type. -/
def colNarrow (ty : Ty) (x : Nat) : Nat :=
  match ty with
  | .f16 | .bf16 => (cvtFpFp ty .rne 0 false (fpVal .f32 x)).1
  | _ => x

/-- comb of two present values. -/
def comb (op : ClOp) (ty : Ty) (x y : Nat) : Nat :=
  if ty = .i32 || ty = .n32 then
    match op with
    | .sum => (x + y) % 2 ^ 32
    | .max => if elemInt ty x < elemInt ty y then y else x
    | .min => if elemInt ty y < elemInt ty x then y else x
  else
    match op with
    | .sum => (fpAdd .f32 .rne 0 false (fpVal .f32 x) (fpVal .f32 y)).1
    | .max => (fpMinMax .f32 false (fpVal .f32 x) (fpVal .f32 y)).1
    | .min => (fpMinMax .f32 true (fpVal .f32 x) (fpVal .f32 y)).1

/-- comb element by element. -/
def combAll (op : ClOp) (ty : Ty) (a b : List Nat) : List Nat := (a.zip b).map fun p => comb op ty p.1 p.2

/-- partial(u) on a tree whose edges stand in the order of R432; `n` bounds the depth. -/
def partialOf (op : ClOp) (ty : Ty) (es : List (Nat × Nat × Nat)) (vals : Nat → List Nat) : Nat → Nat → List Nat
  | 0, u => vals u
  | n + 1, u =>
    (es.filter fun e => e.1 = u).foldl (fun acc e => combAll op ty acc (partialOf op ty es vals n e.2.1)) (vals u)

/-- The elements of `w` bytes of a list of bytes. -/
def elemsOf (w : Nat) (bs : List Byte) : List Nat :=
  (List.range (bs.length / w)).map fun i => ofBytes ((bs.drop (w * i)).take w)

/-- A byte of a peer's source. -/
def peerByte (p : PeerOp) (off : Nat) : Byte := ((p.src.find? fun x => x.1 = off).map (·.2)).getD 0

/-- The bytes a device contributes: this member's as read, a peer's as posted. -/
def contribOf (col : Collective) (dev : Nat) (mine : List Byte) (off n u : Nat) : List Byte :=
  if u = dev then mine
  else
    match col.peers.find? fun p => p.dev = u with
    | some p => (List.range n).map fun i => peerByte p (off + i)
    | none => List.replicate n 0

/-- The value of a chunk (R434, R435). `mine` are the bytes this member contributes. -/
def chunkValue (col : Collective) (o : ColOp) (r : ColRec) (dev k : Nat) (mine : List Byte) : List Byte :=
  let (lo, n) := chunkSpan o r k
  let ms := memberList r.members
  match o.form with
  | .bc => contribOf col dev mine lo n r.root
  | .gath =>
    (List.range n).map fun i =>
      let u := ms.getD ((lo + i) / r.count) 0
      if u = dev then mine.getD i 0 else (contribOf col dev mine ((lo + i) % r.count) 1 u).getD 0 0
  | _ =>
    let w := colWidth o
    let t := look 0 col.assign k - 1
    let es := (col.trees.getD t (0, [])).2
    let vals := fun u => (elemsOf w (contribOf col dev mine lo n u)).map (colWiden o.ty)
    ((partialOf o.op o.ty es vals (es.length + 1) (ms.headD 0)).map (colNarrow o.ty)).flatMap (toBytes w)

/-! ### Accesses of the host and fabric dies -/

/-- How far a span has come. -/
def spanAt (d : Device) (key : List Nat) : Span := (d.spans.find? fun x => x.key = key).getD ⟨key, 0, false, 0, [], none⟩

/-- Forget how far a span has come. -/
def dropSpan (d : Device) (key : List Nat) : Device := { d with spans := d.spans.filter fun x => x.key ≠ key }

/-- Keep how far a span has come until it goes on; a span without a key starts again. -/
def keepSpan (d : Device) (x : Span) : Device :=
  if x.key.isEmpty then d else { d with spans := x :: (dropSpan d x.key).spans }

/-- Who asks the hubs for a span. -/
def spanAsker (key : List Nat) (die ifc eng : Nat) : Asker := ⟨if key.isEmpty then [] else 0 :: key, die, ifc, eng⟩

/-- How a span of global bytes is read. -/
inductive SpanRead
  | wait (d : Device)
  | ok (d : Device) (bs : List Byte)
  | bad (d : Device) (va sub : Nat)
  | stop (d : Device) (va kind : Nat)

/-- Read granules `g` upward through a die's cache, at their hubs. `held` is the chunk of the burst last moved: the
granules of one chunk come from one burst (R376). `got` are the granules read, newest first. -/
def spanGranules (d : Device) (die eng ifc g : Nat) (held : Option (Nat × List (Option Nat))) (key got : List Nat) : Nat → SpanRead
  | 0 => .ok (dropSpan d key) (got.reverse.flatMap (toBytes 32))
  | n + 1 =>
    let keep := fun (d : Device) (out : Bool) => keepSpan d ⟨key, die, out, 0, got, none⟩
    match translate d die ifc (32 * g) false with
    | (d, .wait) => .wait (keep d true)
    | (d, .fault k) => .stop (keep d false) (32 * g) k
    | (d, .ok pa) =>
      match readHeld d (spanAsker key die ifc eng) pa held with
      | .wait d => .wait (keep d true)
      | .bad d => .bad (dropSpan d key) (32 * g) (if paWin pa then 1 else 0)
      | .done d (x, held) => spanGranules d die eng ifc (g + 1) held key (x :: got) n

/-- Read `n` bytes at a virtual address; a read that has a key goes on from the granule at which it waited or stopped. -/
def spanRead (d : Device) (die eng ifc va n : Nat) (key : List Nat := []) : SpanRead :=
  if n = 0 then .ok d []
  else
    let got := (spanAt d key).vals
    match spanGranules d die eng ifc (va / 32 + got.length) none key got ((va + n - 1) / 32 + 1 - va / 32 - got.length) with
    | .ok d bs => .ok d ((bs.drop (va % 32)).take n)
    | e => e

/-- How the write of a span ends. -/
inductive SpanEnd
  | done
  | wait
  | bad (va sub : Nat)
  | stop (va kind : Nat)
  deriving DecidableEq, Repr

/-- A granule has been written at its hub: the writing stack, if one is named, drops its older copy (R236, R240), and monitors
see it. -/
def granuleLanded (s : State) (own : Option Nat) (pa x : Nat) : State :=
  hubChanged (match own with
    | some sk => { s with dev := dropCopy s.dev sk pa }
    | none => s) pa x

/-- The granules of one chunk at its hub: the state, and whether it waits, or else the first that failed. -/
inductive ChunkEnd
  | wait (s : State)
  | done (s : State) (bad : Option Nat)

/-- Write granules of a hub's window, `pa` being that of granule `g`; `bad` is the first that has failed. -/
def windowWrite (s : State) (own : Option Nat) (a : Asker) (pa g : Nat) (bs : List WByte) (bad : Option Nat) : List Nat → ChunkEnd
  | [] => .done s bad
  | x :: r =>
    let at' := pa + 32 * x - 32 * g
    let md := granuleOf (32 * x) (bs.filter fun b => b.addr / 32 = x) 0 0
    match windowPut s.dev a at' md.1 md.2 with
    | .wait d => .wait { s with dev := d }
    | .bad d => windowWrite { s with dev := d } own a pa g bs (some (bad.getD x)) r
    | .done d v => windowWrite (granuleLanded { s with dev := d } own at' v) own a pa g bs bad r

/-- Write granules of one chunk of HBM as one burst (R225, R376). -/
def sectorsWrite (s : State) (own : Option Nat) (a : Asker) (pa : Nat) (bs : List WByte) (gs : List Nat) : ChunkEnd :=
  let base := pa / 256 * 256
  let wr := fun (x : Nat) =>
    let md := granuleOf (32 * x) (bs.filter fun b => b.addr / 32 = x) 0 0
    (⟨x % 8, md.1, md.2⟩ : SecWr)
  match hubAsk s.dev a base (.write (gs.map wr)) with
  | .wait d => .wait (settleChanged { s with dev := d })
  | .bad d => .done { s with dev := d } gs.head?
  | .done d l =>
    let mine := l.filter (·.2.isSome)
    let drop := fun (d : Device) => match own with
      | some sk => mine.foldl (fun d p => dropCopy d sk (base + 32 * p.1)) d
      | none => d
    .done (settleChanged { s with dev := drop d }) (gs.find? fun x => !sectorDone l (x % 8))

/-- Write bytes by chunks at their home hubs (R437), from granule to granule of a list, `done` of it written before: a failed
sector keeps its state and the others are written. -/
def spanFrom (s : State) (die eng ifc : Nat) (bs : List WByte) (own : Option Nat) (key : List Nat) (bad : Option (Nat × Nat))
    (done : Nat) (gs : List Nat) : Nat → State × SpanEnd
  | 0 => (s, .wait)
  | n + 1 =>
    let keep := fun (d : Device) (out : Bool) => { s with dev := keepSpan d ⟨key, die, out, done, [], bad⟩ }
    match gs with
    | [] => ({ s with dev := dropSpan s.dev key }, match bad with
        | some b => .bad b.1 b.2
        | none => .done)
    | g :: r =>
      match translate s.dev die ifc (32 * g) true with
      | (d, .wait) => (keep d true, .wait)
      | (d, .fault k) => (keep d false, .stop (32 * g) k)
      | (d, .ok pa) =>
        let now := g :: r.takeWhile fun x => x / 8 = g / 8
        let s' := { s with dev := d }
        let a := spanAsker key die ifc eng
        match (if paWin pa then windowWrite s' own a pa g bs none now else sectorsWrite s' own a pa bs now) with
        | .wait s => ({ s with dev := keepSpan s.dev ⟨key, die, true, done, [], bad⟩ }, .wait)
        | .done s b =>
          let bad := match bad, b with
            | none, some x => some (32 * x, if paWin pa then 1 else 0)
            | y, _ => y
          spanFrom s die eng ifc bs own key bad (done + now.length) (r.dropWhile fun x => x / 8 = g / 8) n

/-- Write bytes at virtual addresses; a write that has a key goes on where it waited or stopped. `own` is the stack whose copies
are dropped. -/
def spanWrite (s : State) (die eng ifc : Nat) (bs : List WByte) (gs : List Nat) (own : Option Nat := none)
    (key : List Nat := []) : State × SpanEnd :=
  let x := spanAt s.dev key
  spanFrom s die eng ifc bs own key x.bad x.done (gs.drop x.done) (gs.length + 1)

/-- The granules of a span. -/
def spanOf (va n : Nat) : List Nat := if n = 0 then [] else (List.range ((va + n - 1) / 32 + 1 - va / 32)).map (va / 32 + ·)

/-! ### Collectives in progress -/

/-- The collective of an operation. -/
def colOf (d : Device) (cr : CRef) (serial : Nat) : Option Collective :=
  d.cols.find? fun x => x.cref = cr && x.serial = serial

/-- Replace a collective. -/
def setCol (d : Device) (x : Collective) : Device :=
  { d with cols := d.cols.map fun y => if y.cref = x.cref && y.serial = x.serial then x else y }

/-- The k-th operation of context 6. -/
def colAt (c : Ctx) (k : Nat) : Option (Op × ColOp) :=
  match c.t6.ops[k]? with
  | none => none
  | some op => match op.what with
    | .col o => some (op, o)
    | _ => none

/-- The collective operation with a serial number. -/
def colBySerial (c : Ctx) (serial : Nat) : Option (Op × ColOp) :=
  match c.t6.ops.find? fun o => o.serial = serial with
  | none => none
  | some op => match op.what with
    | .col o => some (op, o)
    | _ => none

/-- Chunks at mark 2. -/
def chunksDone (x : Collective) : Nat := (x.mark.filter fun p => p.2 = 2).length

/-- What names the read (0) or the write (1) of a chunk among the spans in progress. -/
def chunkKey' (cr : CRef) (serial rw k : Nat) : List Nat := [6, cr.sk, cr.ix, cr.pt, serial, rw, k]

/-- Whether a span in progress belongs to an operation of context 6. -/
def spanOfOp (cr : CRef) (serial : Nat) (x : Span) : Bool := x.key.take 5 = [6, cr.sk, cr.ix, cr.pt, serial]

/-- The fabric die through whose cache a chunk is read or written: the one through which its span is under way, else the context's own,
or the next that takes new work; none while no fabric die does (R384, R446). DESIGN CHOICE, log entry 61. -/
def fabricDie (d : Device) (cr : CRef) (key : List Nat) : Option Nat :=
  match d.spans.find? fun x => x.key = key && x.out with
  | some x => some x.die
  | none =>
    ((List.range 3).map fun k => 21 + (cr.sk + k) % 3).find? fun sk => (dieOf d sk).state ≠ 3 && !dieFenced d sk

/-- The virtual address of a chunk in this member's destination. -/
def chunkVa (o : ColOp) (r : ColRec) (k : Nat) : Nat := r.dst + dstOff o r k

/-- Write one committed chunk into this member's destination. -/
def writeChunk (s : State) (c : Ctx) (o : ColOp) (r : ColRec) (x : Collective) (k : Nat) : State × SpanEnd :=
  let bs := look [] x.value k
  let key := chunkKey' x.cref x.serial 1 k
  match fabricDie s.dev x.cref key with
  | none => (s, .wait)
  | some die =>
    spanWrite s die 2 c.ifc (wbytes (chunkVa o r k) bs) (spanOf (chunkVa o r k) bs.length) (some x.cref.sk) key

/-- Chunks at mark 2 that this member has still to write. -/
def toWrite (o : ColOp) (r : ColRec) (dev : Nat) (x : Collective) : List Nat :=
  (x.mark.filter fun p => p.2 = 2 && receives o r dev p.1 && !look false x.written p.1).map (·.1)

/-! ### Ends of collectives (R443, R445, R446) -/

/-- The buffered writes in the sets of the releases of a context, wider than its stack, that were issued before an operation and have
still to be performed (R242). -/
def releasesBefore (c : Ctx) (serial : Nat) : List Nat :=
  c.t5.ops.flatMap fun x => match x.what with
    | .req q => if q.kind = 0 && decide (x.serial < serial) && q.fkind ≠ .acq && fenceWide c q then q.acq else []
    | _ => []

/-- What a collective has still to write when it ends. -/
def drainsOf (d : Device) (c : Ctx) (x : Collective) : List Drain :=
  match colBySerial c x.serial with
  | none => []
  | some (_, o) =>
    let r := colRec o.recd
    (toWrite o r d.mgmt.devnum x).map fun k =>
      { cref := x.cref, run := c.run, launch := ((runOf d c.run).map (·.launch)).getD 0, serial := x.serial, chunk := k
        ifc := c.ifc, va := chunkVa o r k, bytes := look [] x.value k
        after := releasesBefore c x.serial, done := chunksDone x, stuck := false }

/-- The context of a chunk that waits to be written, while its run has it. -/
def drainCtx (s : State) (x : Drain) : Option Ctx := (getCtx s x.cref).filter fun c => c.run = x.run

/-- Whether a chunk that waits to be written must wait on: a translation fault holds it, which a reset of its interface does not wait for,
or an earlier release of its context does, performed or not, while a write of its set is in the stack's buffer (R242, R263). -/
def drainHeld (s : State) (x : Drain) : Bool :=
  (x.stuck && !s.dev.resets.contains x.ifc) || ((look [] s.dev.gbuf x.cref.sk).any fun w => x.after.contains w.serial) ||
    (match drainCtx s x with
    | some c => fencePending c x.serial false
    | none => false)

/-- A translation fault holds a chunk that waits to be written until its context is resumed or its interface's tables change: it stops the
context, if that is still there (R443). It is given up when its interface is reset. DEDUCED, log entry 66. -/
def drainStops (s : State) (x : Drain) (va kind : Nat) : State :=
  if s.dev.resets.contains x.ifc then
    { s with dev := setErr (dropSpan s.dev (chunkKey' x.cref x.serial 1 x.chunk)) x.ifc 4 }
  else
    let s := { s with dev := { s.dev with drains := s.dev.drains ++ [{ x with stuck := true }] } }
    match drainCtx s x with
    | none => s
    | some c =>
      let op := (colBySerial c x.serial).map (·.1)
      putCtx s x.cref (stopCtx 6 va (setTl c 6
        (setRec (tlOf c 6) 2 kind 1 ((op.map (·.batch)).getD 0) (BitVec.ofNat 64 va) x.done ((op.map (·.pc)).getD 0))))

/-- Write a chunk that waits to be written: one that a hub, a fence, a hold (R396) or a translation fault holds stays, and one that its
hub fails is lost. -/
def drainOne (s : State) (x : Drain) : State :=
  let key := chunkKey' x.cref x.serial 1 x.chunk
  let stay := fun (s : State) => { s with dev := { s.dev with drains := s.dev.drains ++ [x] } }
  match (if s.dev.sun.parked || drainHeld s x then none else fabricDie s.dev x.cref key) with
  | none => stay s
  | some die =>
    match spanWrite s die 2 x.ifc (wbytes x.va x.bytes) (spanOf x.va x.bytes.length) (some x.cref.sk) key with
    | (s, .wait) => stay s
    | (s, .done) => s
    | (s, .bad _ _) => { s with dev := setErr s.dev x.ifc 4 }
    | (s, .stop va kind) => drainStops s x va kind

/-- Every chunk that waits to be written is tried, in order. -/
def drainAll (s : State) : State := s.dev.drains.foldl drainOne { s with dev := { s.dev with drains := [] } }

/-- The abort of context 6 once its chunks have been written: the lowest incomplete batch fails with cause 9 (R445). -/
def abortNow (c : Ctx) (done : Nat) : Ctx :=
  let c' := abortCtx 6 c
  if c.t6.failed.isSome || c.t6.ops.isEmpty then c' else setTl c' 6 { c'.t6 with rec2 := BitVec.ofNat 64 done }

/-- A failure is recorded: its batch fails, and the operations of later batches are discarded (R257, R443). -/
def endNow (c : Ctx) (e : Ending) : Ctx :=
  if e.cause = 9 then abortNow c e.done
  else
    match colBySerial c e.serial with
    | none => c
    | some (op, _) =>
      setTl c 6 (setRec (tlFail 6 c.t6 (batchNo c.t6 op) op.serial e.addr) e.cause e.sub e.side op.batch e.addr e.done op.pc)

/-- A failure of a context is recorded once nothing of the context waits to be written. -/
def settleEnding (s : State) (e : Ending) : State :=
  match getCtx s e.cref with
  | none => s
  | some c =>
    if c.run ≠ e.run then s
    else if s.dev.drains.any fun x => x.cref = e.cref && x.run = e.run then
      { s with dev := { s.dev with endings := s.dev.endings ++ [e] } }
    else putCtx s e.cref (endNow c e)

/-- The failures that wait to be recorded. -/
def settleEndings (s : State) : State := s.dev.endings.foldl settleEnding { s with dev := { s.dev with endings := [] } }

/-- The collectives of a context that a test selects end: their chunks at mark 2 are written, or wait to be. -/
def endCols (s : State) (cr : CRef) (c : Ctx) (sel : Collective → Bool) : State :=
  let mine := s.dev.cols.filter fun x => x.cref = cr && sel x
  let d := { s.dev with
    cols := s.dev.cols.filter fun x => !(x.cref = cr && sel x)
    drains := s.dev.drains ++ mine.flatMap (drainsOf s.dev c)
    spans := s.dev.spans.filter fun y => !(mine.any fun x => spanOfOp cr x.serial y && (y.key.drop 5).head? = some 0) }
  drainAll { s with dev := d }

/-- Chunks at mark 2 of an operation's collective. -/
def doneOf (d : Device) (cr : CRef) (serial : Nat) : Nat := ((colOf d cr serial).map chunksDone).getD 0

/-- A collective fails (R442, R443): the committed chunks, its own and those of the operations discarded with it, are written
first, then the batch fails with its record. -/
def failCol (s : State) (cr : CRef) (op : Op) (cause sub side : Nat) (addr : Word) : State :=
  match getCtx s cr with
  | none => s
  | some c =>
    let late := fun (x : Collective) => match colBySerial c x.serial with
      | some (o, _) => decide (batchNo c.t6 op < batchNo c.t6 o)
      | none => true
    let e : Ending := ⟨cr, c.run, op.serial, cause, sub, side, addr, doneOf s.dev cr op.serial⟩
    let s := endCols s cr c fun x => x.serial = op.serial || late x
    settleEndings { s with dev := { s.dev with endings := s.dev.endings ++ [e] } }

/-- A translation fault stops context 6 (R443). -/
def stopCol (s : State) (cr : CRef) (op : Op) (va kind side done : Nat) : State :=
  match getCtx s cr with
  | none => s
  | some c =>
    putCtx s cr (stopCtx 6 va (setTl c 6 (setRec (tlOf c 6) 2 kind side op.batch (BitVec.ofNat 64 va) done op.pc)))

/-- The collective is complete on this member when every chunk is at mark 2 and its own are written (R440). -/
def colSettle (s : State) (cr : CRef) (op : Op) (o : ColOp) : State :=
  let r := colRec o.recd
  match colOf s.dev cr op.serial, getCtx s cr with
  | some x, some c =>
    if chunksDone x = chunkCount o r && (toWrite o r s.dev.mgmt.devnum x).isEmpty then
      let s := putCtx s cr (setTl c 6 (opDone (tlOf c 6) op.serial))
      { s with dev := { s.dev with cols := s.dev.cols.filter fun y => !(y.cref = cr && y.serial = op.serial) } }
    else s
  | _, _ => s

/-! ### Instructions (R429 to R431, R441, R444, R445) -/

/-- Whether the abort of a context waits to be recorded: its operations are discarded already (R292, R445). -/
def aborting (d : Device) (cr : CRef) : Bool := d.endings.any fun e => e.cref = cr && e.cause = 9

/-- Collectives that a core has incomplete, those of its suspended contexts among them (R441, R446). -/
def colsHeld (d : Device) (k : Core) : Nat :=
  let n := fun (c : Ctx) => if aborting d ⟨k.sk, k.ix, c.part⟩ then 0 else c.t6.ops.length
  k.susp.foldl (fun m c => m + n c) (n k.ctx)

/-- Issue a collective: its record is read as a load, and a fifth operation waits. -/
def colOp (s : State) (form : ClForm) (op : ClOp) (ty : Ty) (sa : BitVec 6) : Out :=
  gateComp s fun s =>
    withAreas s [⟨sreg s.core.ctx sa, 64, 64⟩] fun s =>
      let c := s.core.ctx
      if 4 ≤ colsHeld s.dev s.core then .next s
      else
        let o : ColOp := ⟨form, op, ty, readLe c.scr (sreg c sa).toNat 64⟩
        .next (issuePlain s [.s sa] (joinOp 6 (.col o) c.serial c.pc))

/-- CLRED. -/
def execClred (op : ClOp) (ty : Ty) (sa : BitVec 6) (s : State) : Out := colOp s .red op ty sa
/-- CLRSC. -/
def execClrsc (op : ClOp) (ty : Ty) (sa : BitVec 6) (s : State) : Out := colOp s .rsc op ty sa
/-- CLBC. -/
def execClbc (sa : BitVec 6) (s : State) : Out := colOp s .bc .sum .n8 sa
/-- CLGATH. -/
def execClgath (sa : BitVec 6) (s : State) : Out := colOp s .gath .sum .n8 sa

/-- What CLTBL reads (R444). -/
def tblWord (s : State) (a : Word) (q : Nat) : Word :=
  match q with
  | 0 => BitVec.ofNat 64 s.dev.mgmt.ltver
  | 1 => BitVec.ofNat 64 s.dev.mgmt.devnum
  | 2 =>
    let p := bitsOf a.toNat 8 7
    if 72 ≤ p then 0 else BitVec.ofNat 64 (linkEntry s.dev.mgmt.table (bitsOf a.toNat 0 8) p)
  | _ => recWord s.core.ctx.t6 (q - 3)

/-- CLTBL. -/
def execCltbl (sd sa : BitVec 6) (q : BitVec 3) (s : State) : Out :=
  gateComp s fun s =>
    let srcs : List Src := if q = 2 then [.s sa] else []
    .next (issueScalar s srcs sd 1 (tblWord s (sreg s.core.ctx sa) q.toNat) 0)

/-- Abort context 6 of a context (R445): chunks at mark 2 are written, then the lowest incomplete batch fails with
cause 9. -/
def abortCols (s : State) (cr : CRef) : State :=
  match getCtx s cr with
  | none => s
  | some c =>
    let done := ((c.t6.ops.head?).map fun op => doneOf s.dev cr op.serial).getD 0
    let s := endCols s cr c fun _ => true
    settleEndings { s with dev := { s.dev with endings := s.dev.endings ++ [⟨cr, c.run, 0, 9, 0, 0, 0, done⟩] } }

/-- The collectives of a context whose launch ends: their chunks at mark 2 are written, or wait to be (R446). -/
def flushCols (s : State) (cr : CRef) (c : Ctx) : State :=
  let s := endCols s cr c fun _ => true
  { s with dev := { s.dev with
      endings := s.dev.endings.filter fun e => !(e.cref = cr && e.run = c.run)
      spans := s.dev.spans.filter fun y => !(c.t6.ops.any fun op => spanOfOp cr op.serial y && (y.key.drop 5).head? = some 0) } }

/-- CLABT with RES = 0: the open batch closes and the context is aborted. -/
def execClabt (s : State) : Out :=
  gateComp s fun s =>
    let s := if s.core.ctx.t6.openOps = 0 then s else closeBatch s 6
    let s := issuePlain s [] id
    .next (abortCols s (meRef s))

/-- The chunks of a context that a translation fault held are tried again. -/
def unstick (d : Device) (sel : Drain → Bool) : Device :=
  { d with drains := d.drains.map fun x => if sel x then { x with stuck := false } else x }

/-- CLABT with RES = 1: legal only at S; a context stopped by a translation fault resumes. -/
def execClabtResume (s : State) : Out :=
  gate s (s.core.ctx.priv = .s) true fun s =>
    let me := meRef s
    let s := if s.core.ctx.t6.stopped then { s with dev := unstick s.dev fun x => x.cref = me } else s
    .next (issuePlain s [] fun c =>
      if c.t6.stopped then { c with t6 := { c.t6 with stopped := false, rec0 := c.t6.rec0 &&& ~~~0x80000000 } } else c)

/-! ### Start (R442, R446) -/

/-- Whether a fabric die is asked to quiesce, quiescing, fenced, resetting, or waits for its link to retrain (R384, R446). -/
def fabricBusy (d : Device) : Bool :=
  [21, 22, 23].any fun k => let x := look Die.zero d.dies k
    decide (3 ≤ x.state) && decide (x.state ≤ 5) || x.ask || x.retraining

/-- The operations that other members have posted for a collective. -/
def peersOf (r : ColRec) (l : List PeerOp) : List PeerOp :=
  l.filter fun p => p.cid.toNat = r.cid && p.members.toNat = r.members && r.members.testBit p.dev

/-- Whether an operation's end waits to be recorded, or that of one whose failure discards it: it has no start to come (R257, R443,
R445). -/
def ending (d : Device) (cr : CRef) (c : Ctx) (op : Op) : Bool :=
  d.endings.any fun e => e.cref = cr && e.run = c.run && (e.cause = 9 || e.serial = op.serial ||
    (match colBySerial c e.serial with
      | some (o, _) => decide (batchNo c.t6 o < batchNo c.t6 op)
      | none => false))

/-- Whether a peer's operation agrees (R428). -/
def peerAgrees (o : ColOp) (r : ColRec) (p : PeerOp) : Bool :=
  p.form = o.form && p.op = o.op && p.ty = o.ty && p.count = r.count && p.root = r.root && p.lch = r.lch

/-- COLLECTIVE START: the checks of R442; without a failure the trees are derived and the chunks assigned. It waits
until every member has posted its operation. -/
def execCollectiveStart (cr : CRef) (k : Nat) (peers : List PeerOp) (s : State) : Out :=
  match getCtx s cr with
  | none => .next s
  | some c =>
    match colAt c k with
    | none => .next s
    | some (op, o) =>
      if op.prog ≠ .fresh || c.t6.stopped || s.dev.sun.parked || fabricBusy s.dev || ending s.dev cr c op then .next s
      else
        let dev := s.dev.mgmt.devnum
        let r := colRec o.recd
        let ms := memberList r.members
        let ps := peersOf r peers
        if colInvalid o r dev then .next (failCol s cr op 5 0 0 0)
        else if c.cls = .d then .next (failCol s cr op 6 0 0 0)
        else if 2 ^ 56 < r.src + srcLen o r dev then .next (failCol s cr op 3 0 0 (BitVec.ofNat 64 r.src))
        else if 2 ^ 56 < r.dst + dstLen o r then .next (failCol s cr op 3 0 1 (BitVec.ofNat 64 r.dst))
        else
          let trees := treesOf s.dev.mgmt.table ms
          let devs := dev :: ps.map (·.dev)
          if trees.isEmpty || devs.eraseDups.length ≠ devs.length then .next (failCol s cr op 10 0 0 0)
          else if !(ms.all fun m => devs.contains m) then .next s
          else if !(ps.all (peerAgrees o r)) then .next (failCol s cr op 8 0 0 0)
          else
            let x : Collective :=
              { cref := cr, serial := op.serial, peers := ps, version := s.dev.mgmt.ltver, trees := trees
                assign := assignChunks (trees.map (·.1)) (List.range (chunkCount o r)) [] []
                mark := [], value := [], written := [], next := none, held := [] }
            .next (putCtx { s with dev := { s.dev with cols := s.dev.cols ++ [x] } } cr
              (setTl c 6 (opSet c.t6 { op with prog := .running 0 0 })))

/-! ### Chunks (R435 to R437, R443) -/

/-- This member's contribution to a chunk: the address and length of the bytes read, and bytes before and after that
other members contribute. -/
def ownPart (o : ColOp) (r : ColRec) (dev k : Nat) : Nat × Nat × Nat × Nat :=
  let (lo, n) := chunkSpan o r k
  match o.form with
  | .red | .rsc => (r.src + lo, n, 0, 0)
  | .bc => if r.root = dev then (r.src + lo, n, 0, 0) else (r.src, 0, 0, n)
  | .gath =>
    let b := rankOf (memberList r.members) dev * r.count
    let first := max lo b
    let last := min (lo + n) (b + r.count)
    if first < last then (r.src + (first - b), last - first, first - lo, lo + n - last) else (r.src, 0, 0, n)

/-- The combination of R438 is over: the chunks not known to be committed are assigned afresh over the new trees. -/
def reassign (o : ColOp) (r : ColRec) (x : Collective) : Collective :=
  match x.next with
  | none => x
  | some trees =>
    let kept := x.mark.filter fun p => p.2 = 2
    let todo := (List.range (chunkCount o r)).filter fun k => look 0 kept k = 0
    { x with trees := trees, mark := kept, next := none, value := x.value.filter fun p => look 0 kept p.1 = 2
             assign := assignChunks (trees.map (·.1)) todo [] (x.assign.filter fun p => look 0 kept p.1 = 2) }

/-- An operation of context 6 with its collective. -/
def colOpOf (s : State) (cr : CRef) (serial : Nat) : Option (Ctx × Op × ColOp × Collective) :=
  match getCtx s cr with
  | none => none
  | some c =>
    match colBySerial c serial, colOf s.dev cr serial with
    | some (op, o), some x => some (c, op, o, x)
    | _, _ => none

/-- A chunk's partial values combine up its tree (R435, R436): at most 4 chunks of a tree stand above mark 0 and below mark 2.
This member's source is read at once, unless a fence of its context holds the read, or a translation fault has stopped the
context. -/
def reduceChunk (s : State) (cr : CRef) (serial chunk : Nat) : State :=
  match colOpOf s cr serial with
  | none => s
  | some (c, op, o, x0) =>
    let r := colRec o.recd
    let dev := s.dev.mgmt.devnum
    let x := reassign o r x0
    let s := { s with dev := setCol s.dev x }
    let busy := (x.mark.filter fun p => p.2 = 1 && look 0 x.assign p.1 = look 0 x.assign chunk).length
    let own := ownPart o r dev chunk
    if chunkCount o r ≤ chunk || look 0 x.mark chunk ≠ 0 || decide (4 ≤ busy) then s
    else if own.2.1 ≠ 0 && (c.t6.stopped || bucketHeld c serial) then s
    else
      let key := chunkKey' cr serial 0 chunk
      match fabricDie s.dev cr key with
      | none => s
      | some die =>
        match spanRead s.dev die 2 c.ifc own.1 own.2.1 key with
        | .wait d => { s with dev := d }
        | .bad d va sub => failCol { s with dev := d } cr op 1 sub 0 (BitVec.ofNat 64 va)
        | .stop d va kind => stopCol { s with dev := d } cr op va kind 0 (chunksDone x)
        | .ok d bs =>
          let mine := List.replicate own.2.2.1 0 ++ bs ++ List.replicate own.2.2.2 0
          { s with dev := setCol d { x with mark := store 0 x.mark chunk 1
                                            value := store [] x.value chunk (chunkValue x o r dev chunk mine) } }

/-- A commit reaches this member (R436); while the members combine what each knows to be committed, a chunk it holds is committed
by what another knows (R438). -/
def commitChunk (s : State) (cr : CRef) (serial chunk : Nat) : State :=
  match colOpOf s cr serial with
  | none => s
  | some (_, op, o, x) =>
    if look 0 x.mark chunk ≠ 1 then s
    else colSettle { s with dev := setCol s.dev { x with mark := store 0 x.mark chunk 2 } } cr op o

/-- What a flit that carries a version does on this device (R439): now, not at all, or when the version is adopted. -/
inductive FlitTime
  | now | never | later
  deriving DecidableEq, Repr

/-- A flit's version against the collective's. -/
def flitTime (x : Collective) (ver : Nat) : FlitTime :=
  if ver % 2 ^ 32 = x.version then .now else if newer ver x.version then .later else .never

/-- A chunk's reduction or commit under a version: applied, discarded, or held until the version is adopted (R439). -/
def chunkFlit (s : State) (cr : CRef) (serial chunk ver : Nat) (commit : Bool) : State :=
  match colOf s.dev cr serial with
  | none => s
  | some x =>
    match flitTime x ver with
    | .now => if commit then commitChunk s cr serial chunk else reduceChunk s cr serial chunk
    | .later => { s with dev := setCol s.dev { x with held := x.held ++ [(ver % 2 ^ 32, chunk, commit)] } }
    | .never => s

/-- CHUNK REDUCED: the partial values of a chunk combine up its tree, under a version of the table. `failed` names a member whose
failure ends the collective for the others (R443). Nothing moves in a hold (R351). -/
def execChunkReduced (cr : CRef) (k : Nat) (a : ChunkAt) (failed : Option Nat) (s : State) : Out :=
  match getCtx s cr with
  | none => .next s
  | some c =>
    match colAt c k with
    | none => .next s
    | some (op, o) =>
      match colOf s.dev cr op.serial, failed with
      | none, _ => .next s
      | some _, some m =>
        let ms := (colRec o.recd).members
        if !s.dev.sun.parked && ms.testBit m && m ≠ s.dev.mgmt.devnum then .next (failCol s cr op 11 0 0 (BitVec.ofNat 64 m)) else .next s
      | some _, none => if s.dev.sun.parked then .next s else .next (chunkFlit s cr op.serial a.chunk a.ver false)

/-- CHUNK COMMIT: the root declares the chunk committed and the commit reaches the receivers (R436). -/
def execChunkCommit (cr : CRef) (k : Nat) (a : ChunkAt) (s : State) : Out :=
  match getCtx s cr with
  | none => .next s
  | some c =>
    match colAt c k with
    | none => .next s
    | some (op, _) => if s.dev.sun.parked then .next s else .next (chunkFlit s cr op.serial a.chunk a.ver true)

/-- CHUNK WRITE: a receiver writes a committed chunk whole (R437), unless a release of its context holds the write (R242, R263);
with every chunk written the collective is complete (R440). -/
def execChunkWrite (cr : CRef) (k chunk : Nat) (s : State) : Out :=
  match getCtx s cr with
  | none => .next s
  | some c =>
    match colAt c k with
    | none => .next s
    | some (op, o) =>
      match colOf s.dev cr op.serial with
      | none => .next s
      | some x =>
        let r := colRec o.recd
        if !(toWrite o r s.dev.mgmt.devnum x).contains chunk || c.t6.stopped || s.dev.sun.parked ||
            fencePending c op.serial false then .next s
        else
          let put := fun (s : State) => { s with dev := setCol s.dev { x with written := store false x.written chunk true } }
          match writeChunk s c o r x chunk with
          | (s, .wait) => .next s
          | (s, .stop va kind) => .next (stopCol s cr op va kind 1 (chunksDone x))
          | (s, .bad va sub) => .next (failCol (put s) cr op 7 sub 1 (BitVec.ofNat 64 va))
          | (s, .done) => .next (colSettle (put s) cr op o)

/-! ### Version changes (R438, R439) -/

/-- The flits held for the version just adopted are applied; older ones are gone. -/
def applyHeld (s : State) (cr : CRef) (serial : Nat) : State :=
  match colOf s.dev cr serial with
  | none => s
  | some x =>
    x.held.foldl (fun s p => chunkFlit s cr serial p.2.1 p.1 p.2.2) { s with dev := setCol s.dev { x with held := [] } }

/-- A collective under a newly adopted version (R438): with identical trees it goes on from its marks; with others the members first
combine what each knows to be committed, until the first chunk is reduced over the new trees; no tree fails it with cause 10. -/
def adoptOne (s : State) (x0 : Collective) : State :=
  match colOpOf s x0.cref x0.serial with
  | none => s
  | some (_, op, o, x) =>
    let trees := treesOf s.dev.mgmt.table (memberList (colRec o.recd).members)
    if trees.isEmpty then failCol s x.cref op 10 0 0 0
    else
      let same := decide (trees = x.trees)
      let x := { x with version := s.dev.mgmt.ltver, next := if same then none else some trees }
      let d := setCol s.dev x
      let reads := fun (y : Span) => spanOfOp x.cref x.serial y && (y.key.drop 5).head? = some 0
      applyHeld { s with dev := { d with spans := d.spans.filter fun y => same || !reads y } } x.cref x.serial

/-- Every collective in progress adopts the device's version. -/
def adoptAll (s : State) : State := s.dev.cols.foldl adoptOne s

/-- A change of ports to or from UP is announced; when this device is the keeper it adopts the new version. -/
def portsChanged (s : State) : State :=
  match notifyKeeper s.dev with
  | (d, true) => adoptAll { s with dev := d }
  | (d, false) => { s with dev := d }

/-- CHANGE NOTICE: the keeper applies it and floods a new version (R425); none comes in a hold, in which ports send idle flits only
(R396). -/
def execChangeNotice (dev ver : Nat) (entries : List (Nat × BitVec 32)) (s : State) : Out :=
  if keeper s.dev ≠ s.dev.mgmt.devnum || decide (256 ≤ dev) || s.dev.sun.parked then .next s
  else .next (adoptAll { s with dev := applyNotice s.dev dev ver entries })

/-- A table as a flood carries it. -/
def floodTable (l : List (Nat × BitVec 32)) : Sparse (BitVec 32) :=
  l.foldl (fun t p => if p.1 < 72 * 256 then store 0 t p.1 (entryBits p.2) else t) []

/-- A flooded table takes the place of this device's, and is forwarded (R425, R426). -/
def adoptFlood (d : Device) (port ver : Nat) (table : List (Nat × BitVec 32)) : Device :=
  flood { d with mgmt := { d.mgmt with ltver := ver % 2 ^ 32, table := floodTable table } } (some port)

/-- Whether a port's events happen now: it is UP, and no hold is on, in which ports send idle flits only (R396). -/
def portGoes (d : Device) (p : Nat) : Bool := portUp d p && !d.sun.parked

/-- FLOOD RECEIVE: a newer table is adopted and forwarded; any other is discarded (R426), but for one of this device's own version that
comes from a set a link has just joined to its own (R425). A newer table that does not show this device's ports as they stand comes from
such a set too: the device announces them, so that the keeper of the joined set issues a version above both sets'. DEDUCED, log
entry 92. -/
def execFloodReceive (port ver : Nat) (table : List (Nat × BitVec 32)) (s : State) : Out :=
  if !portGoes s.dev port then .next s
  else if newer ver s.dev.mgmt.ltver then
    let s := adoptAll { s with dev := adoptFlood s.dev port ver table }
    .next (if ownCurrent s.dev then s else portsChanged s)
  else if ver % 2 ^ 32 = s.dev.mgmt.ltver && floodTable table ≠ s.dev.mgmt.table then
    match joinSets s.dev (floodTable table) with
    | (d, true) => .next (adoptAll { s with dev := d })
    | (d, false) => .next { s with dev := d }
  else .next s

/-! ### Port events (R420, R421) -/

/-- A port leaves UP and retrains. -/
def retrainPort (s : State) (p : Nat) : State :=
  portsChanged { s with dev := portState s.dev p 3 leaveToRetrain }

/-- The NAK of a receiver: the flits up to its ACK are retired and the rest are replayed; after eight replays of the
same SEQ have failed the port retrains (R420). -/
def takeNak (s : State) (p ack : Nat) : State :=
  let x := takeAck (portOf s.dev p) ack
  match x.retry with
  | [] => { s with dev := setPort s.dev p (pump x) }
  | f :: _ =>
    let n := if x.replays ≠ 0 && x.replaySeq = flitSeq f then x.replays + 1 else 1
    if 8 < n then retrainPort { s with dev := setPort s.dev p x } p
    else { s with dev := setPort s.dev p (replay { x with replaySeq := flitSeq f, replays := n }) }

/-- NAK: the far end names the last good SEQ. -/
def execNak (port seq : Nat) (s : State) : Out :=
  if portGoes s.dev port then .next (takeNak s port seq) else .next s

/-- What an UP port does with a flit that is not a good NAK (R419, R420). -/
def takeFlit (x : Port) (f : Flit) : Port :=
  if !flitGood f then sendNak x
  else
    let x := takeAck x (flitAck f)
    if flitType f = 0 then pump x
    else if flitSeq f = x.rxSeq then deliverFlit x f
    else sendNak x

/-- FLIT RECEIVE: a good flit in order is delivered, or the flit is dropped and one NAK is sent (R419, R420). -/
def execFlitReceive (port : Nat) (f : Flit) (s : State) : Out :=
  if !portGoes s.dev port then .next s
  else if flitGood f && flitType f = 3 then .next (takeNak s port (flitAck f))
  else .next { s with dev := setPort s.dev port (takeFlit (portOf s.dev port) f) }

/-- PORT RETRAIN: an UP port leaves UP (R421); no link retrains in a hold (R396). -/
def execPortRetrain (port : Nat) (s : State) : Out :=
  if portGoes s.dev port then .next (retrainPort s port) else .next s

/-- Whether a port's training may end: it trains or retrains, on a READY die (R421, R422). -/
def training (d : Device) (p : Nat) : Bool :=
  decide (p < 72) && (dieOf d (21 + p / 24)).state = 2 && ((portOf d p).state = 1 || (portOf d p).state = 3)

/-- The SPEED of a port that trains at full or at half rate (R423, R447). -/
def portRate (half : Bool) : Nat := if half then 56 else 112

/-- PORT TRAIN COMPLETE: training or a retraining attempt ends; on success the port is UP at the rate it trained at and knows its far
end, and a third failure to retrain leaves it DOWN until reset (R421, R422, R447). No link trains in a hold (R396). -/
def execPortTrainComplete (port : Nat) (r : Trained) (farDev farPort : Nat) (s : State) : Out :=
  let x := portOf s.dev port
  if !training s.dev port || s.dev.sun.parked then .next s
  else if r.ok then
    .next (portsChanged { s with dev := portState s.dev port 2 fun x =>
      { x with tries := 0, farDev := farDev % 256, farPort := farPort % 128, rate := portRate r.half } })
  else if x.state = 1 then .next s
  else if x.tries < 2 then .next { s with dev := setPort s.dev port { x with tries := x.tries + 1 } }
  else .next { s with dev := portState s.dev port 0 fun x => { x with tries := 3 } }

end Sys2Proof.Machine
end

