-- ==== Sys2Proof/Machine/Matrix.lean ====
section
/-! DEFINITION. The matrix engine (R296 to R325): slots, the format queue, loop nests, tile commands with their
checksums and epilogue, faults, and the instructions of context 4. -/
namespace Sys2Proof.Machine
open Sys2Proof

/-! ### Partitions, slots and tiles -/

/-- Operand slots of a context's partition. -/
def slotCount (g : Nat) (c : Ctx) : Nat := partSize g c.metered 5 / 8192

/-- Accumulator tiles of a context's partition. -/
def tileCount (g : Nat) (c : Ctx) : Nat := partSize g c.metered 3 / 16384

/-- Change the matrix engine's state. -/
def mapMx (f : Matrix → Matrix) (c : Ctx) : Ctx := { c with mx := f c.mx }

/-! ### Format words (R296, R304) -/

/-- Whether a type code is one of the 16-bit types. -/
def is16 (t : Ty) : Bool := t = .f16 || t = .bf16

/-- Whether a type code is one of the FP8 types. -/
def is8f (t : Ty) : Bool := t = .e4m3 || t = .e5m2

/-- A format word's fields (Table 12.4). -/
structure Fmt where
  a : Ty
  b : Ty
  rev : Bool
  acc : Bool
  resc : Bool
  epi : Bool
  aswz : Nat
  bswz : Nat
  bk : Nat
  asc : Nat
  bsc : Nat
  rows : Nat
  deriving DecidableEq, Repr

/-- Split a format word. -/
def fmtOf (w : Nat) : Fmt where
  a := (Ty.ofCode (BitVec.ofNat 6 (bitsOf w 0 6))).getD .i8
  b := (Ty.ofCode (BitVec.ofNat 6 (bitsOf w 6 6))).getD .i8
  rev := bitOf w 12
  acc := bitOf w 13
  resc := bitOf w 14
  epi := bitOf w 15
  aswz := bitsOf w 16 3
  bswz := bitsOf w 19 3
  bk := if bitOf w 22 then 32 else 16
  asc := bitsOf w 24 7
  bsc := bitsOf w 32 7
  rows := bitsOf w 40 6 + 1

/-- Whether a word may stand in the format queue (R304, Table 12.1). -/
def fmtOk (w : Nat) : Bool :=
  let f := fmtOf w
  let known := (Ty.ofCode (BitVec.ofNat 6 (bitsOf w 0 6))).isSome && (Ty.ofCode (BitVec.ofNat 6 (bitsOf w 6 6))).isSome
  let p16 := is16 f.a && is16 f.b
  let pI := f.a = .i8 && f.b = .i8
  let pB := f.a = .b4 && f.b = .b4
  known && (p16 || (is8f f.a && is8f f.b) || pI || pB) && (!f.rev || p16) && (!pI || (!f.resc && !f.epi)) &&
    decide (f.aswz ≤ 5) && decide (f.bswz ≤ 5) && (pB || (!bitOf w 22 && f.asc = 0 && f.bsc = 0)) &&
    !bitOf w 23 && !bitOf w 31 && !bitOf w 39 && bitsOf w 46 18 = 0

/-- K_T (Table 12.1). -/
def kT (f : Fmt) : Nat := if is16 f.a then 64 else if f.a = .b4 then 256 else 128

/-- G_K (Table 12.1). -/
def gK (f : Fmt) : Nat := if is16 f.a then 16 else 32

/-! ### The format queue (R305) -/

/-- The queue position of the i-th oldest entry. -/
def fmtPos (m : Matrix) (i : Nat) : Nat := (m.fmtHead + i) % 16

/-- The copies in the queue, oldest first: one word each. -/
def fmtCopies (m : Matrix) : List Nat :=
  (List.range m.fmtN).flatMap fun i =>
    List.replicate (look 0 m.fmtC (fmtPos m i) % 8192) (look 0 m.fmtW (fmtPos m i)).toNat

/-- Copies reserved by issued operations. -/
def fmtReserved (m : Matrix) : Nat := (fmtCopies m).length - m.unres

/-- Push an entry. -/
def fmtPush (m : Matrix) (w : Word) (rep : Nat) : Matrix :=
  let p := fmtPos m m.fmtN
  { m with fmtW := store 0 m.fmtW p w, fmtC := store 0 m.fmtC p (rep + 8192), fmtN := m.fmtN + 1, unres := m.unres + rep }

/-- Take one copy from the oldest entry; the entry leaves with its last copy. -/
def fmtPop (m : Matrix) : Matrix :=
  if m.fmtN = 0 then m
  else
    let p := m.fmtHead
    let n := look 0 m.fmtC p % 8192
    if n ≤ 1 then
      { m with fmtC := store 0 m.fmtC p 0, fmtN := m.fmtN - 1, fmtHead := (p + 1) % 16 }
    else { m with fmtC := store 0 m.fmtC p (n - 1 + 8192) }

/-- Take n copies. -/
def fmtPops : Nat → Matrix → Matrix
  | 0, m => m
  | n + 1, m => fmtPops n (fmtPop m)

/-- The reserved copies of discarded operations are removed unused. -/
def fmtDrop (m : Matrix) : Matrix := fmtPops (fmtReserved m) m

/-! ### Nests (R310 to R312) -/

/-- Iterations of a nest entry. -/
def nestCnt (e : Word) : Nat := e.toNat % 4096 + 1

/-- Commands of a nest. -/
def nestSize (l : List Word) : Nat := (l.map nestCnt).foldl (· * ·) 1

/-- The index vector of command i, innermost first. -/
def nestIdx : List Word → Nat → List Nat
  | [], _ => []
  | e :: r, i => i % nestCnt e :: nestIdx r (i / nestCnt e)

/-- A strided sum over the levels, the stride at bits [lo+len-1 : lo]. -/
def nestSum (l : List Word) (idx : List Nat) (lo len : Nat) : Int :=
  (l.zip idx).foldl (fun s p => s + (p.2 : Int) * sxNat (bitsOf p.1.toNat lo len) len) 0

/-- One tile command: slots and tile exact, coordinates modulo 2^32. -/
structure Cmd where
  aslot : Int
  bslot : Int
  tile : Int
  mo : Nat
  no : Nat
  deriving DecidableEq, Repr

/-- Command i of an operation (R312). -/
def cmdOf (o : MatOp) (i : Nat) : Cmd :=
  let b := o.base.toNat
  let co := o.coord.toNat
  let idx := nestIdx o.nest i
  { aslot := (bitsOf b 0 7 : Nat) + nestSum o.nest idx 12 8
    bslot := (bitsOf b 7 7 : Nat) + nestSum o.nest idx 20 8
    tile := (bitsOf b 14 5 : Nat) + nestSum o.nest idx 28 6
    mo := (((bitsOf co 0 32 : Nat) + nestSum o.nest idx 34 14) % 2 ^ 32).toNat
    no := (((bitsOf co 32 32 : Nat) + nestSum o.nest idx 48 14) % 2 ^ 32).toNat }

/-- Commands of an operation. -/
def matSize (o : MatOp) : Nat := if o.kind = 0 then nestSize o.nest else 1

/-! ### A command's geometry and operands (R297) -/

/-- The A-side slots of a command. -/
def aSlots (g : Nat) (f : Fmt) (k : Cmd) : List Int :=
  (List.range (if f.rev then g else 1)).map fun j => k.aslot + (j : Nat)

/-- The weight slots of a command. -/
def bSlots (g : Nat) (k : Cmd) : List Int := (List.range g).map fun j => k.bslot + (j : Nat)

/-- The scale slots of a command: A side, weight side. -/
def scSlots (f : Fmt) : List Int × List Int :=
  if f.a = .b4 then ([((f.asc : Nat) : Int)], [((f.bsc : Nat) : Int)]) else ([], [])

/-- Output tiles of a command. -/
def outTiles (g : Nat) (f : Fmt) (t : Int) : List Int := (List.range (if f.rev then 1 else g)).map fun j => t + (j : Nat)

/-- The first slot check that fails (causes 2, 3, 4): cause and slot. -/
def slotCheck (g : Nat) (c : Ctx) (role stamp : Nat) : List Int → Option (Nat × Int)
  | [] => none
  | x :: r =>
    if x < 0 || decide (((slotCount g c : Nat) : Int) ≤ x) then some (2, x)
    else if look 0 c.mx.role x.toNat ≠ role then some (3, x)
    else if look 0 c.mx.stamp x.toNat ≠ stamp + 1 then some (4, x)
    else slotCheck g c role stamp r

/-- The tile check (cause 5): output tiles in the partition; residual tiles in it and apart from them. -/
def tileCheck (g : Nat) (c : Ctx) (outs res : List Int) : Option (Nat × Int) :=
  let bad := fun (x : Int) => x < 0 || decide (((tileCount g c : Nat) : Int) ≤ x)
  match outs.find? bad with
  | some x => some (5, x)
  | none => (res.find? fun x => bad x || outs.contains x).map fun x => (5, x)

/-- The odd part of a number and its power of two. -/
def oddPart : Nat → Nat → Int → Nat × Int
  | 0, m, e => (m, e)
  | n + 1, m, e => if m ≠ 0 && m % 2 = 0 then oddPart n (m / 2) (e + 1) else (m, e)

/-- e where LS / SCL is exactly 2^e (R308). -/
def scaleRatio (ls scl : Nat) : Option Int :=
  match fpVal .f32 ls, fpVal .f32 scl with
  | .fin n1 m1 e1, .fin n2 m2 e2 =>
    let a := oddPart 64 m1 e1
    let b := oddPart 64 m2 e2
    if m1 ≠ 0 && m2 ≠ 0 && n1 = n2 && a.1 = b.1 then some (a.2 - b.2) else none
  | _, _ => none

/-- The rescale a tile needs: none when it cannot be made (cause 6), else its exponent or nothing (R308). -/
def rescaleOf (c : Ctx) (f : Fmt) (o : MatOp) (tile : Nat) : Option (Option Int) :=
  let sb := (look 0 c.mx.side tile).toNat
  if !f.acc || !bitOf sb 16 || bitsOf sb 0 16 = o.lsgen.toNat % 65536 then some none
  else if !f.resc then none
  else (scaleRatio (o.lscale.toNat % 2 ^ 32) (bitsOf sb 32 32)).map some

/-- The local address of an offset of a slot under a stamp (R297). -/
def slotAddr (slot : Nat) (swz off : Nat) : Nat := (swAddr swz ((8192 * slot + off : Nat) : Int)).toNat

/-- The element of width w bits at index k of the 128-byte row `row` of a slot. -/
def slotElem (c : Ctx) (slot swz row k w : Nat) : Nat :=
  let off := 128 * row + k * w / 8
  let a := slotAddr slot swz off
  if w = 4 then bitsOf (readLe c.opm a 1) (4 * (k % 2)) 4 else readLe c.opm a (w / 8)

/-- The scale byte of block b of a row of a scale slot. -/
def scaleByte (c : Ctx) (slot swz row b : Nat) : Nat := readLe c.opm (slotAddr slot swz (16 * row + b)) 1

/-- The value of an operand element: a number, an integer as a number, or a 4-bit code with its scale. -/
def operand (c : Ctx) (t : Ty) (slot swz row k : Nat) (scSlot scSwz bk scRow : Nat) : FVal :=
  let x := slotElem c slot swz row k (tyBits t)
  match t with
  | .b4 => codeVal (scaleByte c scSlot scSwz scRow (k / bk)) x
  | .i8 => let v := sxNat x 8; .fin (decide (v < 0)) v.natAbs 0
  | _ => fpVal t x

/-- x(i, r): the A side of a command. -/
def aOf (c : Ctx) (f : Fmt) (k : Cmd) (i r : Nat) : FVal :=
  let s := k.aslot.toNat
  if f.rev then operand c f.a (s + r / 64) f.aswz i (r % 64) 0 0 16 0
  else operand c f.a s f.aswz i r f.asc f.aswz f.bk i

/-- y(r, j): the weight side of a command. -/
def bOf (c : Ctx) (f : Fmt) (k : Cmd) (r j : Nat) : FVal :=
  let s := k.bslot.toNat
  if f.rev then operand c f.b (s + r / 64) f.bswz (r % 64) j 0 0 16 0
  else operand c f.b (s + j / 64) f.bswz (j % 64) r f.bsc f.bswz f.bk j

/-- The reduction length. -/
def redLen (g : Nat) (f : Fmt) : Nat := if f.rev then 64 * g else kT f

/-- The output columns. -/
def outCols (g : Nat) (f : Fmt) : Nat := if f.rev then 64 else 64 * g

/-- The products of one group of an output element. -/
def groupProds (c : Ctx) (f : Fmt) (k : Cmd) (i j q : Nat) : List FVal :=
  (List.range (gK f)).map fun x => prodOf (aOf c f k i (q * gK f + x)) (bOf c f k (q * gK f + x) j)

/-- An exact sum of finite values in units of 2^-400. -/
def fixSum (l : List FVal) : Int :=
  l.foldl (fun s v => match v with
    | .fin n m e => let x : Int := ((m * 2 ^ (e + 400).toNat : Nat) : Int); if n then s - x else s + x
    | _ => s) 0

/-- The group sums of an output element: F32 patterns, or for I8 the exact sums modulo 2^32 (R94, R95). -/
def groupSums (g : Nat) (c : Ctx) (f : Fmt) (k : Cmd) (i j : Nat) : List Nat :=
  (List.range (redLen g f / gK f)).map fun q =>
    let ps := groupProds c f k i j q
    if f.a = .i8 then ((fixSum ps / (2 ^ 400 : Nat)) % (2 ^ 32 : Nat)).toNat else groupSum ps

/-- An accumulator after the group sums, and whether a non-finite value was produced (R95). -/
def accumulate (int : Bool) (acc : Nat) : List Nat → Nat × Bool
  | [] => (acc, false)
  | s :: r =>
    let a := if int then (acc + s) % 2 ^ 32 else (fpAdd .f32 .rne 0 false (fpVal .f32 acc) (fpVal .f32 s)).1
    let nf := !int && ((fpVal .f32 s).nonFinite || (fpVal .f32 a).nonFinite)
    let (x, b) := accumulate int a r
    (x, nf || b)

/-! ### Checksums (R315) -/

/-- One row or column: the difference and tolerance in units of 2^-400, or nothing when it is not checked. `prods` are
the products of the line, `deltas` its group sums, `xs` and `ys` the reduction's factors (the single side and the
summed side, already exact). -/
def lineCheck (int : Bool) (rel : Nat) (bad : Bool) (sSum e b : Int) : Option (Int × Int) :=
  if bad then none
  else
    let d := ((sSum - e).natAbs : Int)
    let tol : Int := if int then 0 else b / (2 ^ rel : Nat) + 2 ^ 274
    if int then (if d ≠ 0 then some (d, 0) else none)
    else if b < (d - 2 ^ 274) * (2 ^ rel : Nat) then some (d, tol) else none

/-- The exact value of a finite operand in units of 2^-200. -/
def fix200 (v : FVal) : Int :=
  match v with
  | .fin n m e => let x : Int := ((m * 2 ^ (e + 200).toNat : Nat) : Int); if n then -x else x
  | _ => 0

/-- Whether a pattern of a group sum is not finite. -/
def deltaBad (int : Bool) (x : Nat) : Bool := !int && (fpVal .f32 x).nonFinite

/-- A group sum in units of 2^-400: for I8 the exact sum is recomputed from the products. -/
def deltaFix (c : Ctx) (f : Fmt) (k : Cmd) (i j : Nat) (l : List Nat) : Int :=
  if f.a = .i8 then
    (List.range l.length).foldl (fun s q => s + fixSum (groupProds c f k i j q)) 0
  else fixSum (l.map (fpVal .f32))

/-- Whether an output element has a non-finite product or group sum. -/
def elemBad (g : Nat) (c : Ctx) (f : Fmt) (k : Cmd) (i j : Nat) : Bool :=
  (groupSums g c f k i j).any (deltaBad (f.a = .i8)) ||
    (List.range (redLen g f)).any fun r => (prodOf (aOf c f k i r) (bOf c f k r j)).nonFinite

/-- A line of the checks: rows `is` against columns `js`, one of them a single index. -/
def linesOf (g : Nat) (c : Ctx) (f : Fmt) (k : Cmd) (rel : Nat) (is js : List Nat) : Option (Int × Int) :=
  let int := f.a = .i8
  let bad := is.any fun i => js.any fun j => elemBad g c f k i j
  let s := is.foldl (fun s i => js.foldl (fun s j => s + deltaFix c f k i j (groupSums g c f k i j)) s) 0
  let rs := List.range (redLen g f)
  let sumA := fun (r : Nat) (h : Int → Int) => is.foldl (fun s i => s + h (fix200 (aOf c f k i r))) 0
  let sumB := fun (r : Nat) (h : Int → Int) => js.foldl (fun s j => s + h (fix200 (bOf c f k r j))) 0
  let abs' := fun (x : Int) => ((x.natAbs : Nat) : Int)
  let e := rs.foldl (fun s r => s + sumA r id * sumB r id) 0
  let b := rs.foldl (fun s r => s + sumA r abs' * sumB r abs') 0
  lineCheck int rel bad s e b

/-- The last mismatch of a command: axis, index, difference and tolerance, rows before columns. -/
def lastMismatch (g : Nat) (c : Ctx) (f : Fmt) (k : Cmd) (rel : Nat) : Option (Nat × Nat × Int × Int) :=
  let is := List.range f.rows
  let js := List.range (outCols g f)
  let rows := is.filterMap fun i => (linesOf g c f k rel [i] js).map fun p => (0, i, p)
  let cols := js.filterMap fun j => (linesOf g c f k rel is [j]).map fun p => (1, j, p)
  (rows ++ cols).getLast?

/-- An exact non-negative value in units of 2^-400 as F32, rounded up. -/
def fixRu (x : Int) : Nat := (rndFp .f32 .ru 0 false false x.natAbs (-400) false).1

/-- CKST after a mismatch (Table 12.11). -/
def ckstFail (m : Matrix) (tile : Nat) (x : Nat × Nat × Int × Int) : Matrix :=
  let w := m.ckst0.toNat
  let n := min (w % 2 ^ 32 + 1) (2 ^ 32 - 1)
  { m with
    ckst0 := BitVec.ofNat 64 (n + tile * 2 ^ 32 + x.2.1 * 2 ^ 37 + x.1 * 2 ^ 45 + bitsOf w 62 1 * 2 ^ 62)
    ckst1 := BitVec.ofNat 64 (fixRu x.2.2.1 + fixRu x.2.2.2 * 2 ^ 32) }

/-! ### Performing a command (R307, R308, R314) -/

/-- The address of an accumulator element. -/
def accAddr (tile m c : Nat) : Nat := 16384 * tile + 256 * m + 4 * c

/-- Read an accumulator element. -/
def accElem (c : Ctx) (tile m n : Nat) : Nat := readLe c.acc (accAddr tile m n) 4

/-- The words a command reads that hold a double-bit error (cause 1). -/
def cmdBad (g : Nat) (c : Ctx) (f : Fmt) (k : Cmd) (outs res : List Int) (resc : List (Option Int)) : Bool :=
  let rowAddrs := fun (swz : Nat) (slots : List Int) (rows : Nat) =>
    slots.flatMap fun x => (List.range (4 * rows)).map fun i => slotAddr x.toNat swz (32 * i)
  let opBad := fun (as : List Nat) => as.any fun a => (rangeBad c.errOpm a 32).isSome
  let scAddrs := fun (swz : Nat) (slots : List Int) (rows : Nat) =>
    slots.flatMap fun x => (List.range rows).map fun i => slotAddr x.toNat swz (16 * i)
  let scBad := fun (as : List Nat) => as.any fun a => (rangeBad c.errOpm a (kT f / f.bk)).isSome
  let tiles := fun (ts : List (Int × Nat)) => ts.any fun p => (rangeBad c.errAcc (accAddr p.1.toNat 0 0) (256 * p.2)).isSome
  opBad (rowAddrs f.aswz (aSlots g f k) f.rows) || opBad (rowAddrs f.bswz (bSlots g k) 64) ||
    scBad (scAddrs f.aswz (scSlots f).1 f.rows) || scBad (scAddrs f.bswz (scSlots f).2 (outCols g f)) ||
    (f.acc && tiles ((outs.zip resc).map fun p => (p.1, if p.2.isSome then 64 else f.rows))) ||
    tiles (res.map fun t => (t, f.rows))

/-- Dropout and residual of the epilogue for one element (R314). -/
def epilogue (c : Ctx) (o : MatOp) (k : Cmd) (m n : Nat) (x : Nat) : Nat :=
  let w := o.epicfg.toNat
  let v := if bitOf w 0 then
      (fpAdd .f32 .rne 0 false (fpVal .f32 x) (fpVal .f32 (accElem c (bitsOf w 1 5 + n / 64) m (n % 64)))).1 else x
  if bitOf w 6 then
    let ctr := (k.mo + m) % 2 ^ 32 * 2 ^ 32 + (k.no + n) % 2 ^ 32
    if cbg64 ctr o.epikey.toNat / 2 ^ 48 < bitsOf w 8 16 then
      (fpMul .f32 .rne 0 false (fpVal .f32 v) (fpVal .f32 (bitsOf w 32 32))).1
    else 0
  else v

/-- One output element: its value, whether it is written, and whether a non-finite value was produced. -/
def cmdElem (g : Nat) (c : Ctx) (f : Fmt) (o : MatOp) (k : Cmd) (resc : Option Int) (tile m n : Nat) :
    Nat × Bool × Bool :=
  let old := accElem c tile m (n % 64)
  let old := match resc with
    | some e => (fpScale .f32 .rne 0 false (fpVal .f32 old) e).1
    | none => old
  if f.rows ≤ m then ((if f.acc then old else 0), !f.acc || resc.isSome, false)
  else
    let (v, nf) := accumulate (f.a = .i8) (if f.acc then old else 0) (groupSums g c f k m n)
    ((if f.epi then epilogue c o k m n v else v), true, nf)

/-- What a command does: it fails with a cause and a slot, or writes; then whether its checksum mismatched. -/
inductive CmdRes
  | fail (cause slot : Nat)
  | ok (c : Ctx) (mismatch : Bool)

/-- A number as 32 bits. -/
def lo32 (x : Int) : Nat := (x % (2 ^ 32 : Nat)).toNat

/-- The residual tiles of a command. -/
def resTiles (g : Nat) (o : MatOp) (f : Fmt) : List Int :=
  if f.epi && bitOf o.epicfg.toNat 0 then outTiles g f ((bitsOf o.epicfg.toNat 1 5 : Nat) : Int) else []

/-- The rescaling of each output tile; none where it cannot be made (R308). -/
def rescales (g : Nat) (c : Ctx) (o : MatOp) (f : Fmt) (k : Cmd) : List (Option (Option Int)) :=
  (outTiles g f k.tile).map fun t => rescaleOf c f o t.toNat

/-- The first check of a command that fails: cause and slot (R307, R308, R322). -/
def cmdCheck (g : Nat) (c : Ctx) (o : MatOp) (w : Nat) (k : Cmd) : Option (Nat × Nat) :=
  let f := fmtOf w
  let outs := outTiles g f k.tile
  let res := resTiles g o f
  let slots := (slotCheck g c 1 f.aswz (aSlots g f k)).orElse fun _ =>
    (slotCheck g c 2 f.bswz (bSlots g k)).orElse fun _ =>
      (slotCheck g c 1 f.aswz (scSlots f).1).orElse fun _ => slotCheck g c 2 f.bswz (scSlots f).2
  match slots with
  | some (cause, x) => some (cause, lo32 x)
  | none =>
    match tileCheck g c outs res with
    | some (cause, x) => some (cause, lo32 x)
    | none =>
      let rescs := rescales g c o f k
      match (outs.zip rescs).find? fun p => p.2.isNone with
      | some (t, _) => some (6, lo32 t)
      | none => if cmdBad g c f k outs res (rescs.map fun r => r.getD none) then some (1, 0) else none

/-- The group additions of an element (R95). -/
def groupCount (g : Nat) (f : Fmt) : Nat := redLen g f / gK f

/-- Bytes of granules laid over a memory. -/
def overlay (m : Memory) (l : Sparse (BitVec 256)) : Memory :=
  l.foldl (fun m p => setBytes m (32 * p.1) (toBytes 32 p.2.toNat)) m

/-- A context as the command in progress sees it: operand granules as it read them, output granules as they were before it. -/
def cmdView (c : Ctx) : Ctx :=
  { c with opm := overlay c.opm c.mx.opRead, acc := overlay c.acc (c.mx.outPart.map fun p => (p.1, p.2.2)) }

/-- Whether stage `q` of a granule in row `row` of an output tile is its final value (R235). -/
def finalStage (g : Nat) (f : Fmt) (row q : Nat) : Bool :=
  decide (f.rows ≤ row) || decide (groupCount g f < q) || (!f.epi && q = groupCount g f)

/-- Whether a part of the command at hand has given an output granule its final value: nothing more is written there (R229). -/
def granuleFinal (g : Nat) (f : Fmt) (m : Matrix) (x : Nat) : Bool :=
  m.outPart.any fun y => y.1 = x && finalStage g f (x % 512 / 8) (y.2.1 - 1)

/-- Perform a tile command that passes its checks, or what is left of it (R307). -/
def doCmd (g : Nat) (c0 : Ctx) (o : MatOp) (w : Nat) (k : Cmd) : Ctx × Bool :=
  let c := cmdView c0
  let f := fmtOf w
  let outs := outTiles g f k.tile
  let rs := (rescales g c o f k).map fun r => r.getD none
  let els := (List.range 64).flatMap fun m => (List.range (outCols g f)).map fun n =>
    let tile := (outs.getD (n / 64) 0).toNat
    (accAddr tile m (n % 64), cmdElem g c f o k (rs.getD (n / 64) none) tile m n)
  let bs := (els.filter fun p => p.2.2.1 && !granuleFinal g f c.mx (p.1 / 32)).flatMap fun p => wbytes p.1 (toBytes 4 p.2.1)
  let nf := els.any fun p => p.2.2.2
  let mis := if bitOf o.cktol.toNat 8 then lastMismatch g c f k (o.cktol.toNat % 64) else none
  let m := if nf then { c.mx with ckst0 := c.mx.ckst0 ||| BitVec.ofNat 64 (2 ^ 62) } else c.mx
  let m := match mis with
    | some x => ckstFail m k.tile.toNat x
    | none => m
  let sb := o.lsgen.toNat % 65536 + 2 ^ 16 + b2n mis.isSome * 2 ^ 17 + o.lscale.toNat % 2 ^ 32 * 2 ^ 32
  let m := { m with side := outs.foldl (fun t (x : Int) => store 0 t x.toNat (BitVec.ofNat 64 sb)) m.side }
  ({ writeMem c0 3 bs with mx := { m with opRead := [], outPart := [] } }, mis.isSome)

/-! ### A command in parts (R235, R320) -/

/-- Whether a part of the command at hand has been performed. -/
def cmdBegun (m : Matrix) : Bool := !m.opRead.isEmpty || !m.outPart.isEmpty

/-- Perform the tile command at hand to its end: its checks, unless a part of it has been performed, then its results. -/
def runCmd (g : Nat) (c : Ctx) (o : MatOp) (w : Nat) (k : Cmd) : CmdRes :=
  match (if cmdBegun c.mx then none else cmdCheck g c o w k) with
  | some (cause, slot) => .fail cause slot
  | none =>
    let (c', mis) := doCmd g c o w k
    .ok c' mis

/-- An element of an output granule after `q` group additions; with `q` 0, its rescaled value. -/
def elemPart (g : Nat) (c : Ctx) (f : Fmt) (k : Cmd) (resc : Option Int) (tile m n q : Nat) : Nat :=
  let old := accElem c tile m (n % 64)
  let old := match resc with
    | some e => (fpScale .f32 .rne 0 false (fpVal .f32 old) e).1
    | none => old
  (accumulate (f.a = .i8) (if f.acc then old else 0) ((groupSums g c f k m n).take q)).1

/-- An element of an output granule at a stage of its command: `q` group additions made, or, past them all and in the rows beyond
MROWS, its final value, where the command writes one (R235, R308, R314, R320). -/
def elemStage (g : Nat) (c : Ctx) (f : Fmt) (o : MatOp) (k : Cmd) (resc : Option Int) (tile m n q : Nat) : Nat :=
  if m < f.rows && decide (q ≤ groupCount g f) then elemPart g c f k resc tile m n q
  else
    let r := cmdElem g c f o k resc tile m n
    if r.2.1 then r.1 else accElem c tile m (n % 64)

/-- Perform a part of the command at hand: an operand granule is read once; an output granule the command writes takes the value of a
later stage, and nothing more after its final one. Stage 0 shows a tile rescaled, and is there only where the command rescales it. -/
def doPart (g : Nat) (c : Ctx) (o : MatOp) (w : Nat) (k : Cmd) (p : TilePart) : Ctx :=
  let m := c.mx
  match p with
  | .operand x =>
    if m.opRead.any (fun y => y.1 = x) || decide (partSize g c.metered 5 ≤ 32 * x) then c
    else { c with mx := { m with opRead := ins m.opRead x (BitVec.ofNat 256 (readLe c.opm (32 * x) 32)) } }
  | .output x q =>
    let f := fmtOf w
    let v := cmdView c
    let row := x % 512 / 8
    match (outTiles g f k.tile).findIdx? fun t => t.toNat = x / 512 with
    | none => c
    | some j =>
      let was := (m.outPart.find? fun y => y.1 = x).map (·.2)
      let resc := ((rescales g v o f k).getD j none).getD none
      let none' := f.acc && resc.isNone && decide (f.rows ≤ row)
      if (q = 0 && (!f.acc || resc.isNone)) || none' || granuleFinal g f m x || decide (q < (was.map (·.1)).getD 0) then c
      else
        let els := (List.range 8).map fun e => elemStage g v f o k resc (x / 512) row (64 * j + x % 8 * 8 + e) q
        let old := (was.map (·.2)).getD (BitVec.ofNat 256 (readLe c.acc (32 * x) 32))
        let c := writeMem c 3 (wbytes (32 * x) (els.flatMap (toBytes 4)))
        { c with mx := { m with outPart := ins m.outPart x (q + 1, old) } }

/-! ### Engine events (R319, R322) -/

/-- The fault record of the matrix engine (Table 12.12). -/
def setMatRec (t : TlCtx) (cause batch : Nat) (idx : List Nat) (slot : Nat) (pc : BitVec 18) : TlCtx :=
  let iv := ((idx.take 5).zip (List.range 5)).foldl (fun s p => s + p.1 * 2 ^ (12 * p.2)) 0
  { t with
    rec0 := BitVec.ofNat 64 (cause + 2 ^ 31 + batch % 2 ^ 32 * 2 ^ 32)
    rec1 := BitVec.ofNat 64 iv
    rec2 := BitVec.ofNat 64 (idx.getD 5 0 + slot % 2 ^ 32 * 2 ^ 32)
    rec3 := pc.setWidth 64 }

/-- The matrix operation a context comes to perform next. -/
def matHead (c : Ctx) : Option (Op × MatOp) :=
  match c.t4.ops with
  | [] => none
  | op :: _ => match op.what with
    | .mat o => some (op, o)
    | _ => none

/-- The next command of an operation. -/
def progNext : Prog → Nat
  | .running i _ => i
  | .held i _ => i
  | _ => 0

/-- A matrix batch fails: the later operations are discarded with their reserved copies (R322). -/
def failMat (c : Ctx) (op : Op) (o : MatOp) (cause slot : Nat) : Ctx :=
  let idx := nestIdx o.nest (progNext op.prog)
  let t := setMatRec (tlFail 4 c.t4 (batchNo c.t4 op) op.serial 0) cause op.batch idx slot op.pc
  mapMx fmtDrop (setTl c 4 t)

/-- The active words of a nest at its next command (Table 12.13). -/
def showNest (o : MatOp) (i : Nat) (m : Matrix) : Matrix :=
  if o.kind ≠ 0 then m
  else
    let idx := nestIdx o.nest i
    let iv := ((idx.take 5).zip (List.range 5)).foldl (fun s p => s + p.1 * 2 ^ (12 * p.2)) 0
    { m with actBase := o.base, actCoord := o.coord
             actNest := (o.nest.zip (List.range 6)).foldl (fun t p => store 0 t p.2 p.1) []
             actIdx := BitVec.ofNat 64 iv, actI5 := BitVec.ofNat 64 (idx.getD 5 0) }

/-- The tile command at hand of an operation is performed to its end (R307, R312, R315). -/
def finishCmd (s : State) (cr : CRef) (g : Nat) (c : Ctx) (op : Op) (o : MatOp) : State :=
  let i := progNext op.prog
  let w := (look 0 c.mx.fmtW c.mx.fmtHead).toNat
  match runCmd g c o w (cmdOf o i) with
  | .fail cause slot => putCtx s cr (failMat (mapMx (showNest o i) c) { op with prog := .running i i } o cause slot)
  | .ok c' mis =>
    let c' := mapMx (fun m => showNest o (i + 1) (fmtPop m)) c'
    let s := if mis then { s with dev := detect s.dev c.run cr.sk c.coreId c.cls 0x43 } else s
    if mis && bitOf o.cktol.toNat 9 then putCtx s cr (failMat c' { op with prog := .running i i } o 7 0)
    else if i + 1 < matSize o then putCtx s cr (setTl c' 4 (opSet c'.t4 { op with prog := .running (i + 1) (i + 1) }))
    else putCtx s cr (setTl c' 4 (opDone c'.t4 op.serial))

/-- Zero tiles and their sidebands, but for the granules that parts of the operation have zeroed. -/
def zeroTiles (c : Ctx) (first cnt : Nat) : Ctx :=
  let lo := 16384 * first
  let n := 16384 * cnt
  let past := c.mx.outPart.map fun p => (p.1, BitVec.ofNat 256 (readLe c.acc (32 * p.1) 32))
  { c with
    acc := overlay (zeroRange c.acc lo n) past
    errAcc := c.errAcc.filterMap fun p =>
      if 8 * p.1 < lo || decide (lo + n ≤ 8 * p.1) || (past.any fun y => y.1 = p.1 / 4) then some p
      else (wordAfter p.2 true).map fun x => (p.1, x)
    mx := { c.mx with outPart := [], side := c.mx.side.filter fun p => decide (p.1 < first) || decide (first + cnt ≤ p.1) } }

/-- One granule of the tiles that an MZERO zeroes takes its zeros, once (R229, R235). -/
def zeroPart (c : Ctx) (x : Nat) : Ctx :=
  if c.mx.outPart.any fun y => y.1 = x then c
  else mapMx (fun m => { m with outPart := ins m.outPart x (1, 0) }) (writeMem c 3 (wbytes (32 * x) (List.replicate 32 0)))

/-- MZERO is performed to its end (R318). -/
def finishZero (s : State) (cr : CRef) (c : Ctx) (op : Op) (o : MatOp) : State :=
  putCtx s cr (setTl (zeroTiles c o.first o.cnt) 4 (opDone c.t4 op.serial))

/-- The engine completes the command, or the MZERO, it is performing (R323, R324). -/
def endCmd (s : State) (cr : CRef) : State :=
  match runningCtx s cr with
  | none => s
  | some (k, c) =>
    match matHead c with
    | some (op, o) =>
      if !cmdBegun c.mx then s
      else if o.kind = 2 then finishZero s cr c op o
      else finishCmd s cr k.gang c op o
    | none => s

/-- A launch that is stopped or cancelled: each of its matrix engines completes the command it is performing and starts no other; the
lowest incomplete batch fails with cause 9 (R323). -/
def stopMatrix (s : State) (cr : CRef) : State :=
  let s := endCmd s cr
  match runningCtx s cr with
  | none => s
  | some (_, c) =>
    match matHead c with
    | some (op, o) => putCtx s cr (failMat c op o 9 0)
    | none => s

/-- TILE COMMAND: the next tile command of the context's first operation is performed, or a part of it, so that other agents may
see operand and output granules between its steps (R235, R307, R320). -/
def execTileCommand (t : TileStep) (s : State) : Out :=
  match runningCtx s t.cr with
  | none => .next s
  | some (kc, c) =>
    match matHead c with
    | none => .next s
    | some (op, o) =>
      if o.kind = 2 || !stackGoes s.dev t.cr.sk then .next s
      else
        match t.part with
        | none => .next (finishCmd s t.cr kc.gang c op o)
        | some p =>
          let i := progNext op.prog
          let w := (look 0 c.mx.fmtW c.mx.fmtHead).toNat
          if !cmdBegun c.mx && (cmdCheck kc.gang c o w (cmdOf o i)).isSome then .next s
          else .next (putCtx s t.cr (setTl (doPart kc.gang c o w (cmdOf o i) p) 4 (opSet c.t4 { op with prog := .running i i })))

/-- MZERO PERFORM: the tiles and their sidebands are zeroed, or one granule of them alone, so that other agents may see each granule
change by itself (R235, R318). -/
def execMzeroPerform (t : TileStep) (s : State) : Out :=
  let cr := t.cr
  match runningCtx s cr with
  | none => .next s
  | some (_, c) =>
    match matHead c with
    | none => .next s
    | some (op, o) =>
      if o.kind ≠ 2 || !stackGoes s.dev cr.sk then .next s
      else
        match t.part with
        | some (.output x _) =>
          if o.first ≤ x / 512 && decide (x / 512 < o.first + o.cnt) then
            .next (putCtx s cr (zeroPart c x))
          else .next s
        | some (.operand _) => .next s
        | none => .next (finishZero s cr c op o)

/-! ### Instructions (R298 to R306, R309 to R313, R317, R318, R325) -/

/-- The matrix-operand trap (Table 12.3). -/
def matTrap (s : State) (reason pos : Nat) : Out :=
  .next (trapIssue s 0x0A (BitVec.ofNat 64 (reason + pos % 2 ^ 56 * 256)))

/-- The first number of a range at or beyond a limit. -/
def beyond (first cnt lim : Nat) : Option Nat := if first + cnt ≤ lim then none else some (max first lim)

/-- MCLAIM (R301). -/
def execMclaim (bSlot : Bool) (sa : BitVec 6) (cnt : BitVec 8) (s : State) : Out :=
  gateComp s fun s =>
    let c := s.core.ctx
    let a := (sreg c sa).toNat
    let slots := (List.range cnt.toNat).map (a + ·)
    match beyond a cnt.toNat (slotCount s.core.gang c) with
    | some p => matTrap s 2 p
    | none =>
      match slots.find? fun x => look 0 c.mx.role x ≠ 0 with
      | some p => matTrap s 3 p
      | none =>
        .next (issuePlain s [.s sa] (mapMx fun m => slots.foldl (fun m x =>
          { m with role := store 0 m.role x (if bSlot then 2 else 1), stamp := store 0 m.stamp x 0 }) m))

/-- The slots that commands still to be performed can read (R302). -/
def slotsToRead (g : Nat) (c : Ctx) : List Int :=
  let cmds := c.t4.ops.flatMap fun op => match op.what with
    | .mat o => if o.kind = 2 then [] else
        ((List.range (matSize o)).drop (progNext op.prog)).map fun i => cmdOf o i
    | _ => []
  (cmds.zip (fmtCopies c.mx)).flatMap fun p =>
    let f := fmtOf p.2
    aSlots g f p.1 ++ bSlots g p.1 ++ (scSlots f).1 ++ (scSlots f).2

/-- MREL (R302): it waits while an incomplete operation can still read one of the slots. -/
def execMrel (sa : BitVec 6) (cnt : BitVec 8) (s : State) : Out :=
  gateComp s fun s =>
    let c := s.core.ctx
    let a := (sreg c sa).toNat
    match beyond a cnt.toNat (slotCount s.core.gang c) with
    | some p => matTrap s 2 p
    | none =>
      if (slotsToRead s.core.gang c).any fun x => decide ((a : Int) ≤ x) && decide (x < ((a + cnt.toNat : Nat) : Int)) then
        .next s
      else
        .next (issuePlain s [.s sa] (mapMx fun m =>
          ((List.range cnt.toNat).map (a + ·)).foldl (fun m x => { m with role := store 0 m.role x 0 }) m))

/-- MFMT (R304, R305). -/
def execMfmt (sa : BitVec 6) (rep : BitVec 12) (s : State) : Out :=
  gateComp s fun s =>
    let c := s.core.ctx
    let w := sreg c sa
    if !fmtOk w.toNat then matTrap s 1 0
    else if 16 ≤ c.mx.fmtN then (if fmtReserved c.mx = 0 then matTrap s 5 0 else .next s)
    else .next (issuePlain s [.s sa] (mapMx fun m => fmtPush m w (rep.toNat + 1)))

/-- MNEST (R311). -/
def execMnest (lvl : BitVec 3) (sa : BitVec 6) (s : State) : Out :=
  gateComp s fun s =>
    let w := sreg s.core.ctx sa
    if bitsOf w.toNat 62 2 ≠ 0 then matTrap s 1 lvl.toNat
    else .next (issuePlain s [.s sa] (mapMx fun m => { m with shadow := store 0 m.shadow lvl.toNat w }))

/-- Reserve n copies at issue; a failed context discards the operation and its copies at once (R257, R305). -/
def reserveFmt (n : Nat) (c : Ctx) : Ctx :=
  let m := { c.mx with unres := c.mx.unres - n }
  { c with mx := if c.t4.failed.isSome then fmtPops n m else m }

/-- MGO and MTILE: word check, underflow, the wait for a free place among 8, reservation, capture (R319, R321). -/
def startMat (s : State) (kind : Nat) (sa sb : BitVec 6) : Out :=
  gateComp s fun s =>
    let c := s.core.ctx
    let nest := if kind = 0 then (List.range 6).map (look 0 c.mx.shadow) else []
    let o : MatOp := { kind := kind, base := sreg c sa, coord := sreg c sb, nest := nest, lsgen := c.lsgen
                       lscale := c.lscale, epicfg := c.mx.epicfg, epikey := c.mx.epikey, cktol := c.cktol, first := 0, cnt := 0 }
    if bitsOf (sreg c sa).toNat 19 45 ≠ 0 then matTrap s 1 0
    else if c.mx.unres < matSize o then matTrap s 4 0
    else if 8 ≤ c.t4.ops.length then .next s
    else
      let ser := c.serial
      let pc := c.pc
      .next (issuePlain s [.s sa, .s sb] fun c => joinOp 4 (.mat o) ser pc (reserveFmt (matSize o) c))

/-- MGO (R312). -/
def execMgo (sa sb : BitVec 6) (s : State) : Out := startMat s 0 sa sb
/-- MTILE (R306). -/
def execMtile (sa sb : BitVec 6) (s : State) : Out := startMat s 1 sa sb

/-- MZERO (R318). -/
def execMzero (sa : BitVec 6) (cnt : BitVec 6) (s : State) : Out :=
  gateComp s fun s =>
    let c := s.core.ctx
    let a := (sreg c sa).toNat
    match beyond a cnt.toNat (tileCount s.core.gang c) with
    | some p => matTrap s 2 p
    | none =>
      if 8 ≤ c.t4.ops.length then .next s
      else
        let ser := c.serial
        let pc := c.pc
        let o : MatOp := { kind := 2, base := 0, coord := 0, nest := [], lsgen := 0, lscale := 0, epicfg := 0, epikey := 0
                           cktol := 0, first := a, cnt := cnt.toNat }
        .next (issuePlain s [.s sa] fun c => joinOp 4 (.mat o) ser pc c)

/-- MEPI (R313). -/
def execMepi (sa sb : BitVec 6) (s : State) : Out :=
  gateComp s fun s =>
    let w := sreg s.core.ctx sa
    let k := sreg s.core.ctx sb
    let n := w.toNat
    if bitOf n 7 || bitsOf n 24 8 ≠ 0 || (bitOf n 6 && bitsOf n 8 16 = 0) then matTrap s 1 0
    else .next (issuePlain s [.s sa, .s sb] (mapMx fun m => { m with epicfg := w, epikey := k }))

/-- MCKRD (R317). -/
def execMckrd (sd : BitVec 6) (w clr : Bool) (s : State) : Out :=
  gateComp s fun s =>
    let m := s.core.ctx.mx
    let s' := issueScalar s [] sd 1 (if w then m.ckst1 else m.ckst0) 0
    .next (if clr then s'.mapCtx (mapMx fun m => { m with ckst0 := 0, ckst1 := 0 }) else s')

/-- MLSGEN (R309). -/
def execMlsgen (sd sa : BitVec 6) (s : State) : Out :=
  gateComp s fun s =>
    let c := s.core.ctx
    let x := (sreg c sa).toNat % 2 ^ 32
    let ok := match fpVal .f32 x with
      | .fin neg m _ => !neg && m ≠ 0 && !fpSubnormal .f32 x
      | _ => false
    if !ok then matTrap s 6 0
    else
      let gen : Word := BitVec.ofNat 64 ((c.lsgen.toNat + 1) % 2 ^ 16)
      .next ((issueScalar s [.s sa] sd 1 gen 0).mapCtx fun c =>
        { c with lscale := BitVec.ofNat 64 x, lsgen := gen, lsgrow := 0 })

/-- A word of Table 12.13. -/
def mstatWord (g : Nat) (c : Ctx) (w : Nat) : Word :=
  let m := c.mx
  if w < 4 then recWord c.t4 w
  else if w = 4 then BitVec.ofNat 64 (m.fmtN % 32 + m.fmtHead % 16 * 32 + m.unres % 2 ^ 32 * 2 ^ 9)
  else if w = 5 then m.epicfg
  else if w = 6 then m.epikey
  else if w = 7 then m.actBase
  else if w = 8 then m.actCoord
  else if w ≤ 14 then look 0 m.actNest (w - 9)
  else if w = 15 then m.actIdx
  else if w = 16 then m.actI5
  else if w ≤ 22 then look 0 m.shadow (w - 17)
  else if w ≤ 38 then look 0 m.fmtW (w - 23)
  else if w ≤ 54 then BitVec.ofNat 64 (look 0 m.fmtC (w - 39))
  else if w - 64 < tileCount g c then look 0 m.side (w - 64) else 0

/-- MSTAT (R325). -/
def execMstat (sd : BitVec 6) (w : BitVec 7) (s : State) : Out :=
  gateComp s fun s => .next (issueScalar s [] sd 1 (mstatWord s.core.gang s.core.ctx w.toNat) 0)

/-- The bits of a word that Table 12.8 gives a nest entry and Table 12.9 EPICFG: the reserved ones stay 0 (R6). -/
def nestMask : Word := 0x3FFFFFFFFFFFFFFF
/-- The bits of EPICFG. -/
def epiMask : Word := 0xFFFFFFFF00FFFF7F

/-- A word of Table 12.13 written, within its fields. -/
def mwldWord (w : Nat) (v : Word) (m : Matrix) : Matrix :=
  if w = 4 then { m with fmtN := v.toNat % 32, fmtHead := bitsOf v.toNat 5 4, unres := bitsOf v.toNat 9 32 }
  else if w = 5 then { m with epicfg := v &&& epiMask }
  else if w = 6 then { m with epikey := v }
  else if w = 7 then { m with actBase := v }
  else if w = 8 then { m with actCoord := v }
  else if w ≤ 14 then { m with actNest := store 0 m.actNest (w - 9) (v &&& nestMask) }
  else if w = 15 then { m with actIdx := v }
  else if w = 16 then { m with actI5 := v &&& 0x1FFF }
  else if w ≤ 22 then { m with shadow := store 0 m.shadow (w - 17) (v &&& nestMask) }
  else if w ≤ 38 then { m with fmtW := store 0 m.fmtW (w - 23) v }
  else if w ≤ 54 then { m with fmtC := store 0 m.fmtC (w - 39) (v.toNat % 2 ^ 14) }
  else m

/-- MWLD (R299, R325): legal only at S; it waits until the engine performs no operation. -/
def execMwld (w : BitVec 7) (sa : BitVec 6) (s : State) : Out :=
  gateS s fun s =>
    let v := sreg s.core.ctx sa
    if s.core.ctx.t4.ops.isEmpty then .next (issuePlain s [.s sa] (mapMx (mwldWord w.toNat v)))
    else .next s

end Sys2Proof.Machine
end

