-- ==== Sys2Proof/Machine/Lasting.lean ====
section
/-! DEFINITION. Lasting (R160 to R164, R184): the default lasting of a stack, its last map, gangs, and the lastings the
distributor starts. -/
namespace Sys2Proof.Machine
open Sys2Proof

/-! ### The default lasting (R161, R162) -/

/-- A binding of the greedy rule: front end, A-half, B-half. -/
structure Bind where
  fe : Nat
  a : Nat
  b : Nat
  deriving DecidableEq, Repr

/-- The lowest position in k to k + 4 that is good and unbound. -/
def freeHalf (bad : Nat) (used : List Nat) (k : Nat) : Option Nat :=
  (List.range 5).map (k + ·) |>.find? fun p => decide (p < 56) && !bad.testBit p && !used.contains p

/-- One front end of the greedy rule. -/
def bindFe (df : Defects) (l : List Bind) (k : Nat) : List Bind :=
  if 48 ≤ l.length || df.fe.toNat.testBit k then l
  else
    match freeHalf df.ah.toNat (l.map (·.a)) k, freeHalf df.bh.toNat (l.map (·.b)) k with
    | some a, some b => l ++ [⟨k, a, b⟩]
    | _, _ => l

/-- The default lasting of a stack. -/
def defaultBinds (df : Defects) : List Bind := (List.range 52).foldl (bindFe df) []

/-- Whether the aligned group of width `g` that holds core e may gang (R162). -/
def groupOk (l : List Bind) (g e : Nat) : Bool :=
  let base := e / g * g
  let grp := (l.drop base).take g
  match grp with
  | [] => false
  | lead :: _ =>
    grp.length = g && grp.all fun x =>
      decide (lead.fe ≤ x.a) && decide (x.a ≤ lead.fe + 4) && decide (lead.fe ≤ x.b) && decide (x.b ≤ lead.fe + 4)

/-- The last map of a default lasting (R164). -/
def mapOfBinds (df : Defects) (l : List Bind) : LastMap :=
  { deffe := BitVec.ofNat 64 (df.fe.toNat % 2 ^ 52), defa := BitVec.ofNat 64 (df.ah.toNat % 2 ^ 56)
    defb := BitVec.ofNat 64 (df.bh.toNat % 2 ^ 56), ncores := l.length
    ents := (l.zip (List.range l.length)).map fun p =>
      ⟨p.1.fe, p.1.a, p.1.b, true, 0, groupOk l 2 p.2, groupOk l 4 p.2⟩ }

/-- The last map of a stack. -/
def lastMap (d : Device) (sk : Nat) : LastMap := look LastMap.zero d.maps sk

/-- Bit RETIRED of a stack becomes 1 with no cores left (R392, R393). -/
def retireEmpty (d : Device) (sk : Nat) : Device :=
  if (lastMap d sk).ncores = 0 then
    { d with mgmt := { d.mgmt with retired := store false d.mgmt.retired sk true } }
  else d

/-- A stack receives its default lasting: every core of it is reset and bound singly (R161, R163). -/
def defaultLasting (s : State) (sk : Nat) (df : Defects) : State :=
  let l := defaultBinds df
  let d := { s.dev with
    maps := store LastMap.zero s.dev.maps sk (mapOfBinds df l)
    lastings := s.dev.lastings.filter fun x => x.sk ≠ sk }
  { (s.mapCores fun k => if k.sk = sk then { Core.wiped k with bound := decide (k.ix < l.length) } else k) with
    dev := retireEmpty d sk }

/-! ### Lastings (R163, R184) -/

/-- Whether a run holds a core: placed and not suspended, or finished with its cores not yet free. -/
def holdsCore (r : Run) (sk ix : Nat) : Bool := r.phase ≠ .suspended && r.cores.contains (sk, ix)

/-- Whether a core is idle and unclaimed: nothing runs, loads, finishes or is suspended on it, and no lasting. -/
def coreIdle (s : State) (k : Core) : Bool :=
  k.bound && k.lasting.isNone && k.mode = .idle && k.susp.isEmpty && !(s.dev.runs.any fun r => holdsCore r k.sk k.ix)

/-- GSTATE of core e after a lasting of its group at width `w` (Table 6.1). -/
def gstateOf (lead w e : Nat) : Nat := if w = 1 then 0 else if e = lead then w / 2 else 3

/-- Start the lasting of the cores `lead` to `lead + n - 1` of a stack at width `w`. -/
def startLasting (s : State) (sk lead n w : Nat) : State :=
  let fin := s.dev.clock + 4096
  let s := s.mapCores fun k =>
    if k.sk = sk && decide (lead ≤ k.ix) && decide (k.ix < lead + n) then { k with lasting := some fin } else k
  { s with dev := { s.dev with lastings := s.dev.lastings ++ [⟨sk, lead, w, fin⟩] } }

/-- A lasting ends: its halves are zeroed and its cores are free (R163). CYCLE goes on (R32), and damaged cells stay (R206). -/
def endLasting (s : State) (x : Lasting) : State :=
  let n := if x.width = 1 then ((coreAt s x.sk x.lead).map (·.gang)).getD 1 else x.width
  let hit := fun (k : Core) => k.sk = x.sk && k.lasting = some x.ends && decide (x.lead ≤ k.ix) && decide (k.ix < x.lead + n)
  let touched := (s.cores.filter hit).map (·.ix)
  let s := s.mapCores fun k =>
    if hit k then
      { Core.wiped k with
        bound := true, gang := if k.ix = x.lead then x.width else 1
        member := decide (x.width ≠ 1) && decide (k.ix ≠ x.lead) }
    else k
  let m := lastMap s.dev x.sk
  let ents := (m.ents.zip (List.range m.ents.length)).map fun p =>
    if touched.contains p.2 then { p.1 with gstate := gstateOf x.lead x.width p.2 } else p.1
  { s with dev := { s.dev with
      maps := store LastMap.zero s.dev.maps x.sk { m with ents := ents }
      lastings := s.dev.lastings.filter (· ≠ x)
      sun := { s.dev.sun with want := true } } }

/-- LASTING COMPLETE: the lastings whose 4,096 ck have passed. -/
def execLastingComplete (s : State) : Out :=
  .next ((s.dev.lastings.filter fun x => decide (x.ends ≤ s.dev.clock)).foldl endLasting s)

/-- A compute stack on which the distributor may place: READY, not retired, no quiesce asked (R183, R384). -/
def usable (d : Device) (sk : Nat) : Bool :=
  let x := look Die.zero d.dies sk
  x.state = 2 && !x.ask && !look false d.mgmt.retired sk

/-- The cores of a stack in increasing index. -/
def stackCores (s : State) (sk : Nat) : List Core :=
  (List.range 48).filterMap fun ix => coreAt s sk ix

/-- The groups of a stack that could be lasted to give cores of width `w`, as (first core, cores): aligned groups that
may gang, or, for width 1, the ganged cores. -/
def lastGroups (s : State) (sk w : Nat) : List (Nat × Nat) :=
  let m := lastMap s.dev sk
  let cs := stackCores s sk
  if w = 1 then (cs.filter fun k => decide (1 < k.gang) && !k.member).map fun k => (k.ix, k.gang)
  else
    ((List.range m.ents.length).filter fun e => e % w = 0 && (match m.ents[e]? with
      | some x => (if w = 2 then x.g2 else x.g4)
      | none => false)).map fun e => (e, w)

/-- Whether every core of a group is idle and held for nobody, none leads a gang of width `w`, and no gang reaches across the group
(R184, R185): an idle gang of 4 is not lasted directly to width 2, while two gangs of 2 may be lasted to width 4. DESIGN CHOICE,
log entry 74. `held` are the cores held for the reserved launch. -/
def groupIdle (s : State) (held : List (Nat × Nat)) (sk w : Nat) (g : Nat × Nat) : Bool :=
  (stackCores s sk).all fun k =>
    !(decide (g.1 ≤ k.ix) && decide (k.ix < g.1 + g.2)) ||
      (coreIdle s k && !held.contains (sk, k.ix) && (w = 1 ||
        (k.gang ≠ w && decide (k.ix + k.gang ≤ g.1 + g.2) && !(k.ix = g.1 && k.member))))

/-- The cores of width `w` that a lasting of a group of `n` cores gives. -/
def lastYield (w n : Nat) : Nat := if w = 1 then n else 1

/-- The cores of width `w` that lastings under way will give on a stack. -/
def beingLasted (s : State) (w sk : Nat) : Nat :=
  (s.dev.lastings.filter fun x => x.sk = sk && x.width = w).foldl (fun n x =>
    n + lastYield w (((coreAt s sk x.lead).map (·.gang)).getD 1)) 0

/-- The cores of width `w` that lastings could give on a stack now. -/
def lastable (s : State) (held : List (Nat × Nat)) (w sk : Nat) : Nat :=
  if usable s.dev sk then
    ((lastGroups s sk w).filter (groupIdle s held sk w)).foldl (fun n g => n + lastYield w g.2) 0
  else 0

/-- Start as few lastings as `need` more cores of width `w` ask for, over the stacks in visiting order (R184). -/
def lastFor (s : State) (held : List (Nat × Nat)) (w : Nat) : List Nat → Nat → State
  | [], _ => s
  | sk :: r, need =>
    if !usable s.dev sk then lastFor s held w r need
    else
      let (s, need) := (lastGroups s sk w).foldl (fun (x : State × Nat) g =>
        if x.2 ≠ 0 && groupIdle x.1 held sk w g then
          (startLasting x.1 sk g.1 g.2 w, x.2 - lastYield w g.2)
        else x) (s, need)
      lastFor s held w r need

end Sys2Proof.Machine
end

