-- ==== Sys2Proof/Machine/Place.lean ====
section
/-! DEFINITION. The distributor's records, queues and placement (R165 to R172, R180 to R183, R185, R406, R407): a record's
fields and check, STATUS and counters, termination, heads, and the cores that place(L) takes. -/
namespace Sys2Proof.Machine
open Sys2Proof

/-! ### Interfaces and queues (R404, R416) -/

/-- SHARE of an interface (Table 18.8). -/
def shareOf (r : Ifc) : Nat := bitsOf r.cfg0.toNat 0 8
/-- QBASE. -/
def qbaseOf (r : Ifc) : Nat := bitsOf r.cfg0.toNat 8 13
/-- The queues an interface has: NQ, as far as the 8,192 queues of the device reach (R2). DESIGN CHOICE, log entry 57. -/
def nqOf (r : Ifc) : Nat := min (bitsOf r.cfg0.toNat 21 14) (8192 - qbaseOf r)
/-- CBASE. -/
def cbaseOf (r : Ifc) : Nat := bitsOf r.cfg1.toNat 0 16
/-- The counters an interface has: NCNT, as far as the 65,536 counters of the host die reach (R166). DESIGN CHOICE, log entry 57. -/
def ncntOf (r : Ifc) : Nat := min (bitsOf r.cfg1.toNat 16 17) (65536 - cbaseOf r)
/-- CALLOT. -/
def callotOf (r : Ifc) : Nat := bitsOf r.cfg1.toNat 33 13

/-- A device queue. -/
def queueOf (d : Device) (q : Nat) : Queue := look Queue.zero d.queues q

/-- Replace a device queue. -/
def setQueue (d : Device) (q : Nat) (x : Queue) : Device := { d with queues := store Queue.zero d.queues q x }

/-- The device queue of an interface's local queue. -/
def devQueue (d : Device) (fn j : Nat) : Nat := qbaseOf (ifcOf d fn) + j

/-- P: records ready and not yet fetched (R406). -/
def queuePending (q : Queue) : Nat := (q.tail + 2 ^ q.log2sz - q.head) % 2 ^ q.log2sz

/-- Whether work queues may be fetched now (R390, R391, R396, R412). -/
def fetchAllowed (d : Device) : Bool :=
  let m := d.mgmt
  (m.lcState = 0 || m.lcState = 2) && !m.wiping && !m.stfail && !m.selfTest && !m.recovery && !d.sun.parked &&
    !d.sun.holdAsked && !m.inReset && d.power.on && !(look Die.zero d.dies 20).retraining

/-! ### Launch records (R170 to R172) -/

/-- Read a record's 256 bytes. -/
def recdOf (x : Nat) : LaunchRec where
  cls := fieldAt x 0x02 1
  irq := bitOf (fieldAt x 0x03 1) 0
  gang := fieldAt x 0x04 1
  span := fieldAt x 0x05 1
  ncore := fieldAt x 0x06 2
  code := fieldAt x 0x10 8
  codesz := fieldAt x 0x18 4
  entry := fieldAt x 0x1C 4
  trapvec := fieldAt x 0x20 4
  ssbudget := fieldAt x 0x24 4
  xbudget := fieldAt x 0x28 4
  pscr := fieldAt x 0x30 2
  popm := fieldAt x 0x32 1
  pacc := fieldAt x 0x33 1
  contain := fieldAt x 0x34 4
  job := fieldAt x 0x38 2
  graph := fieldAt x 0x3A 2
  lcnt := fieldAt x 0x40 2
  gcnt := fieldAt x 0x42 2
  jcnt := fieldAt x 0x44 2
  wcnt := fieldAt x 0x46 2
  wval := fieldAt x 0x48 8
  arg := (List.range 16).map fun j => BitVec.ofNat 64 (fieldAt x (0x80 + 8 * j) 8)

/-- The tests of R172 by field offset: the offset and whether the field passes. -/
def recordTests (d : Device) (fn x : Nat) : List (Nat × Bool) :=
  let r := recdOf x
  let f := ifcOf d fn
  let g := if r.gang = 1 || r.gang = 2 || r.gang = 4 then r.gang else 1
  let half := if d.sun.metered then 2 else 1
  let cnt := fun (c : Nat) => c = 0xFFFF || decide (c < ncntOf f)
  [ (0x00, fieldAt x 0 2 = 1),
    (0x02, decide (r.cls ≤ 2)),
    (0x03, fieldAt x 3 1 / 2 = 0),
    (0x04, r.gang = 1 || r.gang = 2 || r.gang = 4),
    (0x05, decide (r.span ≤ 16)),
    (0x06, decide (1 ≤ r.ncore) && decide (r.ncore ≤ (if r.cls = 2 then 48 else 768) / g)),
    (0x0C, fieldAt x 0x0C 4 = 0),
    (0x10, r.code % 8 = 0),
    (0x18, r.codesz % 8 = 0 && decide (8 ≤ r.codesz) && decide (r.codesz ≤ 196608)),
    (0x1C, r.entry % 8 = 0 && decide (r.entry < r.codesz)),
    (0x20, decide (0x30000 ≤ r.trapvec) && decide (r.trapvec ≤ 0x3FFF8) && r.trapvec % 8 = 0 &&
      decide (r.trapvec - 0x30000 < bitsOf f.svsize.toNat 0 17)),
    (0x2C, fieldAt x 0x2C 4 = 0),
    (0x30, r.pscr % 64 = 0 && decide (64 ≤ r.pscr) && decide (r.pscr ≤ 1024 * g / half)),
    (0x32, decide (1 ≤ r.popm) && decide (r.popm ≤ 32 * g / half)),
    (0x33, decide (1 ≤ r.pacc) && decide (r.pacc ≤ 8 * g / half)),
    (0x34, decide (r.contain ≤ 2048) && (r.cls = 2 || r.contain = 0) &&
      !(r.cls = 2 && decide (callotOf f < 2 * r.contain))),
    (0x3C, fieldAt x 0x3C 4 = 0),
    (0x40, cnt r.lcnt),
    (0x42, cnt r.gcnt),
    (0x44, cnt r.jcnt),
    (0x46, cnt r.wcnt),
    (0x48, decide (r.wval < 2 ^ 48)),
    (0x50, fieldAt x 0x50 48 = 0) ]

/-- The offset of the lowest failing field (R172). -/
def recordCheck (d : Device) (fn x : Nat) : Option Nat := ((recordTests d fn x).find? fun p => !p.2).map (·.1)

/-! ### STATUS, counters and termination (R166, R167) -/

/-- GEN of an interface's supervisor image. -/
def imageGen (f : Ifc) : Nat := bitsOf f.svsize.toNat 32 16

/-- What names the read of a launch's code object among the spans in progress. -/
def codeKey (l : Nat) : List Nat := [2, l]
/-- What names the read of its supervisor image. -/
def imageKey (l : Nat) : List Nat := [3, l]

/-- A launch that waits for its counter becomes eligible once COUNT reaches WVAL; it keeps FAIL as it stands then (R168). DEDUCED,
log entry 75. -/
def markElig (d : Device) : Device :=
  { d with launches := d.launches.map fun l =>
      if l.placed || l.recd.wcnt = 0xFFFF || l.elig.isSome then l
      else
        let x := (look 0 d.counters (cbaseOf (ifcOf d l.ifc) + l.recd.wcnt)).toNat
        if x % 2 ^ 48 < l.recd.wval % 2 ^ 48 then l else { l with elig := some (x.testBit 48) } }

/-- What names the write of a STATUS word. -/
def statusKey (o : Owed) : List Nat := [9, o.ifc, o.va, o.launch, o.word]
/-- What names the read of a queue's record at a virtual address. -/
def recordKey (q va : Nat) : List Nat := [7, q, va]

/-- A termination counted: COUNT + 1, modulo 2^48, and, for a failure, FAIL (R167); 0xFFFF names no counter, and neither does an
index beyond the interface's counters, which a record rejected for it may hold. DESIGN CHOICE, log entries 68 and 69. -/
def countEnd (d : Device) (fn c : Nat) (failed : Bool) : Device :=
  let f := ifcOf d fn
  if ncntOf f ≤ c then d
  else
    let k := cbaseOf f + c
    let x := (look 0 d.counters k).toNat
    let v := (x % 2 ^ 48 + 1) % 2 ^ 48 + (if failed || x.testBit 48 then 2 ^ 48 else 0)
    { d with counters := store 0 d.counters k (BitVec.ofNat 64 v) }

/-- Make the STATUS write that is owed (R167): the state, and whether it was performed, none when its hub makes it wait. -/
def tryStatus (s : State) (o : Owed) : State × Option Bool :=
  match spanWrite s tlbHost 4 o.ifc (wbytes o.va (toBytes 4 o.word)) (spanOf o.va 4) none (statusKey o) with
  | (s, .done) => (s, some true)
  | (s, .wait) => (s, none)
  | (s, .bad _ _) => ({ s with dev := setErr s.dev o.ifc 6 }, some false)
  | (s, .stop _ _) => ({ s with dev := setErr s.dev o.ifc 6 }, some false)

/-- What follows a termination's STATUS write: the counters, then the completion vector (R167). -/
def countAll (d : Device) (o : Owed) (ok : Bool) : Device :=
  match o.ends with
  | none => d
  | some (cs, irq, failed) =>
    let d := markElig (cs.foldl (fun d c => if c = 0xFFFF then d else countEnd d o.ifc c (failed || !ok)) d)
    let d := if irq then raiseVec d o.ifc 0 else d
    { d with sun := { d.sun with want := true } }

/-- Whether an owed STATUS word waits: in a hold, for an earlier one of the same record, for the committed chunks of its launch (R169,
R396, R446). -/
def owedHeld (d : Device) (o : Owed) : Bool :=
  d.sun.parked || (d.owed.any fun x => x.ifc = o.ifc && x.va = o.va) || (o.ends.isSome && d.drains.any fun x => x.launch = o.launch)

/-- One STATUS word that is owed: it stays owed while it waits. -/
def payOne (s : State) (o : Owed) : State :=
  let keep := fun (s : State) => { s with dev := { s.dev with owed := s.dev.owed ++ [o] } }
  if owedHeld s.dev o then keep s
  else
    match tryStatus s o with
    | (s, none) => keep s
    | (s, some ok) => { s with dev := countAll s.dev o ok }

/-- Every STATUS word that is owed is tried, in order. -/
def payAll (s : State) : State := s.dev.owed.foldl payOne { s with dev := { s.dev with owed := [] } }

/-- The STATUS word of a launch with a state and DETAIL. -/
def owedFor (l : Launch) (st detail : Nat) (ends : Option (List Nat × Bool × Bool)) : Owed :=
  ⟨l.ifc, l.va + 8, st % 256 + detail % 2 ^ 24 * 256, l.id, ends⟩

/-- A STATUS word is owed, and written at once where nothing makes it wait. -/
def owe (s : State) (o : Owed) : State := payAll { s with dev := { s.dev with owed := s.dev.owed ++ [o] } }

/-- Take a run's contexts off its cores: matrix engines complete their commands, collectives write their committed chunks, everything else
is discarded (R169, R200, R270, R323, R445). -/
def clearRun (s : State) (r : Run) : State :=
  let refs := (r.cores.zip r.parts).map fun p => (⟨p.1.1, p.1.2, p.2⟩ : CRef)
  let s := refs.foldl (fun s cr => match getCtx s cr with
    | some c =>
      if c.run = r.id then
        let s := if c.ended then s else stopMatrix s cr
        flushCols s cr ((getCtx s cr).getD c)
      else s
    | none => s) s
  s.mapCores fun k =>
    if r.cores.contains (k.sk, k.ix) then
      { k with
        mode := if k.mode = .active && k.ctx.run = r.id then .idle else k.mode
        ctx := if k.ctx.run = r.id then Ctx.zero else k.ctx
        susp := k.susp.filter fun c => c.run ≠ r.id }
    else k

/-- The cores of a run become free. -/
def freeRun (s : State) (r : Run) : State :=
  let s := clearRun s r
  let d := match runOf s.dev r.id with
    | some x => setRun s.dev { x with cores := [], parts := [] }
    | none => s.dev
  { s with dev := { d with sun := { d.sun with want := true } } }

/-- The launch is gone from the distributor: its cores are free, and its recovery and reservation end. -/
def dropLaunch (s : State) (l : Launch) : State :=
  let s := (s.dev.runs.filter fun r => r.launch = l.id).foldl freeRun s
  let d := s.dev
  { s with dev := { d with
      launches := d.launches.filter fun x => x.id ≠ l.id
      runs := d.runs.filter fun r => r.launch ≠ l.id
      reserved := if d.reserved = some l.id then none else d.reserved
      resPair := if d.reserved = some l.id then none else d.resPair
      spans := d.spans.filter fun x => x.key ≠ codeKey l.id && x.key ≠ imageKey l.id
      sun := { d.sun with want := true } } }

/-- A launch terminates (R167): once its contexts have drained (R169), STATUS, then counters, then the completion vector. -/
def terminate (s : State) (l : Launch) (st detail : Nat) : State :=
  owe (dropLaunch s l) (owedFor l st detail (some ([l.recd.lcnt, l.recd.gcnt, l.recd.jcnt], l.recd.irq, decide (st ≠ 2))))

/-! ### Heads of queues (R168, R169, R172, R406, R407) -/

/-- Whether a launch may be placed: not dependent, waiting for its counter, or to be skipped (R168). -/
inductive Elig
  | ready | waiting | skip
  deriving DecidableEq, Repr

/-- The eligibility of a launch. -/
def eligible (l : Launch) : Elig :=
  if l.recd.wcnt = 0xFFFF then .ready
  else
    match l.elig with
    | none => .waiting
    | some true => .skip
    | some false => .ready

/-- QHEAD advances past a launch's record. -/
def advanceHead (d : Device) (l : Launch) : Device :=
  let q := devQueue d l.ifc l.queue
  let x := queueOf d q
  let x := if x.fetched = some l.id then { x with fetched := none } else x
  setQueue d q (if l.adv then
    { x with head := (x.head + 1) % 2 ^ x.log2sz, marks := x.marks.filter (· ≠ l.slot) } else x)

/-- A launch as fetched into the distributor. -/
def newLaunch (d : Device) (fn j : Nat) (q : Queue) (x : Nat) : Launch where
  id := d.nextId
  ifc := fn
  queue := j
  slot := q.head
  va := q.ring.toNat % 2 ^ 56 + 256 * q.head
  adv := true
  recd := recdOf x
  placed := false
  skips := 0
  reran := false
  wantRerun := false
  wantTie := false
  recFails := 0
  avoid := []
  cancel := none
  releasing := none
  reserveUnits := 0
  order := 0
  elig := none
  relBad := false
  started := false
  image := (0, 0, 0)

/-- Whether the fetch of a queue's head must wait though the queue is not empty: nothing may be fetched now, aperture accesses of
the function have been sent and not made (R407), a cancel has still to read the record (R169), or the function is being reset
(R410). -/
def fetchHeld (d : Device) (fn j head : Nat) : Bool :=
  !fetchAllowed d || (d.posted.any fun p => p.fn = fn) || d.resets.contains fn ||
    d.cancels.any fun c => c.ifc = fn && c.slots.contains (j, head)

/-- The head of an interface's queue: records are fetched and checked, and those that are rejected, marked or skipped terminate,
until one stands that may be placed or must wait; one cancelled after its fetch waits for the next pass (R169). `n` bounds the
records looked at. -/
def headOf (s : State) (fn j : Nat) : Nat → State × Option Launch
  | 0 => (s, none)
  | n + 1 =>
    let q := devQueue s.dev fn j
    let x := queueOf s.dev q
    match x.fetched with
    | some id =>
      match launchOf s.dev id with
      | none => (s, none)
      | some l =>
        let drop := fun (st : Nat) =>
          let s := { s with dev := advanceHead s.dev l }
          headOf (terminate s l st 0) fn j n
        if l.cancel.isSome then (s, none)
        else
          match eligible l with
          | .ready => (s, some l)
          | .waiting => (s, none)
          | .skip => drop 5
    | none =>
      if !x.en || x.stop || queuePending x = 0 then (s, none)
      else if fetchHeld s.dev fn j x.head then ({ s with dev := setQueue s.dev q { x with late := true } }, none)
      else
        let va := x.ring.toNat % 2 ^ 56 + 256 * x.head
        match spanRead s.dev tlbHost 4 fn va 256 (recordKey q va) with
        | .wait d => ({ s with dev := setQueue d q { x with late := true } }, none)
        | .bad d _ _ => ({ s with dev := setErr (setQueue d q { x with stop := true }) fn 0 }, none)
        | .stop d _ _ => ({ s with dev := setErr (setQueue d q { x with stop := true }) fn 0 }, none)
        | .ok d bs =>
          let raw := ofBytes bs
          let l := newLaunch d fn j x raw
          let d := { d with nextId := d.nextId + 1 }
          let give := fun (st detail : Nat) =>
            let s := terminate { s with dev := d } l st detail
            headOf { s with dev := advanceHead s.dev l } fn j n
          if x.marks.contains x.head then give 4 0
          else
            match recordCheck d fn raw with
            | some off => give 6 off
            | none =>
              let d := setQueue { d with launches := d.launches ++ [l] } q { x with fetched := some l.id, late := false }
              headOf { s with dev := markElig d } fn j n

/-- The head of a queue, over all its records. -/
def queueHead (s : State) (fn j : Nat) : State × Option Launch := headOf s fn j 65536

/-- The interface and local queue of a device queue. -/
def ownerOf (d : Device) (q : Nat) : Option (Nat × Nat) :=
  ((List.range 64).find? fun fn => decide (qbaseOf (ifcOf d fn) ≤ q) &&
    decide (q < qbaseOf (ifcOf d fn) + nqOf (ifcOf d fn))).map fun fn => (fn, q - qbaseOf (ifcOf d fn))

/-- RECORD FETCH: the record at QHEAD of an enabled queue that is not empty is fetched and checked (R172, R406, R407). One whose
fetch a placement pass found waiting asks for a boundary once it is there, as the QTAIL write did. DESIGN CHOICE, log entry 76. -/
def execRecordFetch (q : Nat) (s : State) : Out :=
  match ownerOf s.dev q with
  | none => .next s
  | some (fn, j) =>
    let late := (queueOf s.dev q).late
    let (s, l) := queueHead s fn j
    .next { s with dev := { s.dev with sun := { s.dev.sun with want := s.dev.sun.want || (late && l.isSome) } } }

/-! ### place(L) (R171, R183, R366, R369) -/

/-- A core taken for a launch, with the partition of its context. -/
structure Seat where
  sk : Nat
  ix : Nat
  pt : Nat
  deriving DecidableEq, Repr

/-- The lowest partition of a core that no context has (R203). -/
def freePart (d : Device) (k : Core) : Option Nat :=
  (List.range (if d.sun.metered then 2 else 1)).find? fun p => !(k.susp.any fun c => c.part = p)

/-- Whether a core's available partition, the whole of it in free mode and half in metered mode, meets what a record needs (R171). -/
def partMeets (d : Device) (r : LaunchRec) : Bool :=
  let half := if d.sun.metered then 2 else 1
  decide (r.pscr ≤ 1024 * r.gang / half) && decide (r.popm ≤ 32 * r.gang / half) && decide (r.pacc ≤ 8 * r.gang / half)

/-- The free cores of a record's width on a stack in increasing index, whose partitions meet it (R183). -/
def freeSeats (s : State) (r : LaunchRec) (sk : Nat) : List Seat :=
  if !usable s.dev sk || !partMeets s.dev r then []
  else
    (stackCores s sk).filterMap fun k =>
      if k.bound && !k.member && k.lasting.isNone && k.gang = r.gang && k.mode = .idle &&
          !(s.dev.runs.any fun r => holdsCore r k.sk k.ix) then
        (freePart s.dev k).map fun p => ⟨k.sk, k.ix, p⟩
      else none

/-- Sockets from a pointer upward, modulo 16. -/
def visit (ptr : Nat) : List Nat := (List.range 16).map fun k => (ptr + k) % 16

/-- Take cores in visiting order until `n` are held on at most `span` stacks that give one (R183). -/
def takeSpan (free : Nat → List Seat) : List Nat → Nat → Nat → List Seat → List Seat
  | [], _, _, got => got
  | sk :: r, n, span, got =>
    if n = 0 || span = 0 then got
    else
      match (free sk).take n with
      | [] => takeSpan free r n span got
      | l => takeSpan free r (n - l.length) (span - 1) (got ++ l)

/-- The first stack in a list with `n` free cores, outside the given voltage domains. -/
def wholeStack (free : Nat → List Seat) (n : Nat) (bad : List Nat) (l : List Nat) : Option (Nat × List Seat) :=
  match l.find? fun sk => !bad.contains (sk / 4) && decide (n ≤ (free sk).length) with
  | some sk => some (sk, (free sk).take n)
  | none => none

/-- Containment units an interface's launches hold, but for one (R366). -/
def unitsHeld (d : Device) (fn except : Nat) : Nat :=
  (d.launches.filter fun l => l.ifc = fn && l.id ≠ except).foldl (fun n l => n + l.reserveUnits) 0

/-- Whether a launch is a recovery placement, and of which kind (R363). -/
def recovering (l : Launch) : Bool := l.wantRerun || l.wantTie

/-- SPAN as a bound. -/
def spanLimit (l : Launch) : Nat := if l.recd.span = 0 then 16 else l.recd.span

/-- The replicas place(L) would hold, from a pointer, over the free cores (R183, R362, R369). -/
def planPlace (d : Device) (l : Launch) (free : Nat → List Seat) (ptr : Nat) : Option (List (Role × List Seat)) :=
  let n := l.recd.ncore
  let order := visit ptr
  if l.wantTie then
    (wholeStack free n (l.avoid.map (· / 4)) order).map fun p => [(.tieBreak, p.2)]
  else if l.recd.cls = 2 then
    if callotOf (ifcOf d l.ifc) < 2 * l.recd.contain + unitsHeld d l.ifc l.id then none
    else
      match wholeStack free n [] order with
      | none => none
      | some (a, la) =>
        match wholeStack free n [a / 4] ((order.dropWhile (· ≠ a)).drop 1) with
        | none => none
        | some (_, lb) => some [(.primary, la), (.secondary, lb)]
  else
    let order := if l.wantRerun then order.filter fun sk => !l.avoid.contains sk else order
    let got := takeSpan free order n (spanLimit l) []
    if got.length = n then some [(if l.wantRerun then .rerun else .primary, got)] else none

/-! ### Cores held for the reserved launch (R185) -/

/-- Whether a stack has the cores a record asks for of one stack, lasted at its width, whose partitions meet it, free or not. -/
def hasCores (s : State) (r : LaunchRec) (sk : Nat) : Bool :=
  usable s.dev sk && partMeets s.dev r &&
    decide (r.ncore ≤ ((stackCores s sk).filter fun k => k.bound && !k.member && k.gang = r.gang).length)

/-- The two stacks fixed for a reserved launch of class D. -/
def fixPair (s : State) (l : Launch) (ptr : Nat) : Option (Nat × Nat) :=
  let ok := hasCores s l.recd
  match (visit ptr).find? ok with
  | none => none
  | some a =>
    (((visit ptr).dropWhile (· ≠ a)).drop 1 |>.find? fun b => ok b && b / 4 ≠ a / 4).map fun b => (a, b)

/-- The cores held for the reserved launch. A tie-break replica has them on the first stack of a third domain that could hold it, free or
not, and is placed there: R185 fixes stacks for a launch of class D only. DESIGN CHOICE, log entry 106. -/
def heldSeats (s : State) (l : Launch) : List Seat :=
  let free := freeSeats s l.recd
  let n := l.recd.ncore
  if l.wantTie then
    match (visit s.dev.resPtr).find? fun sk => !(l.avoid.map (· / 4)).contains (sk / 4) && hasCores s l.recd sk with
    | some sk => (free sk).take n
    | none => []
  else if l.recd.cls = 2 then
    match s.dev.resPair with
    | some (a, b) => (free a).take n ++ (free b).take n
    | none => []
  else
    let order := (visit s.dev.resPtr).filter fun sk => !(l.wantRerun && l.avoid.contains sk)
    takeSpan free order n (spanLimit l) []

/-- The sockets of a list of seats in order (R246). -/
def socketsOf (l : List Seat) : List Nat := (l.map (·.sk)).eraseDups

/-- The cores that the reserved launch still lacks (R185): groups of stacks, with the cores lacked on each group. A tie-break lacks them on
its one stack, a launch of class D on each of its two, and any other within the SPAN stacks that could give it cores first. -/
def lacks (s : State) (l : Launch) : List (List Nat × Nat) :=
  let n := l.recd.ncore
  let held := heldSeats s l
  let on := fun (sk : Nat) => (held.filter fun a => a.sk = sk).length
  if l.wantTie then
    match (visit s.dev.resPtr).find? fun sk => !(l.avoid.map (· / 4)).contains (sk / 4) && hasCores s l.recd sk with
    | some sk => [([sk], n - on sk)]
    | none => []
  else if l.recd.cls = 2 then
    match s.dev.resPair with
    | some (a, b) => [([a], n - on a), ([b], n - on b)]
    | none => []
  else
    let got := socketsOf held
    let could := (visit s.dev.resPtr).filter fun sk =>
      !got.contains sk && !(l.wantRerun && l.avoid.contains sk) && hasCores s { l.recd with ncore := 1 } sk
    [(got ++ could.take (spanLimit l - got.length), n - held.length)]

/-- The free cores a launch may take: those held for the reserved launch are given to no other. -/
def seatsFor (s : State) (l : Launch) (sk : Nat) : List Seat :=
  let free := freeSeats s l.recd sk
  match s.dev.reserved with
  | none => free
  | some id =>
    if id = l.id then free
    else
      match launchOf s.dev id with
      | none => free
      | some x =>
        let held := heldSeats s x
        free.filter fun a => !(held.any fun b => b.sk = a.sk && b.ix = a.ix)

/-- place(L) (R183, R185): the reserved launch takes the cores held for it, from the pointer as it stood when it was reserved. -/
def planFor (s : State) (l : Launch) : Option (List (Role × List Seat)) :=
  if s.dev.reserved = some l.id then
    let held := heldSeats s l
    planPlace s.dev l (fun sk => held.filter fun a => a.sk = sk) s.dev.resPtr
  else planPlace s.dev l (seatsFor s l) s.dev.placePtr

/-! ### Holding the cores of a placement -/

/-- A run as placed. -/
def newRun (id launch : Nat) (role : Role) (l : List Seat) : Run where
  id := id
  launch := launch
  role := role
  phase := .loading
  cores := l.map fun x => (x.sk, x.ix)
  slots := socketsOf l
  parts := l.map (·.pt)
  sswall := 0
  xwall := 0
  nss := 0
  lreg := 0xFFFFFFFF
  cont := Contain.empty
  spilled := false
  halt := none
  late := none
  detStacks := []
  saved := true
  badCkpt := false
  resumeOdd := false
  preempt := false
  abandonCause := none
  sig := none
  lastArr := 0
  detCk := none
  lost := none

/-- Hold the cores of a placement: its runs are loading, the pointer moves on, and a recovery placement is logged
(R165, R183, R362, R369, R373). The launch is loaded from the supervisor image as it stands now (R409). -/
def commitPlace (d : Device) (l : Launch) (plan : List (Role × List Seat)) : Device :=
  let runs := (plan.zip (List.range plan.length)).map fun p => newRun (d.nextId + p.2) l.id p.1.1 p.1.2
  let last := ((plan.getLast?.bind fun p => p.2.getLast?).map (·.sk)).getD 0
  let first := ((plan.head?.bind fun p => p.2.head?).map (·.sk)).getD 0
  let f := ifcOf d l.ifc
  let l' := { l with
    placed := true, wantRerun := false, wantTie := false, recFails := 0, skips := 0
    image := (f.svaddr.toNat % 2 ^ 56, bitsOf f.svsize.toNat 0 17, imageGen f)
    reserveUnits := if l.recd.cls = 2 && !l.placed then 2 * l.recd.contain else l.reserveUnits }
  let d := setLaunch { d with
    runs := d.runs ++ runs, nextId := d.nextId + plan.length, placePtr := (last + 1) % 16
    reserved := if d.reserved = some l.id then none else d.reserved
    resPair := if d.reserved = some l.id then none else d.resPair } l'
  if l.wantRerun then relLog d 6 first ⟨l.ifc, l.queue, l.slot, 3⟩ 0
  else if l.wantTie then relLog d 7 first ⟨l.ifc, l.queue, l.slot, 2⟩ 0
  else d

end Sys2Proof.Machine
end

