-- ==== Sys2Proof/Machine/Launch.lean ====
section
/-! DEFINITION. A launch's runs (R40, R173, R362 to R369): loading and start, the containment signature and its release,
votes, recovery, and what a stop, a detection or the loss of a stack does to a run. -/
namespace Sys2Proof.Machine
open Sys2Proof

/-! ### Start (R35, R40, R173, R176, R246, R409) -/

/-- The budgets of a launch: the record's in free mode, clipped to the interface limits in metered mode (R176). -/
def budgets (d : Device) (l : Launch) : Nat × Nat :=
  let lim := (ifcOf d l.ifc).limits.toNat
  let clip := fun (b m : Nat) => if d.sun.metered then (if b = 0 then m else min b m) else b
  (clip l.recd.ssbudget (lim % 2 ^ 32), clip l.recd.xbudget (lim / 2 ^ 32))

/-- The protection class of a record (Table 15.1). -/
def classOf (c : Nat) : PClass :=
  match c with
  | 0 => .n
  | 1 => .s
  | _ => .d

/-- The context a core starts a launch with (Table 1.11, R40, R84, R173, R176, R246, R255, R309, R354, R359). -/
def startCtx (d : Device) (l : Launch) (r : Run) (id : Nat) (seat : Nat × Nat) (pt : Nat) (code : Memory) (gen : Nat) : Ctx :=
  let ns := r.slots.length
  let self := (r.slots.findIdx? (· = seat.1)).getD 0
  let b := budgets d l
  { Ctx.zero with
    run := r.id, cls := classOf l.recd.cls, metered := d.sun.metered, part := pt, coreId := id, ncore := l.recd.ncore
    trapvec := BitVec.ofNat 18 l.recd.trapvec, ifc := l.ifc, pc := BitVec.ofNat 18 l.recd.entry, priv := .u
    sregs := (l.recd.arg.zip (List.range 16)).foldl (fun t p => store 0 t (48 + p.2) p.1) []
    diemask := BitVec.ofNat 64 (2 ^ ns - 1 + self * 2 ^ 16 + ns * 2 ^ 24)
    sswall := BitVec.ofNat 64 b.1, xwall := BitVec.ofNat 64 b.2, code := code, codeGen := gen }

/-- Whether a core needs the image that a launch was placed with loaded (R35, R409). -/
def needsImage (l : Launch) (k : Core) : Bool := k.svIfc ≠ some l.ifc || k.svGen ≠ l.image.2.2

/-- The supervisor region of a core's instruction memory. -/
def svRegion (m : Memory) : Memory := m.filter fun p => decide (0x30000 ≤ p.1)

/-- Instruction memory loaded: code at 0, zero up to the supervisor region, and that region. -/
def loadImem (code : List Byte) (sv : Memory) : Memory := setBytes sv 0 code

/-- How a load ends. -/
inductive Loaded
  | wait (d : Device)
  | bad (d : Device) (detail bit : Nat)
  | ok (d : Device) (code image : List Byte)

/-- Read the code object, and the supervisor image when a core needs it (R173, R409). -/
def readCode (s : State) (l : Launch) (runs : List Run) : Loaded :=
  match spanRead s.dev tlbHost 4 l.ifc l.recd.code l.recd.codesz (codeKey l.id) with
  | .wait d => .wait d
  | .bad d _ _ => .bad d 0x10 5
  | .stop d _ _ => .bad d 0x10 5
  | .ok d code =>
    let need := (runs.flatMap (·.cores)).any fun p => match coreAt s p.1 p.2 with
      | some k => needsImage l k
      | none => false
    if !need then .ok d code []
    else
      match spanRead d tlbHost 4 l.ifc l.image.1 l.image.2.1 (imageKey l.id) with
      | .wait d => .wait d
      | .bad d _ _ => .bad d 0x20 3
      | .stop d _ _ => .bad d 0x20 3
      | .ok d image => .ok d code image

/-- The bits of a register file that one slab holds, in 8-byte words: 32 of a vector register or latch, 8 of a predicate register; of a local
memory all of its slab's words. The word of a ganged core that word `w` of its member `m` is (R162): gang position m holds the m-th part
of every register and of every memory. DEDUCED, log entry 95. -/
def slabWord (file m w : Nat) : Nat :=
  match file with
  | 1 | 6 => w + 32 * m
  | 2 => w + 8 * m
  | 3 => w + 131072 * m
  | 4 => w + 16384 * m
  | 5 => w + 32768 * m
  | _ => w

/-- A damage number that tells words with damaged cells apart. -/
def wearOf (k : Core) (p : Nat × Nat) : Nat := 3 + 2 ^ 40 * (((48 * k.sk + k.ix) * 7 + p.1) * 2 ^ 20 + p.2)

/-- The damaged words of one file of a ganged core, as a context counts the words of its partition: errors no write mends (R206). `base` is
the partition's first word, `size` its words; only the lead's front end holds scalar registers. -/
def damaged (ks : List Core) (file base size : Nat) : Sparse Nat :=
  (ks.zip (List.range ks.length)).foldl (fun t x => x.1.worn.foldl (fun t p =>
    let w := slabWord file x.2 p.2
    if p.1 = file && (file ≠ 0 || x.2 = 0) && decide (base ≤ w) && decide (w < base + size) then store 0 t (w - base) (wearOf x.1 p)
    else t) t) []

/-- The damaged cells of a core, and of the members it is ganged with, show in the context it is given (R206). -/
def wornCtx (ks : List Core) (gang : Nat) (c : Ctx) : Ctx :=
  let mem := fun (file space : Nat) =>
    let n := partSize gang c.metered space / 8
    damaged ks file (n * c.part) n
  { c with
    errS := damaged ks 0 0 65536, errV := damaged ks 1 0 65536, errP := damaged ks 2 0 65536, errQ := damaged ks 6 0 65536
    errScr := mem 3 1, errAcc := mem 4 3, errOpm := mem 5 5 }

/-- One core receives its context; it runs when its launch's first superstep begins. -/
def loadCore (s : State) (l : Launch) (r : Run) (code image : List Byte) (k : Core) : Core :=
  match r.cores.findIdx? (· = (k.sk, k.ix)) with
  | none => k
  | some id =>
    let sv := if needsImage l k then setBytes [] 0x30000 image else svRegion k.imem
    let c := startCtx s.dev l r id (k.sk, k.ix) (r.parts.getD id 0) (loadImem code sv) l.image.2.2
    let gang := (List.range k.gang).filterMap fun m => coreAt s k.sk (k.ix + m)
    { k with susp := k.susp ++ [wornCtx gang k.gang c] }

/-- LAUNCH START: the code, the image and the clearing are complete on every core of a placed launch (R173). STATE = 1 is owed where
its write must wait. With no launch running, a boundary is declared for the launch that has loaded, an event R175 does not list.
DESIGN CHOICE, log entry 70. -/
def execLaunchStart (l : Nat) (s : State) : Out :=
  match launchOf s.dev l with
  | none => .next s
  | some x =>
    let runs := s.dev.runs.filter fun r => r.launch = l && r.phase = .loading
    if runs.isEmpty || s.dev.sun.parked then .next s
    else
      match readCode s x runs with
      | .wait d => .next { s with dev := d }
      | .bad d detail bit => .next (terminate { s with dev := setErr d x.ifc bit } x 6 detail)
      | .ok d code image =>
        let s := { s with dev := d }
        let s := runs.foldl (fun s r => s.mapCores (loadCore s x r code image)) s
        let b := budgets d x
        let up := fun (r : Run) => if r.launch = l && r.phase = .loading then
          { r with phase := .ready, sswall := b.1, xwall := b.2 } else r
        let d := { setLaunch s.dev { x with started := true } with runs := s.dev.runs.map up, sun := { s.dev.sun with want := true } }
        let s := { s with dev := d }
        .next (if x.started then s else owe s (owedFor x 1 0 none))

/-! ### Containment signatures and release (R366, R367) -/

/-- One granule of containment as CSIG takes it: address, data, mask. -/
def containBytes (m : Memory) (mask : Sparse Bool) (u : Nat) : List Byte :=
  let bits := (List.range 128).foldl (fun n k => n + (if look false mask (128 * u + k) then 2 ^ k else 0)) 0
  let data := (List.range 128).map fun k => if look false mask (128 * u + k) then byteAt m (128 * u + k) else 0
  toBytes 8 (128 * u) ++ data ++ toBytes 16 bits

/-- CSIG (R367). -/
def csigOf (x : Contain) : BitVec 32 :=
  let l := (containUnits x.glbMask).flatMap (containBytes x.glb x.glbMask) ++
    (containUnits x.hostMask).flatMap (containBytes x.host x.hostMask)
  BitVec.ofNat 32 (crcBytes 0xFFFFFFFF l) ^^^ 0xFFFFFFFF

/-- The contained bytes of a granule of global memory. -/
def containedBytes (x : Contain) (g : Nat) : List WByte :=
  ((List.range 32).filter fun k => look false x.glbMask (32 * g + k)).map fun k => ⟨32 * g + k, 3, byteAt x.glb (32 * g + k)⟩

/-- The sectors that are released leave the containment, and the replica's stacks drop their older copies of them (R239); one that failed
is kept in mind. -/
def dropReleased (d : Device) (l run : Nat) (gs : List Nat) (bad : Bool) : Device :=
  let d := match runOf d run with
    | some r =>
      let d := (r.cores.map (·.1)).eraseDups.foldl (fun d sk => gs.foldl (fun d g => dropCopy d sk (32 * g)) d) d
      setRun d { r with cont := { r.cont with
        glb := r.cont.glb.filter fun p => !gs.contains (p.1 / 32), glbMask := r.cont.glbMask.filter fun p => !gs.contains (p.1 / 32) } }
    | none => d
  match launchOf d l with
  | some x => setLaunch d { x with relBad := x.relBad || bad }
  | none => d

/-- Release the sectors of a containment, chunk by chunk: each is written at its hub, full or merged (R366). A chunk its hub makes
wait, and those after it, stay contained; answers whether all have been written. -/
def releaseGlobal (s : State) (l run fn : Nat) (x : Contain) (gs : List Nat) : Nat → State × Bool
  | 0 => (s, false)
  | n + 1 =>
    match gs with
    | [] => (s, true)
    | g :: r =>
      let now := g :: r.takeWhile fun y => y / 8 = g / 8
      let bs := now.flatMap (containedBytes x)
      let a : Asker := ⟨[3, l], tlbHost, fn, 7⟩
      match (if paWin (32 * g) then windowWrite s none a (32 * g) g bs none now else sectorsWrite s none a (32 * g) bs now) with
      | .wait s => (s, false)
      | .done s b =>
        releaseGlobal { s with dev := dropReleased s.dev l run now b.isSome } l run fn x (r.dropWhile fun y => y / 8 = g / 8) n

/-- CONTAINMENT RELEASE: the masked bytes of the released replica are written to memory, then the launch terminates
(R366, R369). Sectors whose hub makes them wait are released by a later one. -/
def execContainmentRelease (l : Nat) (s : State) : Out :=
  match launchOf s.dev l with
  | none => .next s
  | some x =>
    match x.releasing.bind (runOf s.dev) with
    | none => .next s
    | some r =>
      if s.dev.sun.parked then .next s
      else
        let gs := (r.cont.glbMask.map (·.1 / 32)).eraseDups
        match releaseGlobal s x.id r.id x.ifc r.cont gs (gs.length + 1) with
        | (s, false) => .next s
        | (s, true) =>
          if !r.cont.hostMask.isEmpty && hostLinkPaused s.dev then .next s
          else
          let host := r.cont.hostMask.map fun p => (⟨p.1, 3, byteAt r.cont.host p.1⟩ : WByte)
          let s := { s with dev := hostPost s.dev x.ifc host }
          let bad := ((launchOf s.dev x.id).map (·.relBad)).getD false
          .next (if bad then terminate s x 3 (4 * 2 ^ 20 + 0x47) else terminate s x 2 0)

/-! ### Votes (R365, R368, R369) -/

/-- Discard a run's containment. -/
def dropContain (d : Device) (id : Nat) : Device :=
  match runOf d id with
  | some r => setRun d { r with cont := Contain.empty }
  | none => d

/-- A run of a launch by role. -/
def runAs (d : Device) (l : Nat) (role : Role) : Option Run := d.runs.find? fun r => r.launch = l && r.role = role

/-- A replica's containment begins its release, and the others are discarded, with their reservations (R366, R369); STATUS follows
the release. -/
def voteFor (d : Device) (l : Launch) (keep : Run) : Device :=
  let d := (d.runs.filter fun r => r.launch = l.id && r.id ≠ keep.id).foldl (fun d r => dropContain d r.id) d
  setLaunch d { l with releasing := some keep.id, reserveUnits := l.recd.contain }

/-- A stack loses the vote (R370). -/
def loseVote (d : Device) (r : Run) : Device := scoreEvent d 4 (r.slots.headD 0) 16 (whoOf d r.id) 0

/-- A tie-break replica is requested (R368): the secondary's containment is discarded and its reservation passes on. -/
def askTie (d : Device) (l : Launch) (p q : Run) : Device :=
  let d := dropContain d q.id
  setLaunch { d with nextId := d.nextId + 1, sun := { d.sun with want := true } }
    { l with wantTie := true, order := d.nextId, avoid := p.slots ++ q.slots
             reserveUnits := l.recd.contain * (if p.phase = .abandoned then 1 else 2) }

/-- The detection for which a run was abandoned; none for the loss of its stack. -/
def abandonedBy (r : Run) : Option (Nat × Nat × Nat) := r.abandonCause.filter fun e => e.2.2 % 256 ≠ 0x46

/-- The cause when both replicas were abandoned (R368): that of the detection which comes first by R344, else 0x46. -/
def bothCause (p q : Run) : Nat :=
  match abandonedBy p, abandonedBy q with
  | some a, some b => (firstEvent a b).2.2 % 256
  | some a, none => a.2.2 % 256
  | none, some b => b.2.2 % 256
  | none, none => 0x46

/-- The compare engine looks at a class-D launch (R368, R369, Table 15.6). -/
def vote (s : State) (id : Nat) : State :=
  match launchOf s.dev id with
  | none => s
  | some l =>
    match runAs s.dev id .primary, runAs s.dev id .secondary with
    | some p, some q =>
      let settled := fun (r : Run) => r.phase = .finished || r.phase = .abandoned
      if l.releasing.isSome || l.wantTie || !settled p || !settled q then s
      else
        match runAs s.dev id .tieBreak with
        | none =>
          if p.phase = .abandoned && q.phase = .abandoned then terminate s l 3 (4 * 2 ^ 20 + bothCause p q)
          else if p.phase = .finished && q.phase = .finished && p.sig = q.sig then { s with dev := voteFor s.dev l p }
          else { s with dev := askTie s.dev l p q }
        | some t =>
          if !settled t then s
          else if t.phase = .abandoned then
            terminate s l 3 (4 * 2 ^ 20 + ((abandonedBy t).map (·.2.2 % 256)).getD 0x45)
          else if p.phase = .finished && p.sig = t.sig then
            let d := voteFor s.dev l p
            { s with dev := if q.phase = .finished then loseVote d q else d }
          else if q.phase = .finished && q.sig = t.sig then
            let d := voteFor s.dev l t
            { s with dev := if p.phase = .finished then loseVote d p else d }
          else
            let s := { s with dev := relLog s.dev 5 0 ⟨l.ifc, l.queue, l.slot, 0⟩ 0x45 }
            terminate s l 3 (4 * 2 ^ 20 + 0x45)
    | _, _ => s

/-- A run whose every core has completed ENDL and whose last superstep is combined: DONE, or in class D its signature is
kept for the vote (R173, R365). -/
def finishRun (s : State) (r : Run) : State :=
  match launchOf s.dev r.launch with
  | none => s
  | some l =>
    if l.recd.cls ≠ 2 then terminate s l 2 0
    else
      let s := freeRun s r
      match runOf s.dev r.id with
      | none => s
      | some x =>
        let sig := (x.nss, x.lreg ^^^ 0xFFFFFFFF, csigOf x.cont)
        vote { s with dev := setRun s.dev { x with phase := .finished, sig := some sig } } l.id

/-- The loss of a stack as an event that stops a run (R344). -/
def lossOf (x : Nat × Nat) : Nat × Nat × Nat := (x.1, x.2, 4 * 2 ^ 20 + 0x46)

/-- A run stopped by a detection (its cause) or by the loss of its stack (cause 0), handled by class (R362, R365, R372,
R384). -/
def loseRun (s : State) (r : Run) (cause : Nat) : State :=
  match launchOf s.dev r.launch with
  | none => s
  | some l =>
    if l.recd.cls = 0 then terminate s l 3 (4 * 2 ^ 20 + (if cause = 0 then 0x46 else cause))
    else if l.recd.cls = 1 then
      if cause ≠ 0 && l.reran then terminate s l 3 (4 * 2 ^ 20 + cause)
      else
        let s := freeRun s r
        let d := { s.dev with
          runs := s.dev.runs.filter fun x => x.id ≠ r.id
          spans := s.dev.spans.filter fun x => x.key ≠ codeKey l.id && x.key ≠ imageKey l.id }
        let d := setLaunch { d with nextId := d.nextId + 1, sun := { d.sun with want := true } }
          { l with wantRerun := true, order := d.nextId, reran := l.reran || cause ≠ 0, avoid := l.avoid ++ r.detStacks }
        { s with dev := d }
    else
      let s := freeRun s r
      match runOf s.dev r.id, launchOf s.dev l.id with
      | some x, some l =>
        let d := setRun s.dev { x with
          phase := .abandoned, cont := Contain.empty, halt := none, late := none
          abandonCause := if cause = 0 then some (lossOf (x.lost.getD (s.dev.clock, 0))) else x.abandonCause }
        let d := setLaunch d { l with reserveUnits := l.reserveUnits - l.recd.contain }
        vote { s with dev := d } l.id
      | _, _ => s

/-! ### Stops at a boundary (R169, R178, R198, R331, R344, R353, R372, R386) -/

/-- The stopping event of one core: a trap at S. -/
def coreStop (c : Ctx) : Option (Nat × Nat × Nat) :=
  match c.stop with
  | some (.trapS code) => some (c.stopCk, c.coreId, 2 * 2 ^ 20 + code)
  | some (.otherS cause) => some (c.stopCk, c.coreId, 3 * 2 ^ 20 + cause)
  | _ => none

/-- The earlier of two stopping events (R344). -/
def firstStop (a b : Option (Nat × Nat × Nat)) : Option (Nat × Nat × Nat) :=
  match a, b with
  | none, x => x
  | x, none => x
  | some x, some y => if haltBefore y x then some y else some x

/-- The contexts of a run, in CORE_ID order. -/
def runCtxs (s : State) (r : Run) : List Ctx :=
  (r.cores.zip r.parts).filterMap fun p => getCtx s ⟨p.1.1, p.1.2, p.2⟩

/-- The event of a run's own that stops it. -/
def runFault (s : State) (r : Run) : Option (Nat × Nat × Nat) :=
  (runCtxs s r).foldl (fun x c => firstStop x (coreStop c)) (firstStop r.halt r.late)

/-- The event that stops a run, of its own or the loss of a stack (R344, R372, R386). -/
def runStop (s : State) (r : Run) : Option (Nat × Nat × Nat) := firstStop (runFault s r) (r.lost.map lossOf)

/-- A stopping event that is a detection of a protected run. -/
def detection (cls detail : Nat) : Bool :=
  cls ≠ 0 && decide (4 * 2 ^ 20 + 0x40 ≤ detail) && decide (detail ≤ 4 * 2 ^ 20 + 0x43)

/-- Whether a run has cores and has not ended. -/
def runLives (r : Run) : Bool := r.phase = .loading || r.phase = .ready || r.phase = .running || r.phase = .suspended

/-- What stops one run at a boundary. -/
def settleRun (s : State) (id : Nat) : State :=
  match runOf s.dev id with
  | none => s
  | some r =>
    match launchOf s.dev r.launch with
    | none => s
    | some l =>
      if !runLives r then s
      else
        match runStop s r with
        | some (_, _, detail) =>
          if detail = 4 * 2 ^ 20 + 0x46 then loseRun s r 0
          else if detection l.recd.cls detail then loseRun s r (detail % 256)
          else terminate s l 3 detail
        | none => s

/-- Whether a launch's cancel precedes every event that stops it. -/
def cancelFirst (s : State) (l : Launch) : Bool :=
  match l.cancel with
  | none => false
  | some ck => (s.dev.runs.filter fun r => r.launch = l.id && runLives r).all fun r =>
      match runStop s r with
      | some (t, _, _) => decide (ck < t)
      | none => true

/-- Whether the event that stops one run comes before that of another (R344). -/
def stopsBefore (s : State) (a b : Run) : Bool :=
  match runStop s a, runStop s b with
  | some x, some y => !haltBefore y x
  | none, some _ => false
  | _, none => true

/-- A launch whose cancel precedes its stops ends CANCELLED (R169). One whose containment is being released ends so too, and what has been
released stands. DESIGN CHOICE, log entry 96. -/
def settleCancel (s : State) (l : Launch) : State :=
  match launchOf s.dev l.id with
  | some l => if l.placed && cancelFirst s l then terminate s l 4 0 else s
  | none => s

/-- Every stop that takes effect at a boundary; of two replicas of a launch the one stopped first is judged first (R344). -/
def settleAll (s : State) : State :=
  let s := s.dev.launches.foldl settleCancel s
  ((s.dev.runs.mergeSort (stopsBefore s)).map (·.id)).foldl settleRun s

/-- Whether a run has a core on a stack that has lost its domain. -/
def domainGone (d : Device) (r : Run) : Bool := r.cores.any fun p => (dieOf d p.1).state = 8

/-- The launches on stacks without their domain while the cores are parked, as at a boundary (R397); the others' stops wait for theirs. -/
def settleLost (s : State) : State :=
  let gone := s.dev.runs.filter (domainGone s.dev)
  let s := (s.dev.launches.filter fun l => gone.any fun r => r.launch = l.id).foldl settleCancel s
  (gone.map (·.id)).foldl settleRun s

/-! ### Pre-emption (R345 to R349) -/

/-- The held nest of a matrix engine whose launch is pre-empted (R324). -/
def holdNest (c : Ctx) : Ctx :=
  match matHead c with
  | some (op, o) =>
    if o.kind = 0 && op.prog ≠ .fresh then
      let m := showNest o (progNext op.prog) c.mx
      { c with mx := { m with actI5 := BitVec.ofNat 64 (m.actI5.toNat % 4096 + 4096) } }
    else c
  | none => c

/-- Whether a run is marked running: it runs, or it was restored and waits to go on (R345, R349). One that is loaded and has not begun is
not. DEDUCED, log entry 119. -/
def runGoes (r : Run) : Bool := r.phase = .running || (r.phase = .ready && r.nss ≠ 0)

/-- A run is suspended: its cores come free and, with no launch left, it may ask for the boundary that resumes it (R175, R349). -/
def markSuspended (d : Device) (r : Run) : Device :=
  let d := setRun d { r with phase := .suspended, preempt := false }
  { d with sun := { d.sun with want := true } }

/-- Suspend one run (R346): its matrix engines complete the commands they are performing (R323), and its contexts stay on
their cores. One that was restored and has not gone on since keeps its checkpoint. -/
def suspendRun (s : State) (r : Run) : State :=
  if r.phase = .ready then { s with dev := markSuspended s.dev r }
  else
  let s := (r.cores.zip r.parts).foldl (fun s p => endCmd s ⟨p.1.1, p.1.2, p.2⟩) s
  let s := s.mapCores fun k =>
    if k.mode = .active && k.ctx.run = r.id then
      { k with mode := .idle, ctx := Ctx.zero
               susp := k.susp ++ [holdNest { k.ctx with code := k.imem, codeGen := k.svGen }] }
    else k
  { s with dev := markSuspended s.dev { r with saved := false, resumeOdd := s.dev.sun.phase.toNat.testBit 0 } }

/-- Pre-empt a launch: its running replicas are suspended together, unless one of them has been stopped (R345). -/
def suspendLaunch (s : State) (id : Nat) : State :=
  let runs := s.dev.runs.filter fun r => r.launch = id && runGoes r
  if runs.any fun r => (runStop s r).isSome then s else runs.foldl suspendRun s

/-- CHECKPOINT SAVE: the halted cores of a launch have saved their contexts; `bad` tells of a write the hub failed or a
word that will not be read again (R348). With no launch running it asks for a boundary, so that what waits for it may start. DEDUCED,
log entry 107. -/
def execCheckpointSave (l : Nat) (bad : Bool) (s : State) : Out :=
  if s.dev.sun.parked then .next s
  else
    let due := fun (r : Run) => r.launch = l && (r.phase = .suspended || r.phase = .ready) && !r.saved
    let ids := (s.dev.runs.filter due).map (·.id)
    let s := s.mapCores fun k =>
      { k with susp := k.susp.map fun c => if ids.contains c.run then { c with dirty := [] } else c }
    .next { s with dev := { s.dev with
      sun := { s.dev.sun with want := s.dev.sun.want || !ids.isEmpty }
      runs := s.dev.runs.map fun r => if due r then { r with saved := true, badCkpt := bad } else r } }

/-- Whether no other context runs or is about to run on a run's cores (R349). -/
def coresClear (s : State) (r : Run) : Bool :=
  r.cores.all fun p =>
    (match coreAt s p.1 p.2 with
      | some k => k.mode = .idle
      | none => false) &&
    !(s.dev.runs.any fun x => x.id ≠ r.id && holdsCore x p.1 p.2)

/-- A context restored from its checkpoint: every register is written, so that only damaged cells keep an error, and nothing is dirty (R206,
R349). -/
def restored (c : Ctx) : Ctx :=
  { c with dirty := [], errS := errWritten c.errS, errV := errWritten c.errV, errP := errWritten c.errP }

/-- Whether a suspended run may be resumed: no core of its launch's suspended runs runs another context (R349). -/
def resumable (s : State) (r : Run) : Bool :=
  r.phase = .suspended && (s.dev.runs.filter fun x => x.launch = r.launch && x.phase = .suspended).all (coresClear s)

/-- Resume the suspended runs whose superstep is the one that begins (R346, R349): restored, they hold their cores. They go before a reserved
launch for which R185 holds those cores. DESIGN CHOICE, log entry 97. -/
def resumeRuns (s : State) : State :=
  (s.dev.runs.map (·.id)).foldl (fun s id =>
    match runOf s.dev id with
    | none => s
    | some r =>
      if r.resumeOdd ≠ s.dev.sun.phase.toNat.testBit 0 || !resumable s r then s
      else
        let s := s.mapCores fun k =>
          { k with susp := k.susp.map fun c => if c.run = id then restored c else c }
        { s with dev := setRun s.dev { r with phase := .ready, preempt := false } }) s

/-- Whether a loaded or restored run may begin with the superstep that begins: its kind is right, and the saves of every
context suspended on its cores, its own among them, are complete (R173, R348). -/
def mayStart (s : State) (r : Run) : Bool :=
  r.phase = .ready && r.resumeOdd = s.dev.sun.phase.toNat.testBit 0 &&
    (s.dev.runs.filter fun y => y.launch = r.launch && y.phase = .ready).all fun y =>
      y.saved && !(s.dev.runs.any fun x => x.phase = .suspended && !x.saved && x.cores.any fun p => y.cores.contains p)

/-- A run begins: its contexts stand on their cores with their instruction memory. -/
def startRun (s : State) (r : Run) : State :=
  let s := s.mapCores fun k =>
    match k.susp.find? fun c => c.run = r.id with
    | none => k
    | some c =>
      { k with mode := .active, ctx := { c with code := [], codeGen := 0 }, imem := c.code, svIfc := some c.ifc
               svGen := c.codeGen, susp := k.susp.filter fun x => x.run ≠ r.id }
  { s with dev := setRun s.dev { r with phase := .running, resumeOdd := false } }

/-- A run that may begin does; one whose checkpoint cannot be read, or was not written, ends its launch (R348). -/
def startOrEnd (s : State) (id : Nat) : State :=
  match runOf s.dev id with
  | none => s
  | some r =>
    match launchOf s.dev r.launch with
    | none => s
    | some l => if r.badCkpt then terminate s l 3 (4 * 2 ^ 20 + 0x02) else startRun s r

/-- Every run that may begin does. -/
def startRuns (s : State) : State := ((s.dev.runs.filter (mayStart s)).map (·.id)).foldl startOrEnd s

/-! ### Placement passes (R181 to R185, R363) -/

/-- The share of an interface in the present mode (R177, R182). -/
def shareNow (d : Device) (fn : Nat) : Nat :=
  if d.sun.metered || d.sun.modeIfc = fn + 1 then shareOf (ifcOf d fn) else 0

/-- Pick a head of an interface outside the blocked queues (R181): the highest priority, then the first at or after its
rotating pointer. -/
def pickHead (s : State) (fn : Nat) (blocked : List Nat) : State × Option (Launch × Nat) :=
  let nq := nqOf (ifcOf s.dev fn)
  let (s, heads) := (List.range nq).foldl (fun (x : State × List Launch) j =>
    if blocked.contains j then x
    else
      let q := queueOf x.1.dev (devQueue x.1.dev fn j)
      if !q.en && q.fetched.isNone then x
      else
        match queueHead x.1 fn j with
        | (s, some l) => (s, x.2 ++ [l])
        | (s, none) => (s, x.2)) (s, [])
  let priOf := fun (l : Launch) => (queueOf s.dev (devQueue s.dev fn l.queue)).pri
  match heads with
  | [] => (s, none)
  | h :: r =>
    let pri := r.foldl (fun m l => min m (priOf l)) (priOf h)
    let at' := look 0 s.dev.rot (8 * fn + pri)
    let key := fun (l : Launch) => (l.queue + nq - at' % nq) % nq
    let same := heads.filter fun l => priOf l = pri
    (s, (same.foldl (fun (b : Option Launch) l => match b with
      | none => some l
      | some x => if key l < key x then some l else some x) none).map fun l => (l, pri))

/-- The cores held for a reserved launch other than `l`. -/
def heldFrom (s : State) (l : Launch) : List (Nat × Nat) :=
  match s.dev.reserved.bind (launchOf s.dev) with
  | some x => if x.id = l.id then [] else (heldSeats s x).map fun a => (a.sk, a.ix)
  | none => []

/-- The cores of its width that a launch could have on a stack: free, being lasted, and, in the first part of the answer, such as
could be lasted besides. -/
def coresIn (s : State) (l : Launch) (held : List (Nat × Nat)) (sk : Nat) : Nat × Nat :=
  let have' := (seatsFor s l sk).length + beingLasted s l.recd.gang sk
  (have' + lastable s held l.recd.gang sk, have')

/-- The stacks, with the cores still to be lasted on them, for a launch that needs `n` cores on one stack outside some domains. -/
def lastOne (s : State) (l : Launch) (held : List (Nat × Nat)) (bad order : List Nat) : Option (Nat × Nat) :=
  (order.find? fun sk => !bad.contains (sk / 4) && decide (l.recd.ncore ≤ (coresIn s l held sk).1)).map fun sk =>
    (sk, l.recd.ncore - (coresIn s l held sk).2)

/-- The lastings a placement that failed for lack of cores asks for (R184): a launch of class D on the stacks it could then have, one
for each replica, any other within the first SPAN stacks that could give it a core. -/
def askLasting (s : State) (l : Launch) : State :=
  let held := heldFrom s l
  let order := visit (if s.dev.reserved = some l.id then s.dev.resPtr else s.dev.placePtr)
  let last := fun (s : State) (p : Option (Nat × Nat)) => match p with
    | some (sk, n) => lastFor s held l.recd.gang [sk] n
    | none => s
  if l.wantTie then last s (lastOne s l held (l.avoid.map (· / 4)) order)
  else if l.recd.cls = 2 then
    match lastOne s l held [] order with
    | none => s
    | some (a, n) => last (last s (some (a, n))) (lastOne s l held [a / 4] ((order.dropWhile (· ≠ a)).drop 1))
  else
    let order := if l.wantRerun then order.filter fun sk => !l.avoid.contains sk else order
    let window := (order.filter fun sk => (coresIn s l held sk).1 ≠ 0).take (spanLimit l)
    lastFor s held l.recd.gang window (l.recd.ncore - window.foldl (fun n sk => n + (coresIn s l held sk).2) 0)

/-- Whether a failed placement failed for lack of cores, not because no partition meets its record, nor for lack of containment (R171, R184,
R366). -/
def coresShort (d : Device) (l : Launch) : Bool :=
  partMeets d l.recd && !(l.recd.cls = 2 && !recovering l && decide (callotOf (ifcOf d l.ifc) < 2 * l.recd.contain + unitsHeld d l.ifc l.id))

/-- A launch becomes the reserved one (R185). -/
def reserve (s : State) (l : Launch) : State :=
  { s with dev := { s.dev with reserved := some l.id, resPtr := s.dev.placePtr, resPair := fixPair s l s.dev.placePtr } }

/-- The launch that waits to be reserved: the first recovery placement that has failed 64 passes (R363), else, of the launches with 64
skips, the one with the most, and the older of two (R185). DESIGN CHOICE, log entry 105. -/
def nextReserved (d : Device) : Option Launch :=
  ((d.launches.filter fun l => recovering l && decide (64 ≤ l.recFails)).mergeSort fun a b => decide (a.order ≤ b.order)).head?.orElse
    fun _ => ((d.launches.filter fun l => !recovering l && !l.placed && l.cancel.isNone && decide (64 ≤ l.skips)).mergeSort
      fun a b => decide (b.skips < a.skips) || (a.skips = b.skips && decide (a.id ≤ b.id))).head?

/-- A launch that waits to be reserved is, as soon as no other is (R185, R363). -/
def reserveWaiting (s : State) : State :=
  if s.dev.reserved.isSome then s
  else
    match nextReserved s.dev with
    | some l => reserve s l
    | none => s

/-- A placement that failed: a skip, lastings, and at 64 skips the reservation, unless another launch goes before it. -/
def skipped (s : State) (l : Launch) : State :=
  let s := { s with dev := setLaunch s.dev { l with skips := l.skips + 1 } }
  reserveWaiting (if coresShort s.dev l then askLasting s l else s)

/-- What a launch costs its interface (R182). -/
def costOf (l : Launch) : Nat := l.recd.ncore * l.recd.gang * (if l.recd.cls = 2 then 2 else 1)

/-- The loop of one interface in R182: deficit, blocked queues; `n` bounds the turns. -/
def passLoop (s : State) (fn : Nat) (deficit : Nat) (blocked : List Nat) : Nat → State × Nat
  | 0 => (s, deficit)
  | n + 1 =>
    match pickHead s fn blocked with
    | (s, none) => (s, deficit)
    | (s, some (l, pri)) =>
      let s := { s with dev := { s.dev with rot := store 0 s.dev.rot (8 * fn + pri) (l.queue + 1) } }
      if deficit < costOf l then (s, deficit)
      else
        match planFor s l with
        | some plan =>
          let s := reserveWaiting { s with dev := advanceHead (commitPlace s.dev l plan) l }
          passLoop s fn (deficit - costOf l) blocked n
        | none => passLoop (skipped s l) fn deficit (l.queue :: blocked) n

/-- The reserved launch of an interface is placed before its loop once the held cores suffice, whatever the deficit, which it takes as far
as it goes (R185). DESIGN CHOICE, log entry 105. -/
def placeReserved (s : State) (fn deficit : Nat) : State × Nat :=
  match s.dev.reserved.bind (launchOf s.dev) with
  | none => (s, deficit)
  | some l =>
    if recovering l || l.ifc ≠ fn || l.cancel.isSome then (s, deficit)
    else
      match planFor s l with
      | some plan => (reserveWaiting { s with dev := advanceHead (commitPlace s.dev l plan) l }, deficit - costOf l)
      | none => (s, deficit)

/-- One interface of a pass (R182). -/
def passIfc (s : State) (fn : Nat) : State :=
  let w := shareNow s.dev fn
  if w = 0 then s
  else
    match pickHead s fn [] with
    | (s, none) => { s with dev := setIfc s.dev fn { ifcOf s.dev fn with deficit := 0 } }
    | (s, some _) =>
      let d := min ((ifcOf s.dev fn).deficit + 48 * w) 3072
      let (s, d) := placeReserved s fn d
      let (s, d) := passLoop s fn d [] 12000
      { s with dev := setIfc s.dev fn { ifcOf s.dev fn with deficit := d } }

/-- The cores of a group of stacks that a launch's running runs hold at a width. -/
def coresOn (s : State) (x : Launch) (gang : Nat) (sks : List Nat) : Nat :=
  ((s.dev.runs.filter fun r => r.launch = x.id && runGoes r).flatMap fun r =>
    r.cores.filter fun p => sks.contains p.1 && usable s.dev p.1 && (match coreAt s p.1 p.2 with
      | some k => k.gang = gang
      | none => false)).length

/-- The running launches on the cores that the reserved one lacks are pre-empted, until enough are freed: those of the interface with the
lowest deficit first, then the most recently placed (R185). -/
def evict (s : State) (l : Launch) : State :=
  let gain := fun (x : Launch) (g : List Nat × Nat) => coresOn s x l.recd.gang g.1
  let placedAt := fun (x : Launch) => (s.dev.runs.filter fun r => r.launch = x.id).foldl (fun n r => max n r.id) 0
  let before := fun (a b : Launch) =>
    let da := (ifcOf s.dev a.ifc).deficit
    let db := (ifcOf s.dev b.ifc).deficit
    decide (da < db) || (da = db && decide (placedAt b ≤ placedAt a))
  (((s.dev.launches.filter fun x => x.id ≠ l.id).mergeSort before).foldl (fun (x : State × List (List Nat × Nat)) a =>
    if x.2.any fun g => g.2 ≠ 0 && gain a g ≠ 0 then (suspendLaunch x.1 a.id, x.2.map fun g => (g.1, g.2 - gain a g)) else x)
    (s, lacks s l)).1

/-- The reserved launch is served (R185): its pair of stacks is fixed, and in metered mode launches are pre-empted for the cores it
lacks. A recovery placement is then placed, in a placement pass (`pass`), or asks for lastings (R184); any other is placed when its
interface is visited, which it charges. -/
def serveReserved (s : State) (pass : Bool) : State :=
  let s := reserveWaiting s
  match s.dev.reserved.bind (launchOf s.dev) with
  | none => s
  | some l =>
    let s := if s.dev.resPair.isNone && l.recd.cls = 2 && !recovering l then
      { s with dev := { s.dev with resPair := fixPair s l s.dev.resPtr } } else s
    let s := if s.dev.sun.metered && (planFor s l).isNone then evict s l else s
    if pass && recovering l then
      match planFor s l with
      | some p => reserveWaiting { s with dev := commitPlace s.dev l p }
      | none => if coresShort s.dev l then askLasting s l else s
    else s

/-- One waiting recovery placement (R363). It is tried in free mode too when the free-mode interface's share has been written to 0.
DESIGN CHOICE, log entry 98. -/
def tryRecovery (s : State) (id : Nat) : State :=
  match launchOf s.dev id with
  | none => s
  | some l =>
    if !recovering l || s.dev.reserved = some id then s
    else
      match planFor s l with
      | some p => { s with dev := commitPlace s.dev l p }
      | none =>
        let l' := { l with recFails := l.recFails + 1 }
        let s := { s with dev := setLaunch s.dev l' }
        reserveWaiting (if coresShort s.dev l' then askLasting s l' else s)

/-- Cancelled launches that have been fetched or wait for recovery, and are not placed, terminate (R169). -/
def dropCancelled (s : State) : State :=
  s.dev.launches.foldl (fun s l =>
    match launchOf s.dev l.id with
    | some l =>
      if l.cancel.isSome && !(s.dev.runs.any fun r => r.launch = l.id && runLives r) then
        let s := if l.placed then s else { s with dev := advanceHead s.dev l }
        terminate s l 4 0
      else s
    | none => s) s

/-- A placement pass (R177, R182). In the free mode of reset, which nobody has selected, the free-mode interface is the lowest with
nonzero share at the first pass (DESIGN CHOICE, log entry 72); while a selection of the mode is held, no interface is visited and
ptr and the deficits stay as they are (DESIGN CHOICE, log entry 73). -/
def placementPass (s : State) : State :=
  let s := dropCancelled s
  let d := s.dev
  let first := (List.range 64).find? fun fn => shareOf (ifcOf d fn) ≠ 0
  let d := if d.sun.metered || d.sun.modeIfc ≠ 0 then d
    else match first with
      | some fn => { d with sun := { d.sun with modeIfc := fn + 1 } }
      | none => d
  let s := { s with dev := d }
  let held := d.sun.heldMode.isSome
  let s := serveReserved s true
  let order := (s.dev.launches.filter recovering).mergeSort fun a b => decide (a.order ≤ b.order)
  let s := (order.map (·.id)).foldl tryRecovery s
  if held then s
  else
    let s := ((List.range 64).map fun k => (s.dev.ptr + k) % 64).foldl passIfc s
    { s with dev := { s.dev with ptr := (s.dev.ptr + 1) % 64 } }

end Sys2Proof.Machine
end

