-- ==== Sys2Proof/Machine/Dies.lean ====
section
/-! DEFINITION. Dies (R378 to R388, R393, R397, R418): status, quiesce, fence, reset and self-test, the loss and return of
a voltage domain, and the interposer links with their shadow lanes. -/
namespace Sys2Proof.Machine
open Sys2Proof

/-! ### Status (Table 17.3) -/

/-- Whether a die can be reset alone: compute stacks and fabric dies (Table 17.1). -/
def resettable (sk : Nat) : Bool := decide (sk < 16) || (decide (21 ≤ sk) && decide (sk ≤ 23))

/-- Whether transactions of a die are outstanding: writes in its global buffer that no hub has accepted, walks, accesses to spans of
global memory, and what waits for it at a hub (R385). -/
def outstanding (d : Device) (sk : Nat) : Bool :=
  !(look [] d.gbuf sk).isEmpty || (d.walks.any fun w => w.die = sk) || (d.spans.any fun x => x.die = sk && x.out) ||
    d.hbm.waits.any fun x => x.asker.die = sk

/-- Whether an access that waits at its hub is a write the hub has accepted, which is performed in full (R385). -/
def acceptedWrite (o : HubOp) : Bool :=
  match o with
  | .read | .amo _ _ _ _ _ => false
  | .write _ | .put _ => true

/-- The state of a die as DIESTAT shows it: 6 while a compute stack is parked, and an HBM stack's is its hub's (R382,
R396). -/
def stateShown (d : Device) (sk : Nat) : Nat :=
  if sk < 16 && d.sun.parked && !dieFenced d sk then 6
  else if 24 ≤ sk then (dieOf d (16 + (sk - 24) / 4)).state
  else (dieOf d sk).state

/-- What a die's global buffer and translation cache hold is gone, with its walks and its outstanding accesses; a write that a hub has
accepted is performed in full (R385, R397). -/
def dropBuffers (d : Device) (sk : Nat) : Device :=
  { d with gbuf := store [] d.gbuf sk [], copies := store [] d.copies sk [], observed := store [] d.observed sk []
           released := store [] d.released sk [], seen := d.seen.filter fun x => x.cref.sk ≠ sk
           walks := d.walks.filter fun w => w.die ≠ sk, tlb := store [] d.tlb sk []
           spans := d.spans.map fun x => if x.die = sk then { x with out := false } else x
           hbm := { d.hbm with waits := d.hbm.waits.filter fun x => x.asker.die ≠ sk || acceptedWrite x.op } }

/-- The 24 ports of a fabric die (R418). -/
def diePorts (sk : Nat) : List Nat := (List.range 24).map (24 * (sk - 21) + ·)

/-- The ports of a fabric die go DOWN; those that were UP leave the trees (R418, R422, R446). -/
def portsLeave (s : State) (sk : Nat) : State :=
  let up := (diePorts sk).any (portUp s.dev)
  let live := (diePorts sk).filter fun p => (portOf s.dev p).state ≠ 0 && (portOf s.dev p).state ≠ 4
  let s := { s with dev := live.foldl (fun d p => portState d p 0 leaveUp) s.dev }
  if up then portsChanged s else s

/-- The ports of a fabric die that are DOWN train; one without a cable stays DOWN (R422, R447). Which have one, the board decides: log
entry 93. -/
def portsTrain (d : Device) (sk : Nat) : Device :=
  ((diePorts sk).filter fun p => (portOf d p).state = 0 && Config.cabled p).foldl (fun d p => portState d p 1 id) d

/-! ### Quiesce, fence, reset (R384, R385) -/

/-- Step 4: the die's interposer ports are fenced. A forced fence drops what is outstanding. -/
def fenceDie (d : Device) (sk : Nat) (forced : Bool) : Device :=
  let late := forced && outstanding d sk
  dropBuffers (setDie d sk { dieOf d sk with state := 4, forced := late }) sk

/-- Step 3: the die quiesces, with its deadline; what the engines of a stack had left to do is gone with its launches. With QDL = 0
the deadline expires in the same ck, so nothing drains (R385). -/
def startQuiesce (s : State) (sk : Nat) : State :=
  let x := dieOf s.dev sk
  let s := { s with dev := setDie s.dev sk { x with state := 3, deadline := s.dev.clock + 1024 * x.qdl } }
  let s := if 21 ≤ sk then portsLeave s sk else s
  if x.qdl = 0 then { s with dev := fenceDie s.dev sk true } else s

/-- Bundles after a reset: nothing carried by a shadow lane, and the next turn at the next 2^20 ck of the device clock. -/
def Bundles.fresh (clock : Nat) : Bundles := { Bundles.zero with period := clock / 2 ^ 20 }

/-- The ports of a fabric die, with their bundles, after its reset: every change of STATE raises the vector (R418, R422). -/
def resetPorts (d : Device) (sk : Nat) : Device :=
  let d := (diePorts sk).foldl (fun d p =>
    match (portOf d p).state with
    | 4 => d
    | 0 => setPort d p Port.zero
    | _ => portState d p 0 fun _ => Port.zero) d
  { d with bundles := (List.range 3).foldl (fun t k => store Bundles.zero t (3 * (sk - 21) + k) (Bundles.fresh d.clock)) d.bundles }

/-- The shadow lanes of a group of bundles turn once in every 2^20 ck of the device clock: in each bundle whose shadow lane is not
permanently used, it takes over the next data lane (R387). -/
def turnShadows (b : Bundles) (clock : Nat) : Bundles :=
  let n := clock / 2 ^ 20 - b.period
  if n = 0 then b else { b with period := clock / 2 ^ 20, rotor := (b.rotor + n - 1) % 8 + 1 }

/-- Step 5: the die is reset and runs its self-test: every SRAM of it is zero, its link starts afresh. -/
def resetDie (s : State) (sk : Nat) : State :=
  let x := dieOf s.dev sk
  let d := dropBuffers (setDie s.dev sk { x with
    state := 5, resets := min 255 (x.resets + 1), shadow := 0, retrain := 0, bundles := Bundles.fresh s.dev.clock, retrainFails := 0
    retraining := false, retrainEnds := 0, ask := false, direct := false }) sk
  { s with dev := if 21 ≤ sk then resetPorts d sk else d }.mapCores fun k => if k.sk = sk then k.cleared else k

/-- Whether the sequence of a die has been asked for and step 3 has not begun (R372, R384). -/
def quiesceAsked (d : Device) (sk : Nat) : Bool := (dieOf d sk).state = 2 && (dieOf d sk).ask

/-- Step 3 begins, in boundary work, on the dies of a list that have been asked. -/
def quiesceAll (s : State) (l : List Nat) : State :=
  l.foldl (fun s sk => if quiesceAsked s.dev sk then startQuiesce s sk else s) s

/-- The dies that can be reset alone. -/
def resettables : List Nat := List.range 16 ++ [21, 22, 23]

/-- What every ck brings for one of them: a fenced die resets, a deadline that has expired forces the fence, and a die that had no
launch on it when it was asked quiesces in the ck after the request. -/
def tickDie (s : State) (sk : Nat) : State :=
  let x := dieOf s.dev sk
  if x.state = 4 then resetDie s sk
  else if x.state = 3 && decide (x.deadline ≤ s.dev.clock) then { s with dev := fenceDie s.dev sk true }
  else if quiesceAsked s.dev sk && x.direct then startQuiesce s sk
  else s

/-- A retrain whose pause has lasted 16,384 ck is over: the link works again (R388). DEDUCED, log entry 65. -/
def retrainDue (d : Device) (sk : Nat) : Device :=
  let x := dieOf d sk
  if x.retraining && decide (x.retrainEnds ≤ d.clock) then setDie d sk { x with retraining := false, retrainFails := 0 } else d

/-- The scale-up bundle b (R418). -/
def bundleOf (d : Device) (b : Nat) : Bundles := look Bundles.zero d.bundles b

/-- Replace a scale-up bundle. -/
def setBundle (d : Device) (b : Nat) (x : Bundles) : Device := { d with bundles := store Bundles.zero d.bundles b x }

/-- The shadow lanes of the links of a die that is not fenced turn when their period has passed. -/
def turnLink (d : Device) (sk : Nat) : Device :=
  let x := dieOf d sk
  if dieFenced d sk then d else setDie d sk { x with bundles := turnShadows x.bundles d.clock }

/-- Those of a scale-up bundle. -/
def turnBundle (d : Device) (b : Nat) : Device := setBundle d b (turnShadows (bundleOf d b) d.clock)

/-- At the end of every 2^20 ck of the device clock the shadow lanes of every link turn (R387). -/
def turnAll (d : Device) : Device :=
  if d.clock % 2 ^ 20 = 0 && d.clock ≠ 0 then (List.range 9).foldl turnBundle ((List.range 40).foldl turnLink d) else d

/-- What every ck brings for the dies. -/
def tickDies (s : State) : State :=
  let s := resettables.foldl tickDie s
  { s with dev := turnAll ((List.range 24).foldl retrainDue s.dev) }

/-- QUIESCE REQUEST: a write of DIECTL (Table 17.3): QDL, and QREQ, which asks for the sequence while STATE reads 2 and is ignored
otherwise. A QREQ written to 0 after the request clears the bit and leaves the sequence. DESIGN CHOICE, log entry 77. -/
def execQuiesceRequest (sk : Nat) (v : Word) (s : State) : Out :=
  if 40 ≤ sk || s.dev.mgmt.recovery then .next s
  else
    let open' := stateShown s.dev sk = 2 && resettable sk
    let x := { dieOf s.dev sk with qdl := bitsOf v.toNat 8 8 }
    let x := if open' then { x with qreq := bitOf v.toNat 0 } else x
    let d := setDie s.dev sk x
    .next { s with dev := if open' && bitOf v.toNat 0 then askQuiesce d sk else d }

/-- QUIESCE DEADLINE: a deadline that has expired forces the fence (R385). -/
def execQuiesceDeadline (sk : Nat) (s : State) : Out :=
  let x := dieOf s.dev sk
  if x.state = 3 && decide (x.deadline ≤ s.dev.clock) && !s.dev.sun.parked then .next { s with dev := fenceDie s.dev sk true }
  else .next s

/-- DIE FENCE: nothing of a quiescing die is outstanding, so its ports are fenced; the reset follows (R384). -/
def execDieFence (sk : Nat) (s : State) : Out :=
  if (dieOf s.dev sk).state = 3 && !outstanding s.dev sk && !s.dev.sun.parked then
    .next { s with dev := fenceDie s.dev sk false }
  else .next s

/-- A failed test of a die other than a stack fails the package (R391, R392). -/
def packageTestFails (d : Device) : Device := raiseVec { d with mgmt := { d.mgmt with stfail := true } } 0 2

/-- Whether a bundle with two failing lanes was found (Table 17.5). -/
def lanesFail (r : TestReport) : Bool := r.lanes.any fun p => decide (2 ≤ p.2)

/-- A die's self-test ends: a stack receives its default lasting, and the ports of a fabric die train; the die is READY, or stays
fenced when it is retired, and step 4 of its retirement follows (R372, R384, R393). -/
def dieReady (s : State) (sk : Nat) (df : Defects) : State :=
  let s := if sk < 16 then defaultLasting s sk df else s
  let st := if decide (sk < 16) && look false s.dev.mgmt.retired sk then 7 else 2
  let d := setDie s.dev sk { dieOf s.dev sk with state := st, qreq := false, ask := false, direct := false }
  let d := if 21 ≤ sk && decide (sk ≤ 23) then portsTrain d sk else d
  { s with dev := retireLogged { d with sun := { d.sun with want := true } } sk }

/-- DIE SELF-TEST DONE (R384, R393): a fabric die with two failing lanes in a bundle, or any die but a stack with a failing SRAM,
fails the package. -/
def execDieSelfTestDone (sk : Nat) (df : Defects) (r : TestReport) (s : State) : Out :=
  let st := (dieOf s.dev sk).state
  if 40 ≤ sk || !(st = 1 || st = 5) || s.dev.sun.parked || s.dev.mgmt.selfTest || s.dev.mgmt.inReset then .next s
  else if decide (16 ≤ sk) && decide (sk < 24) && (lanesFail r || r.sram.contains sk) then
    .next { s with dev := packageTestFails s.dev }
  else .next (dieReady s sk df)

/-! ### Retirement by software (R371) -/

/-- A write of CBSCOREn: the score, and RETIRED: 0 to 1 retires, and 1 to 0 returns the stack at the end of its next die reset and
self-test: a retired die starts again from step 5, and a sequence under way goes on (R371, R384). -/
def writeCbscore (s : State) (n : Nat) (v : Word) : State :=
  let d := { s.dev with mgmt := { s.dev.mgmt with cbscore := store 0 s.dev.mgmt.cbscore n (bitsOf v.toNat 0 16) } }
  let was := look false d.mgmt.retired n
  if bitOf v.toNat 16 && !was then
    let d := retireStack d n Who.none
    { s with dev := { d with sun := { d.sun with want := true } } }
  else if !bitOf v.toNat 16 && was then
    let d := { d with mgmt := { d.mgmt with retired := store false d.mgmt.retired n false } }
    let s := { s with dev := d }
    if (dieOf d n).state = 7 then resetDie s n else s
  else { s with dev := d }

/-- CB RETIRE WRITE: a write of CBSCOREn with RETIRED = 1. -/
def execCbRetireWrite (n : Nat) (v : Word) (s : State) : Out :=
  .next (if n < 16 && !s.dev.mgmt.recovery then writeCbscore s n (v ||| 0x10000) else s)
/-- CB RETURN WRITE: a write of CBSCOREn with RETIRED = 0. -/
def execCbReturnWrite (n : Nat) (v : Word) (s : State) : Out :=
  .next (if n < 16 && !s.dev.mgmt.recovery then writeCbscore s n (v &&& ~~~0x10000) else s)

/-! ### Voltage domains (R397) -/

/-- A rail's voltage, in tenths of a percent of its set point. -/
def setRail (d : Device) (n v : Nat) : Device :=
  { d with power := { d.power with rails := store 1000 d.power.rails n v } }

/-- A stack loses its supply: it is fenced at once, and the runs on it keep when (R344, R386). -/
def loseStack (d : Device) (sk : Nat) : Device :=
  let d := markLost d sk
  dropBuffers (setDie d sk { dieOf d sk with state := 8, qreq := false, ask := false, direct := false }) sk

/-- The four stacks of a domain. -/
def domainStacks (v : Nat) : List Nat := (List.range 4).map (4 * v + ·)

/-- A voltage domain that is not lost yet is lost; while the cores are parked its launches are handled at once (R397). -/
def loseDomain (s : State) (n : Nat) : State :=
  if look false s.dev.power.lost n then s
  else
    let d := (domainStacks n).foldl loseStack s.dev
    let s := { s with dev := { d with power := { d.power with lost := store false d.power.lost n true } } }
    if d.sun.parked then settleLost s else s

/-- DOMAIN LOSS: rail VDn below 80% of its set point, or a fault of its regulator (R395, R397); `v` is in tenths of a
percent. -/
def execDomainLoss (n v : Nat) (regFault : Bool) (s : State) : Out :=
  if 4 ≤ n || !s.dev.power.on || !(regFault || decide (v < 800)) then .next s
  else .next (loseDomain { s with dev := setRail s.dev n v } n)

/-- DOMAIN RETURN: the rail has been at or above 98% for 1 ms with its regulator fault cleared; the stacks reset and run
their self-test (R397). -/
def execDomainReturn (n : Nat) (r : RailFault) (s : State) : Out :=
  if 4 ≤ n || !s.dev.power.on || decide (r.v < 980) || r.regFault || !look false s.dev.power.lost n then .next s
  else
    let d := setRail s.dev n r.v
    let d := { d with power := { d.power with lost := store false d.power.lost n false } }
    .next ((domainStacks n).foldl resetDie { s with dev := d })

/-! ### Package failure (R379) -/

/-- Every launch is lost, with everything under way; the package is unpowered until the next power-on. -/
def powerFail (s : State) : State :=
  let d := s.dev
  { s with dev := { d with
      launches := [], runs := [], cols := [], reserved := none, resPair := none, lastings := [], gbuf := [], copies := []
      observed := [], released := [], seen := [], walks := [], owed := [], drains := [], endings := [], cancels := []
      spans := [], posted := [], mgmtReqs := [], resets := [], hbm := { d.hbm with waits := [], answers := [], changed := [] }
      dies := (List.range 40).map fun k => (k, { dieOf d k with state := 0 })
      sun := { d.sun with work := 0, want := false, parked := false, holdAsked := false }
      power := { d.power with on := false, failed := true } } }.mapCores Core.cleared

/-! ### Links (R387, R388) -/

/-- A link starts to retrain in place: its traffic pauses, for at most 16,384 ck. -/
def startRetrain (d : Device) (sk : Nat) : Device :=
  let x := dieOf d sk
  setDie d sk { x with retraining := true, retrain := min 255 (x.retrain + 1), retrainEnds := d.clock + 16384 }

/-- Whether an eye margin, in 1/128 UI, fails its lane (R388). -/
def laneBad (margin : Nat) : Bool := decide (margin < 8)


/-- A calibration of lane `lane` (8 the shadow lane) of a bundle of a die's interposer link: a data lane that fails is replaced by the
shadow lane for good, or, when that is in use for another, the link is lost for now (R388). -/
def laneCalibrated (d : Device) (sk b lane margin : Nat) : Device :=
  let d := sample d (23 + sk) (margin : Nat)
  let x := dieOf d sk
  let u := look 0 x.bundles.used b
  if !laneBad margin || decide (8 ≤ lane) || u = lane + 1 then d
  else if u = 0 then
    setDie d sk { x with
      bundles := { x.bundles with used := store 0 x.bundles.used b (lane + 1) }, shadow := min 255 (x.shadow + 1) }
  else if sk < 16 then askQuiesce d sk
  else if sk < 24 && !x.retraining then startRetrain d sk
  else d

/-- A calibration of a lane of a scale-up bundle: the shadow lane carries the port of a lane that fails, or, when it is in use, the
port retrains; a shadow lane that fails is given up until reset (R418). -/
def portLaneCalibrated (s : State) (b lane margin : Nat) : State :=
  let s := { s with dev := sample s.dev (63 + b) (margin : Nat) }
  let x := bundleOf s.dev b
  let u := look 0 x.used 0
  let use := fun (v : Nat) => { s with dev := setBundle s.dev b { x with used := store 0 x.used 0 v } }
  if !laneBad margin || u = lane + 1 then s
  else if 8 ≤ lane then use 9
  else if u = 0 then use (lane + 1)
  else if portGoes s.dev (8 * b + lane) then retrainPort s (8 * b + lane)
  else s

/-- Whether the shadow lane of its bundle carries a port's lane: permanently, or in its turn (R387, R418, Table 18.9). -/
def portShadow (d : Device) (p : Nat) : Bool :=
  let x := bundleOf d (p / 8)
  let u := look 0 x.used 0
  u = p % 8 + 1 || (u = 0 && x.rotor = p % 8 + 1)

/-- SHADOW ROTATION: the shadow lanes of a link turn, when their period has passed, and lanes are calibrated, with the eye margins
given as (bundle, lane, margin in 1/128 UI) (R387, R388, R399). Sockets 40 to 48 stand for scale-up bundles 0 to 8, which go on
calibrating in a hold (R396). -/
def execShadowRotation (sk : Nat) (margins : List (Nat × Nat × Nat)) (s : State) : Out :=
  if 49 ≤ sk then .next s
  else if 40 ≤ sk then
    let b := sk - 40
    let s := { s with dev := turnBundle s.dev b }
    .next (margins.foldl (fun s p => portLaneCalibrated s b p.2.1 p.2.2) s)
  else if s.dev.sun.parked || dieFenced s.dev sk then .next s
  else .next { s with dev := margins.foldl (fun d p => laneCalibrated d sk p.1 p.2.1 p.2.2) (turnLink s.dev sk) }

/-- LINK RETRAIN: the link of a hub, the host die or a fabric die retrains in place (R388); none does in a hold (R396). -/
def execLinkRetrain (sk : Nat) (s : State) : Out :=
  if 16 ≤ sk && decide (sk < 24) && !(dieOf s.dev sk).retraining && !s.dev.sun.parked then
    .next { s with dev := startRetrain s.dev sk }
  else .next s

/-- INTERPOSER RETRAIN COMPLETE: traffic resumes; a third failure in a row is a package power failure for a hub or the host
die and a reset for a fabric die, and an earlier failure is tried again (R388). No link retrains in a hold (R396). -/
def execInterposerRetrainComplete (sk : Nat) (ok : Bool) (s : State) : Out :=
  let x := dieOf s.dev sk
  if !x.retraining || s.dev.sun.parked then .next s
  else if ok then .next { s with dev := setDie s.dev sk { x with retraining := false, retrainFails := 0 } }
  else if x.retrainFails < 2 then
    .next { s with dev := startRetrain (setDie s.dev sk { x with retrainFails := x.retrainFails + 1 }) sk }
  else if sk < 21 then .next (powerFail s)
  else .next { s with dev := askQuiesce (setDie s.dev sk { x with retraining := false, retrainFails := 0 }) sk }

end Sys2Proof.Machine
end

