-- ==== Sys2Proof/Machine/Sundial.lean ====
section
/-! DEFINITION. The Sundial (R174 to R178, R351) at the end of every ck of the device: boundary work in its
order, budgets and stragglers, the chip wall, the hold; score decay (R370) and the free-mode cancel (R169). -/
namespace Sys2Proof.Machine
open Sys2Proof

/-! ### Samples from outside (R399) -/

/-- One read in 64 of an HBM stack is a sample of its latency, `v` in units of 4 ck. -/
def latencySample (d : Device) (x : Nat) (v : Int) : Device :=
  sample { d with hbm := { d.hbm with reads := store 0 d.hbm.reads x (look 0 d.hbm.reads x - 64) } } x v

/-- The latency samples that are due and that nothing has told, one for every 64 reads of a stack: a free value each, log entry 94. -/
def latencyDue (d : Device) (x : Nat) : Device :=
  (List.range (look 0 d.hbm.reads x / 64)).foldl (fun d k => latencySample d x (Config.readLatency x (d.clock + 2 ^ 64 * k) : Nat)) d

/-- The latency samples of a ck. -/
def latencySamples (d : Device) : Device := (List.range 16).foldl latencyDue d

/-- The droop of a rail below its set point, in units of 0.125%. -/
def droopOf (d : Device) (n : Nat) : Int := (1000 - ((look 1000 d.power.rails n : Nat) : Int)) * 4 / 5

/-- The droop of rail VDn is sampled once in every 4,096 ck, `arrival` counting the device's ck, in a hold too. -/
def droopDue (arrival : Nat) (d : Device) (n : Nat) : Device :=
  let m := d.mgmt
  if look 0 m.monLast (19 + n) < arrival / 4096 then
    sample { d with mgmt := { m with monLast := store 0 m.monLast (19 + n) (arrival / 4096) } } (19 + n) (droopOf d n)
  else d

/-- The droop samples of a ck. -/
def droopSamples (arrival : Nat) (d : Device) : Device := (List.range 4).foldl (droopDue arrival) d

/-- MONITOR SAMPLE: the read latency of an HBM stack (0 to 15) once 64 reads of it stand to be sampled, or the droop of a rail (19 to 22)
once its 4,096 ck have passed, which is taken of the rail as the power monitor has it. The others sample at boundaries and calibrations. -/
def execMonitorSample (x : Nat) (v : Int) (s : State) : Out :=
  if x < 16 then
    if s.dev.sun.parked || decide (look 0 s.dev.hbm.reads x < 64) then .next s else .next { s with dev := latencySample s.dev x v }
  else if decide (19 ≤ x) && decide (x ≤ 22) then .next { s with dev := droopDue s.arrival s.dev (x - 19) }
  else .next s

/-! ### Which cores run, and which have arrived (R175, R353, R386) -/

/-- Whether a run has been stopped by a detection in an earlier ck (R353). -/
def runHalted (d : Device) (r : Run) : Bool :=
  match r.detCk with
  | some t => decide (t < d.clock)
  | none => false

/-- Whether a core's stream may take this ck: its launch runs in the superstep, nothing has stopped it, and the clock of
the cores is not held. -/
def coreGoes (s : State) (k : Core) : Bool :=
  k.mode = .active && s.dev.sun.work = 0 && !s.dev.sun.parked && !k.ctx.ended && k.ctx.stop.isNone &&
    !dieFenced s.dev k.sk &&
    (match runOf s.dev k.ctx.run with
      | some r => r.phase = .running && !runHalted s.dev r
      | none => false)

/-- Whether what has stopped a core counts as its arrival: a straggler's stop does so in free mode (R177, R331). -/
def stopArrives (d : Device) (c : Ctx) : Bool :=
  match c.stop with
  | none => false
  | some .straggler => !d.sun.metered
  | some _ => true

/-- Whether a core has arrived (R175, R177, R191, R331, R353, R386): it stands past its PHEND at U with nothing in flight, the ck of an
exit from a handler over, and in an exchange superstep its transfers delivered in an earlier ck. -/
def arrived (s : State) (k : Core) : Bool :=
  let c := k.ctx
  k.mode = .idle || c.ended || stopArrives s.dev c || dieFenced s.dev k.sk ||
    (match runOf s.dev c.run with
      | some r => r.phase ≠ .running || runHalted s.dev r
      | none => true) ||
    (c.phended && c.priv = .u && c.inflight.isEmpty && c.hold = 0 && (!exchange s || decide (c.xdone ≤ k.xclk)))

/-- The cores of a run. -/
def runCores (s : State) (r : Run) : List Core := s.cores.filter fun k => k.mode = .active && k.ctx.run = r.id

/-- Whether every core of a run has arrived. -/
def runArrived (s : State) (r : Run) : Bool := (runCores s r).all (arrived s)

/-- The runs of the superstep. -/
def running (d : Device) : List Run := d.runs.filter fun r => r.phase = .running

/-! ### Budgets (R176 to R178) -/

/-- A run's budget in the present phase. -/
def budgetOf (s : State) (r : Run) : Nat := if exchange s then r.xwall else r.sswall

/-- The chip wall of the superstep; 0 when there is none. It is taken anew in each ck over the launches still running, so that it may
come earlier once a launch has ended. DESIGN CHOICE, log entry 99. -/
def chipWall (s : State) : Nat := if s.dev.sun.metered then (running s.dev).foldl (fun m r => max m (budgetOf s r)) 0 else 0

/-- At the end of a run's budget its cores that have not arrived are stragglers and issue nothing further (R177, R178). -/
def judge (s : State) (r : Run) : State :=
  if budgetOf s r = 0 || s.dev.sun.ck ≠ budgetOf s r || r.late.isSome then s
  else
    match lowest (((runCores s r).filter fun k => !arrived s k).map fun k => k.ctx.coreId) with
    | none => s
    | some id =>
      let late := some (s.dev.clock, id, b2n (exchange s) * 2 ^ 20 + id)
      let stop := fun (k : Core) =>
        if k.mode = .active && k.ctx.run = r.id && !arrived s k then
          { k with ctx := { k.ctx with stop := some .straggler, stopCk := s.dev.clock } }
        else k
      let s := s.mapCores stop
      { s with dev := setRun s.dev { r with late := late } }

/-- BUDGET EXPIRY: the launches whose budget ends with this ck. -/
def judgeAll (s : State) : State := (running s.dev).foldl judge s

/-- BUDGET EXPIRY (R178). -/
def execBudgetExpiry (s : State) : Out := .next (judgeAll s)

/-! ### Declaring a boundary -/

/-- The length of the boundary work: at most 400 ck in metered mode (R175). -/
def workLength (d : Device) : Nat :=
  let n := max 1 (Config.boundaryWork d.clock)
  if d.sun.metered then min n 400 else n

/-- The samples of a boundary (Table 17.7): 16 the superstep's length, 17 each running launch's margin, 18 each core's
slack, 72 the containment in use. -/
def boundarySamples (s : State) : Device :=
  let d := sample s.dev 16 (s.dev.sun.ck / 16 : Nat)
  let live := s.dev.launches.filter fun l => (running s.dev).any fun r => r.launch = l.id
  let margin := fun (l : Launch) =>
    let rs := (running s.dev).filter fun r => r.launch = l.id
    if rs.any fun r => r.late.isSome || r.lastArr = 0 then 0
    else (rs.map (budgetOf s)).foldl max 0 - (rs.map (·.lastArr)).foldl max 0
  let d := if s.dev.sun.metered then live.foldl (fun d l => sample d 17 (margin l : Nat)) d else d
  let d := if exchange s then
      s.cores.foldl (fun d k => match k.mode, k.ctx.slack with
        | .active, some x => sample d 18 (x : Nat)
        | _, _ => d) d
    else d
  sample d 72 ((s.dev.runs.foldl (fun n r => n + containUsed r.cont) 0) / 512 : Nat)

/-! ### Boundary work (R175, R198 to R200, R346, R349, R360) -/

/-- Contexts whose staging has overflowed stop their launch, in the ck in which it did, those of a suspended launch too (R198, R344,
R347, Table 14.6). -/
def overflowStops (s : State) : State :=
  let spill := fun (r : Run) (c : Ctx) => match c.stOver with
    | some ck => haltRun r ck c.coreId (4 * 2 ^ 20 + 1)
    | none => r
  (s.dev.runs.filter runLives).foldl (fun s r => { s with dev := setRun s.dev ((runCtxs s r).foldl spill r) }) s

/-- Whether one staged byte comes before another: by tag, then sender, then issue (R199). -/
def stagedBefore (a b : Staged) : Bool :=
  decide (a.tag < b.tag) || (a.tag = b.tag && (decide (a.sender < b.sender) || (a.sender = b.sender && decide (a.seq ≤ b.seq))))

/-- The boundary write of a context's staging (R199). Staged writes that together cover a word write it whole. DESIGN CHOICE, log
entry 112. -/
def writeStaging (c : Ctx) : Ctx :=
  let bs := (c.staging.mergeSort stagedBefore).map fun x => (⟨x.addr, x.nibs, x.val⟩ : WByte)
  { storeLocal c 1 bs with staging := [], staged := 0, stOver := none }

/-- Every context's staging is written. -/
def flushStaging (s : State) : State :=
  let f := fun (c : Ctx) => if c.staging.isEmpty && c.staged = 0 then c else writeStaging c
  s.mapCores fun k => { k with ctx := f k.ctx, susp := k.susp.map f }

/-- The signature of the superstep just ended is combined into a run's launch signature (R360). -/
def combine (s : State) (r : Run) : State :=
  let b := (runCtxs s r).map fun c => BitVec.ofNat 8 (c.sigv0.toNat + 16 * c.sigv1.toNat)
  let ssig := crcBytes 0xFFFFFFFF b ^^^ 0xFFFFFFFF
  let lreg := BitVec.ofNat 32 (crcBytes r.lreg.toNat (toBytes 4 ssig))
  let s := s.mapCores fun k => if k.mode = .active && k.ctx.run = r.id then
    { k with ctx := { k.ctx with sigv0 := 0, sigv1 := 0 } } else k
  { s with dev := setRun s.dev { r with lreg := lreg, nss := r.nss + 1 } }

/-- Whether every core of a run has completed ENDL; a core whose die has been reset has not. -/
def runEnded (s : State) (r : Run) : Bool := (runCores s r).length = r.cores.length && (runCores s r).all fun k => k.ctx.ended

/-- The runs of the superstep are combined, and those that have ended finish. -/
def combineAll (s : State) : State :=
  ((running s.dev).map (·.id)).foldl (fun s id => match runOf s.dev id with
    | none => s
    | some r =>
      let s := combine s r
      match runOf s.dev id with
      | some r => if runEnded s r then finishRun s r else s
      | none => s) s

/-- What a superstep leaves in a context (R18, R186, R191, R196). -/
def nextSuperstep (c : Ctx) : Ctx :=
  { c with phended := false, lat := Latches.zero, errQ := errWritten c.errQ, ckFlags := 0, hold := 0, portFree := 0, transfers := [], xdone := 0
           slack := none, tagWait := false }

/-- The cores enter the next superstep. -/
def freshCores (s : State) : State :=
  let odd := exchange s
  let s := s.mapCores fun k =>
    { k with xclk := if odd then 0 else k.xclk
             ctx := if k.mode = .active && !k.ctx.ended then nextSuperstep k.ctx else k.ctx }
  { s with dev := { s.dev with runs := s.dev.runs.map fun r => { r with lastArr := 0 } } }

/-- The pre-emption requests made since the last boundary (R345). -/
def takePreempts (s : State) : State :=
  if !s.dev.sun.metered then s
  else
    let ids := ((s.dev.runs.filter (·.preempt)).map (·.launch)).eraseDups
    let s := ids.foldl suspendLaunch s
    { s with dev := { s.dev with runs := s.dev.runs.map fun r => { r with preempt := false } } }

/-- Whether a selection of the mode must wait: a launch has been placed and has not terminated. One that waits for a recovery placement
is taken to run still, so that it finishes in its mode. DEDUCED, log entry 79. -/
def modeHeld (d : Device) : Bool := d.launches.any (·.placed)

/-- A held selection of the mode takes effect when no launch runs and none is suspended (R177); free mode brings the interface that
alone had a share when it was selected. -/
def takeMode (s : State) : State :=
  match s.dev.sun.heldMode with
  | none => s
  | some m =>
    if modeHeld s.dev then s
    else { s with dev := { s.dev with sun := { s.dev.sun with
      metered := m, heldMode := none, modeIfc := if m then 0 else s.dev.sun.heldIfc, heldIfc := 0 } } }

/-- Whether some run waits for a superstep of the other kind (R346). -/
def wantsOther (s : State) : Bool :=
  s.dev.runs.any fun r => (r.phase = .ready || r.phase = .suspended && coresClear s r) && r.resumeOdd ≠ exchange s

/-- A suspended launch that boundary work leaves resumable asks for a boundary (R175, R349). -/
def askResume (s : State) : State :=
  if s.dev.runs.any (resumable s) then { s with dev := { s.dev with sun := { s.dev.sun with want := true } } } else s

/-- Every core is parked once the work of the boundary before a hold is done (R351), and the hubs finish what they hold (R396). -/
def parkIfHeld (s : State) : State :=
  if s.dev.sun.holdAsked then
    let s := settleChanged { s with dev := finishHubs s.dev (2 * s.dev.hbm.waits.length + 2) }
    { s with dev := { s.dev with sun := { s.dev.sun with parked := true } } }
  else s

/-- Boundary work, in its order: the dies asked to quiesce before it began do so at its end, once their launches have been handled
(R372, R384), and armed WAITVs see the suspensions it makes before the next superstep begins (R350). -/
def boundaryWork (s : State) : State :=
  let asked := resettables.filter (quiesceAsked s.dev)
  let s := { s with dev := { s.dev with sun := { s.dev.sun with work := 0 } } }
  let s := overflowStops s
  let s := settleAll s
  let s := flushStaging s
  let s := combineAll s
  let s := { s with dev := { s.dev with sun := { s.dev.sun with phase := s.dev.sun.phase + 1, ck := 0 } } }
  let s := freshCores s
  let s := resumeRuns s
  let s := takePreempts s
  let s := takeMode s
  let s := quiesceAll s asked
  let s := if exchange s then serveReserved s false
    else placementPass { s with dev := { s.dev with sun := { s.dev.sun with want := false } } }
  parkIfHeld (askResume (startRuns (wakeAll s none none)))

/-- A boundary is declared: its work takes `n` more ck. -/
def declareFor (s : State) (n : Nat) : State :=
  { s with dev := { boundarySamples s with sun := { s.dev.sun with work := n } } }

/-- Boundary work ends; with no launch running the Sundial declares a second boundary at once when the superstep is of the
wrong kind for what waits (R175). -/
def endWork (s : State) : State :=
  let s := boundaryWork s
  let again := (running s.dev).isEmpty && !s.dev.sun.parked && (wantsOther s || (s.dev.sun.want && exchange s))
  if again then declareFor s (workLength s.dev) else s

/-- A boundary is declared in this ck, the first of its work. -/
def declareNow (s : State) : State :=
  match workLength s.dev with
  | 0 => s
  | 1 => endWork (declareFor s 0)
  | n + 2 => declareFor s (n + 1)

/-- Whether every core of every running launch has arrived. -/
def allArrived (s : State) : Bool := s.cores.all (arrived s)

/-- BOUNDARY: with every core arrived, or idle with a reason, a boundary is declared (R175). -/
def execBoundary (s : State) : Out :=
  if s.dev.sun.work ≠ 0 || s.dev.sun.parked || !allArrived s || ((running s.dev).isEmpty && !s.dev.sun.want) then .next s
  else .next (declareNow s)

/-- Whether the chip wall ends with this ck. -/
def wallEnds (s : State) : Bool := chipWall s ≠ 0 && decide (chipWall s ≤ s.dev.sun.ck)

/-- CHIP WALL EXPIRY: a boundary is declared in the next ck (R177). -/
def execChipWallExpiry (s : State) : Out :=
  if s.dev.sun.work = 0 && !s.dev.sun.parked && wallEnds s then .next (declareFor s (workLength s.dev)) else .next s

/-! ### The end of a ck -/

/-- Launches of classes N and S whose every core has completed ENDL are done (R173), unless something has stopped them, their staging has
overflowed, for which the next boundary stops them (R198, DEDUCED, log entry 48), or one of their dies is fenced (R386). A retirement
asked for stops nothing before its boundary (R372). -/
def finishEnded (s : State) : State :=
  ((running s.dev).map (·.id)).foldl (fun s id => match runOf s.dev id with
    | none => s
    | some r =>
      match launchOf s.dev r.launch with
      | none => s
      | some l =>
        if l.recd.cls ≠ 2 && runEnded s r && (runFault s r).isNone && !(r.cores.any fun p => dieFenced s.dev p.1) && l.cancel.isNone &&
            !r.spilled && (runCtxs s r).all (fun c => c.stOver.isNone) then finishRun s r else s) s

/-- A run whose last core arrives in this ck keeps when it did. -/
def markArrivals (s : State) : State :=
  { s with dev := { s.dev with runs := s.dev.runs.map fun r =>
      if r.phase = .running && r.lastArr = 0 && runArrived s r then { r with lastArr := s.dev.sun.ck } else r } }

/-- The Sundial at the end of a ck. -/
def tickSundial (s : State) : State :=
  match s.dev.sun.work with
  | n + 1 =>
    let s := { s with dev := { s.dev with sun := { s.dev.sun with work := n, total := s.dev.sun.total + 1 } } }
    if n = 0 then endWork s else wakeAll s none none
  | 0 =>
    let s := { s with dev := { s.dev with sun := { s.dev.sun with ck := s.dev.sun.ck + 1, total := s.dev.sun.total + 1 } } }
    let s := markArrivals (finishEnded (wakeAll s none none))
    if (running s.dev).isEmpty then
      if s.dev.sun.holdAsked then parkIfHeld s else if s.dev.sun.want then declareNow s else s
    else if allArrived s then declareNow s
    else
      let s := judgeAll s
      if wallEnds s then declareFor s (workLength s.dev) else s

/-- Scores decay every 2^40 ck of the device clock (R370). -/
def decayScores (d : Device) : Device :=
  { d with mgmt := { d.mgmt with cbscore :=
      (d.mgmt.cbscore.map fun p => (p.1, p.2 - 1)).filter fun p => p.2 ≠ 0 } }

/-- Whether the decay tick falls at the end of this ck. -/
def decayDue (d : Device) : Bool := (d.clock + 1) % 2 ^ 40 = 0

/-- SCORE DECAY. -/
def execScoreDecay (s : State) : Out := .next (if decayDue s.dev then { s with dev := decayScores s.dev } else s)

/-- Whether a cancelled launch in free mode has waited 1,048,576 ck for a boundary (R169). -/
def cancelDue (d : Device) (l : Launch) : Bool :=
  match l.cancel with
  | some ck => !d.sun.metered && l.placed && decide (ck + 2 ^ 20 ≤ d.clock)
  | none => false

/-- Such launches are stopped where they stand. -/
def cancelLate (s : State) : State :=
  s.dev.launches.foldl (fun s l => match launchOf s.dev l.id with
    | some l => if cancelDue s.dev l then terminate s l 4 0 else s
    | none => s) s

/-- CANCEL TIMEOUT. -/
def execCancelTimeout (s : State) : Out := .next (cancelLate s)

/-- Lastings that end with this ck. -/
def lastingsDue (s : State) : State :=
  (s.dev.lastings.filter fun x => decide (x.ends ≤ s.dev.clock)).foldl endLasting s

/-- A row that only the machine's own ck run, never the environment. -/
def internalRow (i : Instr) : Bool :=
  match i with
  | .resultComplete | .localLoadRead | .transferDelivery | .timerFire | .timerInterrupt | .engineStopInterrupt | .boundary
  | .chipWallExpiry | .budgetExpiry | .lastingComplete | .scoreDecay | .cancelTimeout | .cycleTagReached => true
  | _ => false

/-- Whether a row is an event of the device or its surroundings: it has no instruction word (a zero word is none, R37). -/
def eventRow (i : Instr) : Bool := encode i == 0 && !internalRow i

end Sys2Proof.Machine
end

