-- ==== Sys2Proof/Machine/HostRegs.lean ====
section
/-! DEFINITION. The host's side (R166, R169, R214, R345, R389, R401, R403 to R417): the function registers, the work queues,
cancels, the aperture, function level reset, MSI-X, the management window, and what a read of a register returns. -/
namespace Sys2Proof.Machine
open Sys2Proof

/-- Something may let work go on: the Sundial declares a boundary when no launch runs (R175). -/
def wantBoundary (d : Device) : Device := { d with sun := { d.sun with want := true } }

/-- Whether management accesses reach the registers of Table 18.7: in recovery mode BAR4 holds RCVCTL, RCVSTAT and the image buffer
instead (R412). -/
def managed (d : Device) : Bool := !d.mgmt.recovery

/-- Whether a function is there: a VF is while VF Enable is set (R410), and in recovery mode there are no VFs (R412). -/
def functionLive (d : Device) (fn : Nat) : Bool := decide (fn < 64) && (fn = 0 || (managed d && d.mgmt.vfEnable))

/-- Bits of a word kept by a register. -/
def keepBits (v mask : Nat) : Word := BitVec.ofNat 64 (v &&& mask)

/-! ### Work queues (R406, R407) -/

/-- Whether a function is there and has a local queue; in recovery mode there are none (R412). -/
def hasQueue (d : Device) (fn j : Nat) : Bool := functionLive d fn && !d.mgmt.recovery && decide (j < nqOf (ifcOf d fn))

/-- QTAIL WRITE: a tail is judged as it reaches the host die; one that leaves QTAIL as it is has no effect (R406). -/
def execQtailWrite (fn q : Nat) (v : Word) (s : State) : Out :=
  if !hasQueue s.dev fn q then .next s
  else
    let k := devQueue s.dev fn q
    let x := queueOf s.dev k
    let t := v.toNat % 65536
    if !x.en || decide (2 ^ x.log2sz ≤ t) || decide ((t + 2 ^ x.log2sz - x.head) % 2 ^ x.log2sz < queuePending x) then
      .next { s with dev := setErr s.dev fn 1 }
    else if t = x.tail then .next s
    else .next { s with dev := wantBoundary (setQueue s.dev k { x with tail := t }) }

/-- A fetched record that a change of EN leaves behind goes on without moving QHEAD. -/
def detachHead (d : Device) (x : Queue) : Device :=
  match x.fetched.bind (launchOf d) with
  | some l => setLaunch d { l with adv := false }
  | none => d

/-- What names the read of a ready record's JOB and GRAPH for a cancel. -/
def markKey (c : CancelRead) (q slot : Nat) : List Nat := [8, c.ifc, b2n c.graph, c.id, q, slot]

/-- The reads under way in queues of an interface that a test selects are made no more: of records, and those that cancels have still to
make. -/
def dropReads (d : Device) (fn : Nat) (sel : Nat → Bool) : Device :=
  let trim := fun (c : CancelRead) => if c.ifc = fn then { c with slots := c.slots.filter fun p => !sel p.1 } else c
  let gone := fun (x : Span) => match x.key with
    | [7, k, _] => (List.range (nqOf (ifcOf d fn))).any fun j => sel j && devQueue d fn j = k
    | [8, i, _, _, j, _] => i = fn && sel j
    | _ => false
  { d with spans := d.spans.filter fun x => !gone x, cancels := (d.cancels.map trim).filter fun c => !c.slots.isEmpty }

/-- QCTL WRITE: EN and, while EN = 0, LOG2SZ (Table 18.5, R407). -/
def execQctlWrite (fn q : Nat) (v : Word) (s : State) : Out :=
  if !hasQueue s.dev fn q then .next s
  else
    let k := devQueue s.dev fn q
    let x := queueOf s.dev k
    let en := bitOf v.toNat 0
    let lg := bitsOf v.toNat 1 4
    let y := if x.en then { x with en := en } else { x with en := en, log2sz := if 4 ≤ lg then lg else 4 }
    if en && !x.en then
      let d := dropReads (detachHead s.dev x) fn fun j => j = q
      .next { s with dev := setQueue d k { y with head := 0, tail := 0, stop := false, marks := [], late := false } }
    else .next { s with dev := setQueue s.dev k y }

/-- A write of QRING takes effect while EN = 0 (Table 18.5). -/
def writeQring (d : Device) (fn q : Nat) (v : Word) : Device :=
  if !hasQueue d fn q then d
  else
    let k := devQueue d fn q
    let x := queueOf d k
    if x.en then d else setQueue d k { x with ring := keepBits v.toNat (2 ^ 56 - 2 ^ 12) }

/-! ### Cancels (R169) -/

/-- The slots made ready and not yet fetched: QHEAD still stands on the record of a fetched head, unless a change of EN left that head
behind. -/
def readySlots (d : Device) (x : Queue) : List Nat :=
  let all := (List.range (queuePending x)).map fun k => (x.head + k) % 2 ^ x.log2sz
  let head := match x.fetched.bind (launchOf d) with
    | some l => l.adv
    | none => false
  if head then all.drop 1 else all

/-- A slot is marked as cancelled. -/
def markSlot (d : Device) (fn j slot : Nat) : Device :=
  let k := devQueue d fn j
  let x := queueOf d k
  setQueue d k { x with marks := (slot :: x.marks).eraseDups }

/-- Read JOB and GRAPH of ready records and mark those that match; a record that cannot be read stops its queue. Answers the reads
that a hub makes wait. -/
def markSlots (d : Device) (c : CancelRead) : List (Nat × Nat) → Device × List (Nat × Nat)
  | [] => (d, [])
  | p :: r =>
    let k := devQueue d c.ifc p.1
    let x := queueOf d k
    let stop := fun (d : Device) => setErr (setQueue d k { x with stop := true }) c.ifc 0
    match spanRead d tlbHost 4 c.ifc (x.ring.toNat % 2 ^ 56 + 256 * p.2 + 0x38) 4 (markKey c p.1 p.2) with
    | .wait d =>
      match markSlots d c r with
      | (d, l) => (d, p :: l)
    | .ok d bs =>
      let w := ofBytes bs
      markSlots (if (if c.graph then w / 65536 else w % 65536) = c.id then markSlot d c.ifc p.1 p.2 else d) c r
    | .bad d _ _ => markSlots (stop d) c r
    | .stop d _ _ => markSlots (stop (dropSpan d (markKey c p.1 p.2))) c r

/-- The record reads of one cancel: made once the function's earlier accesses have been performed (R169, R407). -/
def cancelStep (d : Device) (c : CancelRead) : Device :=
  if d.posted.any fun p => p.fn = c.ifc then { d with cancels := d.cancels ++ [c] }
  else
    match markSlots d c c.slots with
    | (d, []) => d
    | (d, l) => { d with cancels := d.cancels ++ [{ c with slots := l }] }

/-- Every cancel goes on with its record reads, outside a hold. -/
def cancelsOn (d : Device) : Device :=
  if d.sun.parked then d else d.cancels.foldl cancelStep { d with cancels := [] }

/-- Fetched launches that match are cancelled. On a device with no launch running a boundary is declared for the pass in which they
terminate, an event R175 does not list. DESIGN CHOICE, log entry 71. -/
def cancelLaunches (d : Device) (fn : Nat) (hit : Launch → Bool) : Device :=
  wantBoundary { d with launches := d.launches.map fun l =>
    if l.ifc = fn && hit l && l.cancel.isNone then { l with cancel := some d.clock } else l }

/-- A cancel of an interface by job or graph number: the fetched launches, and the records ready at this moment. -/
def cancelBy (s : State) (fn id : Nat) (graph : Bool) : Out :=
  if !functionLive s.dev fn then .next s
  else
    let id := id % 65536
    let d := cancelLaunches s.dev fn fun l => (if graph then l.recd.graph else l.recd.job) = id
    let slots := (List.range (nqOf (ifcOf d fn))).flatMap fun j =>
      (readySlots d (queueOf d (devQueue d fn j))).map fun slot => (j, slot)
    let d := if slots.isEmpty then d else { d with cancels := d.cancels ++ [⟨fn, graph, id, slots⟩] }
    .next { s with dev := cancelsOn d }

/-- CANCEL JOB: SCOPE 1. -/
def execCancelJob (fn id : Nat) (s : State) : Out :=
  cancelBy s fn id false
/-- CANCEL GRAPH: SCOPE 2. -/
def execCancelGraph (fn id : Nat) (s : State) : Out :=
  cancelBy s fn id true
/-- CANCEL SLOT: SCOPE 3. -/
def execCancelSlot (fn q slot : Nat) (s : State) : Out :=
  let d := cancelLaunches s.dev fn fun l => l.queue = q && l.slot = slot
  if !functionLive s.dev fn then .next s
  else if hasQueue d fn q && (readySlots d (queueOf d (devQueue d fn q))).contains slot then .next { s with dev := markSlot d fn q slot }
  else .next { s with dev := d }

/-! ### Counters and pre-emption (R166, R345) -/

/-- COUNTER WRITE: COUNT and FAIL take the written values; launches that wait for the counter may become eligible (R166, R168). -/
def execCounterWrite (fn c : Nat) (v : Word) (s : State) : Out :=
  let f := ifcOf s.dev fn
  if !functionLive s.dev fn || decide (ncntOf f ≤ c) then .next s
  else .next { s with dev := wantBoundary (markElig { s.dev with
    counters := store 0 s.dev.counters (cbaseOf f + c) (keepBits v.toNat (ones 49)) }) }

/-- PREEMPT holds QUEUE and SLOT as written; GO reads 0 (Table 18.4). -/
def writePreempt (d : Device) (fn : Nat) (v : Word) : Device :=
  setIfc d fn { ifcOf d fn with preempt := keepBits v.toNat (ones 29) }

/-- PREEMPT REQUEST: GO with QUEUE and SLOT; in metered mode the running launch there, or one restored that waits to go on, is pre-empted
at the next boundary (R345, R349, Table 18.4). -/
def execPreemptRequest (fn q slot : Nat) (s : State) : Out :=
  let d := writePreempt s.dev fn (BitVec.ofNat 64 (slot % 65536 + q % 8192 * 65536))
  if !functionLive s.dev fn then .next s
  else if !d.sun.metered then .next { s with dev := d }
  else
    let hit := fun (r : Run) => runGoes r && (match launchOf d r.launch with
      | some l => l.ifc = fn && l.queue = q && l.slot = slot
      | none => false)
    .next { s with dev := { d with runs := d.runs.map fun r => if hit r then { r with preempt := true } else r } }

/-! ### Translation registers (R214, R450) -/

/-- Remove from every cache the entries of an interface that an invalidation covers. -/
def purge (d : Device) (fn : Nat) (all : Bool) (vpn : Nat) : Device :=
  let va := vpn * 65536
  let cover := fun (e : TlbEntry) => e.ifc = fn && (all || va / 2 ^ e.bits = e.va / 2 ^ e.bits)
  { d with tlb := (d.tlb.map fun p => (p.1, p.2.filter fun e => !cover e)).filter fun p => p.2 ≠ [] }

/-- VPN of TTINV. -/
def vpnOf (v : Word) : Nat := bitsOf v.toNat 16 40

/-- TTINV WRITE: an invalidation starts. -/
def execTtinvWrite (fn : Nat) (v : Word) (s : State) : Out :=
  if !functionLive s.dev fn then .next s
  else
    let d := setIfc s.dev fn { ifcOf s.dev fn with ttinv := keepBits v.toNat (1 + (2 ^ 56 - 2 ^ 16)) }
    .next { s with dev := purge d fn (bitOf v.toNat 0) (vpnOf v) }

/-- TTROOT WRITE: every entry of the interface is invalidated, with DONE in TTINV. -/
def execTtrootWrite (fn : Nat) (v : Word) (s : State) : Out :=
  if !functionLive s.dev fn then .next s
  else
    let f := ifcOf s.dev fn
    let d := setIfc s.dev fn { f with ttroot := keepBits v.toNat (1 + (2 ^ 48 - 2 ^ 12)), ttinv := f.ttinv &&& ~~~2 }
    .next { s with dev := purge { d with invals := if d.invals.contains fn then d.invals else fn :: d.invals } fn true 0 }

/-- Whether a request of a context has been translated and not yet performed. -/
def sentNow (c : Ctx) : Bool := c.t5.ops.any fun o => match o.prog with
  | .running _ _ => true
  | _ => false

/-- Whether accesses of an interface that have been translated are still to be performed, or walks to end (R214). The buffers keep no
page sizes, so an invalidation of one page waits for all of them. DESIGN CHOICE, log entry 78. -/
def translatedNow (s : State) (fn : Nat) : Bool :=
  (s.dev.gbuf.any fun p => p.2.any fun w => w.ifc = fn) || (s.dev.walks.any fun w => w.ifc = fn) ||
    (s.dev.hbm.waits.any fun x => x.asker.ifc = fn) ||
    s.cores.any fun k => (k.mode = .active && k.ctx.ifc = fn && sentNow k.ctx) || k.susp.any fun c => c.ifc = fn && sentNow c

/-- TTINV DONE: the invalidation completes once no access that used a covered entry is left; context 5 of the interface's contexts then
retries what a translation fault stopped (R214, R450), and the committed chunks that one held are tried again (log entry 66). -/
def execTtinvDone (fn : Nat) (s : State) : Out :=
  let f := ifcOf s.dev fn
  if bitOf f.ttinv.toNat 1 || translatedNow s fn then .next s
  else
    let d := purge s.dev fn (bitOf f.ttinv.toNat 0 || s.dev.invals.contains fn) (vpnOf f.ttinv)
    let d := setIfc { unstick d fun x => x.ifc = fn with invals := d.invals.filter (· ≠ fn) } fn { f with ttinv := f.ttinv ||| 2 }
    .next (State.mapCores { s with dev := d } fun k =>
      { k with ctx := if k.mode = .active then askRetry fn k.ctx else k.ctx, susp := k.susp.map (askRetry fn) })

/-! ### Supervisor image, limits (R176, R409) -/

/-- SVIMAGE WRITE: SVADDR or SVSIZE takes the value, and GEN increases. -/
def execSvimageWrite (fn : Nat) (size : Bool) (v : Word) (s : State) : Out :=
  if !functionLive s.dev fn then .next s
  else
    let f := ifcOf s.dev fn
    let gen := (imageGen f + 1) % 65536 * 2 ^ 32
    let sz := if size then min (v.toNat % 2 ^ 17) 65536 / 8 * 8 else bitsOf f.svsize.toNat 0 17
    .next { s with dev := setIfc s.dev fn { f with
      svaddr := if size then f.svaddr else keepBits v.toNat (2 ^ 56 - 8)
      svsize := BitVec.ofNat 64 (sz + gen) } }

/-- A limit as IFLIMIT stores it. -/
def ifcLimit (x : Nat) : Nat := if x = 0 || decide (3400 < x) then 3400 else x

/-- A write of IFLIMIT. -/
def writeLimit (f : Ifc) (v : Word) : Ifc :=
  { f with limits := BitVec.ofNat 64 (ifcLimit (v.toNat % 2 ^ 32) + ifcLimit (v.toNat / 2 ^ 32) * 2 ^ 32) }

/-! ### The aperture (R408) -/

/-- The virtual address of an aperture offset. -/
def apertureVa (d : Device) (fn off : Nat) : Nat := bitsOf (ifcOf d fn).apbase.toNat 36 20 * 2 ^ 36 + off % 2 ^ 36

/-- The host's read ends. -/
def hostAnswer (d : Device) (bs : List Byte) (ur : Bool) : Device :=
  { d with host := { d.host with rdata := bs, unsupported := ur } }

/-- What names a function's access among the spans in progress. -/
def postKey (fn : Nat) : List Nat := [5, fn]

/-- An aperture access that takes a translation fault or meets an uncorrectable error (R408). -/
def postFails (d : Device) (x : Posted) : Device :=
  let d := setErr (dropSpan d (postKey x.fn)) x.fn 2
  if x.bytes.isEmpty then hostAnswer d [] true else d

/-- One aperture access: it waits behind those its function sent before, and where a hub makes it wait (R407, R408). -/
def postOne (s : State) (x : Posted) : State :=
  let keep := fun (s : State) => { s with dev := { s.dev with posted := s.dev.posted ++ [x] } }
  if s.dev.posted.any fun p => p.fn = x.fn then keep s
  else if x.bytes.isEmpty then
    match spanRead s.dev tlbHost 6 x.fn x.va x.rd (postKey x.fn) with
    | .wait d => keep { s with dev := d }
    | .ok d bs => { s with dev := hostAnswer d bs false }
    | .bad d _ _ => { s with dev := postFails d x }
    | .stop d _ _ => { s with dev := postFails d x }
  else
    match spanWrite s tlbHost 6 x.fn (wbytes x.va x.bytes) (spanOf x.va x.bytes.length) none (postKey x.fn) with
    | (s, .done) => s
    | (s, .wait) => keep s
    | (s, .bad _ _) => { s with dev := postFails s.dev x }
    | (s, .stop _ _) => { s with dev := postFails s.dev x }

/-- Every aperture access that has been sent is tried, in order; HBM takes none in a hold (R396). -/
def postAll (s : State) : State :=
  if s.dev.sun.parked then s else s.dev.posted.foldl postOne { s with dev := { s.dev with posted := [] } }

/-- An aperture access is sent. -/
def post (s : State) (x : Posted) : State := postAll { s with dev := { s.dev with posted := s.dev.posted ++ [x] } }

/-- APERTURE READ: package-visible data, or Unsupported Request (R408). -/
def execApertureRead (fn off len : Nat) (s : State) : Out :=
  if !functionLive s.dev fn then .next s else .next (post s ⟨fn, apertureVa s.dev fn off, [], len⟩)

/-- APERTURE WRITE: a global write of no launch; one that cannot be made is dropped (R408). -/
def execApertureWrite (fn off : Nat) (data : List Byte) (s : State) : Out :=
  if !functionLive s.dev fn || data.isEmpty then .next s else .next (post s ⟨fn, apertureVa s.dev fn off, data, 0⟩)

/-! ### MSI-X (R405) -/

/-- The MSI-X state of a function after a reset. -/
def msixReset (f : Ifc) : Ifc := { f with masked := 7, fnMask := false, msixEn := false }

/-- The messages of the vectors that are pending, unmasked and enabled are sent. -/
def msixSend (f : Ifc) : Ifc :=
  (List.range 3).foldl (fun f v =>
    if f.msixEn && !f.fnMask && f.pending.testBit v && !f.masked.testBit v then
      { f with pending := f.pending ^^^ 2 ^ v, sent := f.sent + 1 }
    else f) f


/-- A write of the MSI-X table: an entry's address, or its data and Mask bit. -/
def writeMsix (f : Ifc) (off : Nat) (v : Word) : Ifc :=
  let vec := (off - 0x1F0000) / 16
  if off % 16 = 0 then { f with msix := store 0 f.msix (2 * vec) (keepBits v.toNat (2 ^ 64 - 4)) }
  else
    msixSend { f with
      msix := store 0 f.msix (2 * vec + 1) (keepBits v.toNat (ones 32))
      masked := if bitOf v.toNat 32 then f.masked ||| 2 ^ vec else f.masked &&& (7 ^^^ 2 ^ vec) }

/-- PCIE CONVENTIONAL RESET. -/
def execPcieConventionalReset (s : State) : Out :=
  .next { s with dev := (List.range 64).foldl (fun d fn => setIfc d fn (msixReset (ifcOf d fn))) s.dev }

/-! ### Frames (R216, R217, R222, R223, R227) -/

/-- Whether a key of a table lies in a range of addresses counted in units. -/
def inUnits (unit lo hi k : Nat) : Bool := decide (lo ≤ k * unit) && decide (k * unit < hi)

/-- A range of HBM is zeroed: its frames leave the pool and lose an unprotected mark, its sectors take word mode. -/
def wipeHbm (h : Hbm) (lo hi : Nat) : Hbm :=
  { h with
    mem := zeroRange h.mem lo (hi - lo)
    map := h.map.filter fun p => !inUnits 32 lo hi p.1
    ovf := zeroRange h.ovf (lo / 8) ((hi - lo) / 8)
    ways := h.ways.filter fun p => !inUnits 256 lo hi p.1
    pool := h.pool.filter fun p => !inUnits 65536 lo hi p.1
    unprot := h.unprot.filter fun p => !inUnits 65536 lo hi p.1
    move := h.move.filter fun p => !inUnits 65536 lo hi p.1 }

/-- A range of physical addresses within one hub's window is zeroed. -/
def wipeWindow (d : Device) (lo hi m : Nat) : Device :=
  let at' := fun (a : Nat) => min (a - (0x800000000000 + m * 0x8000000)) 0x7F00000
  let h := hubOf d m
  if at' hi ≤ at' lo then d
  else setHub d m { h with
    win := zeroRange h.win (at' lo) (at' hi - at' lo), winErr := h.winErr.filter fun p => !inUnits 8 (at' lo) (at' hi) p.1 }

/-- Frames and pages of the hubs' windows in a range of physical addresses are released: zeroed, with every copy of them gone. -/
def releaseRange (d : Device) (lo hi : Nat) : Device :=
  let kept := fun (p : Nat × Sparse (BitVec 256)) => (p.1, p.2.filter fun q => !(decide (lo ≤ q.1) && decide (q.1 < hi)))
  let d := { d with copies := (d.copies.map kept).filter fun p => p.2 ≠ [], hbm := wipeHbm d.hbm lo hi }
  (List.range 4).foldl (fun d m => wipeWindow d lo hi m) d

/-- FRAME RELEASE: whole frames, or pages of a hub's window, are zeroed before they are given to anyone; HBM takes no write in a hold
(R396). -/
def execFrameRelease (fn pa len : Nat) (s : State) : Out :=
  let lo := pa / 65536 * 65536
  let hi := (pa + len + 65535) / 65536 * 65536
  if 64 ≤ fn || len = 0 || !paOk lo || !paOk (hi - 1) || s.dev.sun.parked then .next s
  else .next { s with dev := releaseRange s.dev lo hi }

/-- The granules of a table of translations, `n` bytes from `base`, that hold anything. -/
def tableGranules (d : Device) (base n : Nat) : List Nat :=
  let inside := fun (a : Nat) => decide (base ≤ a) && decide (a < base + n)
  let here := if paWin base then
      (hubOf d (winHub base)).win.map fun p => p.1 + (base - winOff base)
    else d.hbm.mem.map (·.1) ++ d.hbm.flip.map (·.1)
  ((here.filter inside).map (· / 32)).eraseDups

/-- The leaves of a tree of translation tables from a table at a level: base and size of the memory they map; `n` bounds the levels
left (R210, R211). -/
def tableLeaves (d : Device) (l base : Nat) : Nat → List (Nat × Nat)
  | 0 => []
  | n + 1 =>
    (tableGranules d base (8 * 2 ^ (levelBits l).2)).flatMap fun g =>
      match granuleSeen d (32 * g) with
      | none => []
      | some x => (List.range 4).flatMap fun k =>
        match pteOf l (bitsOf x (64 * k) 64) with
        | .bad _ => []
        | .next t => tableLeaves d (l + 1) t n
        | .leaf p _ => [(p, 2 ^ (levelBits l).1)]

/-- The memory of an interface: what its tables map as they stand (R410). DEDUCED, log entry 80. -/
def ifcMemory (d : Device) (fn : Nat) : List (Nat × Nat) :=
  let root := (ifcOf d fn).ttroot.toNat
  if bitOf root 0 then tableLeaves d 0 (bitsOf root 12 36 * 4096) 5 else []

/-! ### Resets of functions (R410) -/

/-- The first steps of the reset of an interface: its launches are cancelled, and its queues cleared. -/
def resetBegin (s : State) (fn : Nat) : State :=
  let d := dropReads (cancelLaunches s.dev fn fun _ => true) fn fun _ => true
  let d := (List.range (nqOf (ifcOf d fn))).foldl (fun d j =>
    let k := devQueue d fn j
    let x := queueOf d k
    setQueue (detachHead d x) k { x with
      en := false, stop := false, head := 0, tail := 0, fetched := none, marks := [], late := false }) d
  { s with dev := { d with resets := if d.resets.contains fn then d.resets else d.resets ++ [fn] } }

/-- VF Enable of the PF, which the host's software has set: cleared, it resets every VF (R410). There are none in recovery mode
(R412). -/
def setVfEnable (s : State) (on : Bool) : State :=
  let put := fun (s : State) => { s with dev := { s.dev with mgmt := { s.dev.mgmt with vfEnable := on && managed s.dev } } }
  put (if s.dev.mgmt.vfEnable && !on then ((List.range 64).drop 1).foldl resetBegin s else s)

/-- MSIX UNMASK: software clears a vector's Mask bit, with MSI-X Enable and the Function Mask of the function as it has set them in its
configuration space, and, for the PF, VF Enable (log entry 23); a vector beyond the function's leaves only those. -/
def execMsixUnmask (fn : Nat) (m : MsixCtl) (s : State) : Out :=
  if !functionLive s.dev fn then .next s
  else
    let f := ifcOf s.dev fn
    let f := { f with msixEn := m.enable, fnMask := m.fnMask }
    let s := { s with dev := setIfc s.dev fn (msixSend (if m.vec < 3 then { f with masked := f.masked &&& (7 ^^^ 2 ^ m.vec) } else f)) }
    .next (if fn = 0 then setVfEnable s m.vfEnable else s)

/-- Whether everything that the cancelled launches of an interface had under way is over. -/
def resetReady (d : Device) (fn : Nat) : Bool :=
  !(d.launches.any fun l => l.ifc = fn) && !(d.owed.any fun o => o.ifc = fn) && !(d.drains.any fun x => x.ifc = fn) &&
    !(d.posted.any fun p => p.fn = fn) && !(d.hbm.waits.any fun x => x.asker.ifc = fn) && !(d.gbuf.any fun p => p.2.any fun w => w.ifc = fn)

/-- The registers of an interface at the end of its reset; every copy of its supervisor image is stale. -/
def resetRegs (s : State) (fn : Nat) : State :=
  let f := ifcOf s.dev fn
  let d := { s.dev with counters := s.dev.counters.filter fun p =>
    !(decide (cbaseOf f ≤ p.1) && decide (p.1 < cbaseOf f + ncntOf f)) }
  let d := setIfc d fn (msixReset { f with
    limits := Ifc.zero.limits, apbase := 0, iferr := 0, ttroot := 0, svaddr := 0, svsize := 0 })
  { s with dev := { purge d fn true 0 with
      resets := d.resets.filter (· ≠ fn), walks := d.walks.filter fun w => w.ifc ≠ fn } }.mapCores fun k =>
    if k.svIfc = some fn then { k with svIfc := none } else k

/-- The last steps, once every cancelled launch has terminated: registers and counters, and the interface's memory is released. -/
def resetEnd (s : State) (fn : Nat) : State :=
  let mem := ifcMemory s.dev fn
  let s := resetRegs s fn
  { s with dev := mem.foldl (fun d p => releaseRange d p.1 (p.1 + p.2)) s.dev }

/-- The resets that may end now do, outside a hold. -/
def resetsDue (s : State) : State :=
  if s.dev.sun.parked then s else s.dev.resets.foldl (fun s fn => if resetReady s.dev fn then resetEnd s fn else s) s

/-- FUNCTION LEVEL RESET: of one interface, and of the PF, which clears VF Enable, for every interface (R410). -/
def execFunctionLevelReset (fn : Nat) (s : State) : Out :=
  if !functionLive s.dev fn then .next s
  else if fn = 0 then
    let s := (List.range 64).foldl resetBegin s
    .next (resetsDue { s with dev := { s.dev with mgmt := { s.dev.mgmt with vfEnable := false } } })
  else .next (resetsDue (resetBegin s fn))

/-! ### Moves and lanes (R222, R227) -/

/-- FRAME MOVE COMPLETE: the accesses held on the frame proceed. -/
def execFrameMoveComplete (frame : Nat) (s : State) : Out :=
  if look (0, 0) s.dev.hbm.move frame = (0, 0) || s.dev.sun.parked then .next s else .next (settleChanged { s with dev := moveDone s.dev frame })

/-- SPARE LANE RECALIBRATED: the pause of the channel ends and its traffic resumes (R227). -/
def execSpareLaneRecalibrated (stk chan : Nat) (s : State) : Out :=
  if s.dev.sun.parked then .next s
  else .next { s with dev := channelGoes s.dev (32 * stk + chan) }

/-! ### The management window (R371, R382, R401, R415 to R417) -/

/-- The sum of CALLOT over the interfaces other than one. -/
def callotsElse (d : Device) (i : Nat) : Nat :=
  ((List.range 64).filter (· ≠ i)).foldl (fun n k => n + callotOf (ifcOf d k)) 0

/-- Whether any queue of an interface is enabled. -/
def ifcEnabled (d : Device) (i : Nat) : Bool :=
  (List.range (nqOf (ifcOf d i))).any fun j => (queueOf d (devQueue d i j)).en

/-- A write of 0 to the share of the free-mode interface: nothing more is placed until the mode changes, or is selected anew (R177). The
number 65 names no interface. DEDUCED, log entry 116. -/
def shareGone (d : Device) (i : Nat) : Device :=
  if !d.sun.metered && d.sun.modeIfc = i + 1 && shareOf (ifcOf d i) = 0 then { d with sun := { d.sun with modeIfc := 65 } } else d

/-- IFCFG WRITE (R416). Ranges that reach beyond the 8,192 device queues or the 65,536 counters are taken as written, and the interface
has what there is of them. DESIGN CHOICE, log entry 57. -/
def execIfcfgWrite (i w : Nat) (v : Word) (s : State) : Out :=
  if 64 ≤ i || 2 ≤ w || !managed s.dev then .next s
  else
    let f := ifcOf s.dev i
    if w = 0 then
      let new := if ifcEnabled s.dev i then BitVec.ofNat 64 (v.toNat % 256 + f.cfg0.toNat / 256 * 256)
        else keepBits v.toNat (ones 35)
      .next { s with dev := wantBoundary (shareGone (setIfc s.dev i { f with cfg0 := new }) i) }
    else if ifcEnabled s.dev i || decide (4096 < callotsElse s.dev i + bitsOf v.toNat 33 13) then .next s
    else .next { s with dev := setIfc s.dev i { f with cfg1 := keepBits v.toNat (ones 46) } }

/-- A log ring by its control number: STKLOG of M0 to M3, XFRLOG of M0 to M3, RELLOG. -/
def ringOf (d : Device) (r : Nat) : Ring :=
  if r < 4 then (hubOf d r).stk else if r < 8 then (hubOf d (r - 4)).xfr else d.mgmt.rellog

/-- Replace a log ring. -/
def setRing (d : Device) (r : Nat) (x : Ring) : Device :=
  if r < 4 then setHub d r { hubOf d r with stk := x }
  else if r < 8 then setHub d (r - 4) { hubOf d (r - 4) with xfr := x }
  else { d with mgmt := { d.mgmt with rellog := x } }

/-- Slots of a ring. -/
def ringCap (r : Nat) : Nat := if r < 8 then 4096 else 1024

/-- A write of a ring's RPTR: entries are consumed; one that would pass WPTR is ignored (R417). -/
def writeRptr (d : Device) (r : Nat) (v : Word) : Device :=
  let x := ringOf d r
  let cap := ringCap r
  let p := bitsOf v.toNat 12 16
  let k := (p + cap - x.rptr) % cap
  if cap ≤ p || decide ((x.wptr + cap - x.rptr) % cap < k) then d
  else setRing d r { x with rptr := p, ents := x.ents.filter fun e => decide (k ≤ (e.1 + cap - x.rptr) % cap) }

/-- PORTSTATp. -/
def portStat (d : Device) (p : Nat) : Word :=
  let x := portOf d p
  BitVec.ofNat 64 (x.state + b2n (portShadow d p) * 8 + x.retrain * 16 + x.farDev * 2 ^ 12 + x.farPort * 2 ^ 20)

/-- Whether a port's registers are answered as those of a fenced die: its fabric die is quiescing, fenced or resetting (R418). -/
def portFenced (d : Device) (p : Nat) : Bool :=
  let k := 21 + p / 24
  (dieOf d k).state = 3 || dieFenced d k

/-- What the host has read. -/
def hostWord (d : Device) (w : Word) : Device := { d with host := { d.host with word := w } }

/-- A read of PORTSTATp: one that meets a fenced die reads all ones and sets MGSTAT.FENCED (R386, R415). -/
def readPort (d : Device) (p : Nat) : Device :=
  if portFenced d p then hostWord { d with mgmt := { d.mgmt with mgFenced := true } } (BitVec.allOnes 64)
  else hostWord d (portStat d p)

/-- A read of a ring's lost count, which clears it (R417). -/
def readLost (d : Device) (r : Nat) : Device :=
  let x := ringOf d r
  hostWord (setRing d r { x with lost := 0 }) (BitVec.ofNat 64 x.lost)

/-- The register a management request is for: a ring by its number, PORTSTATp as 16 + p. -/
def MgmtReq.reg : MgmtReq → Nat
  | .rptr r _ => r
  | .read r => r

/-- The die that holds a register of a management request, where it is not the host die: the hub of a ring, the fabric die of a port. -/
def mgmtDie (r : Nat) : Option Nat :=
  if r < 8 then some (16 + r % 4) else if decide (16 ≤ r) && decide (r < 88) then some (21 + (r - 16) / 24) else none

/-- Whether a management request waits for an interposer link that retrains (R388). -/
def mgmtPaused (d : Device) (r : Nat) : Bool :=
  match mgmtDie r with
  | some k => (dieOf d k).retraining || (dieOf d 20).retraining
  | none => false

/-- A management request is performed. -/
def mgmtNow (d : Device) (x : MgmtReq) : Device :=
  match x with
  | .rptr r v => writeRptr d r v
  | .read r => if 16 ≤ r then readPort d (r - 16) else readLost d r

/-- A management request is performed, or waits for its link behind those that do (R388). -/
def mgmtOne (d : Device) (x : MgmtReq) : Device :=
  if mgmtPaused d x.reg || (d.mgmtReqs.any fun y => mgmtDie y.reg = mgmtDie x.reg) then { d with mgmtReqs := d.mgmtReqs ++ [x] }
  else mgmtNow d x

/-- The management requests that wait are tried, in order; in recovery mode their registers are gone (R412). -/
def mgmtOn (d : Device) : Device :=
  if !managed d then { d with mgmtReqs := [] } else d.mgmtReqs.foldl mgmtOne { d with mgmtReqs := [] }

/-- RING RPTR WRITE (R417). -/
def execRingRptrWrite (r : Nat) (v : Word) (s : State) : Out :=
  if 9 ≤ r || !managed s.dev then .next s else .next { s with dev := mgmtOne s.dev (.rptr r v) }

/-- RING LOST READ: a read of the management window that changes what it reads: of a ring's lost count, and, from number 16 on, of
PORTSTATp for p = r - 16. -/
def execRingLostRead (r : Nat) (s : State) : Out :=
  if !managed s.dev || decide (9 ≤ r) && decide (r < 16) || decide (88 ≤ r) then .next s
  else .next { s with dev := mgmtOne s.dev (.read r) }

/-- MONCTL FREEZE. -/
def execMonctlFreeze (on : Bool) (s : State) : Out :=
  if !managed s.dev then .next s
  else .next { s with dev := { s.dev with mgmt := { s.dev.mgmt with monFreeze := on } } }
/-- MONCTL CLEAR: every record takes its reset value. -/
def execMonctlClear (s : State) : Out :=
  if !managed s.dev then .next s else .next { s with dev := { s.dev with mgmt := { s.dev.mgmt with mons := [] } } }

/-- MODE SELECT (R177): free mode only while one interface has nonzero share; held while a launch runs or is suspended. -/
def execModeSelect (metered : Bool) (s : State) : Out :=
  let d := s.dev
  let shares := (List.range 64).filter fun fn => shareOf (ifcOf d fn) ≠ 0
  let one := if metered then 0 else (shares.headD 0) + 1
  if (!metered && shares.length ≠ 1) || !managed d then .next s
  else if modeHeld d then .next { s with dev := { d with sun := { d.sun with heldMode := some metered, heldIfc := one } } }
  else .next { s with dev := wantBoundary { d with sun := { d.sun with
    metered := metered, heldMode := none, heldIfc := 0, modeIfc := one } } }

/-! ### Lifecycle commands (R389, R390) -/

/-- A commanded transition: the new state and WIPING are stored before anything else. -/
def toLifecycle (d : Device) (st : Nat) : Device := { d with mgmt := { d.mgmt with lcState := st, wiping := true } }

/-- Whether a value of LCCMD carries the confirmation and a target. -/
def lcConfirmed (v : Word) (st : Nat) : Bool := v.toNat = st + 0xDC1E * 65536

/-- LCCMD TRANSIT. -/
def execLccmdTransit (v : Word) (s : State) : Out :=
  let m := s.dev.mgmt
  if lcConfirmed v 1 && managed s.dev && (m.lcState = 0 || m.lcState = 2) then .next { s with dev := toLifecycle s.dev 1 }
  else .next s
/-- LCCMD DECOMMISSION. -/
def execLccmdDecommission (v : Word) (s : State) : Out :=
  let m := s.dev.mgmt
  if lcConfirmed v 3 && managed s.dev && (m.lcState = 1 || m.lcState = 2) then .next { s with dev := toLifecycle s.dev 3 }
  else .next s

/-! ### Register writes (Tables 18.2, 18.7) -/

/-- A write of BAR0 to a register with no row of its own. -/
def write0 (s : State) (fn off : Nat) (v : Word) : State :=
  let f := ifcOf s.dev fn
  let put := fun (f : Ifc) => { s with dev := setIfc s.dev fn f }
  if off = 0x20 then { s with dev := writePreempt s.dev fn v }
  else if off = 0x28 then put (writeLimit f v)
  else if off = 0x30 then put { f with apbase := keepBits v.toNat (2 ^ 56 - 2 ^ 36) }
  else if off = 0x38 then put { f with iferr := f.iferr &&& ~~~v }
  else if 0x1000 ≤ off && decide (off < 0x1000 + 32 * 8192) && (off - 0x1000) % 32 = 0 then
    { s with dev := writeQring s.dev fn ((off - 0x1000) / 32) v }
  else if 0x1F0000 ≤ off && decide (off < 0x1F0030) then put (writeMsix f off v)
  else s

/-- A write of RCVCTL (R412): GO is held, and a write of 1 makes the ROM verify the image. -/
def writeRcvctl (m : Mgmt) (v : Word) : Mgmt :=
  let go := bitOf v.toNat 0
  { m with rcvGo := go, rcvstat := if go && (m.rcvstat = 0 || m.rcvstat = 2) then 1 else m.rcvstat }

/-- Write bytes into a list, padded with zeros. -/
def putList (l : List Byte) (a : Nat) (bs : List Byte) : List Byte :=
  let l := l ++ List.replicate (a + bs.length - l.length) 0
  l.take a ++ bs ++ l.drop (a + bs.length)

/-- A write of the management window to a register with no row of its own (R412 in recovery mode). -/
def write4 (s : State) (off : Nat) (v : Word) : State :=
  let m := s.dev.mgmt
  let put := fun (m : Mgmt) => { s with dev := { s.dev with mgmt := m } }
  if m.recovery then
    if off = 0 then put (writeRcvctl m v)
    else if 0x100000 ≤ off && decide (off < 0x2000000) then put { m with image := putList m.image (off - 0x100000) (toBytes 8 v.toNat) }
    else s
  else if off = 0x18 then put { m with cbthr := v.toNat % 65536 }
  else if 0x20 ≤ off && decide (off < 0xA0) then writeCbscore s ((off - 0x20) / 8) v
  else if off = 0x500 then put { m with devnum := v.toNat % 256 }
  else if off = 0x508 then put { m with mgFenced := m.mgFenced && !bitOf v.toNat 0 }
  else if 0x800 ≤ off && decide (off < 0x800 + 8 * 72) then
    (if portFenced s.dev ((off - 0x800) / 8) then put { m with mgFenced := true } else s)
  else if 0x10000 ≤ off && decide (off < 0x10000 + 8 * 8192) then
    let q := (off - 0x10000) / 8
    { s with dev := setQueue s.dev q { queueOf s.dev q with pri := v.toNat % 8 } }
  else s

/-- REGISTER WRITE: an aligned 8-byte write of BAR0 of a function, or of the management window. One of PREEMPT with GO makes its
request. -/
def execRegisterWrite (fn : Nat) (mgmt : Bool) (off : Nat) (v : Word) (s : State) : Out :=
  if !functionLive s.dev fn || off % 8 ≠ 0 then .next s
  else if mgmt then .next (if fn = 0 then write4 s off v else s)
  else if off = 0x20 && bitOf v.toNat 63 then execPreemptRequest fn (bitsOf v.toNat 16 13) (bitsOf v.toNat 0 16) s
  else .next (write0 s fn off v)

/-! ### Register reads (Tables 18.2, 18.7) -/

/-- QCTL as read. -/
def qctlWord (x : Queue) : Nat := b2n x.en + x.log2sz * 2 + x.pri * 32 + b2n x.stop * 256

/-- What a read of BAR0 returns (R404). -/
def read0 (d : Device) (fn off : Nat) : Word :=
  let f := ifcOf d fn
  if !functionLive d fn then 0
  else if off = 0 then BitVec.ofNat 64 (fn + nqOf f * 2 ^ 6 + ncntOf f * 2 ^ 20 + shareOf f * 2 ^ 37)
  else if off = 0x10 then f.ttroot
  else if off = 0x18 then f.ttinv
  else if off = 0x20 then f.preempt
  else if off = 0x28 then f.limits
  else if off = 0x30 then f.apbase
  else if off = 0x38 then f.iferr
  else if off = 0x40 then f.svaddr
  else if off = 0x48 then f.svsize
  else if 0x1000 ≤ off && decide (off < 0x1000 + 32 * nqOf f) && off % 8 = 0 then
    let x := queueOf d (devQueue d fn ((off - 0x1000) / 32))
    (match off % 32 with
      | 0 => x.ring
      | 8 => BitVec.ofNat 64 (qctlWord x)
      | 16 => BitVec.ofNat 64 x.head
      | _ => 0)
  else if 0x80000 ≤ off && decide (off < 0x80000 + 8 * nqOf f) && off % 8 = 0 then
    BitVec.ofNat 64 (queueOf d (devQueue d fn ((off - 0x80000) / 8))).tail
  else if 0x100000 ≤ off && decide (off < 0x100000 + 8 * ncntOf f) && off % 8 = 0 then
    look 0 d.counters (cbaseOf f + (off - 0x100000) / 8)
  else if 0x1F0000 ≤ off && decide (off < 0x1F0030) && off % 8 = 0 then
    look 0 f.msix ((off - 0x1F0000) / 8) |||
      (if off % 16 = 8 && f.masked.testBit ((off - 0x1F0000) / 16) then 0x100000000 else 0)
  else if off = 0x1F8000 then BitVec.ofNat 64 f.pending
  else 0

/-- DIESTATn. -/
def dieStat (d : Device) (sk : Nat) : Word :=
  let x := dieOf d sk
  BitVec.ofNat 64 (stateShown d sk + b2n x.forced * 16 + x.shadow * 2 ^ 8 + x.retrain * 2 ^ 16 + x.temp.toNat * 2 ^ 32 +
    x.resets * 2 ^ 48)

/-- LCSTATE. -/
def lcWord (d : Device) : Word :=
  BitVec.ofNat 64 (d.mgmt.lcState + b2n d.mgmt.wiping * 4 + b2n d.mgmt.stfail * 8)

/-- The words of a last map (R164, Table 6.1): header, then two entries a word. -/
def mapWord (m : LastMap) (k : Nat) : Nat :=
  let ent := fun (i : Nat) => match m.ents[i]? with
    | some e => e.fe + e.apos * 2 ^ 6 + e.bpos * 2 ^ 12 + b2n e.valid * 2 ^ 18 + e.gstate * 2 ^ 19 + b2n e.g2 * 2 ^ 21 + b2n e.g4 * 2 ^ 22
    | none => 0
  match k with
  | 0 => m.deffe.toNat
  | 1 => m.defa.toNat
  | 2 => m.defb.toNat
  | 3 => m.ncores
  | _ => if k < 28 then ent (2 * (k - 4)) + ent (2 * (k - 4) + 1) * 2 ^ 32 else 0

/-- The words of a monitor record (Table 17.8). -/
def monWord (r : MonRec) (k : Nat) : Nat :=
  match k with
  | 0 => r.count
  | 1 => r.sum
  | 2 => r.min + r.max * 2 ^ 32
  | _ => if k < 11 then look 0 r.bins (2 * (k - 3)) + look 0 r.bins (2 * (k - 3) + 1) * 2 ^ 32 else 0

/-- A word of a log ring's entries. -/
def logWord (x : Ring) (a : Nat) : Nat := bitsOf (look 0 x.ents (a / 32)).toNat (64 * (a % 32 / 8)) 64

/-- What a read of the management window returns (R415). -/
def read4 (d : Device) (off : Nat) : Word :=
  let m := d.mgmt
  if m.recovery then
    (if off = 0 then BitVec.ofNat 64 (b2n m.rcvGo)
    else if off = 8 then BitVec.ofNat 64 m.rcvstat
    else if 0x100000 ≤ off && decide (off < 0x2000000) then
      BitVec.ofNat 64 (ofBytes ((List.range 8).map fun k => m.image.getD (off - 0x100000 + k) 0))
    else 0)
  else if off = 0 then lcWord d
  else if off = 0x10 then BitVec.ofNat 64 (b2n m.monFreeze)
  else if off = 0x18 then BitVec.ofNat 64 m.cbthr
  else if 0x20 ≤ off && decide (off < 0xA0) then
    let n := (off - 0x20) / 8
    BitVec.ofNat 64 (look 0 m.cbscore n + b2n (look false m.retired n) * 65536)
  else if 0x100 ≤ off && decide (off < 0x240) then
    let x := dieOf d ((off - 0x100) / 8)
    BitVec.ofNat 64 (b2n x.qreq + x.qdl * 256)
  else if 0x300 ≤ off && decide (off < 0x440) then dieStat d ((off - 0x300) / 8)
  else if off = 0x500 then BitVec.ofNat 64 m.devnum
  else if off = 0x508 then BitVec.ofNat 64 (b2n m.mgFenced)
  else if off = 0x510 then BitVec.ofNat 64 m.ltver
  else if 0x600 ≤ off && decide (off < 0x690) then
    let x := ringOf d ((off - 0x600) / 16)
    BitVec.ofNat 64 (if off % 16 = 0 then x.wptr + x.rptr * 4096 else x.lost)
  else if 0x800 ≤ off && decide (off < 0xA40) then
    let p := (off - 0x800) / 8
    if portFenced d p then BitVec.allOnes 64 else portStat d p
  else if 0x1000 ≤ off && decide (off < 0x1400) then
    let f := ifcOf d ((off - 0x1000) / 16)
    if off % 16 = 0 then f.cfg0 else f.cfg1
  else if 0x10000 ≤ off && decide (off < 0x20000) then BitVec.ofNat 64 (queueOf d ((off - 0x10000) / 8)).pri
  else if 0x40000 ≤ off && decide (off < 0x48000) then
    BitVec.ofNat 64 (mapWord (look LastMap.zero d.maps ((off - 0x40000) / 0x800)) ((off - 0x40000) % 0x800 / 8))
  else if 0x50000 ≤ off && decide (off < 0x50000 + 96 * 73) then
    BitVec.ofNat 64 (monWord (look MonRec.zero m.mons ((off - 0x50000) / 96)) ((off - 0x50000) % 96 / 8))
  else if 0x100000 ≤ off && decide (off < 0x200000) then
    BitVec.ofNat 64 (logWord (ringOf d ((off - 0x100000) / 0x20000)) ((off - 0x100000) % 0x20000))
  else if 0x200000 ≤ off && decide (off < 0x208000) then BitVec.ofNat 64 (logWord m.rellog (off - 0x200000))
  else if 0x400000 ≤ off && decide (off < 0x400000 + 4 * 72 * 256) then
    let i := (off - 0x400000) / 4
    BitVec.ofNat 64 ((look 0 m.table i).toNat + (look 0 m.table (i + 1)).toNat * 2 ^ 32)
  else 0

end Sys2Proof.Machine
end

