-- ==== Sys2Proof/Machine/Power.lean ====
section
/-! DEFINITION. Power, temperature, lifecycle, self-test, recovery, sideband and test access (R379, R389 to R398, R402,
R412 to R414). Voltages are in tenths of a percent of the set point, temperatures in units of 0.125 degrees C. -/
namespace Sys2Proof.Machine
open Sys2Proof

/-! ### Package reset (R39, R383, R390, R391, R412) -/

/-- HBM bytes changed by what nothing describes. -/
def hbmUpset (h : Hbm) (l : List (Nat × Byte)) : Hbm :=
  { h with mem := l.foldl (fun m p => if p.1 < hbmBytes then setByte m p.1 (byteAt m p.1 ^^^ p.2) else m) h.mem }

/-- HBM after a package reset: its contents stay; lanes are calibrated again and both spares are free (R227), and what
waited at a hub is gone. -/
def hbmAfterReset (h : Hbm) : Hbm :=
  { h with move := [], lane := [], spare := [], pause := [], waits := [], answers := [], changed := [], reads := [] }

/-- A die after a package reset: in self-test, or still without its domain. TEMP reads 0 until the next reading (Table 17.3): log
entry 20. -/
def dieAfterReset (d : Device) (sk : Nat) : Die :=
  { Die.zero with state := if decide (sk < 16) && look false d.power.lost (sk / 4) then 8 else 1 }

/-- A package reset: every register and every SRAM at its reset value; the lifecycle store, the flash, HBM's contents and
host memory stay, and so do what the power monitor and the temperature sensors read and a hold that has been called (R396, R402). -/
def packageReset (s : State) : State :=
  let d := s.dev
  let fresh := Device.reset d.mgmt.lcState
  let mgmt := { fresh.mgmt with
    wiping := d.mgmt.wiping, stfail := d.mgmt.stfail, flash := d.mgmt.flash, selfTest := d.mgmt.selfTest
    recovery := !Config.firmwareOk d.mgmt.flash, inReset := d.mgmt.inReset, pins := d.mgmt.pins, monLast := d.mgmt.monLast }
  { s with dev := { fresh with
      mgmt := mgmt, hbm := hbmAfterReset d.hbm, host := d.host
      dies := (List.range 40).foldl (fun t k => store Die.zero t k (dieAfterReset d k)) []
      sun := { fresh.sun with holdAsked := d.sun.holdAsked }
      power := { fresh.power with
        lost := d.power.lost, rails := d.power.rails, pwrwarn := d.power.pwrwarn, temps := d.power.temps } } }.mapCores Core.cleared

/-- Whether a hold is on or has been called. -/
def holding (d : Device) : Bool := d.sun.holdAsked || d.sun.parked

/-- LIFECYCLE WIPE: every HBM sector, its map, overflow table and pool, every hub SRAM and every compute-stack SRAM is
zeroed; WIPING is cleared and the package is reset, without the full self-test (R390, R391). A hold that is called restarts the wipe after
it (R398). -/
def execLifecycleWipe (s : State) : Out :=
  let d := s.dev
  if !d.mgmt.wiping || !d.power.on || d.mgmt.inReset || holding d then .next s
  else
    let clean := { (Device.reset 0).hbm with flip := d.hbm.flip, ecc := d.hbm.ecc, noise := d.hbm.noise }
    .next (packageReset { s with dev := { d with hbm := clean, mgmt := { d.mgmt with wiping := false, selfTest := false } } })

/-- The temperature of a die as last read, which no reset changes. -/
def tempOf (d : Device) (sk : Nat) : BitVec 16 := look 0 d.power.temps sk

/-- Whether some die is below the lowest temperature at power-on (Table 17.9). -/
def tooCold (d : Device) : Bool := (List.range 40).any fun k => decide ((tempOf d k).toInt < -80)

/-- POWER ON: a package reset from the unpowered state, with the image the flash holds; the full self-test runs in
MANUFACTURE and TRANSIT and after a failed one (R390, R391, R412). -/
def execPowerOn (image : List Byte) (s : State) : Out :=
  let d := s.dev
  if d.power.on then .next s
  else
    let m := d.mgmt
    let test := m.lcState = 0 || m.lcState = 1 || m.stfail
    let d := { d with
      hbm := hbmUpset d.hbm (Config.powerFlips s.arrival)
      mgmt := { m with flash := image, selfTest := test, inReset := tooCold d } }
    .next (packageReset { s with dev := d })

/-! ### Full self-test (R391, R392) -/

/-- No defects. -/
def Defects.none : Defects := ⟨0, 0, 0⟩

/-- Whether the full self-test fails the package (Table 17.5): a bundle with two failing lanes, an HBM channel with three, or a failing
SRAM of a die other than a stack. -/
def testFails (r : TestReport) : Bool :=
  lanesFail r || (r.chans.any fun p => decide (3 ≤ p.2)) || r.sram.any fun k => decide (16 ≤ k)

/-- FULL SELF-TEST DONE, unless a hold that is called restarts the test after it (R398): the default lasting of every stack, ports marked down, STFAIL, and from TRANSIT the transition to
DEPLOYED (R391, R392). -/
def execFullSelfTestDone (df : List Defects) (ports : List Nat) (r : TestReport) (s : State) : Out :=
  let m := s.dev.mgmt
  let failed := testFails r
  if !m.selfTest || m.wiping || m.inReset || holding s.dev || !s.dev.power.on then .next s
  else
    let d := { s.dev with
      hbm := hbmUpset s.dev.hbm (Config.powerFlips s.arrival), mgmt := { m with selfTest := false, stfail := failed } }
    let d := (ports.filter (· < 72)).foldl (fun d p => portState d p 4 id) d
    let d := if failed then raiseVec d 0 2 else if m.lcState = 1 then toLifecycle d 2 else d
    .next ((List.range 40).foldl (fun s k =>
      if (dieOf s.dev k).state = 8 then s else dieReady s k (df.getD k Defects.none)) { s with dev := d })

/-! ### Recovery (R412) -/

/-- RECOVERY GO: a write of RCVCTL with GO = 1. -/
def execRecoveryGo (s : State) : Out := .next (if s.dev.mgmt.recovery then write4 s 0 1 else s)

/-- The ROM's work in a ck: the image under verification passes and is programmed, or fails; once it is written the package is reset
(R412). That each takes one ck is a DESIGN CHOICE, log entry 81. -/
def tickRecovery (s : State) : State :=
  let m := s.dev.mgmt
  let put := fun (m : Mgmt) => { s with dev := { s.dev with mgmt := m } }
  if !m.recovery then s
  else if m.rcvstat = 1 then
    (if Config.firmwareOk m.image then put { m with flash := m.image, rcvstat := 3 } else put { m with rcvstat := 2 })
  else if m.rcvstat = 3 then packageReset s
  else s

/-! ### Droop and hold (R351, R394 to R396) -/

/-- The stretch factor: sixteenths above 1, the largest demanded (R394). -/
def stretchOf (d : Device) : Nat := max d.sun.stretch d.sun.stretchHeat

/-- The rails judged for the stretch: VIN and those of the domains that are not lost (R395). -/
def judgedRails (d : Device) : List Nat :=
  ([0, 1, 2, 3, 4].filter fun n => !look false d.power.lost n).map fun n => look 1000 d.power.rails n

/-- What the rails ask of k (Table 17.6): to rise (1), to fall (2), or neither (0). -/
def voltNow (d : Device) : Nat :=
  let l := judgedRails d
  if l.any fun v => decide (v < 960) then 1 else if l.all fun v => decide (980 ≤ v) then 2 else 0

/-- k moves by 1/16 for every 64 ck of the reference clock for which the rails have asked it to rise, or 1,024 to fall, counted from
when they began to ask (R395); the reference clock is kept in sixteenths of a ck. -/
def stepVolt (d : Device) : Device :=
  let u := d.sun
  let v := voltNow d
  let lasted := u.ref - u.voltSince
  if v ≠ u.volt then { d with sun := { u with volt := v, voltSince := u.ref } }
  else if v = 1 && decide (16 * 64 ≤ lasted) then
    { d with sun := { u with stretch := min 16 (u.stretch + 1), voltSince := u.voltSince + 16 * 64 } }
  else if v = 2 && decide (16 * 1024 ≤ lasted) then
    { d with sun := { u with stretch := u.stretch - 1, voltSince := u.voltSince + 16 * 1024 } }
  else d

/-- One ck of the device, which the stretch lengthens to (16 + k')/16 ck of the reference clock (R394, R395). -/
def tickVolt (d : Device) : Device := stepVolt { d with sun := { d.sun with ref := d.sun.ref + 16 + stretchOf d } }

/-- What a rail that has been read below 80% brings (Table 17.6): the loss of its domain, or of VIN (4) the failure of the package. -/
def railLow (s : State) (n v : Nat) : State :=
  if decide (800 ≤ v) || !s.dev.power.on then s else if n < 4 then loseDomain s n else powerFail s

/-- STRETCH RAISE: a rail (VD0 to VD3, or 4 for VIN) reads below 96%; k rises when its 64 ck have passed. -/
def execStretchRaise (r : RailAt) (s : State) : Out :=
  if 5 ≤ r.rail || decide (960 ≤ r.v) then .next s
  else .next (railLow { s with dev := stepVolt (setRail s.dev r.rail r.v) } r.rail r.v)

/-- STRETCH RELEASE: a rail reads 96% or more; with all at or above 98% k falls when its 1,024 ck have passed. -/
def execStretchRelease (r : RailAt) (s : State) : Out :=
  if 5 ≤ r.rail || decide (r.v < 960) then .next s else .next { s with dev := stepVolt (setRail s.dev r.rail r.v) }

/-- A hold is called: the cores park once the work of their boundary is done (R351). -/
def callHold (d : Device) : Device := { d with sun := { d.sun with holdAsked := true } }

/-- The supply as the power monitor reads it: VIN, and PWRWARN. -/
def setSupply (d : Device) (vin : Nat) (pwrwarn : Bool) : Device :=
  let d := setRail d 4 vin
  { d with power := { d.power with pwrwarn := pwrwarn } }

/-- BROWN-OUT HOLD: VIN below 90% for 2 us, or PWRWARN; below 80% the package's power fails. -/
def execBrownoutHold (vin : Nat) (pwrwarn : Bool) (s : State) : Out :=
  if !pwrwarn && decide (900 ≤ vin) then .next s
  else .next (railLow { s with dev := callHold (setSupply s.dev vin pwrwarn) } 4 vin)

/-- The throttle temperature of a socket (Table 17.9); the trip temperature is 10 degrees above it. -/
def throttleAt (sk : Nat) : Int := if 24 ≤ sk then 720 else 800

/-- Whether a die is within so many units of its throttle temperature, or above. -/
def dieHot (d : Device) (x : Int) (sk : Nat) : Bool := decide (throttleAt sk + x ≤ (tempOf d sk).toInt)

/-- HOLD END: VIN at or above 95% for 1 ms, PWRWARN deasserted, and every die below its throttle temperature (R395, R402). -/
def execHoldEnd (vin : Nat) (pwrwarn : Bool) (s : State) : Out :=
  if vin < 950 || pwrwarn || (List.range 40).any (dieHot s.dev 0) then .next s
  else
    let d := setSupply s.dev vin false
    .next { s with dev := { d with sun := { d.sun with holdAsked := false, parked := false } } }

/-- PACKAGE POWER FAILURE: VDS (rail 0) or VIN (rail 1) below 80%, or an HBM rail out of regulation (R379). -/
def execPackagePowerFailure (rail v : Nat) (s : State) : Out :=
  if s.dev.power.on && (decide (2 ≤ rail) || decide (v < 800)) then .next (powerFail s) else .next s

/-! ### Temperature and power (R402) -/

/-- A die's temperature is read. -/
def setTemp (d : Device) (sk : Nat) (t : Int) : Device :=
  let d := setDie d sk { dieOf d sk with temp := BitVec.ofInt 16 t }
  { d with power := { d.power with temps := store 0 d.power.temps sk (BitVec.ofInt 16 t) } }

/-- Heat and power demand a larger k. -/
def heatUp (d : Device) : Device := { d with sun := { d.sun with stretchHeat := min 16 (d.sun.stretchHeat + 1) } }

/-- With no die throttled and the package within PCAP, heat and power demand nothing. -/
def heatDown (d : Device) : Device :=
  if d.power.throttled.isEmpty && decide (d.power.power ≤ 4 * d.power.pcap) then { d with sun := { d.sun with stretchHeat := 0 } } else d

/-- The package too cold at power-on is held in reset no longer once every die is warm enough; EXTEST, CLAMP and HIGHZ then act as BYPASS
(R414, Table 17.9). -/
def endCold (d : Device) : Device :=
  let held := d.mgmt.inReset && tooCold d
  { d with mgmt := { d.mgmt with inReset := held, tapIr := if !held && decide (3 ≤ d.mgmt.tapIr) then 0 else d.mgmt.tapIr } }

/-- A die reads a temperature (R402): k rises at throttle and falls only 3 degrees below, a hold is called at trip, and at trip + 5
degrees THERMTRIP is asserted and the package's power fails. An unpowered package only keeps the reading, for its next power-on. -/
def takeTemp (s : State) (sk : Nat) (t : Int) : State :=
  let d := endCold (setTemp s.dev sk t)
  let p := d.power
  let hot := { p with throttled := store false p.throttled sk true }
  if !p.on then { s with dev := { s.dev with power := { s.dev.power with temps := p.temps } } }
  else if throttleAt sk + 120 ≤ t then powerFail { s with dev := { d with power := { hot with thermtrip := true } } }
  else if throttleAt sk + 80 ≤ t then
    { s with dev := callHold (heatUp { d with power := { hot with tripped := store false p.tripped sk true } }) }
  else if throttleAt sk ≤ t then { s with dev := heatUp { d with power := hot } }
  else
    let p := { p with tripped := store false p.tripped sk false
                      throttled := if t ≤ throttleAt sk - 24 then store false p.throttled sk false else p.throttled }
    { s with dev := heatDown { d with power := p } }

/-- THERMAL THROTTLE: a die reads a temperature. -/
def execThermalThrottle (sk : Nat) (t : Int) (s : State) : Out := if 40 ≤ sk then .next s else .next (takeTemp s sk t)

/-- THERMAL TRIP: a die reads its trip temperature or more. -/
def execThermalTrip (sk : Nat) (t : Int) (s : State) : Out :=
  if 40 ≤ sk || decide (t < throttleAt sk + 80) then .next s else .next (takeTemp s sk t)

/-- THERMTRIP: a die reads trip + 5 degrees or more. -/
def execThermtrip (sk : Nat) (t : Int) (s : State) : Out :=
  if 40 ≤ sk || decide (t < throttleAt sk + 120) then .next s else .next (takeTemp s sk t)

/-- The platform firmware sets PCAP, in W, from 1,500 to 3,000; another value leaves it as it is. DESIGN CHOICE, log entry 82. -/
def setPcap (p : Power) (pcap : Nat) : Power := if 1500 ≤ pcap && decide (pcap ≤ 3000) then { p with pcap := pcap } else p

/-- PCAP EXCEEDED: the package's power over the last ms, in units of 0.25 W, and PCAP as set; above PCAP the Sundial raises k. -/
def execPcapExceeded (w : PowerAt) (s : State) : Out :=
  let d := { s.dev with power := { setPcap s.dev.power w.pcap with power := w.power } }
  .next { s with dev := if 4 * d.power.pcap < w.power then heatUp d else heatDown d }

/-! ### Sideband (R413) -/

/-- The highest TEMP over all dies. -/
def maxTemp (d : Device) : BitVec 16 :=
  (List.range 40).foldl (fun m k => if m.toInt < (dieOf d k).temp.toInt then (dieOf d k).temp else m) (dieOf d 0).temp

/-- The value of a sideband index (Table 18.6). -/
def i3cValue (d : Device) (idx : Nat) : Nat :=
  if idx = 0 then (lcWord d).toNat
  else if idx = 1 then (maxTemp d).toNat
  else if idx = 2 then d.power.power
  else if idx = 3 then
    let hot := fun (x : Int) => (List.range 40).any (dieHot d x)
    b2n (d.sun.holdAsked || d.sun.parked) + 2 * b2n d.power.pwrwarn + 4 * b2n (hot 0) + 8 * b2n (hot 80)
  else if 0x10 ≤ idx && decide (idx ≤ 0x37) then (dieOf d (idx - 0x10)).temp.toNat
  else 0

/-- The address the port answers to: the dynamic one, once it has accepted one, else the static 0x31. PRESUMED of I3C, log entry 83. -/
def i3cSelf (m : Mgmt) : BitVec 7 := if m.i3cAddr = 0 then 0x31 else m.i3cAddr

/-- I3C READ: an index byte written to an address, then a read; no answer while WIPING, nor at another target's address. -/
def execI3cRead (a : I3cAt) (s : State) : Out :=
  let m := s.dev.mgmt
  if m.wiping || a.addr ≠ i3cSelf m then .next s
  else .next { s with dev := { s.dev with mgmt := { m with i3cIdx := a.idx, i3cOut := BitVec.ofNat 64 (i3cValue s.dev a.idx.toNat) } } }

/-- I3C ENTDAA: a dynamic address is accepted. -/
def execI3cEntdaa (a : BitVec 7) (s : State) : Out :=
  let m := s.dev.mgmt
  if m.wiping then .next s else .next { s with dev := { s.dev with mgmt := { m with i3cAddr := a } } }

/-! ### Test access (R414) -/

/-- A TAP instruction is selected, and what it shifts out. -/
def tap (s : State) (ir : Nat) (out : Word) : Out :=
  .next { s with dev := { s.dev with mgmt := { s.dev.mgmt with tapIr := ir, tapOut := out } } }

/-- EXTEST, CLAMP and HIGHZ act as BYPASS unless the package is held in reset. -/
def tapInReset (s : State) (ir : Nat) : Out := tap s (if s.dev.mgmt.inReset then ir else 0) 0

/-- BYPASS, and the private instructions outside MANUFACTURE, which act as BYPASS (R414). -/
def execBypass (s : State) : Out := tap s 0 0
/-- IDCODE reads 0x0DC1_5A0B. -/
def execIdcode (s : State) : Out := tap s 1 0x0DC15A0B
/-- SAMPLE/PRELOAD: the boundary register takes the pins. -/
def execSamplePreload (pins : List Bool) (s : State) : Out :=
  tap { s with dev := { s.dev with mgmt := { s.dev.mgmt with pins := pins } } } 2 0
/-- EXTEST. -/
def execExtest (s : State) : Out := tapInReset s 3
/-- CLAMP. -/
def execClamp (s : State) : Out := tapInReset s 4
/-- HIGHZ. -/
def execHighz (s : State) : Out := tapInReset s 5

end Sys2Proof.Machine
end

