-- ==== Sys2Proof/Machine/DevCk.lean ====
section
/-! DEFINITION. The end of every ck of the device (R174, R394, R395): what falls due, what goes on by itself, the Sundial, the clocks,
and the events that arrive before the next ck. -/
namespace Sys2Proof.Machine
open Sys2Proof

/-- The moves of frames into the raw-coded pool whose 4,096 ck have passed (R222). -/
def movesDue (d : Device) : Device :=
  (d.hbm.move.filter fun p => decide (p.2.1 ≤ d.clock)).foldl (fun d p => moveDone d p.1) d

/-- What engines, hubs and the distributor have begun, and a hub or a fence held up, goes on (R213, R222, R293, R408, R443, R450). -/
def goOn (s : State) : State :=
  let s := hubsOn s
  let s := settleCopies (retryAll { s with dev := walksOn s.dev })
  let s := payAll (settleEndings (drainAll s))
  let s := postAll s
  resetsDue { s with dev := cancelsOn s.dev }

/-- What one ck of a running device brings. -/
def runCk (s : State) : State :=
  let s := lastingsDue s
  let s := if decayDue s.dev then { s with dev := decayScores s.dev } else s
  let s := goOn (cancelLate { s with dev := movesDue s.dev })
  let s := tickSundial (tickDies s)
  let d := latencySamples s.dev
  tickRecovery { s with dev := { d with clock := d.clock + 1 } }

/-- What the reference clock brings of a powered package: the rails are judged, and their droop is sampled. -/
def tickPower (s : State) : State :=
  if s.dev.power.on then { s with dev := droopSamples s.arrival (tickVolt s.dev) } else s

/-- The management requests that waited for a link go on, in a hold too (R388, R396). -/
def tickMgmt (s : State) : State :=
  if s.dev.mgmtReqs.isEmpty || !s.dev.power.on || s.dev.mgmt.inReset then s else { s with dev := mgmtOn s.dev }

/-- The end of a ck of the device. While the cores are parked only events arrive, management requests go on, and the rails are judged. -/
def endDevCk (s : State) : State :=
  let s := tickMgmt (tickPower s)
  let s := if s.dev.sun.parked || !s.dev.power.on || s.dev.mgmt.inReset then s else runCk s
  { s with turn := 0, pending := (Config.arrivals s.arrival).filter eventRow, arrival := s.arrival + 1 }

end Sys2Proof.Machine
end

