-- ==== Sys2Proof/Machine/Cycle.lean ====
section
/-! DEFINITION. One ck of one core (R24 to R32, R130, R131, R186, R334 to R338): the start of an advancing ck, the watermark
stall, what is taken in the ck, and its end; and the rows of the opcode table that are parts of it. -/
namespace Sys2Proof.Machine
open Sys2Proof

/-! ### The watermark stall (R30) -/

/-- Whether an instruction of a compute superstep passes the checks before its own (R60). -/
def gatePasses (s : State) : Bool := !seqBad s.core.ctx && !(exchange s && s.core.ctx.priv = .u)

/-- What a scalar load reads. -/
def scalarReads (s : State) (ea : Word) (w : Nat) : Option (Nat × List Nat) :=
  match scalarCheck s.core.gang s.core.ctx ea w with
  | .go => some (1, scalarBytes ea w)
  | .trap _ _ => none

/-- What a vector load reads. -/
def vecReads (s : State) (a : VAcc) : Option (Nat × List Nat) :=
  match a.check s.core.gang s.core.ctx with
  | .go => some (a.space, a.bytes)
  | .trap _ _ => none

/-- What an engine instruction reads of the scratchpad. -/
def areaReads (s : State) (as : List Area) : Option (Nat × List Nat) :=
  match areaTrap s.core.gang s.core.ctx as with
  | some _ => none
  | none => some (1, areaBytes as)

/-- The local bytes an instruction standing at issue reads there, with their space, once its checks have passed. -/
def loadReads (i : Instr) (s : State) : Option (Nat × List Nat) :=
  let c := s.core.ctx
  match i with
  | .lds ty _ sa off => scalarReads s (ldsAddr c sa off) (tyBits ty / 8)
  | .vld ty g _ sa off => vecReads s (accUnit s ty g 1 sa (off.signExtend 64))
  | .vlda ty g _ sa off => vecReads s (accUnit s ty g 3 sa (off.signExtend 64))
  | .vlds ty g _ sa sb off => vecReads s (accStride s ty g sa sb (off.signExtend 64))
  | .vldx ty g _ a sb => vecReads s (accIndex s ty g sb a)
  | .amxrd _ _ sa => areaReads s [⟨sreg c sa, 128, 128⟩]
  | .cpy _ _ raw _ sa sb sc => areaReads s (copyAreas c 0 raw sa sb sc)
  | .cpyt _ _ _ sa sb sc => areaReads s (copyAreas c 1 false sa sb sc)
  | .cpywm _ _ raw _ sa sb sc => areaReads s (copyAreas c 2 raw sa sb sc)
  | .cpyfill _ _ sb sc => areaReads s (copyAreas c 3 false 0 sb sc)
  | .amxstep _ sa sb => areaReads s (amxAreas c sa sb)
  | .clred _ _ sa => areaReads s [⟨sreg c sa, 64, 64⟩]
  | .clrsc _ _ sa => areaReads s [⟨sreg c sa, 64, 64⟩]
  | .clbc sa => areaReads s [⟨sreg c sa, 64, 64⟩]
  | .clgath sa => areaReads s [⟨sreg c sa, 64, 64⟩]
  | _ => none

/-- Whether the instruction standing at issue stalls. -/
def standStall (i : Instr) (s : State) : Stall :=
  if !gatePasses s then .no
  else
    match loadReads i s with
    | some (space, bytes) => stallOf s.core.ctx space bytes
    | none => .no

/-! ### Faults in flight (R335, R353) -/

/-- Whether a fault in flight is one the redundancy counts as a detection: a residue fault or a local-memory error. -/
def detectable (e : LateFault) : Bool := e.cause = 0x12 || e.cause = 0x13

/-- The faults of a ck withdraw their counts, and detections are reported (R33, R353). -/
def reportFaults (s : State) : List (Flight × LateFault) → State
  | [] => s
  | (f, e) :: r =>
    let s := s.mapCtx fun c => withdraw c f
    let c := s.core.ctx
    let s := if detectable e then
        { s with dev := detect s.dev c.run s.core.sk c.coreId c.cls (0x41 + (e.cause - 0x12)) }
      else s
    reportFaults s r

/-- The faults of a ck that trap: in classes S and D a detection does not (R353). -/
def trapping (c : Ctx) (l : List (Flight × LateFault)) : List (Flight × LateFault) :=
  l.filter fun x => !(prot c && detectable x.2)

/-- The start of an advancing ck: reads, completions, and the oldest fault in flight taken; whether one was. -/
def beginCk (s : State) : State × Bool :=
  let g := s.core.gang
  let (st, c) := advance g s.core.ctx
  let bad := badOf st
  let s := reportFaults (s.setCtx c) bad
  match trapping c bad with
  | [] => (s, false)
  | (f, e) :: _ =>
    let c := s.core.ctx
    match c.priv with
    | .s => (s.setCtx (trapAtS s.dev.clock c e.cause e.val true (bad.length - 1)), true)
    | .u => (s.setCtx (takeTrap g s.core.cycle c e.cause e.val c.pc.toNat (some f.pc.toNat) (bad.length - 1) false
        (slotsOf st)), true)

/-! ### Interrupts (R131, R334, R336) -/

/-- The interrupt taken in a ck in which an instruction stands at issue; `stall` tells of a stall ck. -/
def takeInterrupt (s : State) (stall : Bool) : Option State :=
  if !mayInterrupt s || s.core.ctx.phended then none
  else
    (interruptOf s.core.ctx).map fun x =>
      s.setCtx (takeTrap s.core.gang s.core.cycle x.2.2 x.1 x.2.1 x.2.2.pc.toNat none 0 stall (liveSlots x.2.2))

/-- The timer of the acting core at the start of its ck (R130). -/
def fireTimer (s : State) : State := s.mapCtx (timerFires s.core.cycle)

/-! ### The plan of a ck -/

/-- What a ck of a core does: it is settled, or the instruction at issue is to be run in the state given. -/
inductive CkPlan
  | done (s : State)
  | run (i : Instr) (s : State)

/-- A stall ck: an interrupt is taken, the copy error is raised, or nothing happens (R31). -/
def stallCk (s : State) (x : Stall) : State :=
  match takeInterrupt s true with
  | some s => fireTimer s
  | none =>
    match x with
    | .failed a => fireTimer (trapStall s 0x0C (BitVec.ofNat 64 a))
    | _ => fireTimer s

/-- An advancing ck: a fault in flight, else an interrupt, else the word at issue (R334). The interrupt is one that was
pending before this ck. A word that is no instruction raises the instruction-access trap first where its region ends (R36, R60): log
entry 29. -/
def advanceCk (s : State) (word : Except DecodeError Instr) : CkPlan :=
  match beginCk s with
  | (t, true) => .done (fireTimer t)
  | (t, false) =>
    match takeInterrupt t false with
    | some t => .done (fireTimer t)
    | none =>
      let t := fireTimer t
      if t.core.ctx.phended then .done t
      else
        match word with
        | .error _ =>
          .done (if seqBad t.core.ctx then trapIssue t 0x01 (nextPc t.core.ctx) else trapIssue t 0x03 (wordNow t))
        | .ok i => .run i t

/-- What the acting core does in this ck. -/
def ckPlan (s : State) : CkPlan :=
  let c := s.core.ctx
  if s.core.mode = .idle || s.dev.sun.parked then .done s
  else if !coreGoes s s.core then .done (fireTimer s)
  else if 0 < c.hold then .done (fireTimer (s.setCtx { c with hold := c.hold - 1 }))
  else
    let word := decode (wordNow s)
    let stall : Stall := match word with
      | .ok i => if c.phended then Stall.no else standStall i (s.setCtx (advance s.core.gang c).2)
      | .error _ => Stall.no
    if stall = Stall.no then advanceCk s word else .done (stallCk s stall)

/-! ### The end of a ck -/

/-- CYCLE, and in an exchange superstep XCLK and the deliveries of this ck (R32, R186, R196). XCLK wraps after 2^32 - 1, which only a free
mode superstep without a budget reaches: DESIGN CHOICE, log entry 103. A package too cold at power-on is held in
reset with its device clock at rest, while CYCLE counts on. DESIGN CHOICE, log entry 58. -/
def countCk (s : State) : State :=
  if s.dev.sun.parked then s
  else
    let s := { s with core := { s.core with cycle := s.core.cycle + 1 } }
    if s.core.mode = .active && exchange s && s.dev.sun.work = 0 then
      let s := deliverDue s
      { s with core := { s.core with xclk := (s.core.xclk + 1) % 2 ^ 32 } }
    else s

/-- The next core acts; after the last one the device's ck ends. -/
def rotate (s : State) : State :=
  match s.others with
  | [] => endDevCk s
  | k :: r =>
    let s' := { s with core := k, others := r ++ [s.core], turn := s.turn + 1 }
    if s.others.length < s'.turn then endDevCk s' else s'

/-- The end of the acting core's ck. -/
def ckEnd (s : State) : State := rotate (countCk s)

/-- An unpowered package: only time and what arrives go on (R379, R391). -/
def unpoweredCk (s : State) : State := endDevCk s

/-! ### The plan of a step -/

/-- What one step does: it is settled; an event that has arrived takes effect; or the acting core's instruction at issue
runs, after which its ck ends. -/
inductive StepPlan
  | done (s : State)
  | event (i : Instr) (s : State)
  | core (i : Instr) (s : State)

/-- Whether an event acts on an unpowered package: power does, and its temperature is read (R379, R391, R402). -/
def actsUnpowered (i : Instr) : Bool :=
  match i with
  | .powerOn _ | .thermalThrottle _ _ | .thermalTrip _ _ | .thermtrip _ _ => true
  | _ => false

/-- Whether an event acts on a package that is held in reset: what its sensors, its power monitor and its test port meet (R395, R402,
R414). -/
def actsInReset (i : Instr) : Bool :=
  match i with
  | .thermalThrottle _ _ | .thermalTrip _ _ | .thermtrip _ _ | .packagePowerFailure _ _ | .domainLoss _ _ _ | .domainReturn _ _
  | .stretchRaise _ | .stretchRelease _ | .brownoutHold _ _ | .holdEnd _ _ | .bypass | .idcode | .samplePreload _ | .extest | .clamp
  | .highz => true
  | _ => false

/-- Whether an event acts now. -/
def actsNow (d : Device) (i : Instr) : Bool := if !d.power.on then actsUnpowered i else !d.mgmt.inReset || actsInReset i

/-- What one step does: events that have arrived go first, one a step, those that cannot act on a package without power or in reset
without effect; then the acting core takes its ck. -/
def stepPlan (s : State) : StepPlan :=
  match s.pending with
  | e :: r =>
    if actsNow s.dev e then .event e { s with pending := r } else .done { s with pending := r }
  | [] =>
    if s.dev.power.on then
      match ckPlan s with
      | .done t => .done (ckEnd t)
      | .run i t => .core i t
    else .done (unpoweredCk s)

/-! ### Placing one instruction at issue -/

/-- Whether the word at the acting core's pc is what the next step runs: the core takes its ck, and nothing is in flight
or pending before it. -/
def readyToRun (s : State) : Bool :=
  s.pending.isEmpty && s.dev.power.on && s.core.mode = .active && coreGoes s s.core && s.core.ctx.hold = 0 &&
    s.core.ctx.inflight.isEmpty && !s.core.ctx.phended && (interruptOf s.core.ctx).isNone

/-- A launch record of class N that asks for one core of gang width 1 in the phase of U at address 0. -/
def bareRec : LaunchRec := { recdOf 0 with gang := 1, span := 1, ncore := 1, codesz := 64 }

/-- A launch of that record. -/
def bareLaunch (d : Device) : Launch := { newLaunch d 0 0 Queue.zero 0 with recd := bareRec, placed := true }

/-- Its run, on the core slot given. -/
def bareRun (d : Device) (sk ix : Nat) : Run :=
  { newRun (d.nextId + 1) d.nextId .primary [⟨sk, ix, 0⟩] with phase := .running }

/-- The acting core runs a launch of its own at U, in a compute superstep of a powered package, with nothing pending. -/
def placeBare (s : State) : State :=
  let d := s.dev
  let l := bareLaunch d
  let r := bareRun d s.core.sk s.core.ix
  let die := { dieOf d s.core.sk with state := 2 }
  let d' := setDie { d with
    power := { d.power with on := true }
    sun := { d.sun with phase := d.sun.phase &&& ~~~1, work := 0, parked := false }
    launches := d.launches ++ [l], runs := d.runs ++ [r], nextId := d.nextId + 2 } s.core.sk die
  let c := { startCtx d l r 0 (s.core.sk, s.core.ix) 0 [] 0 with code := [] }
  { s with core := { s.core with bound := true, mode := .active, ctx := c }, pending := [], dev := d' }

/-- A word stored where the acting core fetches its next instruction. -/
def putFetch (s : State) (w : Nat) : State :=
  { s with core := { s.core with imem := writeLe s.core.imem s.core.ctx.pc.toNat 8 w } }

/-! ### Rows that are parts of a ck -/

/-- LOCAL LOAD READ: the reads of issued loads are made (R157). -/
def execLocalLoadRead (s : State) : Out :=
  .next (s.mapCtx fun c => { c with inflight := c.inflight.map fun f => (readSlot s.core.gang c ⟨f, true⟩).fl })

/-- RESULT COMPLETE: the start of an advancing ck (R25, R335). -/
def execResultComplete (s : State) : Out := .next (beginCk s).1

/-- TIMER FIRE (R130). -/
def execTimerFire (s : State) : Out := .next (fireTimer s)

/-- TIMER INTERRUPT: taken when no engine stop goes before it (R334). -/
def execTimerInterrupt (s : State) : Out :=
  if (stopPending s.core.ctx).isSome then .next s else .next ((takeInterrupt s false).getD s)

/-- ENGINE STOP INTERRUPT. -/
def execEngineStopInterrupt (s : State) : Out :=
  if (stopPending s.core.ctx).isNone then .next s else .next ((takeInterrupt s false).getD s)

/-- CYCLE TAG REACHED: the tagged instruction waiting at issue issues in the ck in which XCLK is its tag (R187). -/
def execCycleTagReached (s : State) : Out :=
  let at' := fun (tag : BitVec 16) (o : Out) => if exchange s && s.core.xclk = tag.toNat then o else .next s
  match decode (wordNow s) with
  | .ok (.phend tag) => at' tag (execPhend tag s)
  | .ok (.xcyc tag) => at' tag (execXcyc tag s)
  | .ok (.xsend sa sb sc tag) => at' tag (execXsend sa sb sc tag s)
  | .ok (.xsendm sa sb sc tag) => at' tag (execXsendm sa sb sc tag s)
  | .ok (.xsends sa sb tag) => at' tag (execXsends sa sb tag s)
  | _ => .next s

end Sys2Proof.Machine
end

