-- ==== Sys2Proof/Machine/ScalarFp.lean ====
section
/-! DEFINITION. Scalar FP32 (R107 to R110): opcodes 0x30 to 0x33, legal at U and S in both phases. -/
namespace Sys2Proof.Machine
open Sys2Proof

/-- The F32 value in bits [31:0] of a register (R107); the scalar forms never flush (R78). -/
def f32Of (c : Ctx) (r : BitVec 6) : FVal := fpVal .f32 ((sreg c r).toNat % 2 ^ 32)

/-- A scalar FP form: value pattern and flags (R107). -/
def sfpOp (s : State) (srcs : List Src) (sd : BitVec 6) (lat : Nat) (v : Ctx → Nat × Flags) : Out :=
  gateAny s fun s =>
    let r := v s.core.ctx
    .next (issueScalar s srcs sd lat (BitVec.ofNat 64 r.1) r.2)

/-- SFADD (R108). -/
def execSfadd (rm : Rm) (sd sa sb : BitVec 6) (s : State) : Out :=
  sfpOp s [.s sa, .s sb] sd 4 fun c => fpAdd .f32 (effRmScalar c.fpctl rm) 0 false (f32Of c sa) (f32Of c sb)
/-- SFSUB (R108). -/
def execSfsub (rm : Rm) (sd sa sb : BitVec 6) (s : State) : Out :=
  sfpOp s [.s sa, .s sb] sd 4 fun c => fpSub .f32 (effRmScalar c.fpctl rm) 0 false (f32Of c sa) (f32Of c sb)
/-- SFMUL (R108). -/
def execSfmul (rm : Rm) (sd sa sb : BitVec 6) (s : State) : Out :=
  sfpOp s [.s sa, .s sb] sd 4 fun c => fpMul .f32 (effRmScalar c.fpctl rm) 0 false (f32Of c sa) (f32Of c sb)
/-- SFCMP (R109). -/
def execSfcmp (cc : Cc) (sd sa sb : BitVec 6) (s : State) : Out :=
  sfpOp s [.s sa, .s sb] sd 1 fun c => (b2n (ccFp cc (f32Of c sa) (f32Of c sb)), cmpFlags (f32Of c sa) (f32Of c sb))

/-- The value of SFCVT by direction (R87, R88, R110). -/
def sfcvtVal (dir : SfDir) (m : Rm) (x : Word) : Nat × Flags :=
  match dir with
  | .i64f32 =>
    let r := cvtFpInt 64 true m 0 (fpVal .f32 (x.toNat % 2 ^ 32))
    ((wrap64 r.1).toNat, r.2)
  | .n64f32 =>
    let r := cvtFpInt 64 false m 0 (fpVal .f32 (x.toNat % 2 ^ 32))
    ((wrap64 r.1).toNat, r.2)
  | .f32i64 => cvtIntFp .f32 m 0 false x.toInt
  | .f32n64 => cvtIntFp .f32 m 0 false (x.toNat : Int)

/-- SFCVT (R110). -/
def execSfcvt (dir : SfDir) (rm : Rm) (sd sa : BitVec 6) (s : State) : Out :=
  sfpOp s [.s sa] sd 4 fun c => sfcvtVal dir (effRmScalar c.fpctl rm) (sreg c sa)

end Sys2Proof.Machine
end

