-- ==== Sys2Proof/Machine/Dispatch.lean ====
section
/-! DEFINITION. One arm per constructor of `Instr`: the meaning of each row of spec/opcode_table.json. -/
namespace Sys2Proof.Machine
open Sys2Proof

/-- What one instruction or event does. -/
def exec (i : Instr) (s : State) : Host.Outcome State Fault Refusal :=
  match i with
  | .add sd sa sb => Sys2Proof.Machine.execAdd sd sa sb s
  | .sub sd sa sb => Sys2Proof.Machine.execSub sd sa sb s
  | .mul sd sa sb => Sys2Proof.Machine.execMul sd sa sb s
  | .mulh sd sa sb => Sys2Proof.Machine.execMulh sd sa sb s
  | .mulhn sd sa sb => Sys2Proof.Machine.execMulhn sd sa sb s
  | .div sd sa sb => Sys2Proof.Machine.execDiv sd sa sb s
  | .divn sd sa sb => Sys2Proof.Machine.execDivn sd sa sb s
  | .rem sd sa sb => Sys2Proof.Machine.execRem sd sa sb s
  | .remn sd sa sb => Sys2Proof.Machine.execRemn sd sa sb s
  | .and sd sa sb => Sys2Proof.Machine.execAnd sd sa sb s
  | .or sd sa sb => Sys2Proof.Machine.execOr sd sa sb s
  | .xor sd sa sb => Sys2Proof.Machine.execXor sd sa sb s
  | .shl sd sa sb => Sys2Proof.Machine.execShl sd sa sb s
  | .shr sd sa sb => Sys2Proof.Machine.execShr sd sa sb s
  | .sra sd sa sb => Sys2Proof.Machine.execSra sd sa sb s
  | .min sd sa sb => Sys2Proof.Machine.execMin sd sa sb s
  | .minn sd sa sb => Sys2Proof.Machine.execMinn sd sa sb s
  | .max sd sa sb => Sys2Proof.Machine.execMax sd sa sb s
  | .maxn sd sa sb => Sys2Proof.Machine.execMaxn sd sa sb s
  | .slt sd sa sb => Sys2Proof.Machine.execSlt sd sa sb s
  | .sltn sd sa sb => Sys2Proof.Machine.execSltn sd sa sb s
  | .seq sd sa sb => Sys2Proof.Machine.execSeq sd sa sb s
  | .sel sd sa sb sc => Sys2Proof.Machine.execSel sd sa sb sc s
  | .clz sd sa => Sys2Proof.Machine.execClz sd sa s
  | .popc sd sa => Sys2Proof.Machine.execPopc sd sa s
  | .sext ty sd sa => Sys2Proof.Machine.execSext ty sd sa s
  | .zext ty sd sa => Sys2Proof.Machine.execZext ty sd sa s
  | .addi sd sa imm => Sys2Proof.Machine.execAddi sd sa imm s
  | .muli sd sa imm => Sys2Proof.Machine.execMuli sd sa imm s
  | .andi sd sa imm => Sys2Proof.Machine.execAndi sd sa imm s
  | .ori sd sa imm => Sys2Proof.Machine.execOri sd sa imm s
  | .xori sd sa imm => Sys2Proof.Machine.execXori sd sa imm s
  | .shli sd sa imm => Sys2Proof.Machine.execShli sd sa imm s
  | .shri sd sa imm => Sys2Proof.Machine.execShri sd sa imm s
  | .srai sd sa imm => Sys2Proof.Machine.execSrai sd sa imm s
  | .slti sd sa imm => Sys2Proof.Machine.execSlti sd sa imm s
  | .sltni sd sa imm => Sys2Proof.Machine.execSltni sd sa imm s
  | .seqi sd sa imm => Sys2Proof.Machine.execSeqi sd sa imm s
  | .limm sd imm => Sys2Proof.Machine.execLimm sd imm s
  | .limmh sd imm => Sys2Proof.Machine.execLimmh sd imm s
  | .addsc sd sa sb sh off => Sys2Proof.Machine.execAddsc sd sa sb sh off s
  | .sfadd rm sd sa sb => Sys2Proof.Machine.execSfadd rm sd sa sb s
  | .sfsub rm sd sa sb => Sys2Proof.Machine.execSfsub rm sd sa sb s
  | .sfmul rm sd sa sb => Sys2Proof.Machine.execSfmul rm sd sa sb s
  | .sfcmp cc sd sa sb => Sys2Proof.Machine.execSfcmp cc sd sa sb s
  | .sfcvt dir rm sd sa => Sys2Proof.Machine.execSfcvt dir rm sd sa s
  | .lds ty sd sa off => Sys2Proof.Machine.execLds ty sd sa off s
  | .sts ty sd sa off => Sys2Proof.Machine.execSts ty sd sa off s
  | .b off => Sys2Proof.Machine.execB off s
  | .beq sa sb off => Sys2Proof.Machine.execBeq sa sb off s
  | .bne sa sb off => Sys2Proof.Machine.execBne sa sb off s
  | .blt sa sb off => Sys2Proof.Machine.execBlt sa sb off s
  | .bge sa sb off => Sys2Proof.Machine.execBge sa sb off s
  | .bltn sa sb off => Sys2Proof.Machine.execBltn sa sb off s
  | .bgen sa sb off => Sys2Proof.Machine.execBgen sa sb off s
  | .bany ty pa off => Sys2Proof.Machine.execBany ty pa off s
  | .ball ty pa off => Sys2Proof.Machine.execBall ty pa off s
  | .loop sa off => Sys2Proof.Machine.execLoop sa off s
  | .call sa off => Sys2Proof.Machine.execCall sa off s
  | .callr sa sb => Sys2Proof.Machine.execCallr sa sb s
  | .ret sb => Sys2Proof.Machine.execRet sb s
  | .jr sb => Sys2Proof.Machine.execJr sb s
  | .nop => Sys2Proof.Machine.execNop s
  | .endl => Sys2Proof.Machine.execEndl s
  | .pand pd pa pb => Sys2Proof.Machine.execPand pd pa pb s
  | .por pd pa pb => Sys2Proof.Machine.execPor pd pa pb s
  | .pxor pd pa pb => Sys2Proof.Machine.execPxor pd pa pb s
  | .pandn pd pa pb => Sys2Proof.Machine.execPandn pd pa pb s
  | .pnot pd pa => Sys2Proof.Machine.execPnot pd pa s
  | .pwhile ty pd sa => Sys2Proof.Machine.execPwhile ty pd sa s
  | .pcnt ty sd pa => Sys2Proof.Machine.execPcnt ty sd pa s
  | .pff ty sd pa => Sys2Proof.Machine.execPff ty sd pa s
  | .csrr sd csr => Sys2Proof.Machine.execCsrr sd csr s
  | .csrw csr sa => Sys2Proof.Machine.execCsrw csr sa s
  | .csrx sd csr sa => Sys2Proof.Machine.execCsrx sd csr sa s
  | .csrs sd csr sa => Sys2Proof.Machine.execCsrs sd csr sa s
  | .csrc sd csr sa => Sys2Proof.Machine.execCsrc sd csr sa s
  | .csrwi csr imm => Sys2Proof.Machine.execCsrwi csr imm s
  | .vrot vrs prs => Sys2Proof.Machine.execVrot vrs prs s
  | .trap code => Sys2Proof.Machine.execTrap code s
  | .tret => Sys2Proof.Machine.execTret s
  | .tmarm sa => Sys2Proof.Machine.execTmarm sa s
  | .tmoff => Sys2Proof.Machine.execTmoff s
  | .segend count crc => Sys2Proof.Machine.execSegend count crc s
  | .segendNc count crc => Sys2Proof.Machine.execSegendNc count crc s
  | .phend tag => Sys2Proof.Machine.execPhend tag s
  | .xcyc tag => Sys2Proof.Machine.execXcyc tag s
  | .xsend sa sb sc tag => Sys2Proof.Machine.execXsend sa sb sc tag s
  | .xsendm sa sb sc tag => Sys2Proof.Machine.execXsendm sa sb sc tag s
  | .xsends sa sb tag => Sys2Proof.Machine.execXsends sa sb tag s
  | .sigrv h sd => Sys2Proof.Machine.execSigrv h sd s
  | .sigrc sd => Sys2Proof.Machine.execSigrc sd s
  | .sigrs sd => Sys2Proof.Machine.execSigrs sd s
  | .vadd ty g d a b rm sat => Sys2Proof.Machine.execVadd ty g d a b rm sat s
  | .vsub ty g d a b rm sat => Sys2Proof.Machine.execVsub ty g d a b rm sat s
  | .vmul ty g d a b rm sat => Sys2Proof.Machine.execVmul ty g d a b rm sat s
  | .vmulh ty g d a b => Sys2Proof.Machine.execVmulh ty g d a b s
  | .vmin ty g d a b => Sys2Proof.Machine.execVmin ty g d a b s
  | .vmax ty g d a b => Sys2Proof.Machine.execVmax ty g d a b s
  | .vand ty g d a b => Sys2Proof.Machine.execVand ty g d a b s
  | .vor ty g d a b => Sys2Proof.Machine.execVor ty g d a b s
  | .vxor ty g d a b => Sys2Proof.Machine.execVxor ty g d a b s
  | .vshl ty g d a b sat => Sys2Proof.Machine.execVshl ty g d a b sat s
  | .vshr ty g d a b => Sys2Proof.Machine.execVshr ty g d a b s
  | .vsra ty g d a b => Sys2Proof.Machine.execVsra ty g d a b s
  | .vfma ty g d a b rm => Sys2Proof.Machine.execVfma ty g d a b rm s
  | .vfms ty g d a b rm => Sys2Proof.Machine.execVfms ty g d a b rm s
  | .vabs ty g d a sat => Sys2Proof.Machine.execVabs ty g d a sat s
  | .vneg ty g d a sat => Sys2Proof.Machine.execVneg ty g d a sat s
  | .vsel ty g d a b => Sys2Proof.Machine.execVsel ty g d a b s
  | .vrcp ty g d a rm => Sys2Proof.Machine.execVrcp ty g d a rm s
  | .vrsq ty g d a rm => Sys2Proof.Machine.execVrsq ty g d a rm s
  | .vexp2 ty g d a rm => Sys2Proof.Machine.execVexp2 ty g d a rm s
  | .vlog2 ty g d a rm => Sys2Proof.Machine.execVlog2 ty g d a rm s
  | .vsigm ty g d a rm => Sys2Proof.Machine.execVsigm ty g d a rm s
  | .vtanh ty g d a rm => Sys2Proof.Machine.execVtanh ty g d a rm s
  | .vclass ty g d a => Sys2Proof.Machine.execVclass ty g d a s
  | .vscale ty g d a b rm => Sys2Proof.Machine.execVscale ty g d a b rm s
  | .vcvt td ts g d a rm => Sys2Proof.Machine.execVcvt td ts g d a rm s
  | .vqblk ty k32 had d a b rm => Sys2Proof.Machine.execVqblk ty k32 had d a b rm s
  | .vdqblk ty k32 had d a rm => Sys2Proof.Machine.execVdqblk ty k32 had d a rm s
  | .vperm ty g d a b => Sys2Proof.Machine.execVperm ty g d a b s
  | .vmov ty g d a => Sys2Proof.Machine.execVmov ty g d a s
  | .vnot ty g d a => Sys2Proof.Machine.execVnot ty g d a s
  | .vadds ty g d a sb rm sat => Sys2Proof.Machine.execVadds ty g d a sb rm sat s
  | .vmuls ty g d a sb rm sat => Sys2Proof.Machine.execVmuls ty g d a sb rm sat s
  | .vshls ty g d a sb sat => Sys2Proof.Machine.execVshls ty g d a sb sat s
  | .vshrs ty g d a sb => Sys2Proof.Machine.execVshrs ty g d a sb s
  | .vsras ty g d a sb => Sys2Proof.Machine.execVsras ty g d a sb s
  | .vbcast ty g d sb => Sys2Proof.Machine.execVbcast ty g d sb s
  | .vslideu ty g d a sb => Sys2Proof.Machine.execVslideu ty g d a sb s
  | .vslided ty g d a sb => Sys2Proof.Machine.execVslided ty g d a sb s
  | .viota ty g d sb => Sys2Proof.Machine.execViota ty g d sb s
  | .vldx ty g d a sb => Sys2Proof.Machine.execVldx ty g d a sb s
  | .vcmp ty cc g pd a b => Sys2Proof.Machine.execVcmp ty cc g pd a b s
  | .vcmps ty cc g pd a sb => Sys2Proof.Machine.execVcmps ty cc g pd a sb s
  | .vext ty sd a sb => Sys2Proof.Machine.execVext ty sd a sb s
  | .vrsum ty g sd a => Sys2Proof.Machine.execVrsum ty g sd a s
  | .vrmin ty g sd a => Sys2Proof.Machine.execVrmin ty g sd a s
  | .vrmax ty g sd a => Sys2Proof.Machine.execVrmax ty g sd a s
  | .vramax ty g sd a => Sys2Proof.Machine.execVramax ty g sd a s
  | .vld ty g d sa off => Sys2Proof.Machine.execVld ty g d sa off s
  | .vlds ty g d sa sb off => Sys2Proof.Machine.execVlds ty g d sa sb off s
  | .vlda ty g d sa off => Sys2Proof.Machine.execVlda ty g d sa off s
  | .vst ty g src sa off => Sys2Proof.Machine.execVst ty g src sa off s
  | .vsts ty g src sa sb off => Sys2Proof.Machine.execVsts ty g src sa sb off s
  | .vstx ty g src idx sa => Sys2Proof.Machine.execVstx ty g src idx sa s
  | .localLoadRead => Sys2Proof.Machine.execLocalLoadRead s
  | .resultComplete => Sys2Proof.Machine.execResultComplete s
  | .tlclose ctx sd => Sys2Proof.Machine.execTlclose ctx sd s
  | .tlwait ctx sa imm => Sys2Proof.Machine.execTlwait ctx sa imm s
  | .tlread ctx sd => Sys2Proof.Machine.execTlread ctx sd s
  | .mark => Sys2Proof.Machine.execMark s
  | .fence scope kind => Sys2Proof.Machine.execFence scope kind s
  | .aamo op ty nr sd sa sb sc => Sys2Proof.Machine.execAamo op ty nr sd sa sb sc s
  | .waitv cc ty own tmo sd sa sb => Sys2Proof.Machine.execWaitv cc ty own tmo sd sa sb s
  | .fencePerform c k => Sys2Proof.Machine.execFencePerform c k s
  | .aamoPerform c k => Sys2Proof.Machine.execAamoPerform c k s
  | .waitvArm c k => Sys2Proof.Machine.execWaitvArm c k s
  | .waitvTimeout c k => Sys2Proof.Machine.execWaitvTimeout c k s
  | .cpy src dst raw ctx sa sb sc => Sys2Proof.Machine.execCpy src dst raw ctx sa sb sc s
  | .cpyt src dst ctx sa sb sc => Sys2Proof.Machine.execCpyt src dst ctx sa sb sc s
  | .cpywm src dst raw ctx sa sb sc => Sys2Proof.Machine.execCpywm src dst raw ctx sa sb sc s
  | .cpyfill dst ctx sb sc => Sys2Proof.Machine.execCpyfill dst ctx sb sc s
  | .cpyst ctx w sd => Sys2Proof.Machine.execCpyst ctx w sd s
  | .cpyabt ctx => Sys2Proof.Machine.execCpyabt ctx s
  | .cpyabtResume ctx => Sys2Proof.Machine.execCpyabtResume ctx s
  | .amxstep ctx sa sb => Sys2Proof.Machine.execAmxstep ctx sa sb s
  | .amxrd all sd sa => Sys2Proof.Machine.execAmxrd all sd sa s
  | .copyStart c n => Sys2Proof.Machine.execCopyStart c n s
  | .copyGranule c n => Sys2Proof.Machine.execCopyGranule c n s
  | .amxstepPerform c n => Sys2Proof.Machine.execAmxstepPerform c n s
  | .mclaim bSlot sa cnt => Sys2Proof.Machine.execMclaim bSlot sa cnt s
  | .mrel sa cnt => Sys2Proof.Machine.execMrel sa cnt s
  | .mfmt sa rep => Sys2Proof.Machine.execMfmt sa rep s
  | .mnest lvl sa => Sys2Proof.Machine.execMnest lvl sa s
  | .mgo sa sb => Sys2Proof.Machine.execMgo sa sb s
  | .mzero sa cnt => Sys2Proof.Machine.execMzero sa cnt s
  | .mepi sa sb => Sys2Proof.Machine.execMepi sa sb s
  | .mckrd sd w clr => Sys2Proof.Machine.execMckrd sd w clr s
  | .mlsgen sd sa => Sys2Proof.Machine.execMlsgen sd sa s
  | .mtile sa sb => Sys2Proof.Machine.execMtile sa sb s
  | .mwld w sa => Sys2Proof.Machine.execMwld w sa s
  | .mstat sd w => Sys2Proof.Machine.execMstat sd w s
  | .tileCommand c => Sys2Proof.Machine.execTileCommand c s
  | .mzeroPerform c => Sys2Proof.Machine.execMzeroPerform c s
  | .clred op ty sa => Sys2Proof.Machine.execClred op ty sa s
  | .clrsc op ty sa => Sys2Proof.Machine.execClrsc op ty sa s
  | .clbc sa => Sys2Proof.Machine.execClbc sa s
  | .clgath sa => Sys2Proof.Machine.execClgath sa s
  | .cltbl sd sa q => Sys2Proof.Machine.execCltbl sd sa q s
  | .clabt => Sys2Proof.Machine.execClabt s
  | .clabtResume => Sys2Proof.Machine.execClabtResume s
  | .collectiveStart c k peers => Sys2Proof.Machine.execCollectiveStart c k peers s
  | .chunkReduced c k chunk failed => Sys2Proof.Machine.execChunkReduced c k chunk failed s
  | .chunkCommit c k chunk => Sys2Proof.Machine.execChunkCommit c k chunk s
  | .chunkWrite c k chunk => Sys2Proof.Machine.execChunkWrite c k chunk s
  | .changeNotice dev ver entries => Sys2Proof.Machine.execChangeNotice dev ver entries s
  | .floodReceive port ver table => Sys2Proof.Machine.execFloodReceive port ver table s
  | .flitReceive port f => Sys2Proof.Machine.execFlitReceive port f s
  | .nak port seq => Sys2Proof.Machine.execNak port seq s
  | .portRetrain port => Sys2Proof.Machine.execPortRetrain port s
  | .portTrainComplete port ok farDev farPort => Sys2Proof.Machine.execPortTrainComplete port ok farDev farPort s
  | .transferDelivery => Sys2Proof.Machine.execTransferDelivery s
  | .timerFire => Sys2Proof.Machine.execTimerFire s
  | .timerInterrupt => Sys2Proof.Machine.execTimerInterrupt s
  | .engineStopInterrupt => Sys2Proof.Machine.execEngineStopInterrupt s
  | .boundary => Sys2Proof.Machine.execBoundary s
  | .chipWallExpiry => Sys2Proof.Machine.execChipWallExpiry s
  | .budgetExpiry => Sys2Proof.Machine.execBudgetExpiry s
  | .lastingComplete => Sys2Proof.Machine.execLastingComplete s
  | .launchStart l => Sys2Proof.Machine.execLaunchStart l s
  | .checkpointSave l bad => Sys2Proof.Machine.execCheckpointSave l bad s
  | .containmentRelease l => Sys2Proof.Machine.execContainmentRelease l s
  | .scoreDecay => Sys2Proof.Machine.execScoreDecay s
  | .recordFetch q => Sys2Proof.Machine.execRecordFetch q s
  | .qtailWrite fn q v => Sys2Proof.Machine.execQtailWrite fn q v s
  | .qctlWrite fn q v => Sys2Proof.Machine.execQctlWrite fn q v s
  | .cancelJob fn id => Sys2Proof.Machine.execCancelJob fn id s
  | .cancelGraph fn id => Sys2Proof.Machine.execCancelGraph fn id s
  | .cancelSlot fn q slot => Sys2Proof.Machine.execCancelSlot fn q slot s
  | .cancelTimeout => Sys2Proof.Machine.execCancelTimeout s
  | .counterWrite fn c v => Sys2Proof.Machine.execCounterWrite fn c v s
  | .preemptRequest fn q slot => Sys2Proof.Machine.execPreemptRequest fn q slot s
  | .ttinvWrite fn v => Sys2Proof.Machine.execTtinvWrite fn v s
  | .ttrootWrite fn v => Sys2Proof.Machine.execTtrootWrite fn v s
  | .ttinvDone fn => Sys2Proof.Machine.execTtinvDone fn s
  | .svimageWrite fn size v => Sys2Proof.Machine.execSvimageWrite fn size v s
  | .apertureRead fn off len => Sys2Proof.Machine.execApertureRead fn off len s
  | .apertureWrite fn off data => Sys2Proof.Machine.execApertureWrite fn off data s
  | .functionLevelReset fn => Sys2Proof.Machine.execFunctionLevelReset fn s
  | .msixUnmask fn vec => Sys2Proof.Machine.execMsixUnmask fn vec s
  | .registerWrite fn mgmt off v => Sys2Proof.Machine.execRegisterWrite fn mgmt off v s
  | .ifcfgWrite fn w v => Sys2Proof.Machine.execIfcfgWrite fn w v s
  | .ringRptrWrite r v => Sys2Proof.Machine.execRingRptrWrite r v s
  | .ringLostRead r => Sys2Proof.Machine.execRingLostRead r s
  | .modeSelect metered => Sys2Proof.Machine.execModeSelect metered s
  | .lccmdTransit v => Sys2Proof.Machine.execLccmdTransit v s
  | .lccmdDecommission v => Sys2Proof.Machine.execLccmdDecommission v s
  | .lifecycleWipe => Sys2Proof.Machine.execLifecycleWipe s
  | .monctlFreeze on => Sys2Proof.Machine.execMonctlFreeze on s
  | .monctlClear => Sys2Proof.Machine.execMonctlClear s
  | .monitorSample x v => Sys2Proof.Machine.execMonitorSample x v s
  | .cbRetireWrite n v => Sys2Proof.Machine.execCbRetireWrite n v s
  | .cbReturnWrite n v => Sys2Proof.Machine.execCbReturnWrite n v s
  | .quiesceRequest sk v => Sys2Proof.Machine.execQuiesceRequest sk v s
  | .quiesceDeadline sk => Sys2Proof.Machine.execQuiesceDeadline sk s
  | .dieFence sk => Sys2Proof.Machine.execDieFence sk s
  | .dieSelfTestDone sk d r => Sys2Proof.Machine.execDieSelfTestDone sk d r s
  | .shadowRotation sk margins => Sys2Proof.Machine.execShadowRotation sk margins s
  | .linkRetrain sk => Sys2Proof.Machine.execLinkRetrain sk s
  | .stretchRaise low => Sys2Proof.Machine.execStretchRaise low s
  | .stretchRelease low => Sys2Proof.Machine.execStretchRelease low s
  | .brownoutHold vin pwrwarn => Sys2Proof.Machine.execBrownoutHold vin pwrwarn s
  | .holdEnd vin pwrwarn => Sys2Proof.Machine.execHoldEnd vin pwrwarn s
  | .domainLoss d v regFault => Sys2Proof.Machine.execDomainLoss d v regFault s
  | .domainReturn d v => Sys2Proof.Machine.execDomainReturn d v s
  | .packagePowerFailure rail v => Sys2Proof.Machine.execPackagePowerFailure rail v s
  | .thermalThrottle sk t => Sys2Proof.Machine.execThermalThrottle sk t s
  | .thermalTrip sk t => Sys2Proof.Machine.execThermalTrip sk t s
  | .thermtrip sk t => Sys2Proof.Machine.execThermtrip sk t s
  | .powerOn image => Sys2Proof.Machine.execPowerOn image s
  | .fullSelfTestDone d ports r => Sys2Proof.Machine.execFullSelfTestDone d ports r s
  | .recoveryGo => Sys2Proof.Machine.execRecoveryGo s
  | .i3cRead idx => Sys2Proof.Machine.execI3cRead idx s
  | .bypass => Sys2Proof.Machine.execBypass s
  | .idcode => Sys2Proof.Machine.execIdcode s
  | .samplePreload pins => Sys2Proof.Machine.execSamplePreload pins s
  | .extest => Sys2Proof.Machine.execExtest s
  | .clamp => Sys2Proof.Machine.execClamp s
  | .highz => Sys2Proof.Machine.execHighz s
  | .hubRead pa fn eng noise => Sys2Proof.Machine.execHubRead pa fn eng noise s
  | .hubWrite sk k noise => Sys2Proof.Machine.execHubWrite sk k noise s
  | .cycleTagReached => Sys2Proof.Machine.execCycleTagReached s
  | .hostCompletionTimeout c n => Sys2Proof.Machine.execHostCompletionTimeout c n s
  | .frameMoveComplete frame => Sys2Proof.Machine.execFrameMoveComplete frame s
  | .spareLaneRecalibrated stk chan => Sys2Proof.Machine.execSpareLaneRecalibrated stk chan s
  | .interposerRetrainComplete sk ok => Sys2Proof.Machine.execInterposerRetrainComplete sk ok s
  | .pcapExceeded power => Sys2Proof.Machine.execPcapExceeded power s
  | .frameRelease fn pa len => Sys2Proof.Machine.execFrameRelease fn pa len s
  | .pcieConventionalReset => Sys2Proof.Machine.execPcieConventionalReset s
  | .i3cEntdaa a => Sys2Proof.Machine.execI3cEntdaa a s

end Sys2Proof.Machine
end

