-- ==== Sys2Proof/Machine/Step.lean ====
section
/-! DEFINITION. One step of the machine: an event that has arrived, or one ck of the acting core; and placing a word where
the next step fetches it. -/
namespace Sys2Proof.Machine
open Sys2Proof

/-- One step (Machine/Cycle.lean plans it). -/
def step (s : State) : Host.Outcome State Fault Refusal :=
  match stepPlan s with
  | .done t => .next t
  | .event i t => exec i t
  | .core i t =>
    match exec i t with
    | .next u => .next (ckEnd u)
    | o => o

/-- The state with a word stored where `step` fetches its next instruction: a state in which no stream stands ready gets
a launch of its own on the acting core (log entry 2). -/
def State.withFetchWord (s : State) (nbits w : Nat) : State :=
  putFetch (if readyToRun s then s else placeBare s) (w % 2 ^ nbits)

end Sys2Proof.Machine
end

