-- ==== Sys2Proof/Safety.lean ====
section
/-! DEFINITION. What counts as a good step, in the terms the statements use: when the word at issue may issue, what its
issue changes, and the invariants of the machine. -/
namespace Sys2Proof.Machine
open Sys2Proof

/-! ### Standing at issue -/

/-- Sequential issue stays inside the region of the current privilege (R36). -/
def inRegion (s : State) : Prop :=
  s.core.ctx.pc.toNat + 8 < (match s.core.ctx.priv with
    | .u => 0x30000
    | .s => 0x40000)

/-- The stream is at U in an exchange superstep, where the forms of the compute phase trap (R98, R189). -/
def outOfPhase (s : State) : Prop := s.core.ctx.priv = .u ∧ exchange s = true

/-- A form of the compute phase may issue: at S, or at U in a compute superstep, inside its region (R36, R98). -/
def mayCompute (s : State) : Prop := inRegion s ∧ ¬ outOfPhase s

/-! ### Issuing -/

/-- The counts that the issue of a word changes in a context, and nothing else (R32, R33, R354): at U, ISSUECNT and the
control segment; at S, neither. `serial` numbers the issues of the context. -/
structure Counted (c : Ctx) (w : Word) (c' : Ctx) : Prop where
  rest : c' = { c with
    serial := c.serial + 1, issuecnt := c'.issuecnt, segBase := c'.segBase, segOld := c'.segOld, segNew := c'.segNew }
  user : c.priv = .u → c'.issuecnt = c.issuecnt + 1 ∧ segReg c' = crcWord (segReg c) w ∧
    segCount c' = (segCount c + 1) % 2 ^ 24
  super : c.priv = .s → c' = { c with serial := c.serial + 1 }

/-- The instruction issues from the context `c0`: it answers a next state in which the counts of an issue are made, the
next word stands at issue, `f` has been applied to the running context, and nothing else has changed. -/
def IssuesFrom (i : Instr) (s : State) (c0 : Ctx) (f : Ctx → Ctx) : Prop :=
  ∃ c, Counted c0 (wordNow s) c ∧ exec i s = .next (s.setCtx (f { c with pc := c.pc + 8 }))

/-- The instruction issues from the context that stands. -/
def Issues (i : Instr) (s : State) (f : Ctx → Ctx) : Prop := IssuesFrom i s s.core.ctx f

/-- A result enters the flight of a context that issues at `c0` (R25). -/
def fly (c0 : Ctx) (lat : Nat) (res : Result) (fl : Flags) (load : Option LoadReq) (bad : Option LateFault) (c : Ctx) : Ctx :=
  { c with inflight := c.inflight ++ [⟨lat, res, fl, load, bad, c0.pc, c0.serial, c0.priv = .u⟩] }

/-- The instruction issues and its one result is in flight for `lat` advancing ck; nothing else changes (R25). -/
def Gives (i : Instr) (s : State) (lat : Nat) (res : Result) (fl : Flags) (load : Option LoadReq)
    (bad : Option LateFault) : Prop :=
  Issues i s (fly s.core.ctx lat res fl load bad)

/-- A scalar result, withheld at its completion when a source register holds a double-bit error (R206). -/
def GivesScalar (i : Instr) (s : State) (lat : Nat) (sd : BitVec 6) (v : Word) (fl : Flags) (srcs : List Src) : Prop :=
  Gives i s lat (.scalar sd v) fl none (srcFault s.core.gang s.core.ctx srcs)

/-- A predicate result, of the 512 G bits of a core of width G (R14), into the physical register fixed at issue (R21). -/
def GivesPred (i : Instr) (s : State) (lat : Nat) (pd : BitVec 6) (v : Nat) (fl : Flags) (srcs : List Src) : Prop :=
  Gives i s lat (.pred (physP s.core.ctx pd) (BitVec.ofNat 2048 (v % 2 ^ predBits s.core.gang))) fl none
    (srcFault s.core.gang s.core.ctx srcs)

/-- A vector result of elements `vals` with the active ones `act`; `checked` forms meet a transient error that strikes an
active element (R132, R136), and a form that rounds stochastically counts a draw in SRCNT (R83). -/
def GivesVector (i : Instr) (s : State) (lat : Nat) (ty : Ty) (d : VDst) (act : Nat) (checked rs : Bool)
    (vals : List (Nat × Flags)) (srcs : List Src) : Prop :=
  let c0 := if rs then { s.core.ctx with srcnt := s.core.ctx.srcnt + 1 } else s.core.ctx
  let hit := residueFault checked s.core.upset (tyBits ty) act
  ∃ c, Counted c0 (wordNow s) c ∧
    exec i s = .next { s with core := { s.core with
      upset := if hit.isSome then none else s.core.upset
      ctx := fly c0 lat
        (.vector (physV s.core.ctx d.vd) d.ws (tyBits ty) (BitVec.ofNat 2048 act)
          (BitVec.ofNat 8192 (packElems (tyBits ty) (vals.map (·.1)))))
        (orFlags vals) none
        (match srcFault s.core.gang s.core.ctx srcs with
          | some e => some e
          | none => hit)
        { c with pc := c.pc + 8 } } }

/-! ### Machine invariants -/

/-- The core slots of the package: each stack core index of each socket exactly once (R1, R161). -/
def slotsOnce (s : State) : Prop := (s.cores.map fun k => (k.sk, k.ix)).Perm coreSlots

/-- At most every core slot has acted in a ck. -/
def turnOk (s : State) : Prop := s.turn < 768

end Sys2Proof.Machine
end

