-- ==== Sys2Proof/Certificates/Slice0/Obligations.lean ====
section
/-! DEFINITION. The statements for the provers. Each is about the instructions it names, in every form and for every state
that meets its hypotheses. `Issues` (Safety.lean) is the frame: an instruction that issues changes the counts of an issue, the
pc, what the statement names, and nothing else: no other register, flag, special register, byte of memory, core or device
state. The tables of forms say once what each form computes. -/
namespace Sys2Proof.Forms
open Sys2Proof Sys2Proof.Machine

/-! ### Encoding -/

/-- Words written out from the spec's encodings (Tables 2.1 and 2.5), with the instructions they stand for. -/
def words : List (Word × Instr) :=
  [(0x0700_30C1_0000_0000, .divn 3 3 1),
   (0x4100_3000_000F_FFFD, .loop 3 (-3)),
   (0x4600_0000_0000_0000, .nop),
   (0x5800_1000_2000_0000, .csrr 1 0x008),
   (0x5523_8002_0000_0000, .pwhile .f32 56 2),
   (0x5E00_0000_0000_0200, .vrot 0 1)]

/-- The opcodes Table 2.5 assigns, as ranges. -/
def assigned (op : Nat) : Bool :=
  [(0x01, 0x1B), (0x20, 0x2A), (0x2C, 0x2C), (0x2E, 0x2E), (0x30, 0x35), (0x38, 0x47), (0x50, 0x5E), (0x60, 0x63),
   (0x6E, 0x74), (0x78, 0x7A), (0x80, 0x9E), (0xA0, 0xA9), (0xB0, 0xB6), (0xB8, 0xBD), (0xC0, 0xC6), (0xD0, 0xD7),
   (0xE0, 0xEB), (0xF0, 0xF5)].any fun p => decide (p.1 ≤ op) && decide (op ≤ p.2)

/-! ### Scalar arithmetic (Tables 4.2 and 4.3) -/

/-- A 64-bit word from a number, modulo 2^64. -/
def w64 (x : Nat) : Word := BitVec.ofNat 64 x

/-- A 64-bit word from an integer, modulo 2^64. -/
def z64 (x : Int) : Word := BitVec.ofInt 64 x

/-- What DIV computes (R101). -/
def quotient (a b : Word) : Word :=
  if b.toNat = 0 then w64 (2 ^ 64 - 1)
  else if a.toInt = -(2 ^ 63) ∧ b.toInt = -1 then a
  else z64 (Int.tdiv a.toInt b.toInt)

/-- What REM computes (R101). -/
def remainder (a b : Word) : Word :=
  if b.toNat = 0 then a
  else if a.toInt = -(2 ^ 63) ∧ b.toInt = -1 then 0
  else z64 (a.toInt - b.toInt * Int.tdiv a.toInt b.toInt)

/-- The register forms of Table 4.2 with the value of each. -/
def alu : List ((BitVec 6 → BitVec 6 → BitVec 6 → Instr) × (Word → Word → Word)) :=
  [(.add, fun a b => w64 (a.toNat + b.toNat)),
   (.sub, fun a b => z64 (a.toInt - b.toInt)),
   (.mul, fun a b => w64 (a.toNat * b.toNat)),
   (.mulh, fun a b => z64 (a.toInt * b.toInt / 2 ^ 64)),
   (.mulhn, fun a b => w64 (a.toNat * b.toNat / 2 ^ 64)),
   (.div, quotient),
   (.divn, fun a b => if b.toNat = 0 then w64 (2 ^ 64 - 1) else w64 (a.toNat / b.toNat)),
   (.rem, remainder),
   (.remn, fun a b => if b.toNat = 0 then a else w64 (a.toNat - b.toNat * (a.toNat / b.toNat))),
   (.and, fun a b => w64 (Nat.land a.toNat b.toNat)),
   (.or, fun a b => w64 (Nat.lor a.toNat b.toNat)),
   (.xor, fun a b => w64 (Nat.xor a.toNat b.toNat)),
   (.shl, fun a b => w64 (a.toNat * 2 ^ (b.toNat % 64))),
   (.shr, fun a b => w64 (a.toNat / 2 ^ (b.toNat % 64))),
   (.sra, fun a b => z64 (a.toInt / 2 ^ (b.toNat % 64))),
   (.min, fun a b => if a.toInt ≤ b.toInt then a else b),
   (.minn, fun a b => if a.toNat ≤ b.toNat then a else b),
   (.max, fun a b => if a.toInt ≥ b.toInt then a else b),
   (.maxn, fun a b => if a.toNat ≥ b.toNat then a else b),
   (.slt, fun a b => if a.toInt < b.toInt then 1 else 0),
   (.sltn, fun a b => if a.toNat < b.toNat then 1 else 0),
   (.seq, fun a b => if a = b then 1 else 0)]

/-- The immediate forms of Table 4.3, whose b is the sign-extended immediate. -/
def aluImm : List ((BitVec 6 → BitVec 6 → BitVec 38 → Instr) × (Word → Word → Word)) :=
  [(.addi, fun a b => w64 (a.toNat + b.toNat)),
   (.muli, fun a b => w64 (a.toNat * b.toNat)),
   (.andi, fun a b => w64 (Nat.land a.toNat b.toNat)),
   (.ori, fun a b => w64 (Nat.lor a.toNat b.toNat)),
   (.xori, fun a b => w64 (Nat.xor a.toNat b.toNat)),
   (.slti, fun a b => if a.toInt < b.toInt then 1 else 0),
   (.sltni, fun a b => if a.toNat < b.toNat then 1 else 0),
   (.seqi, fun a b => if a = b then 1 else 0)]

/-- The forms that shift by an immediate (Table 4.3). -/
def shiftImm : List ((BitVec 6 → BitVec 6 → BitVec 6 → Instr) × (Word → Nat → Word)) :=
  [(.shli, fun a k => w64 (a.toNat * 2 ^ k)),
   (.shri, fun a k => w64 (a.toNat / 2 ^ k)),
   (.srai, fun a k => z64 (a.toInt / 2 ^ k))]

/-- The number of leading zeros of a 64-bit pattern: how many k below 64 leave nothing above bit 63 - k. -/
def leadingZeros (a : Word) : Nat := ((List.range 64).filter fun k => a.toNat / 2 ^ (63 - k) = 0).length

/-- The number of one bits of a 64-bit pattern. -/
def oneBits (a : Word) : Nat := ((List.range 64).filter fun k => a.toNat.testBit k).length

/-- The width of an integer type (Table 2.2). -/
def intBits : Ty → Nat
  | .i8 | .n8 => 8
  | .i16 | .n16 => 16
  | .i32 | .n32 => 32
  | _ => 64

/-- sx(x, w), the low w bits of a pattern as a signed number. -/
def signed (x w : Nat) : Int := if x % 2 ^ w < 2 ^ (w - 1) then (x % 2 ^ w : Int) else (x % 2 ^ w : Int) - 2 ^ w

/-- The one-source forms (R103, R105). -/
def aluOne : List ((BitVec 6 → BitVec 6 → Instr) × (Word → Word)) :=
  [(.clz, fun a => w64 (leadingZeros a)),
   (.popc, fun a => w64 (oneBits a)),
   (.sext .i8, fun a => z64 (signed a.toNat 8)),
   (.sext .i16, fun a => z64 (signed a.toNat 16)),
   (.sext .i32, fun a => z64 (signed a.toNat 32)),
   (.zext .n8, fun a => w64 (a.toNat % 2 ^ 8)),
   (.zext .n16, fun a => w64 (a.toNat % 2 ^ 16)),
   (.zext .n32, fun a => w64 (a.toNat % 2 ^ 32))]

/-! ### Scalar FP32 (R107 to R110) -/

/-- The F32 number in bits [31:0] of a register (R107). -/
def f32 (x : Word) : FVal := fpVal .f32 (x.toNat % 2 ^ 32)

/-- The rounding mode of a scalar form: its code, or that of FPCTL, with RS replaced by RNE (R79, R107). -/
def mode (fpctl : Word) (rm : Rm) : Rm :=
  match rm with
  | .rs => .rne
  | .dyn => if fpctl.toNat % 8 = 2 then .rtz else if fpctl.toNat % 8 = 3 then .ru else if fpctl.toNat % 8 = 4 then .rd
    else .rne
  | r => r

/-- The value of a finite floating-point number. -/
def IsVal (v : FVal) (x : ℚ) : Prop := ∃ s m e, v = .fin s m e ∧ x = (if s then -1 else 1) * (m : ℚ) * (2 : ℚ) ^ (e : ℤ)

/-- The magnitude that pattern k of a type stands for, its format going on above the largest finite (Table 3.1, R72, R79). -/
def magVal (t : Ty) (k : Nat) : ℚ :=
  let f := fpFmt t
  let least : ℤ := 1 - (f.bias : ℤ) - f.fb
  if k < 2 ^ f.fb then (k : ℚ) * (2 : ℚ) ^ least
  else ((2 ^ f.fb + k % 2 ^ f.fb : Nat) : ℚ) * (2 : ℚ) ^ (least + (k / 2 ^ f.fb : Nat) - 1)

/-- The pattern of the first magnitude above the largest finite one: the position of infinity, for E4M3 of 480 (R79, R80). -/
def topMag (t : Ty) : Nat := if t = .e4m3 then 0x7F else (2 ^ (fpFmt t).eb - 1) * 2 ^ (fpFmt t).fb

/-- Whether a mode chooses the larger of the two magnitudes around an exact one: `k` the pattern of the smaller, `part` how far the exact
magnitude lies above it, in steps, `pos` its sign, `u` the draw (Table 3.4, R81). -/
def goesUp (md : Rm) (u k : Nat) (part : ℚ) (pos : Prop) : Prop :=
  match md with
  | .dyn | .rne => 1 / 2 < part ∨ (part = 1 / 2 ∧ k % 2 = 1)
  | .rtz => False
  | .ru => 0 < part ∧ pos
  | .rd => 0 < part ∧ ¬ pos
  | .rs => 0 < part ∧ 2 ^ 32 ≤ ⌊(2 ^ 32 : ℚ) * part⌋ + (u : ℤ)

/-- `r` is the pattern, with its flags, of an exact x other than 0 rounded once into a type (R78 to R81, Table 3.4): the one of the two
magnitudes around it that the mode chooses; above them all infinity or the largest finite, 448 in E4M3, with OF and NX; NX where the
result differs; with `fz` a subnormal result is a zero, with UF and NX. UF of an inexact result is clear in the normal range and
set below its last subnormal. What RS makes of a magnitude at or above the infinity position the table leaves to t (log
entry 102): it is one of the two here. -/
def Rounded (t : Ty) (md : Rm) (u : Nat) (fz : Bool) (x : ℚ) (r : Nat × Flags) : Prop :=
  let f := fpFmt t
  let v := |x|
  let signed := fun (k : Nat) => (if x < 0 then 2 ^ (f.eb + f.fb) else 0) + k
  let inf := if t = .e4m3 then (signed 0x7E, (0x14 : Flags)) else (signed (topMag t), 0x34)
  let most := (signed (topMag t - 1), (0x14 : Flags))
  let low := 2 ^ f.fb
  (magVal t (topMag t) ≤ v →
    (md = .rne → r = inf) ∧ (md = .rtz → r = most) ∧ (md = .ru → r = if 0 < x then inf else most) ∧
    (md = .rd → r = if x < 0 then inf else most) ∧ (md = .rs → r = inf ∨ r = most)) ∧
  ∀ k < topMag t, magVal t k ≤ v → v < magVal t (k + 1) → ∀ n,
    let part := (v - magVal t k) / (magVal t (k + 1) - magVal t k)
    (goesUp md u k part (0 < x) → n = k + 1) → (¬ goesUp md u k part (0 < x) → n = k) →
    (t = .e4m3 ∧ k = 0x7E ∧ 0 < part → r = inf) ∧
    (¬ (t = .e4m3 ∧ k = 0x7E ∧ 0 < part) →
      (n = topMag t → r = inf) ∧
      (n < topMag t → fz = true ∧ t.isFlt = true ∧ 0 < n ∧ n < low → r = (signed 0, 0x18)) ∧
      (n < topMag t → ¬ (fz = true ∧ t.isFlt = true ∧ 0 < n ∧ n < low) →
        (part = 0 → r = (signed n, 0)) ∧
        (0 < part → low ≤ k → r = (signed n, 0x10)) ∧
        (0 < part → k + 1 < low → r = (signed n, 0x18)) ∧
        (0 < part → k + 1 = low → r = (signed n, 0x10) ∨ r = (signed n, 0x18))))

/-- `r` is the integer, with its flags, of an exact x rounded into a type of w bits: the multiple of 1 that the mode chooses, saturated with
NV where it lies outside the range (R79, R87). -/
def RoundedInt (w : Nat) (sgn : Bool) (md : Rm) (u : Nat) (x : ℚ) (r : Int × Flags) : Prop :=
  let lo : ℤ := if sgn then -2 ^ (w - 1) else 0
  let hi : ℤ := if sgn then 2 ^ (w - 1) - 1 else 2 ^ w - 1
  let k := ⌊|x|⌋.toNat
  ∀ n : Nat, (goesUp md u k (|x| - k) (0 < x) → n = k + 1) → (¬ goesUp md u k (|x| - k) (0 < x) → n = k) →
    let i : ℤ := if x < 0 then -n else n
    (i < lo → r = (lo, 1)) ∧ (hi < i → r = (hi, 1)) ∧ (lo ≤ i → i ≤ hi → r = (i, if (i : ℚ) = x then 0 else 0x10))

/-- The two-source forms that round. -/
def sfArith : List ((Rm → BitVec 6 → BitVec 6 → BitVec 6 → Instr) × (Rm → FVal → FVal → Nat × Flags)) :=
  [(.sfadd, fun m a b => fpAdd .f32 m 0 false a b),
   (.sfsub, fun m a b => fpSub .f32 m 0 false a b),
   (.sfmul, fun m a b => fpMul .f32 m 0 false a b)]

/-! ### Control transfers -/

/-- The compare-and-branch forms (R114), with their conditions. -/
def branches : List ((BitVec 6 → BitVec 6 → BitVec 20 → Instr) × (Word → Word → Bool)) :=
  [(.beq, fun a b => decide (a.toNat = b.toNat)),
   (.bne, fun a b => decide (a.toNat ≠ b.toNat)),
   (.blt, fun a b => decide (a.toInt < b.toInt)),
   (.bge, fun a b => decide (a.toInt ≥ b.toInt)),
   (.bltn, fun a b => decide (a.toNat < b.toNat)),
   (.bgen, fun a b => decide (a.toNat ≥ b.toNat))]

/-- The target of a BC form: the address of the branch plus 8 times the signed offset (R113). -/
def target (pc : BitVec 18) (off : BitVec 20) : Word := z64 (pc.toNat + 8 * off.toInt)

/-- A target the privilege may issue from (R36). -/
def allowedTarget (p : Priv) (t : Word) : Prop :=
  t.toNat < 2 ^ 18 ∧ t.toNat % 8 = 0 ∧
    (match p with
      | .u => t.toNat < 0x30000
      | .s => 0x30000 ≤ t.toNat)

/-- Whether a predicate has a one, and only ones, among the elements of a type (R115). -/
def anyOne (g : Nat) (c : Ctx) (ty : Ty) (p : BitVec 6) : Bool :=
  (List.range (tyCount g ty)).any fun i => (predOf g c p).testBit i
def allOnes (g : Nat) (c : Ctx) (ty : Ty) (p : BitVec 6) : Bool :=
  (List.range (tyCount g ty)).all fun i => (predOf g c p).testBit i

/-! ### Predicates -/

/-- The forms over all bits of a predicate register, bit by bit (R121). -/
def preds : List ((BitVec 6 → BitVec 6 → BitVec 6 → Instr) × (Bool → Bool → Bool)) :=
  [(.pand, fun a b => a && b), (.por, fun a b => a || b), (.pxor, fun a b => a != b), (.pandn, fun a b => a && !b)]

/-- The number whose bit i, of n, is `f i`. -/
def fromBits (f : Nat → Bool) : Nat → Nat
  | 0 => 0
  | n + 1 => fromBits f n + (if f n then 2 ^ n else 0)

/-- The lowest index below n at which `f` holds, or n. -/
def firstOne (f : Nat → Bool) (n : Nat) : Nat := ((List.range n).find? f).getD n

end Sys2Proof.Forms

open Sys2Proof Sys2Proof.Machine Sys2Proof.Forms

/-! ## Encoding and the step -/

/-- Words written out bit by bit from the encodings of the spec decode to the instructions they stand for (R43, Table
2.5). -/
def Obligations.SpecWordsDecode : Prop := ∀ p ∈ words, decode p.1 = .ok p.2

/-- Decoding the word of a well-formed instruction gives the instruction back, at every operand value: no bit of an
encoding is dropped (R42 to R58). A word that decodes is the one word of a well-formed instruction, so that every other word is refused
(R58). A word whose major opcode Table 2.5 does not assign does not decode (R54), nor does opcode 0 (R37). -/
def Obligations.DecodeOfEncode : Prop :=
  (∀ i : Instr, i.isWordInstr = true → WellFormed i → decode (encode i) = .ok i) ∧
  (∀ (w : Word) (i : Instr), decode w = .ok i → i.isWordInstr = true ∧ WellFormed i ∧ encode i = w) ∧
  ∀ w : Word, assigned (w.toNat / 2 ^ 56) = false → ∃ e, decode w = .error e

/-- What a step does. An event that has arrived at a powered package that is not held in reset takes effect as its row says, before
any core acts; without power, or in that reset, only those that can act then do, and the others are gone. A
core on which nothing waits runs the instruction decoded at the pc, in this state, with what a ck adds: the timer is looked at
before it (R130) and the ck ends after it (R24, R32); a word that does not decode raises the illegal-instruction trap (R37,
R58), at the end of its region the instruction-access trap first (R36, R60). The core is ready when no event has arrived, it takes
its ck, nothing is in flight, no entry or exit is under way and no
interrupt is pending; the word at issue does not stall on a watermark (R30). Log entry 29 tells which trap an undecodable word at the
end of its region raises. -/
def Obligations.StepRunsDecoded : Prop :=
  (∀ (s : State) (e : Instr) (r : List Instr), s.pending = e :: r →
    (s.dev.power.on = true ∧ s.dev.mgmt.inReset = false ∨ actsNow s.dev e = true → step s = exec e { s with pending := r }) ∧
    (actsNow s.dev e = false → step s = .next { s with pending := r })) ∧
  ∀ s : State, readyToRun s = true → s.dev.sun.parked = false →
    let t := s.setCtx { s.core.ctx with ckFlags := 0 }
    (∀ i, decode (wordNow s) = .ok i → standStall i t = .no →
      step s = match exec i (fireTimer t) with
        | .next u => .next (ckEnd u)
        | o => o) ∧
    ∀ e, decode (wordNow s) = .error e →
      (inRegion s → step s = .next (ckEnd (trapIssue (fireTimer t) 0x03 (wordNow s)))) ∧
      (¬ inRegion s → step s = .next (ckEnd (trapIssue (fireTimer t) 0x01 (w64 (s.core.ctx.pc.toNat + 8)))))

/-! ## Placement -/

/-- What stands at the head of each local queue of an interface: a launch that has been fetched and may be placed, or nothing that
may be, the queue having no record to fetch or its launch waiting for a counter or cancelled. -/
def Sys2Proof.Forms.Heads (s : State) (fn : Nat) (heads : Nat → Option Launch) : Prop :=
  ∀ j < nqOf (ifcOf s.dev fn),
    let q := queueOf s.dev (qbaseOf (ifcOf s.dev fn) + j)
    match heads j with
    | some l => q.fetched = some l.id ∧ launchOf s.dev l.id = some l ∧ l.ifc = fn ∧ l.queue = j ∧ l.cancel = none ∧
        (l.recd.wcnt = 0xFFFF ∨ l.elig = some false)
    | none => (q.fetched = none ∧ (q.en = false ∨ q.stop = true ∨ queuePending q = 0)) ∨
        ∃ l, q.fetched = some l.id ∧ launchOf s.dev l.id = some l ∧
          (l.cancel.isSome ∨ (l.recd.wcnt ≠ 0xFFFF ∧ l.elig = none))

/-- A head that R181 takes: no head outside the blocked queues has a higher priority, and among those of its own it is the first at or
after the rotating pointer. -/
def Sys2Proof.Forms.Chosen (s : State) (fn : Nat) (heads : Nat → Option Launch) (blocked : List Nat) (l : Launch) (pri : Nat) : Prop :=
  let nq := nqOf (ifcOf s.dev fn)
  let priOf := fun j => (queueOf s.dev (qbaseOf (ifcOf s.dev fn) + j)).pri
  let far := fun j => (j + nq - look 0 s.dev.rot (8 * fn + pri) % nq) % nq
  l.queue < nq ∧ heads l.queue = some l ∧ l.queue ∉ blocked ∧ priOf l.queue = pri ∧
    ∀ j < nq, (heads j).isSome → j ∉ blocked → pri < priOf j ∨ (priOf j = pri ∧ far l.queue ≤ far j)

/-- A launch that has skipped 64 times and waits to be the reserved one (R185). -/
def Sys2Proof.Forms.AwaitsReserve (x : Launch) : Prop := x.placed = false ∧ x.cancel = none ∧ 64 ≤ x.skips

/-- The launch that has skipped once more, and nothing placed: its 64th skip makes it the reserved one where no other is and neither a
recovery placement nor another launch waits for that (R182, R185). -/
structure Sys2Proof.Forms.Skipped (s t : State) (l : Launch) : Prop where
  skips : (launchOf t.dev l.id).map (·.skips) = some (l.skips + 1)
  runs : t.dev.runs = s.dev.runs
  ptr : t.dev.placePtr = s.dev.placePtr
  reserved : s.dev.reserved = none → l.placed = false → l.cancel = none →
    (∀ x ∈ s.dev.launches, recovering x = false ∧ (x.id ≠ l.id → ¬ AwaitsReserve x)) →
    t.dev.reserved = (if 63 ≤ l.skips then some l.id else none) ∧ (63 ≤ l.skips → t.dev.resPtr = s.dev.placePtr)

/-- The cores that a placement takes, and the launches that a placement pass places: place(L) takes free cores of its width whose
partition meets the record, in visiting order, within SPAN stacks, or a stack of its own for each of two replicas in two voltage
domains; a placement holds them and moves the pointer; a pass visits the interfaces with a share from ptr, gives each its deficit,
places the heads of R181 while the deficit lasts, and counts a skip where nothing could be held; the cores held for a reserved launch go to
no other (R171, R180 to R183, R185, R203, R366). The whole pass is stated of a state in which nobody has a selection of the mode held, the
free-mode interface is known, and no launch is reserved, waits to be, is cancelled or is to be recovered. When none is reserved, the
launch that waits to be is at once, that with the most skips first, the older of two (log entry 105); when the cores held for it suffice
it is placed before the loop of its interface, which it charges. -/
def Obligations.PlacementTakesCores : Prop :=
  (∀ (s : State) (r : LaunchRec) (sk : Nat),
    let parts := if s.dev.sun.metered then 2 else 1
    (freeSeats s r sk).Pairwise (fun a b => a.ix < b.ix) ∧
    ∀ sk' ix pt, (⟨sk', ix, pt⟩ : Seat) ∈ freeSeats s r sk ↔
      sk' = sk ∧ ix < 48 ∧ (dieOf s.dev sk).state = 2 ∧ (dieOf s.dev sk).ask = false ∧ look false s.dev.mgmt.retired sk = false ∧
      r.pscr ≤ 1024 * r.gang / parts ∧ r.popm ≤ 32 * r.gang / parts ∧ r.pacc ≤ 8 * r.gang / parts ∧
      ∃ k, coreAt s sk ix = some k ∧ k.bound = true ∧ k.member = false ∧ k.lasting = none ∧ k.gang = r.gang ∧ k.mode = .idle ∧
        (∀ x ∈ s.dev.runs, (sk, ix) ∈ x.cores → x.phase = .suspended) ∧
        pt < parts ∧ (∀ c ∈ k.susp, c.part ≠ pt) ∧ ∀ q < pt, ∃ c ∈ k.susp, c.part = q) ∧
  (∀ (d : Device) (l : Launch) (free : Nat → List Seat) (ptr : Nat), l.wantTie = false →
    let n := l.recd.ncore
    (l.recd.cls ≠ 2 →
      let gives := (visit ptr).filter fun sk => !(l.wantRerun && l.avoid.contains sk) && !(free sk).isEmpty
      let pool := (gives.take (if l.recd.span = 0 then 16 else l.recd.span)).flatMap free
      planPlace d l free ptr =
        if n ≤ pool.length then some [(if l.wantRerun then .rerun else .primary, pool.take n)] else none) ∧
    (l.recd.cls = 2 →
      let sk := fun i => (ptr + i) % 16
      let holds := fun i => n ≤ (free (sk i)).length
      let pair := fun i j => i < j ∧ j < 16 ∧ holds i ∧ (∀ k < i, ¬ holds k) ∧ holds j ∧ sk j / 4 ≠ sk i / 4 ∧
        ∀ k, i < k → k < j → holds k → sk k / 4 = sk i / 4
      let units := (d.launches.filter fun x => x.ifc = l.ifc && x.id ≠ l.id).foldl (fun m x => m + x.reserveUnits) 0
      (callotOf (ifcOf d l.ifc) < 2 * l.recd.contain + units ∨ (∀ i j, ¬ pair i j) → planPlace d l free ptr = none) ∧
      ∀ i j, pair i j → 2 * l.recd.contain + units ≤ callotOf (ifcOf d l.ifc) →
        planPlace d l free ptr = some [(.primary, (free (sk i)).take n), (.secondary, (free (sk j)).take n)])) ∧
  (∀ (d : Device) (l : Launch) (plan : List (Role × List Seat)),
    let t := commitPlace d l plan
    let shown := fun (r : Run) => (r.launch, r.role, r.phase, r.cores, r.parts)
    t.runs.map shown = d.runs.map shown ++
      plan.map (fun p => (l.id, p.1, Phase.loading, p.2.map (fun a => (a.sk, a.ix)), p.2.map (·.pt))) ∧
    (∀ pre role seats z, plan = pre ++ [(role, seats ++ [z])] → t.placePtr = (z.sk + 1) % 16) ∧
    (launchOf d l.id = some l → (launchOf t l.id).map (fun x => (x.placed, x.skips, x.wantRerun, x.wantTie)) =
      some (true, 0, false, false))) ∧
  (∀ (s : State) (fn : Nat) (heads : Nat → Option Launch) (blocked : List Nat), Heads s fn heads →
    (∀ l pri, Chosen s fn heads blocked l pri → pickHead s fn blocked = (s, some (l, pri))) ∧
    ((∀ j < nqOf (ifcOf s.dev fn), heads j = none ∨ j ∈ blocked) → pickHead s fn blocked = (s, none))) ∧
  (∀ (s : State) (fn deficit : Nat) (blocked : List Nat) (n : Nat),
    (∀ s', pickHead s fn blocked = (s', none) → passLoop s fn deficit blocked (n + 1) = (s', deficit)) ∧
    ∀ s' l pri, pickHead s fn blocked = (s', some (l, pri)) →
      let t := { s' with dev := { s'.dev with rot := store 0 s'.dev.rot (8 * fn + pri) (l.queue + 1) } }
      let cost := l.recd.ncore * l.recd.gang * (if l.recd.cls = 2 then 2 else 1)
      (deficit < cost → passLoop s fn deficit blocked (n + 1) = (t, deficit)) ∧
      (∀ plan, cost ≤ deficit → planFor t l = some plan →
        (∀ x ∈ (commitPlace t.dev l plan).launches, recovering x = false ∧ ¬ AwaitsReserve x) →
        passLoop s fn deficit blocked (n + 1) =
          passLoop { t with dev := advanceHead (commitPlace t.dev l plan) l } fn (deficit - cost) blocked n) ∧
      (cost ≤ deficit → planFor t l = none → launchOf t.dev l.id = some l →
        ∃ u, Skipped t u l ∧ passLoop s fn deficit blocked (n + 1) = passLoop u fn deficit (l.queue :: blocked) n)) ∧
  (∀ (s : State) (fn : Nat),
    let f := ifcOf s.dev fn
    let w := if s.dev.sun.metered || s.dev.sun.modeIfc = fn + 1 then f.cfg0.toNat % 256 else 0
    (w = 0 → passIfc s fn = s) ∧
    (∀ s', w ≠ 0 → pickHead s fn [] = (s', none) →
      passIfc s fn = { s' with dev := setIfc s'.dev fn { ifcOf s'.dev fn with deficit := 0 } }) ∧
    ∀ s' x, w ≠ 0 → pickHead s fn [] = (s', some x) →
      let d := min ((ifcOf s'.dev fn).deficit + 48 * w) 3072
      let goes := fun (s' : State) (d : Nat) => ∀ u left, passLoop s' fn d [] 12000 = (u, left) →
        passIfc s fn = { u with dev := setIfc u.dev fn { ifcOf u.dev fn with deficit := left } }
      (s'.dev.reserved = none → goes s' d) ∧
      ∀ l, s'.dev.reserved = some l.id → launchOf s'.dev l.id = some l →
        (recovering l = true ∨ l.ifc ≠ fn ∨ l.cancel ≠ none ∨ planFor s' l = none → goes s' d) ∧
        ∀ plan, recovering l = false → l.ifc = fn → l.cancel = none → planFor s' l = some plan →
          goes (reserveWaiting { s' with dev := advanceHead (commitPlace s'.dev l plan) l })
            (d - l.recd.ncore * l.recd.gang * (if l.recd.cls = 2 then 2 else 1))) ∧
  (∀ s : State, s.dev.reserved = none → (∀ x ∈ s.dev.launches, recovering x = false) →
    ((∀ x ∈ s.dev.launches, ¬ AwaitsReserve x) → reserveWaiting s = s) ∧
    ∀ l ∈ s.dev.launches, AwaitsReserve l →
      (∀ x ∈ s.dev.launches, AwaitsReserve x → x = l ∨ x.skips < l.skips ∨ (x.skips = l.skips ∧ l.id < x.id)) →
      let t := (reserveWaiting s).dev
      t.reserved = some l.id ∧ t.resPtr = s.dev.placePtr ∧ t.resPair = fixPair s l s.dev.placePtr) ∧
  (∀ s : State, (s.dev.sun.metered = true ∨ s.dev.sun.modeIfc ≠ 0) → s.dev.sun.heldMode = none → s.dev.reserved = none →
    (∀ l ∈ s.dev.launches, recovering l = false ∧ l.cancel = none ∧ ¬ AwaitsReserve l) →
    let u := ((List.range 64).map fun k => (s.dev.ptr + k) % 64).foldl passIfc s
    placementPass s = { u with dev := { u.dev with ptr := (u.dev.ptr + 1) % 64 } }) ∧
  ∀ (s : State) (l x : Launch) (sk : Nat), s.dev.reserved = some x.id → launchOf s.dev x.id = some x → x.id ≠ l.id →
    seatsFor s l sk = (freeSeats s l.recd sk).filter fun a => !((heldSeats s x).any fun b => b.sk = a.sk && b.ix = a.ix)

/-! ## Reset -/

/-- The values at reset and at launch start alike of everything a context holds but its pc, its scalar registers, DIEMASK, the budgets, what
the launch fixes, and the damaged cells: every register 0 but FPCTL, the loss scale and the check tolerance, and the register of
the segment CRC, which starts at all ones; no result in flight, no trap pending, the timer disarmed, the memories zero and no line valid,
nothing staged, no batch closed, no operation of an engine, the matrix engine with every slot free (Table 1.11, R39, R40, R84, R255, R309,
R354, R359). -/
structure Sys2Proof.Forms.Fresh (c : Ctx) : Prop where
  regs : c.vregs = [] ∧ c.pregs = [] ∧ c.lat = Latches.zero ∧ c.dirty = [] ∧ c.issuecnt = 0
  rot : c.rotcfg = 0 ∧ c.vrb = 0 ∧ c.prb = 0
  fp : c.fpctl = 1 ∧ c.seed = 0 ∧ c.srcnt = 0 ∧ c.lscale = 0x3F800000 ∧ c.lsgen = 0 ∧ c.lsgrow = 0 ∧ c.cktol = 0x314
  wmark : c.wm0 = WMark.zero ∧ c.wm1 = WMark.zero ∧ c.wm2 = WMark.zero ∧ c.wm3 = WMark.zero
  sign : c.segBase = 0xFFFFFFFF ∧ c.segOld = 0 ∧ c.segNew = [] ∧ c.sigv0 = 0 ∧ c.sigv1 = 0
  timer : c.timecmp = 0 ∧ c.tmctl = 0
  trap : c.trapcause = 0 ∧ c.trappc = 0 ∧ c.trapval = 0 ∧ c.snap = [] ∧ c.snapLat = Latches.zero ∧ c.snapPh = false
  flow : c.inflight = [] ∧ c.serial = 0 ∧ c.hold = 0 ∧ c.ckFlags = 0 ∧ c.phended = false ∧ c.ended = false ∧ c.stop = none ∧ c.stopCk = 0
  exch : c.portFree = 0 ∧ c.transfers = [] ∧ c.xdone = 0 ∧ c.xseq = 0 ∧ c.slack = none ∧ c.tagWait = false
  mems : c.scr = [] ∧ c.opm = [] ∧ c.acc = [] ∧ c.valid = [] ∧ c.staging = [] ∧ c.staged = 0 ∧ c.stOver = none
  batches : ∀ n < 7, (tlOf c n).closed = 0 ∧ (tlOf c n).tlc = 0 ∧ (tlOf c n).openOps = 0 ∧ (tlOf c n).ops = [] ∧
    (tlOf c n).failed = none ∧ (tlOf c n).stopped = false ∧ (tlOf c n).cache = [] ∧ tlOf c n = TlCtx.zero
  matrix : c.mx.role = [] ∧ c.mx.epicfg = 0 ∧ c.mx.epikey = 0 ∧ c.mx.actBase = 0 ∧ c.mx.unres = 0 ∧ c.mx = Machine.Matrix.zero

/-- What a package reset leaves (R39, Table 1.11, Table 17.3): every core idle and unbound, with CYCLE at 0 and every register of every core
zero but FPCTL, the loss scale, the check tolerance and the segment CRC, which hold their reset values, the SRAM zero and sound, no
launch placed, the first superstep a compute superstep; and the invariant that every step keeps: each core slot of the package once, the
turn inside a ck. The values that log entry 12 names are the model's choice. -/
def Obligations.ResetState : Prop :=
  let s := State.reset
  (∀ k ∈ s.cores, k.mode = .idle ∧ k.bound = false ∧ k.imem = [] ∧ k.cycle = 0 ∧ k.xclk = 0 ∧ k.susp = [] ∧ k.svIfc = none ∧
    k.lasting = none ∧ k.worn = [] ∧ Fresh k.ctx ∧ k.ctx.pc = 0 ∧ k.ctx.sregs = [] ∧ k.ctx.diemask = 0 ∧ k.ctx.sswall = 0 ∧ k.ctx.xwall = 0 ∧
    k.ctx.trapvec = 0 ∧ k.ctx.coreId = 0 ∧ k.ctx.ncore = 0 ∧ k.ctx.errS = [] ∧ k.ctx.errV = [] ∧ k.ctx.errP = [] ∧ k.ctx.errQ = [] ∧
    k.ctx.errScr = [] ∧ k.ctx.errOpm = [] ∧ k.ctx.errAcc = [] ∧ k.ctx = Ctx.zero) ∧
  s.cores.length = 768 ∧ s.dev.launches = [] ∧ s.dev.runs = [] ∧ s.dev.sun.phase = 0 ∧ slotsOnce s ∧ turnOk s

/-- Every step keeps the package's core slots, each once, whatever arrives and whatever a core runs (R1, R161), and the turn
inside a ck (log entry 9). -/
def Obligations.StepKeepsCores : Prop :=
  ∀ s t : State, slotsOnce s → turnOk s → step s = .next t → slotsOnce t ∧ turnOk t

/-! ## Scalar arithmetic -/

/-- The register forms ADD to SEQ issue in either phase and give the value of Table 4.2, with latency 1, no trap on a value
and no flag (R98, R100, R101). -/
def Obligations.ScalarRegisterForms : Prop :=
  ∀ (s : State) (sd sa sb : BitVec 6), inRegion s → ∀ p ∈ alu,
    GivesScalar (p.1 sd sa sb) s 1 sd (p.2 (sreg s.core.ctx sa) (sreg s.core.ctx sb)) 0 [.s sa, .s sb]

/-- The other scalar integer forms: the immediate forms, SEL, the one-source forms, the constants and ADDSC (R102 to
R106), latency 1. -/
def Obligations.ScalarOtherForms : Prop :=
  ∀ (s : State) (sd sa sb sc : BitVec 6), inRegion s →
    let c := s.core.ctx
    (∀ p ∈ aluImm, ∀ imm : BitVec 38,
      GivesScalar (p.1 sd sa imm) s 1 sd (p.2 (sreg c sa) (z64 imm.toInt)) 0 [.s sa]) ∧
    (∀ p ∈ shiftImm, ∀ imm : BitVec 6,
      GivesScalar (p.1 sd sa imm) s 1 sd (p.2 (sreg c sa) imm.toNat) 0 [.s sa]) ∧
    (∀ p ∈ aluOne, GivesScalar (p.1 sd sa) s 1 sd (p.2 (sreg c sa)) 0 [.s sa]) ∧
    GivesScalar (.sel sd sa sb sc) s 1 sd (if sreg c sa = 0 then sreg c sc else sreg c sb) 0 [.s sa, .s sb, .s sc] ∧
    (∀ imm : BitVec 44, GivesScalar (.limm sd imm) s 1 sd (z64 imm.toInt) 0 []) ∧
    (∀ imm : BitVec 20,
      GivesScalar (.limmh sd imm) s 1 sd (w64 ((sreg c sd).toNat % 2 ^ 44 + 2 ^ 44 * imm.toNat)) 0 [.s sd]) ∧
    (∀ (sh : BitVec 3) (off : BitVec 29),
      GivesScalar (.addsc sd sa sb sh off) s 1 sd
        (z64 ((sreg c sa).toNat + (sreg c sb).toNat * 2 ^ sh.toNat + off.toInt)) 0 [.s sa, .s sb])

/-- The scalar FP32 forms issue in either phase: SFADD, SFSUB, SFMUL and SFCVT round in the mode of the instruction with
latency 4, and SFCMP answers 0 or 1 with latency 1; a result's bits [63:32] are 0 but for a conversion to 64 bits (R107
to R110; log entry 52). A finite pattern has the value its fields give, and a sum, a product, a product with an addend, a scaling and a
conversion of finite operands are the exact result rounded once, in every type and mode (R72, R74, R79 to R81, R86 to R88, Table 3.4). -/
def Obligations.ScalarFloatForms : Prop :=
  (∀ t ∈ [Ty.f32, .f16, .bf16, .e4m3, .e5m2],
    (∀ k < topMag t, IsVal (fpVal t k) (magVal t k) ∧
      IsVal (fpVal t (2 ^ ((fpFmt t).eb + (fpFmt t).fb) + k)) (-(magVal t k))) ∧
    ∀ (md : Rm) (u : Nat) (fz : Bool) (a b c : FVal) (x y z : ℚ), md ≠ .dyn → u < 2 ^ 32 → IsVal a x → IsVal b y → IsVal c z →
      (x + y ≠ 0 → Rounded t md u fz (x + y) (fpAdd t md u fz a b)) ∧
      (x - y ≠ 0 → Rounded t md u fz (x - y) (fpSub t md u fz a b)) ∧
      (x * y ≠ 0 → Rounded t md u fz (x * y) (fpMul t md u fz a b)) ∧
      (x * y + z ≠ 0 → Rounded t md u fz (x * y + z) (fpFma t md u fz a b c)) ∧
      (∀ k : ℤ, x ≠ 0 → Rounded t md u fz (x * (2 : ℚ) ^ k) (fpScale t md u fz a k)) ∧
      (x ≠ 0 → Rounded t md u fz x (cvtFpFp t md u fz a)) ∧
      (∀ i : ℤ, i ≠ 0 → Rounded t md u fz i (cvtIntFp t md u fz i)) ∧
      ∀ (w : Nat) (sgn : Bool), 0 < w → RoundedInt w sgn md u x (cvtFpInt w sgn md u a)) ∧
  ∀ (s : State) (rm : Rm) (sd sa sb : BitVec 6), inRegion s →
    let c := s.core.ctx
    let m := mode c.fpctl rm
    let a := f32 (sreg c sa)
    let b := f32 (sreg c sb)
    (∀ p ∈ sfArith,
      GivesScalar (p.1 rm sd sa sb) s 4 sd (w64 (p.2 m a b).1) (p.2 m a b).2 [.s sa, .s sb]) ∧
    (∀ cc, GivesScalar (.sfcmp cc sd sa sb) s 1 sd (if ccFp cc a b then 1 else 0) (cmpFlags a b) [.s sa, .s sb]) ∧
    (∀ p ∈ [(SfDir.i64f32, true), (SfDir.n64f32, false)],
      GivesScalar (.sfcvt p.1 rm sd sa) s 4 sd (z64 (cvtFpInt 64 p.2 m 0 a).1) (cvtFpInt 64 p.2 m 0 a).2 [.s sa]) ∧
    (∀ p ∈ [(SfDir.f32i64, (sreg c sa).toInt), (SfDir.f32n64, ((sreg c sa).toNat : Int))],
      GivesScalar (.sfcvt p.1 rm sd sa) s 4 sd (w64 (cvtIntFp .f32 m 0 false p.2).1) (cvtIntFp .f32 m 0 false p.2).2
        [.s sa])

/-! ## Control transfers -/

/-- What a taken transfer and one that falls through do: a taken transfer whose target the privilege may issue from makes
the target the pc, one that is not taken goes on to the next word, and nothing else changes (R28, R113). -/
def Sys2Proof.Forms.Transfers (i : Instr) (s : State) (taken : Prop) (t : Word) : Prop :=
  ¬ outOfPhase s → (taken → allowedTarget s.core.ctx.priv t → Issues i s fun c => { c with pc := t.setWidth 18 }) ∧
    (¬ taken → inRegion s → Issues i s id)

/-- The branches transfer to the branch's address plus 8 times the signed offset when their condition holds, and fall through
when it does not (R114, R115). -/
def Obligations.BranchesTransfer : Prop :=
  ∀ (s : State) (sa sb : BitVec 6) (ty : Ty) (off : BitVec 20),
    let c := s.core.ctx
    let g := s.core.gang
    let t := target c.pc off
    Transfers (.b off) s True t ∧
    (srcsBad g c [.s sa, .s sb] = none → ∀ p ∈ branches, Transfers (p.1 sa sb off) s (p.2 (sreg c sa) (sreg c sb) = true) t) ∧
    (srcsBad g c [.p sa] = none →
      Transfers (.bany ty sa off) s (anyOne g c ty sa = true) t ∧ Transfers (.ball ty sa off) s (allOnes g c ty sa = true) t)

/-- LOOP counts down, steps both rotation bases and branches while the count is not 0; the count it writes is visible to the
next instruction (R22, R116). CALL and CALLR keep the address of the next word as the link, RET and JR keep none, and all
four transfer to their target; CALLR's is the value before the link is written (R117, R118). NOP changes nothing but the pc
and the counters (R119). -/
def Obligations.LoopsCallsAndJumps : Prop :=
  ∀ (s : State) (sa sb : BitVec 6) (off : BitVec 20),
    let c := s.core.ctx
    let t := target c.pc off
    let n := z64 ((sreg c sa).toNat - 1)
    let down := fun (b : Word) (size : Nat) => if size = 0 then b else w64 ((b.toNat + size - 1) % size)
    let counts := fun (pc : BitVec 18 → BitVec 18) => Issues (.loop sa off) s fun c' =>
      { fly c 1 (.scalar sa n) 0 none (srcFault s.core.gang c [.s sa]) c' with
        pc := pc c'.pc, vrb := down c.vrb (8 * (c.rotcfg.toNat % 512))
        prb := down c.prb (8 * (c.rotcfg.toNat / 2 ^ 16 % 8)) }
    let link := fun (t : Word) (srcs : List Src) (c' : Ctx) =>
      { fly c 1 (.scalar sa (w64 (c.pc.toNat + 8))) 0 none (srcFault s.core.gang c srcs) c' with pc := t.setWidth 18 }
    (inRegion s → Issues .nop s id) ∧
    (¬ outOfPhase s →
      (n ≠ 0 → allowedTarget c.priv t → counts fun _ => t.setWidth 18) ∧
      (n = 0 → inRegion s → counts id) ∧
      (allowedTarget c.priv t → Issues (.call sa off) s (link t [])) ∧
      (allowedTarget c.priv (sreg c sb) →
        Issues (.callr sa sb) s (link (sreg c sb) [.s sb]) ∧
        (srcsBad s.core.gang c [.s sb] = none →
          Issues (.ret sb) s (fun c' => { c' with pc := (sreg c sb).setWidth 18 }) ∧
          Issues (.jr sb) s (fun c' => { c' with pc := (sreg c sb).setWidth 18 }))))

/-- A transfer to a target the privilege may not issue from traps, the first of R36 that applies, with the target in TRAPVAL;
so does sequential issue that would leave the region of the privilege, a branch or LOOP that is not taken there among it. At U in an
exchange superstep a transfer whose target does not trap raises the phase-illegal trap, with the instruction word in TRAPVAL (R60, R98,
R189; log entry 29). -/
def Obligations.BadTransfersTrap : Prop :=
  ∀ (s : State) (ty : Ty) (sa sb : BitVec 6) (off : BitVec 20),
    let c := s.core.ctx
    let g := s.core.gang
    let t := target c.pc off
    let r := sreg c sb
    let leaves := fun (i : Instr) => exec i s = .next (trapIssue s 0x01 (w64 (c.pc.toNat + 8)))
    let loops : Prop := z64 ((sreg c sa).toNat - 1) ≠ 0
    let any : Prop := anyOne g c ty sa = true
    let all : Prop := allOnes g c ty sa = true
    let traps := fun (i : Instr) (t : Word) => ∃ cause,
      cause = (if 2 ^ 18 ≤ t.toNat then 0x01 else if t.toNat % 8 ≠ 0 then 0x02 else 0x01) ∧
      exec i s = .next (trapIssue s cause t)
    let phase := fun (i : Instr) => exec i s = .next (trapIssue s 0x05 (wordNow s))
    (¬ allowedTarget c.priv t → traps (.b off) t ∧ traps (.call sa off) t ∧
      (∀ p ∈ branches, p.2 (sreg c sa) r = true → traps (p.1 sa sb off) t) ∧
      (loops → traps (.loop sa off) t) ∧ (any → traps (.bany ty sa off) t) ∧ (all → traps (.ball ty sa off) t)) ∧
    (¬ allowedTarget c.priv r → traps (.callr sa sb) r ∧ traps (.ret sb) r ∧ traps (.jr sb) r) ∧
    (¬ inRegion s → leaves .nop ∧ (∀ p ∈ alu, leaves (p.1 sa sb sb)) ∧
      (∀ p ∈ branches, p.2 (sreg c sa) r = false → leaves (p.1 sa sb off)) ∧
      (¬ loops → leaves (.loop sa off)) ∧ (¬ any → leaves (.bany ty sa off)) ∧ (¬ all → leaves (.ball ty sa off))) ∧
    (outOfPhase s →
      (allowedTarget c.priv t → phase (.b off) ∧ phase (.call sa off)) ∧
      (allowedTarget c.priv r → phase (.callr sa sb) ∧ phase (.ret sb) ∧ phase (.jr sb)) ∧
      (∀ p ∈ branches, (p.2 (sreg c sa) r = true → allowedTarget c.priv t) → inRegion s → phase (p.1 sa sb off)) ∧
      (allowedTarget c.priv t → inRegion s → phase (.loop sa off) ∧ phase (.bany ty sa off) ∧ phase (.ball ty sa off)))

/-! ## Predicates -/

/-- The predicate forms issue at U in a compute superstep and at S, with latency 1: the five over all 512 G bits, bit by
bit; PWHILE, PCNT and PFF over the elements of a type (R121 to R123). -/
def Obligations.PredicateForms : Prop :=
  ∀ (s : State) (ty : Ty) (pd pa pb : BitVec 6), mayCompute s →
    let c := s.core.ctx
    let g := s.core.gang
    let bits := predBits g
    let n := tyCount g ty
    let at' := fun (p : BitVec 6) (i : Nat) => (predOf g c p).testBit i
    (∀ p ∈ preds, GivesPred (p.1 pd pa pb) s 1 pd (fromBits (fun i => p.2 (at' pa i) (at' pb i)) bits) 0 [.p pa, .p pb]) ∧
    GivesPred (.pnot pd pa) s 1 pd (fromBits (fun i => !at' pa i) bits) 0 [.p pa] ∧
    GivesPred (.pwhile ty pd pa) s 1 pd (fromBits (fun i => decide (i < (sreg c pa).toNat)) (min n bits)) 0 [.s pa] ∧
    GivesScalar (.pcnt ty pd pa) s 1 pd (w64 ((List.range n).filter (at' pa)).length) 0 [.p pa] ∧
    GivesScalar (.pff ty pd pa) s 1 pd (w64 (firstOne (at' pa) n)) 0 [.p pa]

/-! ## Control and status registers -/

namespace Sys2Proof.Forms
open Sys2Proof Sys2Proof.Machine

/-- The bits of WMARKn (Table 1.5). -/
def wmarkBits (w : WMark) : Word :=
  w64 (w.limit.toNat + 2 ^ 18 * w.base.toNat + 2 ^ 36 * w.endg.toNat + 2 ^ 54 * w.space.toNat +
    if w.act then 2 ^ 63 else 0)

/-- A CSR as Table 4.6 lists it: its number, the rights at U and at S (0 none, 1 RO, 2 RW), and its content. -/
structure Csr where
  num : Nat
  u : Nat
  s : Nat
  read : State → Word

/-- Table 4.6. -/
def csrs : List Csr :=
  [⟨0x000, 1, 1, fun s => s.core.cycle⟩,
   ⟨0x001, 1, 2, fun s => s.core.ctx.issuecnt⟩,
   ⟨0x002, 1, 1, fun s => s.dev.sun.phase⟩,
   ⟨0x008, 1, 1, fun s => w64 (s.core.gang * (64 + 128 * 2 ^ 16 + 256 * 2 ^ 32 + 512 * 2 ^ 48))⟩,
   ⟨0x009, 1, 1, fun s => w64 s.core.gang⟩,
   ⟨0x00A, 1, 1, fun s => w64 (s.core.ctx.coreId + 2 ^ 16 * s.core.ctx.ncore)⟩,
   ⟨0x010, 2, 2, fun s => s.core.ctx.rotcfg⟩,
   ⟨0x011, 2, 2, fun s => s.core.ctx.vrb⟩,
   ⟨0x012, 2, 2, fun s => s.core.ctx.prb⟩,
   ⟨0x018, 2, 2, fun s => s.core.ctx.fpctl⟩,
   ⟨0x019, 2, 2, fun s => s.core.ctx.seed⟩,
   ⟨0x01A, 2, 2, fun s => s.core.ctx.srcnt⟩,
   ⟨0x020, 1, 1, fun s => wmarkBits s.core.ctx.wm0⟩,
   ⟨0x021, 1, 1, fun s => wmarkBits s.core.ctx.wm1⟩,
   ⟨0x022, 1, 1, fun s => wmarkBits s.core.ctx.wm2⟩,
   ⟨0x023, 1, 1, fun s => wmarkBits s.core.ctx.wm3⟩,
   ⟨0x028, 1, 2, fun s => s.core.ctx.t0.tlc⟩,
   ⟨0x029, 1, 2, fun s => s.core.ctx.t1.tlc⟩,
   ⟨0x02A, 1, 2, fun s => s.core.ctx.t2.tlc⟩,
   ⟨0x02B, 1, 2, fun s => s.core.ctx.t3.tlc⟩,
   ⟨0x02C, 1, 2, fun s => s.core.ctx.t4.tlc⟩,
   ⟨0x02D, 1, 2, fun s => s.core.ctx.t5.tlc⟩,
   ⟨0x02E, 1, 2, fun s => s.core.ctx.t6.tlc⟩,
   ⟨0x030, 2, 2, fun s => s.core.ctx.lscale⟩,
   ⟨0x031, 1, 2, fun s => s.core.ctx.lsgen⟩,
   ⟨0x032, 2, 2, fun s => s.core.ctx.lsgrow⟩,
   ⟨0x033, 2, 2, fun s => s.core.ctx.cktol⟩,
   ⟨0x038, 2, 2, fun s => s.core.ctx.diemask⟩,
   ⟨0x040, 1, 2, fun s => w64 ((segReg s.core.ctx).toNat + 2 ^ 32 * segCount s.core.ctx)⟩,
   ⟨0x041, 1, 2, fun s => s.core.ctx.sigv0⟩,
   ⟨0x042, 1, 2, fun s => s.core.ctx.sigv1⟩,
   ⟨0x048, 0, 2, fun s => s.core.ctx.timecmp⟩,
   ⟨0x049, 0, 2, fun s => s.core.ctx.tmctl⟩,
   ⟨0x050, 0, 2, fun s => s.core.ctx.trapcause⟩,
   ⟨0x051, 0, 2, fun s => s.core.ctx.trappc⟩,
   ⟨0x052, 0, 2, fun s => s.core.ctx.trapval⟩,
   ⟨0x060, 1, 1, fun s => s.core.ctx.sswall⟩,
   ⟨0x061, 1, 1, fun s => s.core.ctx.xwall⟩]

/-- The rights a privilege has to a number: none to one that Table 4.6 does not list (R125). -/
def rights (p : Priv) (n : Nat) : Nat :=
  match csrs.find? (fun r => r.num = n), p with
  | none, _ => 0
  | some r, .u => r.u
  | some r, .s => r.s

/-- The bits of `v` under a mask, the others as they were (R126). -/
def under (mask old v : Word) : Word := (v &&& mask) ||| (old &&& ~~~mask)

/-- A TLC written: the counter and CLOSED take the value, and the context's failure is gone (R256). -/
def tlcSet (v : Word) : TlCtx := { TlCtx.zero with closed := v, tlc := v, acquired := v.toNat }

/-- A TLC may be written when its context has failed or has nothing incomplete and an empty open batch (R256). -/
def tlcIdle (t : TlCtx) : Bool := t.failed.isSome || (t.openOps = 0 && t.ops.isEmpty && t.tlc = t.closed)

/-- What a write of a CSR changes, and the values it may not place (R23, R84, R256, R359; Tables 1.2, 3.5, 4.7, 12.7, 14.2,
15.3). -/
def csrPuts : List (Nat × (Ctx → Word → Bool) × (Word → Ctx → Ctx)) :=
  [(0x001, (fun _ _ => true), fun v c => { c with issuecnt := v }),
   (0x010, (fun _ v => v.toNat % 512 ≤ 256 && v.toNat / 2 ^ 16 % 8 ≤ 4),
     fun v c => { c with rotcfg := v &&& 0x701FF, vrb := 0, prb := 0 }),
   (0x011, (fun _ _ => true), fun v c =>
     { c with vrb := let n := 8 * (c.rotcfg.toNat % 512); if n = 0 then 0 else w64 (v.toNat % n) }),
   (0x012, (fun _ _ => true), fun v c =>
     { c with prb := let n := 8 * (c.rotcfg.toNat / 2 ^ 16 % 8); if n = 0 then 0 else w64 (v.toNat % n) }),
   (0x018, (fun _ v => 1 ≤ v.toNat % 8 && v.toNat % 8 ≤ 5),
     fun v c => { c with fpctl := (v &&& 0x7F0F) ||| (c.ckFlags.setWidth 64 <<< 8) }),
   (0x019, (fun _ _ => true), fun v c => { c with seed := v }),
   (0x01A, (fun _ _ => true), fun v c => { c with srcnt := v }),
   (0x028, (fun c _ => tlcIdle c.t0), fun v c => { c with t0 := tlcSet v, wm0 := WMark.zero }),
   (0x029, (fun c _ => tlcIdle c.t1), fun v c => { c with t1 := tlcSet v, wm1 := WMark.zero }),
   (0x02A, (fun c _ => tlcIdle c.t2), fun v c => { c with t2 := tlcSet v, wm2 := WMark.zero }),
   (0x02B, (fun c _ => tlcIdle c.t3), fun v c => { c with t3 := tlcSet v, wm3 := WMark.zero }),
   (0x02C, (fun c _ => tlcIdle c.t4), fun v c => { c with t4 := tlcSet v }),
   (0x02D, (fun c _ => tlcIdle c.t5), fun v c => { c with t5 := tlcSet v }),
   (0x02E, (fun c _ => tlcIdle c.t6), fun v c => { c with t6 := tlcSet v }),
   (0x030, (fun _ _ => true), fun v c => { c with lscale := under 0xFFFFFFFF c.lscale v }),
   (0x031, (fun _ _ => true), fun v c => { c with lsgen := under 0xFFFF c.lsgen v }),
   (0x032, (fun _ _ => true), fun v c => { c with lsgrow := under 0xFFFFFFFF c.lsgrow v }),
   (0x033, (fun _ _ => true), fun v c => { c with cktol := under (if c.cls = .n then 0x33F else 0x3F) c.cktol v }),
   (0x038, (fun _ _ => true), fun v c => { c with diemask := under 0xFFFF c.diemask v }),
   (0x040, (fun _ _ => true), fun v c =>
     { c with segBase := v.setWidth 32, segOld := v.toNat / 2 ^ 32 % 2 ^ 24, segNew := [] }),
   (0x041, (fun _ v => decide (v.toNat ≤ 14)), fun v c => { c with sigv0 := v }),
   (0x042, (fun _ v => decide (v.toNat ≤ 14)), fun v c => { c with sigv1 := v }),
   (0x048, (fun _ _ => true), fun v c => { c with timecmp := v }),
   (0x049, (fun _ _ => true), fun v c =>
     { c with tmctl := (v &&& 1) ||| (if v.toNat.testBit 1 then 0 else c.tmctl &&& 2) }),
   (0x050, (fun _ _ => true), fun v c => { c with trapcause := v &&& 0x800000000000F1FF }),
   (0x051, (fun _ _ => true), fun v c => { c with trappc := v &&& 0x3FFF8 }),
   (0x052, (fun _ _ => true), fun v c => { c with trapval := v })]

end Sys2Proof.Forms

/-- A read access gives the register's content with latency 1 at every privilege that has a right to it: CSRR, and CSRS and
CSRC of s0 (R125, R126, Table 4.6; log entry 54). -/
def Obligations.CsrReads : Prop :=
  ∀ (s : State) (sd : BitVec 6) (n : BitVec 12), mayCompute s → ∀ r ∈ csrs, n.toNat = r.num →
    1 ≤ rights s.core.ctx.priv r.num →
    GivesScalar (.csrr sd n) s 1 sd (r.read s) 0 [] ∧ GivesScalar (.csrs sd n 0) s 1 sd (r.read s) 0 [] ∧
      GivesScalar (.csrc sd n 0) s 1 sd (r.read s) 0 []

/-- A write access puts its value: CSRW and CSRWI the operand, CSRX the operand, CSRS and CSRC the content with the operand's
bits set or cleared; the last three give the content before the write, with latency 1 (R126). VROT sets both sizes and clears
both bases (R23, R127; log entries 39, 43 and 55). -/
def Obligations.CsrWrites : Prop :=
  (∀ (s : State) (vrs : BitVec 9) (prs : BitVec 3), mayCompute s → vrs.toNat ≤ 256 → prs.toNat ≤ 4 →
    Issues (.vrot vrs prs) s fun c => { c with rotcfg := w64 (vrs.toNat + 2 ^ 16 * prs.toNat), vrb := 0, prb := 0 }) ∧
  ∀ (s : State) (sd sa : BitVec 6) (n : BitVec 12) (imm : BitVec 16), mayCompute s → ∀ r ∈ csrs, ∀ w ∈ csrPuts,
    n.toNat = r.num → w.1 = r.num → rights s.core.ctx.priv r.num = 2 →
    let c := s.core.ctx
    let x := sreg c sa
    let old := r.read s
    let both := fun (v : Word) (c' : Ctx) => w.2.2 v (fly c 1 (.scalar sd old) 0 none none c')
    (w.2.1 c (imm.setWidth 64) = true → Issues (.csrwi n imm) s (w.2.2 (imm.setWidth 64))) ∧
    (srcsBad s.core.gang c [.s sa] = none →
      (w.2.1 c x = true → Issues (.csrw n sa) s (w.2.2 x) ∧ Issues (.csrx sd n sa) s (both x)) ∧
      (sa ≠ 0 →
        (w.2.1 c (old ||| x) = true → Issues (.csrs sd n sa) s (both (old ||| x))) ∧
        (w.2.1 c (old &&& ~~~x) = true → Issues (.csrc sd n sa) s (both (old &&& ~~~x)))))

/-- An access without a right raises the privilege trap, with the instruction word in TRAPVAL: any access to a number that
is not assigned or that the privilege may not touch, and a write access to a register that is RO for it (R125). A value that
the register may not hold raises the illegal-instruction trap and changes nothing, including the destination (R23, R84, R126,
R256, R359), and so does a VROT of sizes above 256 or 4 (R127; log entry 43). -/
def Obligations.CsrAccessTraps : Prop :=
  ∀ (s : State) (sd sa : BitVec 6) (n : BitVec 12) (imm : BitVec 16) (vrs : BitVec 9) (prs : BitVec 3),
    let c := s.core.ctx
    let x := sreg c sa
    let traps := fun cause i => exec i s = .next (trapIssue s cause (wordNow s))
    (inRegion s →
      (rights c.priv n.toNat = 0 → traps 0x04 (.csrr sd n) ∧ traps 0x04 (.csrs sd n sa) ∧ traps 0x04 (.csrc sd n sa)) ∧
      (rights c.priv n.toNat < 2 → traps 0x04 (.csrw n sa) ∧ traps 0x04 (.csrwi n imm) ∧ traps 0x04 (.csrx sd n sa) ∧
        (sa ≠ 0 → traps 0x04 (.csrs sd n sa) ∧ traps 0x04 (.csrc sd n sa)))) ∧
    (mayCompute s →
      (256 < vrs.toNat ∨ 4 < prs.toNat → traps 0x03 (.vrot vrs prs)) ∧
      ∀ r ∈ csrs, ∀ w ∈ csrPuts, n.toNat = r.num → w.1 = r.num → rights c.priv r.num = 2 →
        (w.2.1 c (imm.setWidth 64) = false → traps 0x03 (.csrwi n imm)) ∧
        (w.2.1 c x = false → traps 0x03 (.csrw n sa) ∧ traps 0x03 (.csrx sd n sa)) ∧
        (sa ≠ 0 → (w.2.1 c (r.read s ||| x) = false → traps 0x03 (.csrs sd n sa)) ∧
          (w.2.1 c (r.read s &&& ~~~x) = false → traps 0x03 (.csrc sd n sa))))

/-! ## Traps, interrupts and returns -/

namespace Sys2Proof.Forms
open Sys2Proof Sys2Proof.Machine

/-- FB, the base of the trap-frame area: the top 4 KiB of the scratchpad partition, half of the scratchpad in metered mode
(R203, R205, R339). -/
def fb (g : Nat) (metered : Bool) : Nat := (if metered then 524288 * g else 1048576 * g) - 4096

/-- Word k of the trap frame (Table 14.4). -/
def frameAt (g : Nat) (c : Ctx) (k : Nat) : Nat := readLe c.scr (fb g c.metered + 8 * k) 8

/-- A slot descriptor (Table 14.5): DUE, KIND, DEST, WS, VALID, the flags and the address of the instruction. -/
def describe (x : Slot) : Nat :=
  let dest := match x.fl.res with
    | .scalar r _ => 2 ^ 5 * r.toNat
    | .vector n ws _ _ _ => 2 ^ 3 + 2 ^ 5 * n + if ws then 2 ^ 17 else 0
    | .pred p _ => 2 ^ 4 + 2 ^ 5 * p
  x.fl.due % 8 + dest + (if x.valid then 2 ^ 18 else 0) + 2 ^ 19 * x.fl.flags.toNat + 2 ^ 32 * x.fl.pc.toNat

/-- The word a slot keeps in the frame beside its descriptor: the value of a scalar result that was not withheld (R338). -/
def slotWord (x : Slot) : Nat :=
  match x.fl.res with
  | .scalar _ v => if x.valid then v.toNat else 0
  | _ => 0

/-- The slots of the results in flight of a context, at most eight, in program order; one whose read has still to be made reads
before the handler's first access (R233, R338). -/
def slotsOf' (g : Nat) (c : Ctx) : List Slot := (c.inflight.take 8).map fun f => readSlot g c ⟨f, true⟩

/-- What trap entry leaves of a context `c` at U, with the cause word, TRAPVAL, the resume position, the address of the
instruction that faulted in flight (0 if none), and the results moved into the snapshot buffer (R337 to R339):
the cause registers, an empty pipeline and zero latches, the rotation and FPCTL cleared, privilege S at TRAPVEC, eight entry ck
of which this is the first, the frame with its slots, and every other register and byte as it was. The buffer keeps one more than
DUE of each slot, since the first ck after the exit counts one down. -/
structure Entered (g : Nat) (cycle : Word) (c : Ctx) (cause val : Word) (back fpc : Nat) (slots : List Slot) (c' : Ctx) : Prop where
  regs : c'.trapcause = cause ∧ c'.trapval = val ∧ c'.trappc = w64 (back % 2 ^ 18)
  pipe : c'.inflight = [] ∧ c'.lat = Latches.zero ∧ c'.snapLat = c.lat ∧
    c'.snap = slots.map fun x => { x with fl := { x.fl with due := x.fl.due + 1 } }
  mode : c'.priv = .s ∧ c'.pc = c.trapvec ∧ c'.hold = 7
  cleared : c'.rotcfg = 0 ∧ c'.vrb = 0 ∧ c'.prb = 0 ∧ c'.fpctl = 1
  frame : ∀ p ∈ [(0, cause.toNat), (1, back % 2 ^ 18), (2, val.toNat), (3, fpc), (4, c.issuecnt.toNat), (5, cycle.toNat),
      (6, c.fpctl.toNat), (7, c.srcnt.toNat), (8, c.sigv0.toNat), (9, c.sigv1.toNat), (10, c.rotcfg.toNat),
      (11, c.vrb.toNat), (12, c.prb.toNat), (13, slots.length), (30, 0), (31, 0)], frameAt g c' p.1 = p.2
  saved : ∀ i < 8, frameAt g c' (14 + i) = ((slots[i]?).map describe).getD 0 % 2 ^ 64 ∧
    frameAt g c' (22 + i) = ((slots[i]?).map slotWord).getD 0
  bytes : ∀ a, a < fb g c.metered ∨ fb g c.metered + 256 ≤ a → byteAt c'.scr a = byteAt c.scr a
  rest : c' = { c with
    trapcause := c'.trapcause, trapval := c'.trapval, trappc := c'.trappc, inflight := [], lat := c'.lat,
    snapLat := c'.snapLat, snap := c'.snap, snapPh := c.phended, phended := false, priv := .s, pc := c'.pc, hold := 7,
    rotcfg := 0, vrb := 0, prb := 0, fpctl := 1, errQ := errWritten c.errQ, scr := c'.scr, errScr := c'.errScr, valid := c'.valid }

/-- A context whose stream a trap at S has stopped: the cause registers are written as for a trap at U, and nothing else of an entry takes
place (R331, R333). -/
def halted (clock : Nat) (kind : StopKind) (cause : Nat) (pc : Nat) (val : Word) (c : Ctx) : Ctx :=
  { c with trapcause := w64 cause, trappc := w64 (pc % 2 ^ 18), trapval := val, stop := some kind, stopCk := clock }

/-- A core of gang width 1, 2 or 4 whose pc is in the region of its privilege. -/
def gangOk (g : Nat) : Prop := g = 1 ∨ g = 2 ∨ g = 4

end Sys2Proof.Forms

/-- TRAP at U in a compute superstep raises the software trap: TRAPVAL holds the code, TRAPPC the address of the TRAP plus 8,
and nothing is counted (R128). Any other trap raised at issue by launch code runs the same entry: the instruction does not
issue and is not counted, and TRAPPC is its own address (R33, R333, R337, R339). -/
def Obligations.TrapsEnter : Prop :=
  ∀ s : State, s.core.ctx.priv = .u → gangOk s.core.gang →
    let c := s.core.ctx
    let entered := Entered s.core.gang s.core.cycle c
    (∀ code : BitVec 16, exchange s = false → ∃ c', exec (.trap code) s = .next (s.setCtx c') ∧
      entered 0x10 (w64 code.toNat) (c.pc.toNat + 8) 0 (slotsOf' s.core.gang c) c') ∧
    (∀ (code : Nat) (val : Word), code < 0x20 → code ≠ 0x10 → ∃ c', trapIssue s code val = s.setCtx c' ∧
      entered (w64 code) val c.pc.toNat 0 (slotsOf' s.core.gang c) c')

/-- The opcodes that Table 7.1 marks "no" for an exchange superstep, but the transfers of 0x38 to 0x45, which look at their target first. -/
def Sys2Proof.Forms.computeOnly (op : Nat) : Bool :=
  [(0x34, 0x35), (0x47, 0x47), (0x50, 0x60), (0x78, 0x7A), (0x80, 0xBD), (0xC0, 0xC6), (0xD0, 0xD7), (0xE0, 0xEB), (0xF0, 0xF5)].any
    fun p => decide (p.1 ≤ op) && decide (op ≤ p.2)

/-- Whether privilege U may issue an instruction at all: a CSR access needs its right, and the forms with RES = 1 and MWLD need S (R98,
R125, R281, R299, R430). -/
def Sys2Proof.Forms.allowedAtU (i : Instr) : Prop :=
  match i with
  | .csrr _ n => 1 ≤ rights .u n.toNat
  | .csrs _ n sa | .csrc _ n sa => (if sa = 0 then 1 else 2) ≤ rights .u n.toNat
  | .csrw n _ | .csrwi n _ | .csrx _ n _ => rights .u n.toNat = 2
  | .cpyabtResume _ | .clabtResume | .mwld _ _ => False
  | _ => True

/-- A trap raised at S, whatever raises it, is not resumed: it writes TRAPCAUSE, TRAPPC and TRAPVAL, and the core's stream stops, for TRAP
with its code and for any other cause with the cause (R331, R333, R128; log entry 59); the privileged forms trap at U (R98), SEGEND at S
(R356) and so do PHEND and the transfers (R190). An instruction that Table 7.1 marks "no" for the phase raises the phase-illegal trap at U,
with the instruction word in TRAPVAL (R98, R137, R189, R259, R281, R299, R361, R430). -/
def Obligations.PrivilegeTraps : Prop :=
  ∀ s : State,
    (s.core.ctx.priv = .s → ∀ (code : Nat) (val : Word), code < 0x20 →
      let pc := s.core.ctx.pc.toNat
      (code ≠ 0x10 → trapIssue s code val = s.mapCtx (halted s.dev.clock (.otherS code) code pc val)) ∧
      (code = 0x10 → trapIssue s code val = s.mapCtx (halted s.dev.clock (.trapS (val.toNat % 2 ^ 16)) code (pc + 8) val))) ∧
    (inRegion s → ∀ i : Instr, i.isWordInstr = true → WellFormed i →
      let op := (encode i).toNat / 2 ^ 56
      let traps := fun cause => exec i s = .next (trapIssue s cause (wordNow s))
      (outOfPhase s → computeOnly op = true → allowedAtU i → traps 0x05) ∧
      (s.core.ctx.priv = .u → exchange s = false → 0x71 ≤ op → op ≤ 0x74 → traps 0x05) ∧
      (s.core.ctx.priv = .s → 0x70 ≤ op → op ≤ 0x74 → traps 0x04)) ∧
    (s.core.ctx.priv = .s → ∀ (code : BitVec 16) (n : BitVec 24) (crc : BitVec 32), inRegion s →
      let pc := s.core.ctx.pc.toNat
      let denied := fun i => exec i s = .next (s.mapCtx (halted s.dev.clock (.otherS 4) 4 pc (wordNow s)))
      exec (.trap code) s = .next (s.mapCtx (halted s.dev.clock (.trapS code.toNat) 0x10 (pc + 8) (w64 code.toNat))) ∧
      denied (.segend n crc) ∧ denied (.segendNc n crc)) ∧
    (s.core.ctx.priv = .u → ∀ sa : BitVec 6,
      exec .tret s = .next (trapIssue s 0x04 (wordNow s)) ∧
      (inRegion s → exec (.tmarm sa) s = .next (trapIssue s 0x04 (wordNow s)) ∧
        exec .tmoff s = .next (trapIssue s 0x04 (wordNow s))))

/-- TRET of a handler whose own results have completed resumes the stream at U at TRAPPC when the frame's restored words are allowed, no
frame word it reads holds a double-bit error and no interrupt is due: the restored words come back from the frame, the bits their maps
reserve ignored and the bases reduced by the restored sizes, the snapshot's latches replace the live ones, the snapshot's slots are in
flight again with their distance (a scalar slot as the frame's VALID and DATA have it), and seven exit ck are to pass, after which a stream
that had issued PHEND and has no result left has arrived; nothing else changes. It waits while a result of the handler is in flight; a
TRAPPC above the launch region raises a trap at S, which stops the core, and so does, when no interrupt is due, a restored word that its
register may not hold; a timer interrupt that is due in a compute superstep enters the handler again at TRAPPC's stream without those words
being read (R129, R341, R343). Which of TRAPPC and the restored words is looked at first is the model's choice (log entry 60); that a trap
at S writes the cause registers is read from the rules (log entry 59). -/
def Obligations.TretResumes : Prop :=
  ∀ s : State,
    let c := s.core.ctx
    let w := frameAt s.core.gang c
    let mod := fun (v n : Nat) => if n = 0 then (0 : Word) else w64 (v % n)
    let bad := 256 < w 10 % 512 ∨ 4 < w 10 / 2 ^ 16 % 8 ∨ w 6 % 8 = 0 ∨ 5 < w 6 % 8 ∨ 14 < w 8 % 16 ∨ 14 < w 9 % 16
    let stops := fun cause v => exec .tret s = .next (s.setCtx (halted s.dev.clock (.otherS cause) cause c.pc.toNat v c))
    let back := c.snap.zipIdx.filterMap fun x =>
      match x.1.fl.res with
      | .scalar d _ =>
        if (w (14 + x.2)).testBit 18 then
          some { x.1.fl with res := .scalar d (w64 (w (22 + x.2))), load := none
                             bad := if x.1.valid then x.1.fl.bad else none }
        else none
      | _ => if x.1.valid then some x.1.fl else none
    c.priv = .s →
    (c.inflight ≠ [] → exec .tret s = .next s) ∧
    (c.inflight = [] → 0x30000 ≤ c.trappc.toNat → stops 0x01 c.trappc) ∧
    (c.inflight = [] → c.trappc.toNat < 0x30000 → exchange s = false → c.snapPh = false → stopPending c = none → tmPend c = true →
      ∃ m e v, exec .tret s = .next (s.setCtx { c with
          tmctl := c.tmctl &&& 1, trapcause := w64 (2 ^ 63 + 0x21), trapval := 0, pc := c.trapvec, hold := 8, phended := false
          lat := Latches.zero, errQ := errWritten c.errQ, rotcfg := 0, vrb := 0, prb := 0, fpctl := 1, scr := m, errScr := e
          valid := v }) ∧
        (∀ p ∈ [(0, 2 ^ 63 + 0x21), (1, c.trappc.toNat), (2, 0), (3, 0)], frameAt s.core.gang { c with scr := m } p.1 = p.2) ∧
        ∀ a, a < fb s.core.gang c.metered ∨ fb s.core.gang c.metered + 32 ≤ a → byteAt m a = byteAt c.scr a) ∧
    (c.inflight = [] → c.trappc.toNat < 0x30000 → bad →
      exchange s = true ∨ c.snapPh = true ∨ stopPending c = none ∧ tmPend c = false → stops 0x03 (wordNow s)) ∧
    (c.inflight = [] → c.trappc.toNat < 0x30000 → ¬ bad → (∀ p ∈ c.errScr, p.2 < 2) → stopPending c = none → tmPend c = false →
      exec .tret s = .next (s.setCtx { c with
        priv := .u, pc := c.trappc.setWidth 18, hold := if c.snapPh = true ∧ back = [] then 8 else 7
        fpctl := w64 (w 6) &&& 0x7F0F, srcnt := w64 (w 7), sigv0 := w64 (w 8 % 16), sigv1 := w64 (w 9 % 16)
        rotcfg := w64 (w 10) &&& 0x701FF
        vrb := mod (w 11 % 2 ^ 11) (8 * (w 10 % 512)), prb := mod (w 12 % 2 ^ 5) (8 * (w 10 / 2 ^ 16 % 8))
        lat := c.snapLat, snapLat := Latches.zero, snap := [], errQ := errWritten c.errQ
        phended := c.snapPh, snapPh := false
        inflight := back }))

/-- A pending timer interrupt is taken at U in a compute superstep: entry with cause 0x21 at the instruction it goes before,
and PEND cleared (R131, R334, R336); an engine stop goes first, with the context and the stopping address in TRAPVAL. -/
def Obligations.InterruptsEnter : Prop :=
  ∀ s : State,
    let c := s.core.ctx
    c.priv = .u → exchange s = false → c.phended = false → gangOk s.core.gang →
    (stopPending c = none → tmPend c = true →
      ∃ c', exec .timerInterrupt s = .next (s.setCtx c') ∧
        Entered s.core.gang s.core.cycle { c with tmctl := c.tmctl &&& 1 } (w64 (2 ^ 63 + 0x21)) 0 c.pc.toNat 0
          (slotsOf' s.core.gang { c with tmctl := c.tmctl &&& 1 }) c') ∧
    (∀ n, stopPending c = some n →
      ∃ c', exec .engineStopInterrupt s = .next (s.setCtx c') ∧
        Entered s.core.gang s.core.cycle (setTl c n { tlOf c n with stopPend := false }) (w64 (2 ^ 63 + 0x20))
          (w64 (2 ^ 60 * n + (tlOf c n).stopVa.toNat % 2 ^ 56)) c.pc.toNat 0
          (slotsOf' s.core.gang (setTl c n { tlOf c n with stopPend := false })) c')

/-- TMARM arms the timer and TMOFF disarms it, at S in either phase; an armed timer whose compare value CYCLE has reached sets
PEND and disarms itself, and one that has not does nothing (R130). -/
def Obligations.TimerArmsAndFires : Prop :=
  ∀ (s : State) (sa : BitVec 6),
    let c := s.core.ctx
    (c.priv = .s → inRegion s →
      (srcsBad s.core.gang c [.s sa] = none →
        Issues (.tmarm sa) s fun c' => { c' with timecmp := sreg c sa, tmctl := 1 }) ∧
      Issues .tmoff s fun c' => { c' with tmctl := 0 }) ∧
    (c.tmctl.toNat % 2 = 1 → c.timecmp.toNat ≤ s.core.cycle.toNat →
      exec .timerFire s = .next (s.setCtx { c with tmctl := 2 })) ∧
    (c.tmctl.toNat % 2 = 0 ∨ s.core.cycle.toNat < c.timecmp.toNat → exec .timerFire s = .next s)

/-- SEGEND at U, in either phase, counts itself in ISSUECNT and opens the next segment; when count and CRC are those of the
segment it closes nothing else happens, and SEGEND.NC does not look (R356). One whose count or CRC differs has issued all the
same: a detection and no trap; the stack is scored 8, and the run stops from the next ck with KIND 4 (R344, R353, R370; log entry 15). -/
def Obligations.SegendClosesSegment : Prop :=
  ∀ (s : State) (n : BitVec 24) (crc : BitVec 32),
    let c := s.core.ctx
    let closed := s.setCtx { c with
      pc := c.pc + 8, issuecnt := c.issuecnt + 1, serial := c.serial + 1, segBase := 0xFFFFFFFF, segOld := 0, segNew := [] }
    let same := segCount c = n.toNat ∧ segReg c ^^^ 0xFFFFFFFF = crc
    c.priv = .u → inRegion s →
    exec (.segendNc n crc) s = .next closed ∧
    (same → exec (.segend n crc) s = .next closed) ∧
    (¬ same → ∃ d, exec (.segend n crc) s = .next { closed with dev := d } ∧
      look 0 d.mgmt.cbscore s.core.sk = min 0xFFFF (look 0 s.dev.mgmt.cbscore s.core.sk + 8) ∧
      (∀ r, runOf s.dev c.run = some r → r.halt = none →
        ∃ r', runOf d c.run = some r' ∧ r'.halt = some (s.dev.clock, c.coreId, 4 * 2 ^ 20 + 0x40)))

/-! ## Results completing -/

/-- A result that stays in flight in this ck: neither due, nor still to be read, nor faulting before it is due (R25, R157). -/
def Sys2Proof.Forms.waits (x : Flight) : Prop := 2 ≤ x.due ∧ x.load = none ∧ ∀ e, x.bad = some e → e.cause ≠ 0x11

/-- What a whole write leaves of a word's damage: it mends an error, but not damaged cells, which then hold another number (R206). -/
def Sys2Proof.Forms.mended (x : Nat) : Option Nat := if x < 3 then none else some (3 + 2 * ((x - 3) / 2 + 1))

/-- A scalar or predicate result that falls due is written, but to s0 or p0, and its flags are ORed into FPCTL; the younger
results move one ck on and nothing else changes; a write mends the register's word unless its cells are damaged (R13, R21, R25,
R85, R206; log entry 47). -/
def Obligations.ScalarAndPredicateResultsComplete : Prop :=
  ∀ (s : State) (f : Flight) (rest : List Flight),
    let c := s.core.ctx
    let after := fun (c' : Ctx) => { c' with
      inflight := rest.map fun x => { x with due := x.due - 1 }
      fpctl := c.fpctl ||| (f.flags.setWidth 64 <<< 8), ckFlags := f.flags }
    f.due = 1 → f.load = none → f.bad = none → (∀ x ∈ rest, waits x) → c.inflight = f :: rest →
    (∀ r v, f.res = .scalar r v → exec .resultComplete s = .next (s.setCtx (after (if r = 0 then c else
        { c with sregs := store 0 c.sregs r.toNat v
                 errS := store 0 c.errS r.toNat ((mended (look 0 c.errS r.toNat)).getD 0) })))) ∧
    (∀ p v, f.res = .pred p v → exec .resultComplete s = .next (s.setCtx (after (if p = 0 then c else
        { c with pregs := store 0 c.pregs p v
                 errP := c.errP.filterMap fun e =>
                   if e.1 / 256 = p then (mended e.2).map fun x => (e.1, x) else some e }))))

/-- res of R135: the eight nibbles of a 32-bit pattern added modulo 15. -/
def Sys2Proof.Forms.residue (x : Nat) : Nat := ((List.range 8).map fun k => x / 16 ^ k % 16).sum % 15

/-- SIGVh with a result folded in: the active elements whose first byte lies in half-pipeline h, in increasing index, each doubling the
signature and adding its residue, modulo 15 (R135). -/
def Sys2Proof.Forms.folded (g ew act val h : Nat) (sig : Word) : Word :=
  w64 ((((List.range (2048 * g / ew)).filter fun i => act.testBit i && decide (i * ew / 8 / 128 % 2 = h)).foldl
    (fun s i => (2 * s + residue (elemOf val ew i)) % 15) sig.toNat))

/-- A vector result that falls due: an active element takes its value and an inactive one keeps its own, unless the write is
suppressed; the result enters q0 with its inactive elements zero and the latches move on; both signatures fold it; its flags
are ORed into FPCTL; no other register, latch or byte changes (R15, R17, R25, R85, R132, R135). -/
def Obligations.VectorResultCompletes : Prop :=
  ∀ (s : State) (v ew : Nat) (ws : Bool) (act : PReg) (val : VReg) (f : Flight) (rest : List Flight),
    let c := s.core.ctx
    let g := s.core.gang
    let n := 2048 * g / ew
    f.due = 1 → f.res = .vector v ws ew act val → f.load = none → f.bad = none →
    (∀ x ∈ rest, waits x) → c.inflight = f :: rest →
    (ew = 4 ∨ ew = 8 ∨ ew = 16 ∨ ew = 32) → gangOk g →
    ∃ (regs : Sparse VReg) (q : VReg) (dirty : Sparse Bool) (errV errQ : Sparse Nat),
      exec .resultComplete s = .next (s.setCtx { c with
        vregs := regs, dirty := dirty, errV := errV, errQ := errQ
        lat := ⟨q, c.lat.q0, c.lat.q1, c.lat.q2, c.lat.q3, c.lat.q4, c.lat.q5, c.lat.q6⟩
        sigv0 := folded g ew act.toNat val.toNat 0 c.sigv0, sigv1 := folded g ew act.toNat val.toNat 1 c.sigv1
        inflight := rest.map fun x => { x with due := x.due - 1 }
        fpctl := c.fpctl ||| (f.flags.setWidth 64 <<< 8), ckFlags := f.flags }) ∧
      (ws = true → regs = c.vregs) ∧
      (∀ k, k ≠ v → look 0 regs k = look 0 c.vregs k) ∧
      (∀ i < n, elemOf q.toNat ew i = if act.toNat.testBit i then elemOf val.toNat ew i else 0) ∧
      (ws = false → ∀ i < n, elemOf (look 0 regs v).toNat ew i =
        if act.toNat.testBit i then elemOf val.toNat ew i else elemOf (look 0 c.vregs v).toNat ew i)

/-- A fault in flight at U is met when its result falls due, an invalid line's in the first advancing ck after the read: its result
is withheld and its count withdrawn. Trap entry then runs with FLIGHT set, FPC the address of the instruction that faulted, and the
instruction at issue as the resume position (R33, R333, R335): for an invalid line in every class, which by R207 is a protected one; for
a residue fault or a local-memory error in class N, where each is a detection as well. In classes S and D such an error is the detection
alone, with no trap (R353). At S the fault in flight writes the cause registers, and the stream stops (R331; log entry 59). -/
def Obligations.FaultInFlightEnters : Prop :=
  ∀ (s : State) (f : Flight) (e : LateFault),
    let c := s.core.ctx
    let c0 := { c with ckFlags := 0, issuecnt := c.issuecnt - 1, segNew := c.segNew.filter fun x => x.serial ≠ f.serial }
    let line := e.cause = 0x11
    let caught := detect s.dev c.run s.core.sk c.coreId c.cls (if e.cause = 0x12 then 0x41 else 0x42)
    f.due = 1 ∨ (line ∧ 1 ≤ f.due) → f.load = none → f.bad = some e → c.inflight = [f] →
    line ∨ e.cause = 0x12 ∨ e.cause = 0x13 →
    (c.priv = .u → f.counted = true → gangOk s.core.gang →
      (line ∨ c.cls = .n →
        ∃ c', exec .resultComplete s = .next { s.setCtx c' with dev := if line then s.dev else caught } ∧
          Entered s.core.gang s.core.cycle c0 (w64 (e.cause + 256)) e.val c.pc.toNat f.pc.toNat
            [⟨{ f with due := f.due - 1 }, false⟩] c') ∧
      (¬ line → c.cls ≠ .n → exec .resultComplete s = .next { s.setCtx { c0 with inflight := [] } with dev := caught })) ∧
    (c.priv = .s → f.counted = false → line ∨ c.cls = .n →
      exec .resultComplete s = .next { s.setCtx (halted s.dev.clock (.otherS e.cause) (e.cause + 256) c.pc.toNat e.val
        { c with ckFlags := 0, inflight := [] }) with dev := if line then s.dev else caught })

/-! ## Vector forms -/

namespace Sys2Proof.Forms
open Sys2Proof Sys2Proof.Machine

/-- The active elements of a governed form: the predicate's bit, inverted by PN (R47, R132). -/
def activeOf (s : State) (ty : Ty) (g : Gov) : Nat :=
  fromBits (fun i => (predOf s.core.gang s.core.ctx g.pg).testBit i != g.pn) (tyCount s.core.gang ty)

/-- Element i of a vector source under a type (R10, R45, R133). -/
def elAt (s : State) (ty : Ty) (v : VSrc) (i : Nat) : Nat := vsrc s.core.ctx v / 2 ^ (tyBits ty * i) % 2 ^ tyBits ty

/-- The results of the elements of a form: op(i) for an active one, nothing for another (R132). -/
def lanes (n act : Nat) (op : Nat → Nat × Flags) : List (Nat × Flags) :=
  (List.range n).map fun i => if act.testBit i then op i else (0, 0)

/-- The effective mode of a vector form that rounds (R79). -/
def vmode (f : Word) (rm : Rm) : Rm :=
  match rm with
  | .dyn => ([.rne, .rne, .rtz, .ru, .rd, .rs, .rne, .rne] : List Rm).getD (f.toNat % 8) .rne
  | r => r

/-- The random draw of element i (R81, R83). -/
def draw (c : Ctx) (i : Nat) : Nat := cbg64 (c.srcnt.toNat * 4096 + i) c.seed.toNat / 2 ^ 32

/-- FPCTL.FZ (Table 3.5). -/
def flush (c : Ctx) : Bool := c.fpctl.toNat.testBit 3

/-- A governed form: its elements are computed at issue and delivered after its latency, to the active elements. -/
def Lanes (i : Instr) (s : State) (lat : Nat) (ty : Ty) (g : Gov) (d : VDst) (checked rs : Bool) (srcs : List Src)
    (op : Nat → Nat × Flags) : Prop :=
  GivesVector i s lat ty d (activeOf s ty g) checked rs (lanes (tyCount s.core.gang ty) (activeOf s ty g) op)
    (srcs ++ [.p g.pg])

/-- The value of an integer element (R70). -/
def ival (ty : Ty) (x : Nat) : Int := if tySigned ty then signed x (tyBits ty) else x

/-- The type's least and greatest integer. -/
def least (ty : Ty) : Int := if tySigned ty then -(2 ^ (tyBits ty - 1)) else 0
def greatest (ty : Ty) : Int := if tySigned ty then 2 ^ (tyBits ty - 1) - 1 else 2 ^ tyBits ty - 1

/-- An exact integer result brought into its type: wrapped, or with .SAT the nearest value of the type, setting SV when it
is another (R71, R133). -/
def fits (ty : Ty) (sat : Bool) (x : Int) : Nat × Flags :=
  let y := if sat then (if x < least ty then least ty else if greatest ty < x then greatest ty else x) else x
  ((y % 2 ^ tyBits ty).toNat, if y = x then 0 else 0x40)

/-- The integer forms that may saturate, on patterns x and y: with a vector B and with a scalar one, whether checked, and
their exact value (Tables 5.1, 5.2; R138, R139). -/
def intSat : List ((Ty → Gov → VDst → VSrc → VSrc → Rm → Bool → Instr) ×
    (Ty → Gov → VDst → VSrc → BitVec 6 → Rm → Bool → Instr) × Bool × (Ty → Nat → Nat → Int)) :=
  [(.vadd, .vadds, true, fun t x y => ival t x + ival t y),
   (.vmul, .vmuls, true, fun t x y => ival t x * ival t y),
   ((fun t g d a b _ sat => .vshl t g d a b sat), (fun t g d a b _ sat => .vshls t g d a b sat), false,
     fun t x y => ival t x * 2 ^ (y % tyBits t))]

/-- The integer forms that wrap. -/
def intWrap : List ((Ty → Gov → VDst → VSrc → VSrc → Instr) × Bool × (Ty → Nat → Nat → Int)) :=
  [(.vmulh, true, fun t x y => ival t x * ival t y / 2 ^ tyBits t),
   (.vmin, false, fun t x y => if ival t x ≤ ival t y then ival t x else ival t y),
   (.vmax, false, fun t x y => if ival t x ≤ ival t y then ival t y else ival t x)]

/-- The shifts of patterns to the right, with a vector B and with a scalar one. -/
def rightShifts : List ((Ty → Gov → VDst → VSrc → VSrc → Instr) × (Ty → Gov → VDst → VSrc → BitVec 6 → Instr) ×
    (Ty → Nat → Nat → Int)) :=
  [(.vshr, .vshrs, fun t x y => x / 2 ^ (y % tyBits t)),
   (.vsra, .vsras, fun t x y => signed x (tyBits t) / 2 ^ (y % tyBits t))]

/-- The bitwise forms. -/
def bitwise : List ((Ty → Gov → VDst → VSrc → VSrc → Instr) × (Nat → Nat → Nat)) :=
  [(.vand, Nat.land), (.vor, Nat.lor), (.vxor, Nat.xor)]

/-- The FLT forms of two sources that round, with a vector B and with a scalar one. -/
def fltRound : List ((Ty → Gov → VDst → VSrc → VSrc → Rm → Bool → Instr) ×
    (Ty → Gov → VDst → VSrc → BitVec 6 → Rm → Bool → Instr) × Bool ×
    (Ty → Rm → Nat → Bool → FVal → FVal → Nat × Flags)) :=
  [(.vadd, .vadds, false, fpAdd), (.vmul, .vmuls, true, fpMul)]

/-- The transcendental forms (R143). -/
def fltFns : List ((Ty → Gov → VDst → VSrc → Rm → Instr) × Fn) :=
  [(.vrcp, .rcp), (.vrsq, .rsq), (.vexp2, .exp2), (.vlog2, .log2), (.vsigm, .sigm), (.vtanh, .tanh)]

/-- The class bit of a FLT value (R142). -/
def classBit (x : FVal) (subnormal : Bool) : Nat × Flags :=
  match x with
  | .nan => (256, 0x20)
  | .inf n => (if n then 1 else 128, 0x20)
  | .fin n m _ => (if m = 0 then (if n then 8 else 16) else if subnormal then (if n then 4 else 32) else if n then 2 else 64, 0)

/-- A FLT value with its sign made `f` of itself, exactly (R141). -/
def signed' (ty : Ty) (x : FVal) (f : Bool → Bool) : Nat × Flags :=
  match x with
  | .nan => (fpNan ty, 0x20)
  | .inf n => (fpPat ty (.inf (f n)), 0x20)
  | .fin n m e => (fpPat ty (.fin (f n) m e), 0)

/-- One comparison, with its flags (R74, R144). -/
def compares (ty : Ty) (cc : Cc) (fz : Bool) (x y : Nat) : Bool × Flags :=
  if ty.isFlt then (ccFp cc (fpSrc ty fz x) (fpSrc ty fz y),
    if (fpSrc ty fz x).nonFinite || (fpSrc ty fz y).nonFinite then 0x20 else 0)
  else (match cc with
    | .eq => decide (ival ty x = ival ty y)
    | .ne => decide (ival ty x ≠ ival ty y)
    | .lt => decide (ival ty x < ival ty y)
    | .le => decide (ival ty x ≤ ival ty y)
    | .gt => decide (ival ty x > ival ty y)
    | .ge => decide (ival ty x ≥ ival ty y)
    | .un => false
    | .or => true, 0)

/-- All flags together. -/
def allFlags (l : List Flags) : Flags := l.foldl (· ||| ·) 0

/-- The reduction tree of R150: node j of level m, over the leaves, with the flags of the combinations under it. -/
def node (comb : Nat → Nat → Nat × Flags) (leaf : Nat → Option Nat) : Nat → Nat → Option Nat × Flags
  | 0, j => (leaf j, 0)
  | m + 1, j =>
    match node comb leaf m (2 * j), node comb leaf m (2 * j + 1) with
    | (some x, f), (some y, h) => (some (comb x y).1, f ||| h ||| (comb x y).2)
    | (some x, f), (none, h) => (some x, f ||| h)
    | (none, f), (y, h) => (y, f ||| h)

/-- The code nibble or scale byte of a quantised register (R147), from its blocks: their scale byte and codes. -/
def blockByte (g n k i : Nat) (blocks : List (Nat × List Nat)) : Nat :=
  let code := fun m => if m < n then ((blocks.getD (m / k) (0, [])).2).getD (m % k) 0 % 16 else 0
  if i < 128 * g then code (2 * i) + 16 * code (2 * i + 1)
  else if i - 128 * g < n / k then (blocks.getD (i - 128 * g) (0, [])).1 % 256 else 0

/-- The element type of a quantiser form. -/
def elemTy : QTy → Ty
  | .f32 => .f32
  | .f16 => .f16
  | .bf16 => .bf16

end Sys2Proof.Forms

/-- The integer forms of two sources, with a vector or a scalar B: VADD, VSUB, VMUL and VSHL wrap or saturate, VMULH, VMIN,
VMAX and the right shifts wrap; latency 2; the adders and multipliers are checked (R138, R139, Tables 5.1 and 5.2; log entry 67). -/
def Obligations.VectorIntegerForms : Prop :=
  ∀ (s : State) (ty : Ty) (g : Gov) (d : VDst) (a b : VSrc) (sb : BitVec 6) (rm : Rm) (sat : Bool),
    mayCompute s → ty.isInt = true →
    let x := elAt s ty a
    let y := elAt s ty b
    let k := (sreg s.core.ctx sb).toNat % 2 ^ tyBits ty
    (∀ p ∈ intSat,
      Lanes (p.1 ty g d a b rm sat) s 2 ty g d p.2.2.1 false [.v a, .v b] (fun i => fits ty sat (p.2.2.2 ty (x i) (y i))) ∧
      Lanes (p.2.1 ty g d a sb rm sat) s 2 ty g d p.2.2.1 false [.v a, .s sb] (fun i => fits ty sat (p.2.2.2 ty (x i) k))) ∧
    Lanes (.vsub ty g d a b rm sat) s 2 ty g d true false [.v a, .v b] (fun i => fits ty sat (ival ty (x i) - ival ty (y i))) ∧
    (∀ p ∈ intWrap,
      Lanes (p.1 ty g d a b) s 2 ty g d p.2.1 false [.v a, .v b] (fun i => fits ty false (p.2.2 ty (x i) (y i)))) ∧
    (∀ p ∈ rightShifts,
      Lanes (p.1 ty g d a b) s 2 ty g d false false [.v a, .v b] (fun i => fits ty false (p.2.2 ty (x i) (y i))) ∧
      Lanes (p.2.1 ty g d a sb) s 2 ty g d false false [.v a, .s sb] (fun i => fits ty false (p.2.2 ty (x i) k))) ∧
    Lanes (.vabs ty g d a sat) s 2 ty g d false false [.v a] (fun i => fits ty sat (|ival ty (x i)|)) ∧
    Lanes (.vneg ty g d a sat) s 2 ty g d false false [.v a] (fun i => fits ty sat (-(ival ty (x i))))

/-- The forms that move or combine bit patterns, of every type: no flag, latency 2; VPERM and the slides give 0 for an index
outside the register, VSEL writes every element, VIOTA counts up (R134, R141, R145, R151 to R153; log entry 67). -/
def Obligations.VectorPatternForms : Prop :=
  ∀ (s : State) (ty : Ty) (g : Gov) (d : VDst) (a b : VSrc) (sb : BitVec 6), mayCompute s →
    let x := elAt s ty a
    let y := elAt s ty b
    let n := tyCount s.core.gang ty
    let k := (sreg s.core.ctx sb).toNat
    let w := 2 ^ tyBits ty
    (∀ p ∈ bitwise, Lanes (p.1 ty g d a b) s 2 ty g d false false [.v a, .v b] (fun i => (p.2 (x i) (y i), 0))) ∧
    Lanes (.vnot ty g d a) s 2 ty g d false false [.v a] (fun i => (w - 1 - x i, 0)) ∧
    Lanes (.vmov ty g d a) s 2 ty g d false false [.v a] (fun i => (x i, 0)) ∧
    Lanes (.vperm ty g d a b) s 2 ty g d false false [.v a, .v b] (fun i => (if y i < n then x (y i) else 0, 0)) ∧
    Lanes (.vslideu ty g d a sb) s 2 ty g d false false [.v a, .s sb] (fun i => (if k ≤ i then x (i - k) else 0, 0)) ∧
    Lanes (.vslided ty g d a sb) s 2 ty g d false false [.v a, .s sb] (fun i => (if i + k < n then x (i + k) else 0, 0)) ∧
    Lanes (.vbcast ty g d sb) s 2 ty g d false false [.s sb] (fun _ => (k % w, 0)) ∧
    Lanes (.viota ty g d sb) s 2 ty g d true false [.s sb] (fun i => ((k + i) % w, 0)) ∧
    GivesVector (.vsel ty g d a b) s 2 ty d (2 ^ n - 1) false false
      ((List.range n).map fun i => (if (activeOf s ty g).testBit i then x i else y i, 0)) [.v a, .v b, .p g.pg]

/-- The FLT forms that round: VADD, VSUB, VMUL with a vector or a scalar B, VFMA and VFMS with the addend of the register VD
names, and VSCALE, latency 4; the transcendental forms, latency 8; all round once under the effective mode, and under RS
take a draw each element and count one (R79, R81, R83, R138 to R140, R142, R143). Those that round nothing, latency 4: VMIN and
VMAX, VABS and VNEG exactly with a NaN made canonical, and VCLASS (R77, R141, R142; log entries 52 and 67). -/
def Obligations.VectorFloatForms : Prop :=
  ∀ (s : State) (ty : Ty) (g : Gov) (d : VDst) (a b : VSrc) (sb : BitVec 6) (rm : Rm) (sat : Bool),
    mayCompute s → ty.isFlt = true →
    let c := s.core.ctx
    let fz := flush c
    let m := vmode c.fpctl rm
    let rs := decide (m = .rs)
    let x := fun i => fpSrc ty fz (elAt s ty a i)
    let y := fun i => fpSrc ty fz (elAt s ty b i)
    let z := fun i => fpSrc ty fz (elAt s ty (.reg d.vd) i)
    let k := fpSrc ty fz ((sreg c sb).toNat % 2 ^ tyBits ty)
    (∀ p ∈ fltRound,
      Lanes (p.1 ty g d a b rm sat) s 4 ty g d p.2.2.1 rs [.v a, .v b] (fun i => p.2.2.2 ty m (draw c i) fz (x i) (y i)) ∧
      Lanes (p.2.1 ty g d a sb rm sat) s 4 ty g d p.2.2.1 rs [.v a, .s sb] (fun i => p.2.2.2 ty m (draw c i) fz (x i) k)) ∧
    Lanes (.vsub ty g d a b rm sat) s 4 ty g d false rs [.v a, .v b] (fun i => fpSub ty m (draw c i) fz (x i) (y i)) ∧
    Lanes (.vfma ty g d a b rm) s 4 ty g d true rs [.v a, .v b, .v (.reg d.vd)]
      (fun i => fpFma ty m (draw c i) fz (x i) (y i) (z i)) ∧
    Lanes (.vfms ty g d a b rm) s 4 ty g d true rs [.v a, .v b, .v (.reg d.vd)]
      (fun i => fpFma ty m (draw c i) fz (x i) (y i) (z i).negate) ∧
    Lanes (.vscale ty g d a b rm) s 4 ty g d false rs [.v a, .v b]
      (fun i => fpScale ty m (draw c i) fz (x i) (signed (elAt s ty b i) (tyBits ty))) ∧
    (∀ p ∈ fltFns, Lanes (p.1 ty g d a rm) s 8 ty g d false rs [.v a] (fun i => fpFn p.2 ty m (draw c i) fz (x i))) ∧
    Lanes (.vmin ty g d a b) s 4 ty g d false false [.v a, .v b] (fun i => fpMinMax ty true (x i) (y i)) ∧
    Lanes (.vmax ty g d a b) s 4 ty g d false false [.v a, .v b] (fun i => fpMinMax ty false (x i) (y i)) ∧
    Lanes (.vabs ty g d a sat) s 4 ty g d false false [.v a] (fun i => signed' ty (x i) fun _ => false) ∧
    Lanes (.vneg ty g d a sat) s 4 ty g d false false [.v a] (fun i => signed' ty (x i) fun n => !n) ∧
    Lanes (.vclass ty g d a) s 4 ty g d false false [.v a]
      (fun i => classBit (x i) (fpSubnormal ty (elAt s ty a i)))

/-- VCVT converts each element the source has, under the governing predicate of the destination type, latency 4; the elements
beyond the source's count get 0 (R86 to R88, R146; log entry 52). -/
def Obligations.VcvtConverts : Prop :=
  ∀ (s : State) (td ts : Ty) (g : Gov) (d : VDst) (a : VSrc) (rm : Rm), mayCompute s →
    let c := s.core.ctx
    let m := vmode c.fpctl rm
    let x := elAt s ts a
    let inSrc := fun (f : Nat → Nat × Flags) (i : Nat) => if i < tyCount s.core.gang ts then f i else (0, 0)
    let go := fun rs f => Lanes (.vcvt td ts g d a rm) s 4 td g d false rs [.v a] (inSrc f)
    (ts.isInt = true → td.isInt = true → go false fun i => (fits td false (ival ts (x i)))) ∧
    (ts.isFp = true → td.isFp = true → go (m = .rs) fun i =>
      cvtFpFp td m (draw c i) (td.isFlt && flush c) (fpVal ts (x i))) ∧
    (ts.isFp = true → td.isInt = true → go (m = .rs) fun i =>
      let r := cvtFpInt (tyBits td) (tySigned td) m (draw c i) (fpVal ts (x i))
      ((r.1 % 2 ^ tyBits td).toNat, r.2)) ∧
    (ts.isInt = true → td.isFp = true → go (m = .rs) fun i =>
      cvtIntFp td m (draw c i) (td.isFlt && flush c) (ival ts (x i)))

/-- VQBLK quantises block by block into the register layout of R147, every other byte 0, with the type codes of VB and the
flags of all blocks; VDQBLK decodes the same layout; both write every element, with latency 8 under the Hadamard transform
and 4 without (R147 to R149; log entry 52). -/
def Obligations.BlockQuantiserForms : Prop :=
  ∀ (s : State) (t : QTy) (k32 had : Bool) (d : VDst) (a b : VSrc) (rm : Rm), mayCompute s →
    let c := s.core.ctx
    let g := s.core.gang
    let ty := elemTy t
    let n := tyCount g ty
    let k := if k32 then 32 else 16
    let m := vmode c.fpctl rm
    let lat := if had then 8 else 4
    let val := fun j i => fpVal ty (elAt s ty a (j * k + i))
    let ys := fun j =>
      let v := (List.range k).map (val j)
      if had ∧ ¬ v.any FVal.nonFinite then (hadamard (if k32 then 3 else 2) (v.map (fpPat .f32))).map (fpVal .f32) else v
    let blocks := (List.range (n / k)).map fun j =>
      quantBlock (elAt s .n8 b (128 * g + j) / 64) m (fun i => draw c (j * k + i)) (ys j)
    let code := fun j i => codeVal (elAt s .n8 a (128 * g + j)) (elAt s .b4 a (j * k + i))
    let xs := fun j =>
      let v := (List.range k).map (code j)
      if had then (hadamard 2 (v.map (fpPat .f32))).map (fpVal .f32) else v
    GivesVector (.vqblk t k32 had d a b rm) s lat .n8 d (2 ^ (256 * g) - 1) false (m = .rs)
      ((List.range (256 * g)).map fun i =>
        (blockByte g n k i (blocks.map fun q => (q.1, q.2.1)), allFlags (blocks.map fun q => q.2.2))) [.v a, .v b] ∧
    GivesVector (.vdqblk t k32 had d a rm) s lat ty d (2 ^ n - 1) false (m = .rs)
      ((List.range n).map fun i => cvtFpFp ty m (draw c i) false ((xs (i / k)).getD (i % k) .nan)) [.v a]

/-- VCMP and VCMPS write one bit an element, 0 where inactive, with the flags of the active comparisons; latency 4 for FLT and
2 for integers. VEXT gives one element, sign-extended for I types, or 0 outside the register (R144, R154). -/
def Obligations.VectorComparesAndExtract : Prop :=
  ∀ (s : State) (ty : Ty) (cc : Cc) (g : Gov) (pd : BitVec 6) (a b : VSrc) (sb : BitVec 6), mayCompute s →
    let n := tyCount s.core.gang ty
    let act := activeOf s ty g
    let fz := flush s.core.ctx
    let k := (sreg s.core.ctx sb).toNat
    let gives := fun i (src : Src) (y : Nat → Nat) =>
      let r := fun j => compares ty cc fz (elAt s ty a j) (y j)
      GivesPred i s (if ty.isFlt then 4 else 2) pd (fromBits (fun j => act.testBit j && (r j).1) n)
        (allFlags (((List.range n).filter act.testBit).map fun j => (r j).2)) [.v a, src, .p g.pg]
    gives (.vcmp ty cc g pd a b) (.v b) (elAt s ty b) ∧
    gives (.vcmps ty cc g pd a sb) (.s sb) (fun _ => k % 2 ^ tyBits ty) ∧
    GivesScalar (.vext ty pd a sb) s 2 pd
      (if k < n then (if tySigned ty then z64 (signed (elAt s ty a k) (tyBits ty)) else w64 (elAt s ty a k)) else 0) 0
      [.v a, .s sb]

/-- The reductions of integers: the exact sum modulo 2^64, the least and the greatest active element, and the identity when no
element is active; latency 2 (R150, Table 5.4). -/
def Obligations.IntegerReductions : Prop :=
  ∀ (s : State) (ty : Ty) (g : Gov) (sd : BitVec 6) (a : VSrc), mayCompute s → ty.isInt = true →
    let xs := ((List.range (tyCount s.core.gang ty)).filter (activeOf s ty g).testBit).map fun i => ival ty (elAt s ty a i)
    GivesScalar (.vrsum ty g sd a) s 2 sd (z64 xs.sum) 0 [.v a, .p g.pg] ∧
    (∃ v : Int, GivesScalar (.vrmin ty g sd a) s 2 sd (z64 v) 0 [.v a, .p g.pg] ∧
      (xs = [] → v = greatest ty) ∧ (xs ≠ [] → v ∈ xs ∧ ∀ x ∈ xs, v ≤ x)) ∧
    (∃ v : Int, GivesScalar (.vrmax ty g sd a) s 2 sd (z64 v) 0 [.v a, .p g.pg] ∧
      (xs = [] → v = least ty) ∧ (xs ≠ [] → v ∈ xs ∧ ∀ x ∈ xs, x ≤ v))

/-- The reductions of FLT types run over the fixed tree of R150, rounding at each node under FPCTL.RM with RS replaced by RNE;
with no active element they give the identity of Table 5.4; the flags are those of the tree, NF for a non-finite input, and
NF for an infinite identity; latency 4. -/
def Obligations.FloatReductions : Prop :=
  ∀ (s : State) (ty : Ty) (g : Gov) (sd : BitVec 6) (a : VSrc), mayCompute s → ty.isFlt = true → gangOk s.core.gang →
    let c := s.core.ctx
    let fz := flush c
    let n := tyCount s.core.gang ty
    let act := activeOf s ty g
    let src := fun i => fpSrc ty fz (elAt s ty a i)
    let nf : Flags := if (List.range n).any fun i => act.testBit i && (src i).nonFinite then 0x20 else 0
    let gives := fun i (pre : FVal → Nat) (comb : FVal → FVal → Nat × Flags) (ident : Nat) (fl : Flags) =>
      let r := node (fun x y => comb (fpVal ty x) (fpVal ty y))
        (fun j => if j < n ∧ act.testBit j then some (pre (src j)) else none) 11 0
      GivesScalar i s 4 sd (w64 (r.1.getD ident)) (if r.1.isSome then r.2 ||| nf else fl) [.v a, .p g.pg]
    let mag := fun x => match x with
      | FVal.nan => fpNan ty
      | .inf _ => fpPat ty (.inf false)
      | .fin _ m e => fpPat ty (.fin false m e)
    gives (.vrsum ty g sd a) (fpPat ty) (fpAdd ty (mode c.fpctl .dyn) 0 fz) 0 0 ∧
    gives (.vrmin ty g sd a) (fpPat ty) (fpMinMax ty true) (fpPat ty (.inf false)) 0x20 ∧
    gives (.vrmax ty g sd a) (fpPat ty) (fpMinMax ty false) (fpPat ty (.inf true)) 0x20 ∧
    gives (.vramax ty g sd a) mag (fun x y =>
      if x = .nan ∨ y = .nan then (fpNan ty, 0x20) else (if fpOrd x y < 0 then fpPat ty y else fpPat ty x, 0)) 0 0

/-! ## Local memory -/

namespace Sys2Proof.Forms
open Sys2Proof Sys2Proof.Machine

/-- The bytes of a local memory that the running stream may reach: half of it in metered mode; at U the trap-frame area counts
as outside (R112, R156, R203, R205). Space 1 is the scratchpad, 3 the accumulator memory. -/
def limit (s : State) (space : Nat) : Nat :=
  let c := s.core.ctx
  let whole := if space = 1 then 1048576 * s.core.gang else 131072 * s.core.gang
  let part := if c.metered then whole / 2 else whole
  if space = 1 ∧ c.priv = .u then part - 4096 else part

/-- What a load at the given bytes does once its address is aligned (R30, R31, R156, R157): the local-access trap at the
lowest byte out of reach; else it issues as `go`, unless a watermark holds a byte back, when it waits, or raises the
copy-error trap at the lowest byte held if a channel that holds a byte has failed. -/
def LoadCases (i : Instr) (s : State) (space : Nat) (bytes : List Nat) (go : Prop) : Prop :=
  let c := s.core.ctx
  let held := fun b => holders c space b ≠ []
  (∀ b ∈ bytes, limit s space ≤ b → (∀ b' ∈ bytes, limit s space ≤ b' → b ≤ b') →
    exec i s = .next (trapIssue s 0x08 (w64 b))) ∧
  ((∀ b ∈ bytes, b < limit s space) →
    ((∀ b ∈ bytes, ¬ held b) → go) ∧
    ((∃ b ∈ bytes, held b) → (∀ b ∈ bytes, ∀ k ∈ holders c space b, (tlOf c k).failed = none) → exec i s = .next s) ∧
    (∀ b ∈ bytes, held b → (∀ b' ∈ bytes, held b' → b ≤ b') →
      (∃ b' ∈ bytes, ∃ k ∈ holders c space b', (tlOf c k).failed.isSome) →
      exec i s = .next (trapStall s 0x0C (w64 b))))

/-- The active elements of a vector access with their addresses, and the bytes they touch (R155). -/
def accessed (s : State) (ty : Ty) (g : Gov) (addr : Nat → Word) : List (Nat × Nat) :=
  ((List.range (tyCount s.core.gang ty)).filter (activeOf s ty g).testBit).map fun i => (i, (addr i).toNat)
def touched (ty : Ty) (l : List (Nat × Nat)) : List Nat :=
  l.flatMap fun p => (List.range (max 1 (tyBits ty / 8))).map fun k => p.2 + k

/-- Bytes of an element, and its place in a contiguous or strided access: a pair of 4-bit elements shares a byte (R155). -/
def size (ty : Ty) : Nat := max 1 (tyBits ty / 8)
def place (ty : Ty) (i : Nat) : Nat := if tyBits ty = 4 then i / 2 else i

/-- A vector load: misaligned-access trap first; then its cases; it issues with its elements still to be read. -/
def VecLoad (i : Instr) (s : State) (lat space : Nat) (ty : Ty) (g : Gov) (d : VDst) (base : Word) (aligned : Prop)
    (addr : Nat → Word) (srcs : List Src) : Prop :=
  let l := accessed s ty g addr
  (¬ aligned → exec i s = .next (trapIssue s 0x07 base)) ∧
  (aligned → LoadCases i s space (touched ty l)
    (Gives i s lat (.vector (physV s.core.ctx d.vd) d.ws (tyBits ty) (BitVec.ofNat 2048 (activeOf s ty g)) 0) 0
      (some (.vec (space = 3) (tyBits ty) l)) (srcFault s.core.gang s.core.ctx (srcs ++ [.p g.pg]))))

/-- Half a byte of a memory: nibble p is the low or high half of byte p/2. -/
def nibble (m : Memory) (p : Nat) : Nat := (byteAt m (p / 2)).toNat / 16 ^ (p % 2) % 16

/-- The first nibble and the number of nibbles of element i of an access (R155). -/
def nibs (ty : Ty) (e : Nat × Nat) : Nat × Nat := if tyBits ty = 4 then (2 * e.2 + e.1 % 2, 1) else (2 * e.2, tyBits ty / 4)

/-- Whether an element of an access writes a nibble. -/
def writes (ty : Ty) (e : Nat × Nat) (p : Nat) : Prop := (nibs ty e).1 ≤ p ∧ p < (nibs ty e).1 + (nibs ty e).2

/-- What a store leaves in the scratchpad and its valid bits when its elements `l`, in increasing index, write the values
`val`: a nibble written stands as its last writer left it, every other nibble is as it was; in a protected launch the lines
written become valid, and no other valid bit changes (R158, R207). -/
def Stored (c : Ctx) (ty : Ty) (l : List (Nat × Nat)) (val : Nat → Nat) (m : Memory) (v : Sparse Bool) : Prop :=
  (∀ p, (∀ e ∈ l, ¬ writes ty e p) → nibble m p = nibble c.scr p) ∧
  (∀ p, ∀ e ∈ l, writes ty e p → (∀ e' ∈ l, e.1 < e'.1 → ¬ writes ty e' p) →
    nibble m p = val e.1 / 16 ^ (p - (nibs ty e).1) % 16) ∧
  ∀ k, look false v k = true ↔ ((c.cls ≠ .n ∧ ∃ b ∈ touched ty l, b / 128 = k) ∨ look false c.valid k = true)

/-- A store: the traps of its checks, else it issues and writes; it never stalls and changes no register (R158). -/
def VecStore (i : Instr) (s : State) (ty : Ty) (base : Word) (aligned : Prop) (l : List (Nat × Nat)) (val : Nat → Nat)
    (srcs : List Src) : Prop :=
  (¬ aligned → exec i s = .next (trapIssue s 0x07 base)) ∧
  (aligned → ∀ b ∈ touched ty l, limit s 1 ≤ b → (∀ b' ∈ touched ty l, limit s 1 ≤ b' → b ≤ b') →
    exec i s = .next (trapIssue s 0x08 (w64 b))) ∧
  (aligned → (∀ b ∈ touched ty l, b < limit s 1) → srcsBad s.core.gang s.core.ctx srcs = none →
    ∃ c m e v, Counted s.core.ctx (wordNow s) c ∧ Stored s.core.ctx ty l val m v ∧
      exec i s = .next (s.setCtx { c with pc := c.pc + 8, scr := m, errScr := e, valid := v }))

end Sys2Proof.Forms

/-- The vector loads: VLD and VLDA contiguous from a base of 32-byte granules, VLDS strided, VLDX indexed by a vector; their
alignment, range and watermark checks in order, and issue with latency 6, for VLDA 8 (R155 to R157). -/
def Obligations.VectorLoadsIssue : Prop :=
  ∀ (s : State) (ty : Ty) (g : Gov) (d : VDst) (a : VSrc) (sa sb : BitVec 6) (off : BitVec 14), mayCompute s →
    let c := s.core.ctx
    let base := sreg c sa + z64 (32 * off.toInt)
    let step := sreg c sb
    let z := size ty
    VecLoad (.vld ty g d sa off) s 6 1 ty g d base (base.toNat % 32 = 0) (fun i => base + w64 (place ty i * z)) [.s sa] ∧
    VecLoad (.vlda ty g d sa off) s 8 3 ty g d base (base.toNat % 32 = 0) (fun i => base + w64 (place ty i * z)) [.s sa] ∧
    VecLoad (.vlds ty g d sa sb off) s 6 1 ty g d base (base.toNat % z = 0 ∧ step.toNat % z = 0)
      (fun i => base + w64 (place ty i) * step) [.s sa, .s sb] ∧
    VecLoad (.vldx ty g d a sb) s 6 1 ty g d step (step.toNat % z = 0) (fun i => step + w64 (elAt s ty a i * z)) [.v a, .s sb]

/-- LDS and STS: range, then alignment, with the address in TRAPVAL; LDS issues under the watermark rule with its read still
to be made, latency 4; STS writes its bytes at issue, never stalls, and writes nothing else (R111, R112, R158). -/
def Obligations.ScalarLoadsAndStores : Prop :=
  ∀ (s : State) (ty : Ty) (sd sa : BitVec 6) (off : BitVec 38), mayCompute s → ty.isInteger = true →
    let c := s.core.ctx
    let ea := sreg c sa + z64 off.toInt
    let w := intBits ty / 8
    let out := limit s 1 < ea.toNat + w
    let odd := ea.toNat % w ≠ 0
    let bytes := (List.range w).map fun k => ea.toNat + k
    (out → exec (.lds ty sd sa off) s = .next (trapIssue s 0x08 ea) ∧ exec (.sts ty sd sa off) s = .next (trapIssue s 0x08 ea)) ∧
    (¬ out → odd → exec (.lds ty sd sa off) s = .next (trapIssue s 0x07 ea) ∧
      exec (.sts ty sd sa off) s = .next (trapIssue s 0x07 ea)) ∧
    (¬ out → ¬ odd →
      LoadCases (.lds ty sd sa off) s 1 bytes
        (Gives (.lds ty sd sa off) s 4 (.scalar sd 0) 0 (some (.scalar ea.toNat w (tySigned ty)))
          (srcFault s.core.gang c [.s sa])) ∧
      (srcsBad s.core.gang c [.s sd, .s sa] = none →
        ∃ c' m e v, Counted c (wordNow s) c' ∧
          exec (.sts ty sd sa off) s = .next (s.setCtx { c' with pc := c'.pc + 8, scr := m, errScr := e, valid := v }) ∧
          (∀ a, a ∉ bytes → byteAt m a = byteAt c.scr a) ∧
          (∀ k < w, (byteAt m (ea.toNat + k)).toNat = (sreg c sd).toNat / 256 ^ k % 256) ∧
          ∀ k, look false v k = true ↔ ((c.cls ≠ .n ∧ k = ea.toNat / 128) ∨ look false c.valid k = true)))

/-- The vector stores write the bytes, or for 4-bit types the nibbles, of their active elements and nothing else; where two
elements write one byte the higher index stands (R155, R156, R158). -/
def Obligations.VectorStoresWrite : Prop :=
  ∀ (s : State) (ty : Ty) (g : Gov) (v x : VSrc) (sa sb : BitVec 6) (off : BitVec 13), mayCompute s →
    let c := s.core.ctx
    let base := sreg c sa + z64 (32 * off.toInt)
    let step := sreg c sb
    let z := size ty
    VecStore (.vst ty g v sa off) s ty base (base.toNat % 32 = 0)
      (accessed s ty g fun i => base + w64 (place ty i * z)) (elAt s ty v) [.v v, .s sa, .p g.pg] ∧
    VecStore (.vsts ty g v sa sb off) s ty base (base.toNat % z = 0 ∧ step.toNat % z = 0)
      (accessed s ty g fun i => base + w64 (place ty i) * step) (elAt s ty v) [.v v, .s sa, .s sb, .p g.pg] ∧
    VecStore (.vstx ty g v x sa) s ty (sreg c sa) ((sreg c sa).toNat % z = 0)
      (accessed s ty g fun i => sreg c sa + w64 (elAt s ty x i * z)) (elAt s ty v) [.v v, .v x, .s sa, .p g.pg]

/-- The read of an issued load, made in the ck after its issue: a scalar load takes its bytes little-endian, extended by sign
for I types; a vector load takes each element from its address, a 4-bit element the nibble its index selects; AMXRD gives the greatest
entry of a history, or of all of it but the newest, and the canonical NaN for a NaN or a HEAD above 11. In a protected
launch an invalid line makes it the invalid-line fault with the lowest byte read there, and else a word with a double-bit error
the local-memory error of the first such word, for a vector load in the order of its elements (R111, R157, R206, R208, R295, R335; log
entry 47). -/
def Obligations.IssuedLoadsRead : Prop :=
  ∀ (s : State) (f : Flight),
    let c := s.core.ctx
    let reads := fun (f' : Flight) => exec .localLoadRead s = .next (s.setCtx { c with inflight := [f'] })
    c.inflight = [f] → f.bad = none →
    (∀ r x a w sg, f.res = .scalar r x → f.load = some (.scalar a w sg) → w = 1 ∨ w = 2 ∨ w = 4 ∨ w = 8 → a % w = 0 →
      let v := readLe c.scr a w
      let res := Result.scalar r (if sg then z64 (signed v (8 * w)) else w64 v)
      let sound := wordErr (look 0 c.errScr (a / 8)) = false
      (lineOk s.core.gang c a = true → sound → reads { f with res := res, load := none }) ∧
      (lineOk s.core.gang c a = true → ¬ sound →
        reads { f with res := res, load := none, bad := some ⟨0x13, w64 (2 ^ 56 + 8 * (a / 8) % 2 ^ 22)⟩ }) ∧
      (lineOk s.core.gang c a = false → reads { f with res := res, load := none, bad := some ⟨0x11, w64 a⟩ })) ∧
    (∀ n ws ew act x acc l, f.res = .vector n ws ew act x → f.load = some (.vec acc ew l) →
      ew = 4 ∨ ew = 8 ∨ ew = 16 ∨ ew = 32 → (l.map (·.1)).Pairwise (· < ·) → (∀ e ∈ l, ew * (e.1 + 1) ≤ 8192) →
      let m := if acc then c.acc else c.scr
      let bytes := l.flatMap fun e => (List.range (max 1 (ew / 8))).map fun k => e.2 + k
      let wrong := fun b => wordErr (look 0 (if acc then c.errAcc else c.errScr) (b / 8)) = true
      let open' := fun b => acc = false ∧ lineOk s.core.gang c b = false
      ∃ val,
        (∀ e ∈ l, elemOf val.toNat ew e.1 = if ew = 4 then nibble m (2 * e.2 + e.1 % 2) else readLe m e.2 (ew / 8)) ∧
        let f1 := { f with res := .vector n ws ew act val, load := none }
        ((∀ b ∈ bytes, ¬ wrong b ∧ ¬ open' b) → reads f1) ∧
        (∀ pre b post, bytes = pre ++ b :: post → (∀ y ∈ pre, ¬ open' y) → open' b →
          ∀ a ∈ bytes, a / 128 = b / 128 → (∀ y ∈ bytes, y / 128 = b / 128 → a ≤ y) → reads { f1 with bad := some ⟨0x11, w64 a⟩ }) ∧
        (∀ pre b post, bytes = pre ++ b :: post → (∀ y ∈ bytes, ¬ open' y) → (∀ y ∈ pre, ¬ wrong y) → wrong b →
          reads { f1 with bad := some ⟨0x13, w64 ((if acc then 3 else 1) * 2 ^ 56 + 8 * (b / 8) % 2 ^ 22)⟩ })) ∧
    (∀ r x a all, f.res = .scalar r x → f.load = some (.amx a all) → a % 128 = 0 →
      (∀ b < 128, look 0 c.errScr ((a + b) / 8) < 2) → lineOk s.core.gang c a = true →
      let head := readLe c.scr (a + 0x78) 1
      let entries := ((List.range 12).filter fun k => all || k ≠ head).map fun k => readLe c.scr (a + 0x48 + 4 * k) 4
      let greatest := entries.foldl (fun m y => (fpMinMax .f32 false (fpVal .f32 m) (fpVal .f32 y)).1) 0xFF800000
      reads { f with
        res := .scalar r (w64 (if 11 < head ∨ ∃ y ∈ entries, fpVal .f32 y = .nan then fpNan .f32 else greatest)), load := none })

/-! ## Exchange supersteps and signatures -/

namespace Sys2Proof.Forms
open Sys2Proof Sys2Proof.Machine

/-- Lbase of two seats (Table 7.4). -/
def lbase (a b : Nat × Nat) : Nat :=
  if a = b then 4 else if a.1 = b.1 then 12
  else ([40, 56, 72, 88] : List Nat).getD ((a.1 / 4 : Int) - (b.1 / 4 : Int)).natAbs 88

/-- A transfer whose operands are allowed (R194): the destination and length words of XSEND and XSENDM, the alignment of both
addresses, both ranges below the trap-frame area, no granule of the source still to be filled, every line of it valid,
and no double-bit error in it. -/
def sendAllowed (s : State) (src daddr first cnt ngr : Nat) : Prop :=
  let c := s.core.ctx
  let top := fb s.core.gang c.metered
  1 ≤ ngr ∧ ngr ≤ 4096 ∧ 1 ≤ cnt ∧ first + cnt ≤ c.ncore ∧ src % 32 = 0 ∧ daddr % 32 = 0 ∧ src + 32 * ngr ≤ top ∧
    daddr + 32 * ngr ≤ top ∧
    (∀ k < ngr, holders c 1 (src + 32 * k) = [] ∧ lineOk s.core.gang c (src + 32 * k) = true) ∧
    ∀ p ∈ c.errScr, src / 8 ≤ p.1 → p.1 < src / 8 + 4 * ngr → p.2 < 2

/-- The context after a transfer of `ngr` granules to the cores first, first + 1, … has started at XCLK; its core arrives no
earlier than the ck after its delivery (R191, R196). -/
def sending (s : State) (tag : BitVec 16) (first cnt ngr daddr charge : Nat) (bytes : List Byte) (c : Ctx) : Ctx :=
  let start := max s.core.xclk c.portFree
  let ck := (ngr + 1) / 2
  let targets := (List.range cnt).map fun k => first + k
  let me := coreSeat s.dev c.run c.coreId
  let far := (targets.map fun t => lbase me (coreSeat s.dev c.run t)).foldl max 0
  { c with portFree := start + ck, xseq := c.xseq + 1, xdone := max c.xdone (start + ck + 1 + far)
           transfers := c.transfers ++ [⟨start + ck - 1 + far, tag.toNat, c.coreId, c.xseq, targets, daddr, bytes, charge⟩] }

/-- The checks of a transfer of `ngr` granules from `src` to `daddr` of `cnt` cores from `first` on, in the order of R194, with the trap
each raises; `bad` says that a reserved bit of its words is not 0. XSENDS (`reg`) reads no memory, and writes 8 bytes. -/
def SendTraps (i : Instr) (s : State) (c1 : Ctx) (reg : Bool) (bad : Prop) (src daddr first cnt ngr : Nat) : Prop :=
  let c := s.core.ctx
  let g := s.core.gang
  let top := fb g c.metered
  let len := if reg then 8 else 32 * ngr
  let traps := fun cause v => exec i s = .next (trapIssue (s.setCtx c1) cause v)
  let long := ngr = 0 ∨ 4096 < ngr
  let away := c.ncore ≤ first ∨ cnt = 0 ∨ c.ncore < first + cnt
  let wrong := fun (p : Nat × Nat) => src / 8 ≤ p.1 ∧ p.1 < src / 8 + 4 * ngr ∧ wordErr p.2 = true
  let caught := { s.setCtx c1 with dev := detect s.dev c.run s.core.sk c.coreId c.cls 0x42 }
  (bad → traps 0x09 1) ∧
  (¬ bad → long → traps 0x09 2) ∧
  (¬ bad → ¬ long → away → traps 0x09 3) ∧
  (¬ bad → ¬ long → ¬ away →
    (reg = false → src % 32 ≠ 0 → traps 0x07 (w64 src)) ∧
    (reg = true ∨ src % 32 = 0 → daddr % (if reg then 8 else 32) ≠ 0 → traps 0x07 (w64 daddr)) ∧
    (reg = true ∨ src % 32 = 0 → daddr % (if reg then 8 else 32) = 0 →
      (reg = false → top < src + len → traps 0x08 (w64 (max src top))) ∧
      (reg = true ∨ src + len ≤ top → top < daddr + len → traps 0x09 4) ∧
      (reg = false → src + len ≤ top → daddr + len ≤ top →
        ((∃ k < ngr, holders c 1 (src + 32 * k) ≠ []) → traps 0x09 5) ∧
        ((∀ k < ngr, holders c 1 (src + 32 * k) = []) →
          (∀ k < ngr, lineOk g c (src + 32 * k) = false → (∀ j < k, lineOk g c (src + 32 * j) = true) →
            traps 0x11 (w64 (src + 32 * k))) ∧
          ((∀ k < ngr, lineOk g c (src + 32 * k) = true) → ∀ pre p post, c.errScr = pre ++ p :: post → (∀ y ∈ pre, ¬ wrong y) →
            wrong p → exec i s =
              .next (if c.cls = .n then trapIssue caught 0x13 (w64 (2 ^ 56 + 8 * p.1 % 2 ^ 22)) else caught))))))

end Sys2Proof.Forms

/-- The tagged instructions at U in an exchange superstep: below its tag each waits; above it each raises the
timetable-deviation trap with XCLK and the tag; at it XCYC issues and changes nothing else, PHEND ends the core's issue in
the superstep, XSEND and XSENDM read their source and start their transfer, and XSENDS sends a register (R187, R191 to R196), each
unless a check of its operands fails, when it raises the first trap that R194 lists (log entries 100 and 101 name the address two of them
report);
outside an exchange superstep PHEND issues without looking at its tag; the row CYCLE TAG REACHED is the issue at the tag. -/
def Obligations.TaggedInstructions : Prop :=
  ∀ (s : State) (sa sb sc : BitVec 6) (tag : BitVec 16), s.core.ctx.priv = .u → inRegion s →
    let c := s.core.ctx
    let x := (sreg c sb).toNat
    let n := (sreg c sc).toNat
    let src := (sreg c sa).toNat
    let first := x / 2 ^ 32 % 2 ^ 10
    let at' := { c with tagWait := false, slack := if c.tagWait then c.slack else some 0 }
    let all : List Instr := [.phend tag, .xcyc tag, .xsend sa sb sc tag, .xsendm sa sb sc tag, .xsends sa sb tag]
    let bytes := bytesAt c.scr src (32 * n)
    let sound := srcsBad s.core.gang c [.s sa, .s sb, .s sc] = none
    (exchange s = false → Issues (.phend tag) s fun c => { c with phended := true }) ∧
    (exchange s = true →
      (s.core.xclk < tag.toNat → ∀ i ∈ all, ∃ sl, exec i s = .next (s.setCtx { c with tagWait := true, slack := sl })) ∧
      (tag.toNat < s.core.xclk → ∀ i ∈ all,
        exec i s = .next (trapIssue (s.setCtx at') 0x06 (w64 (s.core.xclk % 2 ^ 32 + 2 ^ 32 * tag.toNat)))) ∧
      (s.core.xclk = tag.toNat →
        (∀ i ∈ all, decode (wordNow s) = .ok i → exec .cycleTagReached s = exec i s) ∧
        IssuesFrom (.xcyc tag) s at' id ∧
        IssuesFrom (.phend tag) s at' (fun c => { c with phended := true }) ∧
        (x % 2 ^ 32 < 2 ^ 22 → x < 2 ^ 42 → n < 2 ^ 13 → sound → sendAllowed s src (x % 2 ^ 32) first 1 n →
          IssuesFrom (.xsend sa sb sc tag) s at' (sending s tag first 1 n (x % 2 ^ 32) (32 * n) bytes)) ∧
        (x % 2 ^ 32 < 2 ^ 22 → x < 2 ^ 52 → n < 2 ^ 13 → sound → sendAllowed s src (x % 2 ^ 32) first (x / 2 ^ 42) n →
          IssuesFrom (.xsendm sa sb sc tag) s at' (sending s tag first (x / 2 ^ 42) n (x % 2 ^ 32) (32 * n) bytes)) ∧
        (x % 2 ^ 32 < 2 ^ 22 → x < 2 ^ 42 → first < c.ncore → x % 8 = 0 → x % 2 ^ 32 + 8 ≤ fb s.core.gang c.metered →
          srcsBad s.core.gang c [.s sa, .s sb] = none →
          IssuesFrom (.xsends sa sb tag) s at'
            (sending s tag first 1 1 (x % 2 ^ 32) 32 (toBytes 8 (sreg c sa).toNat))) ∧
        let holes : Prop := x / 2 ^ 22 % 2 ^ 10 ≠ 0 ∨ x / 2 ^ 52 ≠ 0 ∨ 2 ^ 13 ≤ n
        SendTraps (.xsend sa sb sc tag) s at' false (holes ∨ x / 2 ^ 42 ≠ 0) src (x % 2 ^ 22) first 1 (n % 2 ^ 13) ∧
        SendTraps (.xsendm sa sb sc tag) s at' false holes src (x % 2 ^ 22) first (x / 2 ^ 42 % 2 ^ 10) (n % 2 ^ 13) ∧
        SendTraps (.xsends sa sb tag) s at' true (x / 2 ^ 22 % 2 ^ 10 ≠ 0 ∨ x / 2 ^ 42 ≠ 0) 0 (x % 2 ^ 22) first 1 1))

/-- The transfers of the acting core whose delivery ck this is enter the staging of every target core of the launch, in full
and counted against its 64 G KiB, with the ck in which that first overflows; they are no longer under way, and nothing else
changes (R196, R198; log entry 16). -/
def Obligations.TransfersAreDelivered : Prop :=
  ∀ (s : State) (t : Transfer) (rest : List Transfer),
    let c := s.core.ctx
    c.transfers = t :: rest → t.due ≤ s.core.xclk → (∀ y ∈ rest, s.core.xclk < y.due) →
    let bytes := t.bytes.zipIdx.map fun b => (⟨t.tag, t.sender, t.seq, t.daddr + b.2, 3, b.1⟩ : Staged)
    let take := fun (k : Core) =>
      if k.mode = .active ∧ k.ctx.run = c.run ∧ k.ctx.coreId ∈ t.targets then
        { k with ctx := { k.ctx with
            staging := k.ctx.staging ++ bytes, staged := k.ctx.staged + t.charge
            stOver := k.ctx.stOver.or (if 65536 * k.gang < k.ctx.staged + t.charge then some s.dev.clock else none) } }
      else k
    exec .transferDelivery s = .next { s with
      core := take { s.core with ctx := { c with transfers := rest } }, others := s.others.map take }

/-- The signature reads issue at U in a compute superstep and at S, latency 1: SIGRV gives SIGVh, SIGRC the CRC a checked
SEGEND would have to carry with the count, SIGRS the launch signature so far with NSS, or 0 in class N (R361, Table 15.5). -/
def Obligations.SignatureReads : Prop :=
  ∀ (s : State) (sd : BitVec 6), mayCompute s →
    let c := s.core.ctx
    GivesScalar (.sigrv false sd) s 1 sd c.sigv0 0 [] ∧ GivesScalar (.sigrv true sd) s 1 sd c.sigv1 0 [] ∧
    GivesScalar (.sigrc sd) s 1 sd (w64 ((segReg c ^^^ 0xFFFFFFFF).toNat + 2 ^ 32 * segCount c)) 0 [] ∧
    (c.cls = .n → GivesScalar (.sigrs sd) s 1 sd 0 0 []) ∧
    (c.cls ≠ .n → ∀ r, runOf s.dev c.run = some r →
      GivesScalar (.sigrs sd) s 1 sd (w64 ((r.lreg ^^^ 0xFFFFFFFF).toNat + 2 ^ 32 * (r.nss % 2 ^ 32))) 0 [])

/-! ## Timeline contexts and the end of a launch -/

namespace Sys2Proof.Forms
open Sys2Proof Sys2Proof.Machine

/-- A timeline context once batches have completed: TLC becomes the greatest number below every batch that still has an
operation and below the failed one, never decreasing; nothing else changes (R255, R257). -/
def Settled (t t' : TlCtx) : Prop :=
  t' = { t with tlc := t'.tlc } ∧
  ∀ n, n ≤ t'.tlc.toNat ↔ n ≤ t.tlc.toNat ∨
    (n ≤ t.closed.toNat ∧ (∀ o ∈ t.ops, o.batch = 0 ∨ n < o.batch) ∧ ∀ f, t.failed = some f → n < f)

/-- The closed batches above batch b, and below one that has failed, of which no operation is left: a failure of b leaves them complete
(R255, R257). -/
def soundAbove (t : TlCtx) (b : Nat) : Nat :=
  let top := match t.failed with
    | some f => f - 1
    | none => t.closed.toNat
  ((List.range' (b + 1) (top - b)).filter fun x => decide (∀ o ∈ t.ops, o.batch ≠ x)).length

/-- The abort of a context that had failed and lost operations of earlier batches: the lowest of these fails instead, and the record
stands (R292; log entry 104). -/
def AbortLower (i : Instr) (s : State) (n : Nat) (t : TlCtx) : Prop :=
  ∀ f b, t.failed = some f → (∀ o ∈ t.ops, o.batch ≠ 0 ∧ b ≤ o.batch) → (∃ o ∈ t.ops, o.batch = b) → b < f →
    Issues i s fun c => setTl c n { t with ops := [], stopped := false, failed := some b, sound := t.sound + soundAbove t b }

/-- A context whose open batch has taken its number (R255). -/
def numbered (t : TlCtx) : TlCtx :=
  { t with
    closed := t.closed + 1, openOps := 0
    ops := t.ops.map fun o => if o.batch = 0 then { o with batch := t.closed.toNat + 1 } else o }

/-- The state in which the acting core's context n stands as `t`, its open batch closed: the global-memory writes of that
batch still in the stack's buffer, and those its reads have returned, take its number (R242, R243, R255). -/
def closing (s : State) (n : Nat) (t : TlCtx) : State :=
  let c := s.core.ctx
  let me : CRef := ⟨s.core.sk, s.core.ix, c.part⟩
  let ours := fun (w : GWrite) => w.cref = me && w.run = c.run && w.ctx = n && w.batch = 0
  { s.setCtx (setTl c n t) with
    dev := { s.dev with
      gbuf := store [] s.dev.gbuf s.core.sk ((look [] s.dev.gbuf s.core.sk).map fun w =>
        if ours w then { w with batch := t.closed.toNat } else w)
      seen := s.dev.seen.map fun x => if x.cref = me ∧ x.ctx = n ∧ x.batch = 0 then { x with batch := t.closed.toNat } else x } }

/-- Closing the open batch of a context would leave a 65th incomplete batch: 64 are, and the open one follows a failure or holds
an operation not yet performed (R255, R257). -/
def full (t : TlCtx) : Prop := 64 ≤ incomplete t ∧ (t.failed ≠ none ∨ ∃ o ∈ t.ops, o.batch = 0)

/-- What the acting core's stack has observed once the core has acquired the batches that its context `c` says: the buffered writes
that reads of those batches have returned, and what it had (R243). -/
structure Observed (s : State) (c : Ctx) (d : Device) : Prop where
  rest : d = { s.dev with seen := d.seen, observed := d.observed }
  left : ∀ x, x ∈ d.seen ↔ x ∈ s.dev.seen ∧ ¬ (x.cref = ⟨s.core.sk, s.core.ix, c.part⟩ ∧ x.batch ≠ 0 ∧ x.batch ≤ (tlOf c x.ctx).acquired)
  here : ∀ n, n ∈ look [] d.observed s.core.sk ↔ n ∈ look [] s.dev.observed s.core.sk ∨
    ∃ x ∈ s.dev.seen, x.serial = n ∧ x.cref = ⟨s.core.sk, s.core.ix, c.part⟩ ∧ x.batch ≠ 0 ∧ x.batch ≤ (tlOf c x.ctx).acquired
  others : ∀ k, k ≠ s.core.sk → look [] d.observed k = look [] s.dev.observed k

/-- The cause and TRAPVAL of a wait for a failed batch (Table of R261). -/
def waitTrap (n : Nat) (t : TlCtx) (f : Nat) : Nat × Word :=
  if n = 5 then (0x0E, t.failAddr) else (if n = 4 then 0x0D else if n = 6 then 0x0F else 0x0C, w64 f)

end Sys2Proof.Forms

/-- TLREAD gives TLC, MARK only issues, TLCLOSE closes the open batch and gives its number, and waits when it would be the
65th incomplete one; TLWAIT closes an open batch that is not empty, then traps for a batch not closed or a failed one, waits
for one not complete, and otherwise issues, its batches acquired and the writes they have read observed by its stack (R236, R243,
R255, R260 to R262). -/
def Obligations.TimelineForms : Prop :=
  ∀ (s : State) (ctx : BitVec 3) (sd sa : BitVec 6) (imm : BitVec 26), mayCompute s → ctx.toNat ≤ 6 →
    let c := s.core.ctx
    let n := ctx.toNat
    let t := tlOf c n
    let v := sreg c sa + w64 imm.toNat
    let wait := exec (.tlwait ctx sa imm)
    Issues .mark s id ∧
    GivesScalar (.tlread ctx sd) s 1 sd t.tlc 0 [] ∧
    (full t → exec (.tlclose ctx sd) s = .next s ∧ (t.openOps ≠ 0 → wait s = .next s)) ∧
    (¬ full t → ∃ t', Settled (numbered t) t' ∧
      (∃ c', Counted (setTl c n t') (wordNow s) c' ∧
        exec (.tlclose ctx sd) s = .next ((closing s n t').setCtx
          (fly (setTl c n t') 1 (.scalar sd t'.closed) 0 none none { c' with pc := c'.pc + 8 }))) ∧
      (t.openOps ≠ 0 → wait s = wait (closing s n t'))) ∧
    (t.openOps = 0 →
      (t.closed.toNat < v.toNat → wait s = .next (trapIssue s 0x0B v)) ∧
      (v.toNat ≤ t.closed.toNat →
        (∀ f, t.failed = some f → f ≤ v.toNat → wait s = .next (trapIssue s (waitTrap n t f).1 (waitTrap n t f).2)) ∧
        ((∀ f, t.failed = some f → v.toNat < f) →
          (t.tlc.toNat < v.toNat → wait s = .next s) ∧
          (v.toNat ≤ t.tlc.toNat → srcsBad s.core.gang c [.s sa] = none →
            ∃ c' d, Counted c (wordNow s) c' ∧ Observed s (setTl c n { t with acquired := max t.acquired v.toNat }) d ∧
              wait s = .next { s.setCtx (setTl { c' with pc := c'.pc + 8 } n { t with acquired := max t.acquired v.toNat })
                with dev := d }))))

/-- ENDL at U in a compute superstep closes every open batch that is not empty, as TLWAIT does; then the lowest context with
a failed batch traps, an incomplete batch or a result in flight makes it wait, and otherwise the launch ends on the core: it
issues, counts, and the core has arrived at every boundary to come. At S it is the privilege trap, in an exchange superstep the
phase trap (R98, R120, R261; log entry 38). -/
def Obligations.EndlEndsTheLaunch : Prop :=
  ∀ s : State,
    let c := s.core.ctx
    (c.priv = .s → exec .endl s = .next (trapIssue s 0x04 (wordNow s))) ∧
    (c.priv = .u → exchange s = true → exec .endl s = .next (trapIssue s 0x05 (wordNow s))) ∧
    (c.priv = .u → exchange s = false →
      (∀ n ≤ 6, (tlOf c n).openOps ≠ 0 → (∀ m < n, (tlOf c m).openOps = 0) → ¬ full (tlOf c n) →
        ∃ t', Settled (numbered (tlOf c n)) t' ∧ exec .endl s = exec .endl (closing s n t')) ∧
      ((∀ n ≤ 6, (tlOf c n).openOps = 0) →
        let whole := fun n => (tlOf c n).failed = none ∧ (tlOf c n).closed.toNat ≤ (tlOf c n).tlc.toNat
        let dead := fun n f => (tlOf c n).failed = some f ∧ f ≤ (tlOf c n).closed.toNat
        (∀ n ≤ 6, ∀ f, dead n f → (∀ m < n, ∀ f', ¬ dead m f') →
          exec .endl s = .next (trapIssue s (waitTrap n (tlOf c n) f).1 (waitTrap n (tlOf c n) f).2)) ∧
        ((∀ n ≤ 6, (tlOf c n).failed = none) → (∃ n ≤ 6, ¬ whole n) → exec .endl s = .next s) ∧
        ((∀ n ≤ 6, whole n) →
          (c.inflight ≠ [] → exec .endl s = .next s) ∧
          (c.inflight = [] → ∃ c', Counted c (wordNow s) c' ∧
            exec .endl s = .next (s.setCtx { c' with ended := true, phended := true, pc := c'.pc + 8 })))))

/-! ## Memory requests -/

namespace Sys2Proof.Forms
open Sys2Proof Sys2Proof.Machine

/-- The instruction issues, and its operation joins the open batch of context n (R254); `f` is what else it changes. -/
def Joins (i : Instr) (s : State) (n : Nat) (what : EngOp) (f : Ctx → Ctx) : Prop :=
  Issues i s fun c =>
    let t := tlOf s.core.ctx n
    setTl (f c) n { t with
      openOps := t.openOps + 1, ops := t.ops ++ [⟨s.core.ctx.serial, 0, what, s.core.ctx.pc, .fresh⟩] }

/-- The instruction issues, and its operation is discarded, the context having failed (R257). -/
def Dropped (i : Instr) (s : State) (n : Nat) : Prop :=
  Issues i s fun c => setTl c n { tlOf s.core.ctx n with openOps := (tlOf s.core.ctx n).openOps + 1 }

/-- The valid bit of a line of a protected launch is cleared (R207). -/
def lineLost (a : Nat) (c : Ctx) : Ctx :=
  if c.cls = .n then c else { c with valid := store false c.valid (a / 128) false }

/-- An engine write of whole bytes to the scratchpad: those bytes, the valid bits of their lines in a protected launch, and
the damage table (R206, R207, R235); nothing else changes. -/
def Landed (c : Ctx) (a : Nat) (bytes : List Byte) (c' : Ctx) : Prop :=
  c' = { c with scr := c'.scr, errScr := c'.errScr, valid := c'.valid } ∧
  (∀ x, x < a ∨ a + bytes.length ≤ x → byteAt c'.scr x = byteAt c.scr x) ∧
  (∀ k (h : k < bytes.length), byteAt c'.scr (a + k) = bytes[k]) ∧
  ∀ k, look false c'.valid k = true ↔
    ((c.cls ≠ .n ∧ ∃ i < bytes.length, (a + i) / 128 = k) ∨ look false c.valid k = true)

/-- An operation of context 5 leaves it, performed. -/
def Performed (c : Ctx) (op : Op) (c' : Ctx) : Prop :=
  ∃ t', Settled { c.t5 with ops := c.t5.ops.filter fun o => o.serial ≠ op.serial } t' ∧ c' = { c with t5 := t' }

/-- What a performed FENCE leaves on its stack (R242 to R244): one that releases hands the stack the buffered writes of its set, one
that acquires makes the stack observe every write handed to it, and one that acquires past the stack drops the buffer's copies. -/
structure Handed (d0 : Device) (sk : Nat) (c : Ctx) (o : ReqOp) (d : Device) : Prop where
  rest : d = { d0 with released := d.released, observed := d.observed, copies := d.copies }
  others : ∀ k, k ≠ sk → look [] d.released k = look [] d0.released k ∧ look [] d.observed k = look [] d0.observed k ∧
    look [] d.copies k = look [] d0.copies k
  gives : ∀ n, o.scope ≠ .core → o.fkind ≠ .acq → (n ∈ look [] d.released sk ↔
    (n ∈ look [] d0.released sk ∨ n ∈ o.acq) ∧ ∃ w ∈ look [] d0.gbuf sk, w.serial = n)
  keeps : o.scope = .core ∨ o.fkind = .acq → look [] d.released sk = look [] d0.released sk
  sees : ∀ n, n ∈ look [] d.observed sk ↔ n ∈ look [] d0.observed sk ∨
    (o.scope ≠ .core ∧ o.fkind ≠ .rel ∧ n ∈ look [] d.released sk)
  drops : look [] d.copies sk = if fenceWide c o = true ∧ o.fkind ≠ .rel then [] else look [] d0.copies sk

/-- The first request of context 5 has its physical address: its translation answers now, or was made when the request was sent. -/
def Sent (s : State) (r : CRef) (c : Ctx) (op : Op) (o : ReqOp) (wr : Bool) (d : Device) (pa : Nat) : Prop :=
  (op.prog = .fresh ∧ translate s.dev r.sk c.ifc o.addr.toNat wr = (d, .ok pa)) ∨ ((∃ n, op.prog = .running pa n) ∧ d = s.dev)

/-- The new word of an AAMO (R265). -/
def amo (op : AmoOp) (ty : Ty) (old b cmp : Nat) : Nat :=
  let w := tyBits ty
  let b := b % 2 ^ w
  match op with
  | .add => (old + b) % 2 ^ w
  | .min => if ival ty old ≤ ival ty b then old else b
  | .max => if ival ty b ≤ ival ty old then old else b
  | .and => Nat.land old b
  | .or => Nat.lor old b
  | .xor => Nat.xor old b
  | .swap => b
  | .cas => if old = cmp % 2 ^ w then b else old
  | .fadd => (fpAdd .f32 .rne 0 false (f32 (w64 old)) (f32 (w64 b))).1

/-- A granule with the word of a type at byte offset `off` replaced. -/
def withWord (x off w v : Nat) : Nat := x % 2 ^ (8 * off) + v * 2 ^ (8 * off) + x / 2 ^ (8 * off + w) * 2 ^ (8 * off + w)

end Sys2Proof.Forms

/-- FENCE, AAMO and WAITV issue and join context 5: alignment and range of the global word and of the result, in order; the
valid bit of a result's line is cleared at issue; a seventeenth WAITV of the core, those of its suspended contexts counted, waits;
those of a batch after a failed one are discarded. A FENCE that releases takes at issue, as its set, the writes in its stack's buffer of
its context's acquired batches, and those its stack has observed (R242, R254, R257, R263, R264, R266, R267, R270). -/
def Obligations.RequestsIssue : Prop :=
  ∀ (s : State) (scope : Scope) (kind : FenceKind) (aop : AmoOp) (cc : Cc) (ty : Ty) (nr own : Bool) (tmo : BitVec 19)
    (sd sa sb sc : BitVec 6), mayCompute s → 32 ≤ tyBits ty →
    let c := s.core.ctx
    let ga := sreg c sa
    let d := sreg c sd
    let fence := Instr.fence scope kind
    let aamo := Instr.aamo aop ty nr sd sa sb sc
    let waitv := Instr.waitv cc ty own tmo sd sa sb
    let traps := fun i code v => exec i s = .next (trapIssue s code v)
    let clear := if nr then id else lineLost d.toNat
    let fenceOp : EngOp := .req { ReqOp.zero with
      scope := scope, fkind := kind, mask := c.diemask.toNat % 2 ^ 16, acq := if kind = .acq then [] else releaseSet s }
    let aamoOp : EngOp := .req { ReqOp.zero with
      kind := 1, amo := aop, ty := ty, nr := nr, addr := ga, b := sreg c sb, cmp := sreg c sc, dst := d }
    let waitOp : EngOp := .req { ReqOp.zero with
      kind := 2, cc := cc, ty := ty, own := own, tmo := tmo.toNat, addr := ga, b := sreg c sb, dst := d }
    let soundA := srcsBad s.core.gang c ([.s sa, .s sb, .s sc] ++ if nr then [] else [.s sd]) = none
    let soundW := srcsBad s.core.gang c [.s sa, .s sb, .s sd] = none
    let fits := fun n => d.toNat % n = 0 ∧ d.toNat + n ≤ limit s 1
    let waits := fun (c : Ctx) => (c.t5.ops.filter fun o => match o.what with | .req q => q.kind = 2 | _ => false).length
    let waiting := waits c + (s.core.susp.map waits).sum
    (∀ n, n ∈ releaseSet s ↔ n ∈ look [] s.dev.observed s.core.sk ∨ ∃ w ∈ look [] s.dev.gbuf s.core.sk, w.serial = n ∧
      w.cref = ⟨s.core.sk, s.core.ix, c.part⟩ ∧ w.run = c.run ∧ w.batch ≠ 0 ∧ w.batch ≤ (tlOf c w.ctx).acquired) ∧
    (ga.toNat % size ty ≠ 0 → traps aamo 0x07 ga ∧ traps waitv 0x07 ga) ∧
    (ga.toNat % size ty = 0 →
      (d.toNat % 8 ≠ 0 → nr = false → traps aamo 0x07 d) ∧
      (d.toNat % 16 ≠ 0 → traps waitv 0x07 d) ∧
      (d.toNat % 8 = 0 → limit s 1 < d.toNat + 8 → nr = false → traps aamo 0x08 d) ∧
      (d.toNat % 16 = 0 → limit s 1 < d.toNat + 16 → traps waitv 0x08 d) ∧
      (fits 16 → 16 ≤ waiting → exec waitv s = .next s)) ∧
    ((∀ f, c.t5.failed = some f → c.t5.closed.toNat < f) →
      Joins fence s 5 fenceOp id ∧
      (ga.toNat % size ty = 0 → nr = true ∨ fits 8 → soundA → Joins aamo s 5 aamoOp clear) ∧
      (ga.toNat % size ty = 0 → fits 16 → waiting < 16 → soundW → Joins waitv s 5 waitOp (lineLost d.toNat))) ∧
    (∀ f, c.t5.failed = some f → f ≤ c.t5.closed.toNat →
      Dropped fence s 5 ∧
      (ga.toNat % size ty = 0 → nr = true ∨ fits 8 → soundA → Dropped aamo s 5) ∧
      (ga.toNat % size ty = 0 → fits 16 → waiting < 16 → soundW → Dropped waitv s 5))

/-- The requests that context 5 performs, the oldest first. A FENCE waits, if it releases past its stack, while a write of its
set is in the stack's buffer; performed, it hands its stack the writes it releases, lets the stack observe what has been released
there if it acquires, and, if it acquires past the stack, drops the buffer's copies. An AAMO outside class D makes one
read-modify-write of its word at the home hub, in the hub's window or in HBM, and its result lands. A WAITV outside class D waits for the
buffered writes of its granule, which it must see; one whose condition holds, or whose owner is suspended,
writes its record; any other arms its monitor. An armed one looks at every later write a hub makes, and at the clock, counted by
`sun.total` (log entry 44): it completes with the first status it has reached, or keeps the value it saw. An AAMO or WAITV that was sent
and had to wait is performed in the same way later. A translation fault stops the context and pends the engine-stop interrupt (R236, R242
to R245, R248, R251, R265, R266, R268, R269, R450). -/
def Obligations.RequestsPerform : Prop :=
  ∀ (s : State) (r : CRef) (k : Core) (c : Ctx) (op : Op) (rest : List Op) (o : ReqOp),
    liveCtx s r = some (k, c) → c.t5.ops = op :: rest → op.what = .req o → engineRuns s r c 5 = true →
    let stops := fun (d : Device) => putCtx { s with dev := d } r { c with
      t5 := { c.t5 with stopped := true, stopPend := true, stopVa := o.addr } }
    let me : Asker := ⟨[2, c.run, r.sk, r.ix, r.pt, 5, op.serial], r.sk, c.ifc, 1⟩
    let at' := fun p => { c with t5 := { c.t5 with ops := c.t5.ops.map fun y => if y.serial = op.serial then { op with prog := p } else y } }
    let sent := fun pa => if op.prog = .fresh then at' (.running pa 0) else c
    let uncopied := fun (d : Device) g => { d with
      copies := store [] d.copies r.sk ((look [] d.copies r.sk).filter fun p => p.1 ≠ g) }
    (o.kind = 0 →
      let wide := fenceWide c o = true
      let held := wide ∧ o.fkind ≠ .acq ∧ ∃ w ∈ look [] s.dev.gbuf r.sk, w.serial ∈ o.acq
      (held → exec (.fencePerform r 0) s = .next s) ∧
      (¬ held → ∃ c' d, Performed c op c' ∧ Handed s.dev r.sk c o d ∧
        exec (.fencePerform r 0) s = .next (putCtx { s with dev := d } r c'))) ∧
    (o.kind = 1 → c.cls ≠ .d → 32 ≤ tyBits o.ty → (o.amo = .fadd → o.ty = .f32) →
      (∀ d e, op.prog = .fresh → translate s.dev r.sk c.ifc o.addr.toNat true = (d, .fault e) →
        exec (.aamoPerform r 0) s = .next (stops d)) ∧
      ∀ d pa x, Sent s r c op o true d pa → pa % size o.ty = 0 → x < 2 ^ 256 →
        let g := pa / 32 * 32
        let old := x / 2 ^ (8 * (pa % 32)) % 2 ^ tyBits o.ty
        let new := withWord x (pa % 32) (tyBits o.ty) (amo o.amo o.ty old o.b.toNat o.cmp.toNat)
        let rmw := HubOp.amo pa o.amo o.ty o.b.toNat o.cmp.toNat
        let lands := fun c2 => ∃ c1, Performed c1 op c2 ∧
          if o.nr then c1 = c else Landed c o.dst.toNat (toBytes 8 (z64 (ival o.ty old)).toNat) c1
        let goes := (∀ w ∈ look [] d.gbuf r.sk, w.pa ≠ g) ∨ atHub d me.who g = true
        (¬ goes → exec (.aamoPerform r 0) s = .next (putCtx { s with dev := d } r (sent pa))) ∧
        (goes →
          (∀ d1 d2 y, paWin g = true → hubGranule d me g = .done d1 x → windowPut d1 me g (2 ^ 64 - 1) new = .done d2 y →
            ∃ c2, lands c2 ∧ exec (.aamoPerform r 0) s = .next (hubChanged (putCtx { s with dev := uncopied d2 g } r c2) g y)) ∧
          (∀ d1 vals, paWin g = false → hubAsk d me (g / 256 * 256) rmw = .done d1 vals → vals.find? (fun p => p.1 = 8) = some (8, some x) →
            ∃ c2, lands c2 ∧ exec (.aamoPerform r 0) s = .next (settleChanged (putCtx { s with dev := uncopied d1 g } r c2)))) ∧
        ∀ d0 d1 l later, chunkNow (countRead d0 (g / 256 * 256)) (g / 256 * 256) c.ifc 1 (g % 256 / 32 :: later) = (d1, l) →
          l[g % 256 / 32]? = some (some x) →
          hubDo d0 (g / 256 * 256) c.ifc 1 later rmw =
            hubDo d1 (g / 256 * 256) c.ifc 1 later (.put [(g % 256 / 32, some new), (8, some x)])) ∧
    (o.kind = 2 → 32 ≤ tyBits o.ty →
      let holds := fun v => ccInt o.cc (ival o.ty v) (ival o.ty (o.b.toNat % 2 ^ tyBits o.ty)) = true
      let gone := fun (d : Device) v => o.own = true ∧ ownerSuspended d c.ifc v = true
      let writes := fun v st c' => ∃ c1,
        Landed c o.dst.toNat (toBytes 8 (z64 (ival o.ty v)).toNat ++ toBytes 8 st) c1 ∧ Performed c1 op c'
      (∀ d e, op.prog = .fresh → translate s.dev r.sk c.ifc o.addr.toNat false = (d, .fault e) →
        exec (.waitvArm r 0) s = .next (stops d)) ∧
      (∀ d pa, c.cls ≠ .d → Sent s r c op o false d pa →
        let g := pa / 32 * 32
        ((∃ w ∈ look [] d.gbuf r.sk, w.pa = g) →
          exec (.waitvArm r 0) s = .next (putCtx { s with dev := d } r (sent pa))) ∧
        ∀ d1 x, (∀ w ∈ look [] d.gbuf r.sk, w.pa ≠ g) → hubGranule d me g = .done d1 x →
          let v := x / 2 ^ (8 * (pa % 32)) % 2 ^ tyBits o.ty
          ∃ c', exec (.waitvArm r 0) s = .next (putCtx { s with dev := uncopied d1 g } r c') ∧
            (holds v → writes v 0 c') ∧ (¬ holds v → gone d1 v → writes v 1 c') ∧
            (¬ holds v → ¬ gone d1 v → c' = at' (.armed d1.sun.total (w64 v) pa))) ∧
      (∀ since last pa, op.prog = .armed since last pa →
        let late := o.tmo ≠ 0 ∧ o.tmo * 1024 ≤ s.dev.sun.total - since
        let sees := fun v c' => (holds v → writes v 0 c') ∧ (¬ holds v → gone s.dev v → writes v 1 c') ∧
          (¬ holds v → ¬ gone s.dev v → late → writes v 2 c') ∧
          (¬ holds v → ¬ gone s.dev v → ¬ late → c' = at' (.armed since (w64 v) pa))
        (∃ c', exec (.waitvTimeout r 0) s = .next (putCtx s r c') ∧ sees last.toNat c') ∧
        ∀ g y, c.cls ≠ .d → (∀ x ∈ rest, ∀ a b p, x.prog ≠ .armed a b p) → ∃ c', getCtx (hubChanged s g y) r = some c' ∧
          sees (if g / 32 = pa / 32 then y / 2 ^ (8 * (pa % 32)) % 2 ^ tyBits o.ty else last.toNat) c'))

/-! ## Copies -/

namespace Sys2Proof.Forms
open Sys2Proof Sys2Proof.Machine

/-- The scratchpad ranges an engine instruction reads at issue: address, bytes, alignment. -/
abbrev Ranges := List (Word × Nat × Nat)

/-- The bytes of the ranges, in order. -/
def rangeBytes (l : Ranges) : List Nat := l.flatMap fun a => (List.range a.2.1).map fun k => a.1.toNat + k

/-- The checks of the ranges at issue, in order: alignment of each, range of each; the watermark rule, lowest byte held; then
`go` (R282, R30, R31). -/
def RangeCases (i : Instr) (s : State) (l : Ranges) (go : Prop) : Prop :=
  let c := s.core.ctx
  let odd := fun (a : Word × Nat × Nat) => a.1.toNat % a.2.2 ≠ 0
  let out := fun (a : Word × Nat × Nat) => limit s 1 < a.1.toNat + a.2.1
  let held := fun b => holders c 1 b ≠ []
  let bytes := rangeBytes l
  (∀ pre a post, l = pre ++ a :: post → (∀ b ∈ pre, ¬ odd b) → odd a → exec i s = .next (trapIssue s 0x07 a.1)) ∧
  ((∀ a ∈ l, ¬ odd a) →
    (∀ pre a post, l = pre ++ a :: post → (∀ b ∈ pre, ¬ out b) → out a → exec i s = .next (trapIssue s 0x08 a.1)) ∧
    ((∀ a ∈ l, ¬ out a) →
      ((∀ b ∈ bytes, ¬ held b) → go) ∧
      ((∃ b ∈ bytes, held b) → (∀ b ∈ bytes, ∀ k ∈ holders c 1 b, (tlOf c k).failed = none) → exec i s = .next s) ∧
      (∀ b ∈ bytes, held b → (∀ b' ∈ bytes, held b' → b ≤ b') →
        (∃ b' ∈ bytes, ∃ k ∈ holders c 1 b', (tlOf c k).failed.isSome) →
        exec i s = .next (trapStall s 0x0C (w64 b)))))

/-- The checks that follow: the invalid-line trap at the first invalid byte (R208, R282); with every line valid and no
double-bit error, `go`. -/
def LineCases (i : Instr) (s : State) (l : Ranges) (go : Prop) : Prop :=
  let ok := fun b => lineOk s.core.gang s.core.ctx b = true
  let bytes := rangeBytes l
  (∀ pre b post, bytes = pre ++ b :: post → (∀ x ∈ pre, ok x) → ¬ ok b → exec i s = .next (trapIssue s 0x11 (w64 b))) ∧
  ((∀ b ∈ bytes, ok b) → (∀ b ∈ bytes, look 0 s.core.ctx.errScr (b / 8) < 2) → go)

/-- What a copy captures at issue (R282): its operands, records and region as they stand, the loss scale and its generation
of the class. -/
def captured (c : Ctx) (kind : Nat) (src dst : Space) (raw : Bool) (sa sb sc : BitVec 6) : CopyOp where
  kind := kind
  src := src
  dst := dst
  raw := raw
  rsrc := if raw ∨ kind = 3 then 0 else readLe c.scr (sreg c sa).toNat 128
  rdst := if raw then 0 else readLe c.scr (sreg c sb).toNat 128
  reg := if raw then 0 else readLe c.scr (sreg c sc).toNat 64
  ra := sreg c sa
  rb := sreg c sb
  rc := sreg c sc
  dstRec := (sreg c sb).toNat
  privU := c.priv = .u
  lsgen := c.lsgen
  lscale := c.lscale
  alist := []
  badLen := false

/-- What a copy that has passed its checks at issue does: it waits while its context holds 64 operations, or, with a
watermark, while the context's watermark stands; else it joins its context, or is discarded there (R271, R282, R284). -/
def CopyJoins (i : Instr) (s : State) (n : Nat) (srcs : List Src) (o : CopyOp) (f : Ctx → Ctx) : Prop :=
  let t := tlOf s.core.ctx n
  let waits := 64 ≤ t.ops.length ∨ (o.kind = 2 ∧ (wmOf s.core.ctx n).act = true ∧ t.failed = none)
  (waits → exec i s = .next s) ∧
  (¬ waits → srcsBad s.core.gang s.core.ctx srcs = none →
    (t.failed = none → Joins i s n (.copy o) f) ∧ (t.failed ≠ none → Dropped i s n))

/-- What the issue of a copy changes at once: the valid bits of the lines it will write in a protected launch, none where its
records leave them undefined or below address 0 (R207), and for CPYWM the watermark of its channel (R284). -/
def copyStarts (n : Nat) (o : CopyOp) (c : Ctx) : Ctx :=
  let lost := if o.raw then rawGranules o (2 ^ 18)
    else if copyUndefined o = true then []
    else planGranules { planCopy o with mvs := (planCopy o).mvs.filter fun m => decide (0 ≤ m.d) }
  let c' := if o.dst = .loc then lost.foldl (fun c g => lineLost (32 * g) c) c else c
  if o.kind = 2 then setWm c' n (wmStart c o) else c'

end Sys2Proof.Forms

/-- CPY, CPYT, CPYWM and CPYFILL read their records and region at issue, a raw form nothing; AMXSTEP reads its list; each joins
its copy context as captured. AMXRD is a local load of latency 4 of its whole record (R208, R271, R281 to R284, R294, R295). -/
def Obligations.CopiesIssue : Prop :=
  ∀ (s : State) (src dst : Space) (raw all : Bool) (ctx : BitVec 2) (sd sa sb sc : BitVec 6), mayCompute s →
    let c := s.core.ctx
    let n := ctx.toNat
    let three : List Src := [.s sa, .s sb, .s sc]
    let recs := fun (raw fill : Bool) => if raw then []
      else (if fill then [] else [(sreg c sa, 128, 128)]) ++ [(sreg c sb, 128, 128), (sreg c sc, 64, 64)]
    let copies := fun i l srcs o => RangeCases i s l (LineCases i s l (CopyJoins i s n srcs o (copyStarts n o)))
    let len := (sreg c sb).toNat
    let bad : Bool := len = 0 ∨ 64 < len
    let list := if bad then [] else [(sreg c sa, 4 * len, 4)]
    copies (.cpy src dst raw ctx sa sb sc) (recs raw false) three (captured c 0 src dst raw sa sb sc) ∧
    copies (.cpyt src dst ctx sa sb sc) (recs false false) three (captured c 1 src dst false sa sb sc) ∧
    copies (.cpywm src dst raw ctx sa sb sc) (recs raw false) three (captured c 2 src dst raw sa sb sc) ∧
    copies (.cpyfill dst ctx sb sc) (recs false true) [.s sb, .s sc] (captured c 3 .glb dst false 0 sb sc) ∧
    copies (.amxstep ctx sa sb) list [.s sa, .s sb] { captured c 4 .loc .loc true 0 0 0 with
      badLen := bad
      alist := if bad then [] else (List.range len).map fun k => readLe c.scr ((sreg c sa).toNat + 4 * k) 4 } ∧
    RangeCases (.amxrd all sd sa) s [(sreg c sa, 128, 128)]
      (Gives (.amxrd all sd sa) s 4 (.scalar sd 0) 0 (some (.amx (sreg c sa).toNat all))
        (srcFault s.core.gang c [.s sa]))

/-- CPYST gives a word of the fault record. CPYABT closes an open batch that is not empty and discards every operation of the
context: the lowest batch that held one fails, with cause 9 and the granules written, all of them for a copy that waits to fold, in the
record. With RES = 1, at S only, it lets a context that a
translation fault stopped go on (R281, R290 to R292). -/
def Obligations.CopyControl : Prop :=
  ∀ (s : State) (ctx w : BitVec 2) (sd : BitVec 6),
    let c := s.core.ctx
    let n := ctx.toNat
    let t := tlOf c n
    (mayCompute s →
      GivesScalar (.cpyst ctx w sd) s 1 sd
        (if w = 0 then t.rec0 else if w = 1 then t.rec1 else if w = 2 then t.rec2 else t.rec3) 0 [] ∧
      (t.openOps ≠ 0 → ∃ t', Settled (numbered t) t' ∧ exec (.cpyabt ctx) s = exec (.cpyabt ctx) (closing s n t')) ∧
      (t.openOps = 0 →
        (∀ f, t.failed = some f → (∀ o ∈ t.ops, f ≤ o.batch) →
          Issues (.cpyabt ctx) s fun c => setTl c n { t with ops := [], stopped := false }) ∧
        AbortLower (.cpyabt ctx) s n t ∧
        (t.failed = none → t.ops = [] → Issues (.cpyabt ctx) s id) ∧
        (∀ op rest b, t.failed = none → t.ops = op :: rest → (∀ o ∈ t.ops, o.batch ≠ 0 ∧ b ≤ o.batch) → (∃ o ∈ t.ops, o.batch = b) →
          ∃ t', Settled { t with
              ops := [], failed := some b, failAddr := 0, stopped := false, cache := [], lost := [], sound := t.sound + soundAbove t b
              rec0 := w64 (9 + 2 ^ 31 + b % 2 ^ 32 * 2 ^ 32), rec1 := 0
              rec2 := w64 (match op.what, op.prog with
                | .copy o, .done => (planGranules (planCopy o)).length
                | _, .running _ k => k
                | _, _ => 0)
              rec3 := op.pc.setWidth 64 } t' ∧
            Issues (.cpyabt ctx) s fun c => setTl c n t'))) ∧
    (inRegion s → c.priv = .u → exec (.cpyabtResume ctx) s = .next (trapIssue s 0x04 (wordNow s))) ∧
    (inRegion s → c.priv = .s →
      (t.stopped = false → Issues (.cpyabtResume ctx) s id) ∧
      (t.stopped = true → Issues (.cpyabtResume ctx) s fun c =>
        setTl c n { t with stopped := false, rec0 := t.rec0 &&& ~~~(w64 (2 ^ 31)) })) 

namespace Sys2Proof.Forms
open Sys2Proof Sys2Proof.Machine

/-- The copy that context n of a running context comes to perform. -/
structure CopyTurn (s : State) (r : CRef) (k : Core) (c : Ctx) (n : Nat) (op : Op) (rest : List Op) (o : CopyOp) : Prop where
  live : liveCtx s r = some (k, c)
  first : (tlOf c n).ops = op :: rest
  copy : op.what = .copy o
  ctx : n ≤ 3
  runs : engineRuns s r c n = true
  once : ∀ x ∈ rest, op.serial < x.serial
  sound : (tlOf c n).failed = none

/-- The context n of a failed copy: its batch has failed, the operations after it are discarded, and the record tells why; an
uncorrectable error clears, in a protected launch, the valid bits of the scratchpad lines the copy writes (R257, R289, Table 11.4). -/
def CopyFailed (c : Ctx) (n : Nat) (op : Op) (o : CopyOp) (cause sub side : Nat) (addr : Word) (done : Nat) (c' : Ctx) : Prop :=
  let t := tlOf c n
  let b := if op.batch = 0 then t.closed.toNat + 1 else op.batch
  let lines := if cause = 1 ∧ o.dst = .loc then planGranules (planCopy o) else []
  ∃ t', Settled { t with
      ops := [], failed := some b, failAddr := addr, sound := t.sound + soundAbove t b
      rec0 := w64 (cause + 2 ^ 8 * sub + 2 ^ 12 * side + 2 ^ 31 + op.batch % 2 ^ 32 * 2 ^ 32), rec1 := addr
      rec2 := w64 done, rec3 := op.pc.setWidth 64, cache := [], lost := [] } t' ∧
    c' = setTl (lines.foldl (fun c g => lineLost (32 * g) c) c) n t'

/-- The local spaces of a copy. -/
def inside (sp : Space) : Prop := sp = .loc ∨ sp = .acc ∨ sp = .opm

/-- A local memory of a context with bytes written into it. -/
def wrote (c : Ctx) (sp : Space) (bs : List WByte) : Ctx :=
  match sp with
  | .loc => { c with scr := putBytes c.scr bs }
  | .acc => { c with acc := putBytes c.acc bs }
  | .opm => { c with opm := putBytes c.opm bs }
  | _ => c

/-- What is marked once granule g has landed, with `left` still to come: the line that is now whole becomes valid in a protected
launch, a tile's sideband takes the loss scale and its generation, a slot takes its stamp (R207, R277, R287). -/
def unitsDone (c : Ctx) (o : CopyOp) (p : Plan) (g : Nat) (left : List Nat) : Ctx :=
  let whole := fun n => ∀ x ∈ left, x / n ≠ g / n
  let side := w64 (o.lsgen.toNat % 2 ^ 16 + 2 ^ 16 + o.lscale.toNat % 2 ^ 32 * 2 ^ 32)
  match o.dst with
  | .loc => if c.cls ≠ .n ∧ whole 4 then { c with valid := store false c.valid (g / 4) true } else c
  | .acc => if whole 512 then { c with mx := { c.mx with side := store 0 c.mx.side (g / 512) side } } else c
  | .opm => if whole 256 then { c with mx := { c.mx with stamp := store 0 c.mx.stamp (g / 256) (p.swz + 1) } } else c
  | _ => c

/-- The watermark of a CPYWM once a granule has landed: LIMIT is the lowest granule still to come, or END; in a protected launch the
start of its line, but not below BASE (R284). -/
def moved (c : Ctx) (w : WMark) (left : List Nat) : WMark :=
  let l := left.foldl min w.endg.toNat
  { w with limit := BitVec.ofNat 18 (if c.cls ≠ .n ∧ l < w.endg.toNat then max w.base.toNat (4 * (l / 4)) else l) }

/-- The fold of a finished copy into the ring of its destination record: the entry at HEAD takes the greatest of itself and the
magnitudes of the elements, or the canonical NaN (R293). -/
def Folded (c : Ctx) (o : CopyOp) (p : Plan) (held : Sparse (BitVec 256)) (c' : Ctx) : Prop :=
  let h := readLe c.scr (o.dstRec + 0x78) 1
  let a := o.dstRec + 0x48 + 4 * h
  let old := readLe c.scr a 4
  let els := p.mvs.map fun m => fpVal p.ety (mvVal p held m)
  let mag := fun (v : FVal) => match v with
    | .fin _ m e => FVal.fin false m e
    | .inf _ => .inf false
    | .nan => .nan
  let new := if fpVal .f32 old = .nan ∨ .nan ∈ els then 0x7FC00000
    else els.foldl (fun x v => (fpMinMax .f32 false (fpVal .f32 x) (mag v)).1) (fpMinMax .f32 false (fpVal .f32 old) (.fin false 0 0)).1
  (11 < h → c' = c) ∧ (h ≤ 11 → Landed c a (toBytes 4 new) c')

/-- How a copy whose last granule has landed ends: one that folds waits while a hub may still fail a write of it; else its fold is
made, a CPYWM's watermark is active no longer, and the operation is complete (R284, R289, R293, R451). -/
def CopyEnds (d : Device) (r : CRef) (c : Ctx) (n : Nat) (op : Op) (rest : List Op) (o : CopyOp) (p : Plan)
    (held : Sparse (BitVec 256)) (c' : Ctx) : Prop :=
  let t := tlOf c n
  let folds := o.raw = false ∧ p.amx = true
  let waits := folds ∧ o.dst = .glb ∧ c.cls ≠ .d ∧ (op.batch = 0 ∨ ∃ x ∈ rest, x.batch = op.batch) ∧
    ∃ w ∈ look [] d.gbuf r.sk, w.cref = r ∧ w.run = c.run ∧ w.ctx = n ∧ w.opSerial = op.serial
  (waits → c' = setTl c n { t with ops := { op with prog := .done } :: rest }) ∧
  (¬ waits → (folds → o.dstRec % 128 = 0 ∧ c.errScr = []) → ∃ c1 t', (folds → Folded c o p held c1) ∧ (¬ folds → c1 = c) ∧
    Settled { t with ops := rest } t' ∧
    c' = setTl (if o.kind = 2 then setWm c1 n { wmOf c n with act := false } else c1) n { t' with cache := [], lost := [] })

/-- The context c' of a copy whose granule g, its i-th, has landed, with the sources it has read: the bytes are written in a local
space, marks and watermark follow, and after the last granule the copy ends; `d` is the device then. What the words of a local memory
keep of earlier errors is left open here (R206). -/
def Advanced (d : Device) (r : CRef) (c : Ctx) (n : Nat) (op : Op) (rest : List Op) (o : CopyOp) (p : Plan) (g i : Nat)
    (left : List Nat) (held : Sparse (BitVec 256)) (lost : List (Nat × Nat)) (c' : Ctx) : Prop :=
  let c1 := setTl (wrote c o.dst (granuleWrites p held g)) n { tlOf c n with
    ops := { op with prog := .running (i + 1) (i + 1) } :: rest, cache := held, lost := lost }
  let c2 := unitsDone (if o.kind = 2 then setWm c1 n (moved c (wmOf c n) left) else c1) o p g left
  ∃ c3, c' = { c3 with errScr := c'.errScr, errAcc := c'.errAcc, errOpm := c'.errOpm } ∧ (c.errScr = [] → c'.errScr = []) ∧
    (left ≠ [] → c3 = c2) ∧ (left = [] → CopyEnds d r c2 n op rest o p held c3)

/-- The event that lands granule g, the i-th of a copy that runs, once the sources it needs stand in `held`: in a local space; in the
stack's buffer, or the containment of class D, unless a release holds it (R242); in host memory; or in the staging of the target core
(R287). -/
def Lands (s : State) (r : CRef) (c : Ctx) (n : Nat) (op : Op) (rest : List Op) (o : CopyOp) (p : Plan) (g i : Nat)
    (left : List Nat) (d : Device) (held : Sparse (BitVec 256)) (lost : List (Nat × Nat)) : Prop :=
  let bs := granuleWrites p held g
  let q := reqOf r c n op 0
  let md := granuleOf (32 * g) bs 0 0
  let ends := fun (d : Device) (f : State → State) => ∃ c', Advanced d r c n op rest o p g i left held lost c' ∧
    exec (.copyGranule r n) s = .next (f (putCtx { s with dev := d } r c'))
  (inside o.dst → ends d id) ∧
  (o.dst = .glb → fencePending c op.serial false = false → ∀ d1 pa, translate d r.sk c.ifc (32 * g) true = (d1, .ok pa) →
    let g' := pa / 32 * 32
    let w : GWrite :=
      { serial := d1.gseq, cref := r, opSerial := op.serial, ctx := n, batch := op.batch, pa := g', va := 32 * g,
        mask := BitVec.ofNat 64 md.1, data := BitVec.ofNat 256 md.2, ifc := c.ifc, eng := 0, idx := i, pc := op.pc, run := c.run }
    (c.cls ≠ .d → ends { d1 with gseq := d1.gseq + 1, gbuf := store [] d1.gbuf r.sk (look [] d1.gbuf r.sk ++ [w]) } id) ∧
    (c.cls = .d → ends (writePa d1 q c.coreId pa (32 * g) md.1 md.2 i op.pc) fun s => containedChanged s q pa)) ∧
  (o.dst = .host → fencePending c op.serial false = false → c.cls = .d ∨ hostLinkPaused d = false →
    ends (hostWrite d q c.coreId bs) id) ∧
  (o.dst = .rmt → dieFenced d (coreSeat d c.run p.core).1 = false →
    let staged := bs.map fun b => (⟨65536, c.coreId, op.serial, b.addr, b.nibs, b.val⟩ : Staged)
    ends d fun s => mapTarget s c.run p.core fun gw c => stageIn d.clock gw staged (bs.map (·.addr)).eraseDups.length c)

/-- What the event of granule number i reads: one granule ahead, if the engine takes one, then those it still needs, a burst of HBM
serving the others of its chunk (R289, R376). -/
def reads (s : State) (r : CRef) (k : Core) (c : Ctx) (n : Nat) (op : Op) (o : CopyOp) (p : Plan) (g : Nat) (still : List Nat) :
    SrcRead × SrcHeld × Nat :=
  let t := tlOf c n
  let q := reqOf r c n op 0
  let todo := (needs p g).filter fun x => !(t.cache.any fun y => y.1 = x)
  let ahead := readAhead s.dev k.gang c q o.src still.eraseDups (t.cache, t.lost)
  readNeeds ahead.1 k.gang c q o.src (if todo.isEmpty then [] else still) todo ahead.2

/-- One ring of AMXSTEP advances: HEAD moves on by one modulo 12, and its entry becomes 0 (R294). -/
def stepped (m : Memory) (a : Nat) : Memory :=
  let h := (readLe m (a + 0x78) 1 + 1) % 12
  writeLe (writeLe m (a + 0x78) 1 h) (a + 0x48 + 4 * h) 4 0

end Sys2Proof.Forms

/-- The copy a context comes to perform: one that breaks an engine check fails its batch and writes nothing; one that passes
begins at its first destination granule, and one of no granule is complete at once. Each event then moves the next
granule: the source granules it needs are read, the granule's bytes are written, and the last one completes the copy. A read that
fails fails the copy with cause 1, a host read that times out with SUB 4; a translation fault stops its context. AMXSTEP advances the
rings of its list in order, or fails with cause 5 (R257, R283, R284, R287 to R290, R293, R294; log entries 27, 30 and 37). -/
def Obligations.CopiesArePerformed : Prop :=
  ∀ (s : State) (r : CRef) (k : Core) (c : Ctx) (n : Nat) (op : Op) (rest : List Op) (o : CopyOp),
    CopyTurn s r k c n op rest o →
    let t := tlOf c n
    let p := planCopy o
    let gs := planGranules p
    let failed := fun i (d : Device) sub addr done => ∃ c', CopyFailed c n op o 1 sub 0 addr done c' ∧
      let d' := if c.cls = .d ∧ (o.dst = .glb ∨ o.dst = .host) then unContain d (reqOf r c n op 0) o.dst p (gs.take done) else d
      exec i s = .next (putCtx { s with dev := d' } r c')
    (op.prog = .fresh → o.kind ≠ 4 →
      (∀ cause side addr, copyCheck k.gang c o = some (cause, side, addr) →
        ∃ c', CopyFailed c n op o cause 0 side addr 0 c' ∧ exec (.copyStart r n) s = .next (putCtx s r c')) ∧
      (copyCheck k.gang c o = none →
        (gs ≠ [] → exec (.copyStart r n) s = .next (putCtx s r (setTl c n { t with
          ops := { op with prog := .running 0 0 } :: rest, cache := [], lost := [] }))) ∧
        (gs = [] → (o.raw = false → p.amx = true → o.dstRec % 128 = 0 ∧ c.errScr = []) →
          ∃ c', CopyEnds s.dev r c n op rest o p [] c' ∧ exec (.copyStart r n) s = .next (putCtx s r c')))) ∧
    (∀ i g left, op.prog = .running i i → gs.drop i = g :: left →
      let at' := spaceNo o.src
      let still := (gs.drop i).flatMap (needs p)
      let lands := Lands s r c n op rest o p g i left
      let reads := reads s r k c n op o p g still
      let stored := fun (l : Sparse (BitVec 256)) => ∀ y ∈ l, y.2 = BitVec.ofNat 256 (readLe (memOf c at') (32 * y.1) 32)
      let held := fun x => ∃ y ∈ t.cache, y.1 = x
      ((∀ x ∈ still, held x) → lands s.dev t.cache t.lost) ∧
      (inside o.src → stored t.cache →
        (∀ x ∈ needs p g, held x ∨ ((o.src = .loc → lineOk k.gang c (32 * x) = true) ∧
          rangeBad (errOf c at') (32 * x) 32 = none ∧ ∀ y ∈ t.lost, y.1 ≠ x)) →
        ∃ l lost, (∀ x ∈ needs p g, ∃ y ∈ l, y.1 = x) ∧ stored l ∧ lands s.dev l lost) ∧
      (∀ d v l lost addr, reads = (.ok d v, (l, lost), addr) → lands d l lost) ∧
      (∀ d l lost addr, reads = (.wait d, (l, lost), addr) →
        exec (.copyGranule r n) s = .next (putCtx { s with dev := d } r (setTl c n { t with cache := l, lost := lost }))) ∧
      (∀ d sub l lost addr, reads = (.failed d sub, (l, lost), addr) → failed (.copyGranule r n) d sub (w64 addr) i) ∧
      (∀ d kind l lost addr, reads = (.stop d kind, (l, lost), addr) →
        exec (.copyGranule r n) s = .next (putCtx { s with dev := d } r (setTl c n { t with
          cache := l, lost := lost, stopped := true, stopPend := true, stopVa := w64 addr
          rec0 := w64 (2 + 2 ^ 8 * kind + 2 ^ 31 + op.batch % 2 ^ 32 * 2 ^ 32), rec1 := w64 addr, rec2 := w64 i
          rec3 := op.pc.setWidth 64 })))) ∧
    (∀ i done x xs, op.prog = .running i done → o.src = .host →
      ((needs p (gs.getD i 0)).filter fun x => !(t.cache.any fun y => y.1 = x)) = x :: xs →
      failed (.hostCompletionTimeout r n) s.dev 4 (w64 (32 * x)) done) ∧
    (o.kind = 4 →
      let fits := fun a => a % 128 = 0 ∧ a + 128 ≤ if o.privU then fb k.gang c.metered else fb k.gang c.metered + 4096
      (o.badLen = true ∨ (∃ a ∈ o.alist, ¬ fits a) →
        ∃ c', CopyFailed c n op o 5 0 0 0 0 c' ∧ exec (.amxstepPerform r n) s = .next (putCtx s r c')) ∧
      (o.badLen = false → c.errScr = [] → (∀ a ∈ o.alist, fits a) →
        ∃ c1 c', c1 = { c with scr := o.alist.foldl stepped c.scr } ∧
          (o.alist.Nodup → ∀ a ∈ o.alist, let h := (readLe c.scr (a + 0x78) 1 + 1) % 12
            readLe c1.scr (a + 0x78) 1 = h ∧ readLe c1.scr (a + 0x48 + 4 * h) 4 = 0 ∧
            ∀ b < 128, b ≠ 0x78 → (b < 0x48 + 4 * h ∨ 0x48 + 4 * h + 4 ≤ b) → byteAt c1.scr (a + b) = byteAt c.scr (a + b)) ∧
          (∀ b, b / 128 * 128 ∉ o.alist → byteAt c1.scr b = byteAt c.scr b) ∧
          (∃ t', Settled { t with ops := rest } t' ∧ c' = setTl c1 n t') ∧
          exec (.amxstepPerform r n) s = .next (putCtx s r c')))

/-! ## The matrix engine -/

namespace Sys2Proof.Forms
open Sys2Proof Sys2Proof.Machine

/-- Operand slots and accumulator tiles of a partition (R296, R297, Table 8.1). -/
def slotsOf (g : Nat) (c : Ctx) : Nat := (if c.metered then 16 else 32) * g
def tilesOf (g : Nat) (c : Ctx) : Nat := (if c.metered then 4 else 8) * g

/-- Words 0 to 54 of Table 12.13. -/
def matWords (t : TlCtx) (m : Matrix) : List Word :=
  let row := fun (x : Sparse Word) n => (List.range n).map (look 0 x)
  [t.rec0, t.rec1, t.rec2, t.rec3, w64 (m.fmtN % 2 ^ 5 + m.fmtHead % 2 ^ 4 * 2 ^ 5 + m.unres % 2 ^ 32 * 2 ^ 9), m.epicfg,
    m.epikey, m.actBase, m.actCoord] ++ row m.actNest 6 ++ [m.actIdx, m.actI5] ++ row m.shadow 6 ++ row m.fmtW 16 ++
    (List.range 16).map fun k => w64 (look 0 m.fmtC k)

/-- What MWLD leaves in a word it writes: its fields, the reserved bits 0 (R6, Tables 12.8, 12.9, 12.13). -/
def matMask (w : Nat) (v : Word) : Word :=
  if w = 5 then v &&& 0xFFFFFFFF00FFFF7F
  else w64 (v.toNat % if w = 4 then 2 ^ 41 else if 9 ≤ w ∧ w ≤ 14 ∨ 17 ≤ w ∧ w ≤ 22 then 2 ^ 62 else if w = 16 then 2 ^ 13
    else if 39 ≤ w then 2 ^ 14 else 2 ^ 64)

/-- A matrix operation as captured at issue (R321). -/
def matOp (c : Ctx) (kind : Nat) (base coord : Word) (nest : List Word) : MatOp where
  kind := kind
  base := base
  coord := coord
  nest := nest
  lsgen := c.lsgen
  lscale := c.lscale
  epicfg := c.mx.epicfg
  epikey := c.mx.epikey
  cktol := c.cktol
  first := 0
  cnt := 0

/-- MZERO as captured at issue. -/
def zeroOp (first cnt : Nat) : MatOp := { matOp Ctx.zero 2 0 0 [] with first := first, cnt := cnt, lscale := 0, cktol := 0 }

end Sys2Proof.Forms

/-- The instructions of the matrix engine that work at issue: MCLAIM gives free slots a role, MREL frees slots no operation can
still read, MFMT queues format copies, MNEST writes a shadow nest word, MEPI the epilogue, MLSGEN the loss scale with a new
generation, MCKRD reads and may clear the checksum status; each with its matrix-operand traps in order (R301 to R305, R309,
R311, R313, R317, Table 12.3; log entry 46). -/
def Obligations.MatrixSetup : Prop :=
  ∀ (s : State) (b w : Bool) (lvl : BitVec 3) (rep : BitVec 12) (cnt : BitVec 8) (sd sa sb : BitVec 6), mayCompute s →
    let c := s.core.ctx
    let g := s.core.gang
    let a := (sreg c sa).toNat
    let n := cnt.toNat
    let sound := srcsBad g c [.s sa] = none
    let traps := fun i reason pos => exec i s = .next (trapIssue s 0x0A (w64 (reason + pos % 2 ^ 56 * 2 ^ 8)))
    let inside := fun k => a ≤ k ∧ k < a + n
    let role := look 0 c.mx.role
    let badEpi := a / 2 ^ 7 % 2 = 1 ∨ a / 2 ^ 24 % 2 ^ 8 ≠ 0 ∨ (a / 2 ^ 6 % 2 = 1 ∧ a / 2 ^ 8 % 2 ^ 16 = 0)
    let x := a % 2 ^ 32
    let gen := w64 ((c.lsgen.toNat + 1) % 2 ^ 16)
    let ckst := if w then c.mx.ckst1 else c.mx.ckst0
    (slotsOf g c < a + n →
      traps (.mclaim b sa cnt) 2 (max a (slotsOf g c)) ∧ traps (.mrel sa cnt) 2 (max a (slotsOf g c))) ∧
    (a + n ≤ slotsOf g c →
      (∀ k, inside k → role k ≠ 0 → (∀ j, inside j → role j ≠ 0 → k ≤ j) → traps (.mclaim b sa cnt) 3 k) ∧
      ((∀ k, inside k → role k = 0) → sound → ∃ r st,
        Issues (.mclaim b sa cnt) s (fun c => { c with mx := { c.mx with role := r, stamp := st } }) ∧
        (∀ k, inside k → look 0 r k = (if b then 2 else 1) ∧ look 0 st k = 0) ∧
        ∀ k, ¬ inside k → look 0 r k = role k ∧ look 0 st k = look 0 c.mx.stamp k) ∧
      ((∃ x ∈ slotsToRead g c, (a : Int) ≤ x ∧ x < a + n) → exec (.mrel sa cnt) s = .next s) ∧
      ((∀ x ∈ slotsToRead g c, x < a ∨ (a : Int) + n ≤ x) → sound → ∃ r,
        Issues (.mrel sa cnt) s (fun c => { c with mx := { c.mx with role := r } }) ∧
        (∀ k, inside k → look 0 r k = 0) ∧ ∀ k, ¬ inside k → look 0 r k = role k)) ∧
    (fmtOk a = false → traps (.mfmt sa rep) 1 0) ∧
    (fmtOk a = true →
      (16 ≤ c.mx.fmtN → fmtReserved c.mx = 0 → traps (.mfmt sa rep) 5 0) ∧
      (16 ≤ c.mx.fmtN → fmtReserved c.mx ≠ 0 → exec (.mfmt sa rep) s = .next s) ∧
      (c.mx.fmtN < 16 → sound →
        let p := (c.mx.fmtHead + c.mx.fmtN) % 16
        Issues (.mfmt sa rep) s fun c => { c with mx := { c.mx with
          fmtW := store 0 c.mx.fmtW p (sreg s.core.ctx sa), fmtC := store 0 c.mx.fmtC p (rep.toNat + 1 + 2 ^ 13)
          fmtN := c.mx.fmtN + 1, unres := c.mx.unres + (rep.toNat + 1) } })) ∧
    (2 ^ 62 ≤ a → traps (.mnest lvl sa) 1 lvl.toNat) ∧
    (a < 2 ^ 62 → sound →
      Issues (.mnest lvl sa) s fun c => { c with mx := { c.mx with
        shadow := store 0 c.mx.shadow lvl.toNat (sreg s.core.ctx sa) } }) ∧
    (badEpi → traps (.mepi sa sb) 1 0) ∧
    (¬ badEpi → srcsBad g c [.s sa, .s sb] = none →
      Issues (.mepi sa sb) s fun c => { c with mx := { c.mx with
        epicfg := sreg s.core.ctx sa, epikey := sreg s.core.ctx sb } }) ∧
    (x < 0x00800000 ∨ 0x7F800000 ≤ x → traps (.mlsgen sd sa) 6 0) ∧
    (0x00800000 ≤ x → x < 0x7F800000 →
      Issues (.mlsgen sd sa) s fun c' =>
        { fly c 1 (.scalar sd gen) 0 none (srcFault g c [.s sa]) c' with lscale := w64 x, lsgen := gen, lsgrow := 0 }) ∧
    GivesScalar (.mckrd sd w false) s 1 sd ckst 0 [] ∧
    Issues (.mckrd sd w true) s fun c' =>
      let c1 := fly c 1 (.scalar sd ckst) 0 none none c'
      { c1 with mx := { c1.mx with ckst0 := 0, ckst1 := 0 } }

/-- MGO, MTILE and MZERO check their operands, wait while context 4 holds eight operations, and join it as captured, MGO and
MTILE having reserved one format copy for each tile command. MSTAT reads a word of Table 12.13, and MWLD, at S only and while
the engine holds no operation, writes one (R299, R305, R306, R310, R312, R318, R319, R321, R325; log entry 46). -/
def Obligations.MatrixOperationsIssue : Prop :=
  ∀ (s : State) (cnt : BitVec 6) (w : BitVec 7) (sd sa sb : BitVec 6), inRegion s →
    let c := s.core.ctx
    let g := s.core.gang
    let a := (sreg c sa).toNat
    let traps := fun i reason pos => exec i s = .next (trapIssue s 0x0A (w64 (reason + pos % 2 ^ 56 * 2 ^ 8)))
    let nest := (List.range 6).map (look 0 c.mx.shadow)
    let size := (nest.map fun e => e.toNat % 2 ^ 12 + 1).foldl (· * ·) 1
    let starts := fun i kind l n =>
      (2 ^ 19 ≤ a → traps i 1 0) ∧
      (a < 2 ^ 19 →
        (c.mx.unres < n → traps i 4 0) ∧
        (n ≤ c.mx.unres →
          (8 ≤ c.t4.ops.length → exec i s = .next s) ∧
          (c.t4.ops.length < 8 → c.t4.failed = none → srcsBad g c [.s sa, .s sb] = none →
            Joins i s 4 (.mat (matOp c kind (sreg c sa) (sreg c sb) l)) fun c =>
              { c with mx := { c.mx with unres := c.mx.unres - n } })))
    (mayCompute s →
      starts (.mgo sa sb) 0 nest size ∧
      starts (.mtile sa sb) 1 [] 1 ∧
      (tilesOf g c < a + cnt.toNat → traps (.mzero sa cnt) 2 (max a (tilesOf g c))) ∧
      (a + cnt.toNat ≤ tilesOf g c →
        (8 ≤ c.t4.ops.length → exec (.mzero sa cnt) s = .next s) ∧
        (c.t4.ops.length < 8 → c.t4.failed = none → srcsBad g c [.s sa] = none →
          Joins (.mzero sa cnt) s 4 (.mat (zeroOp a cnt.toNat)) id)) ∧
      (∀ h : w.toNat < (matWords c.t4 c.mx).length, GivesScalar (.mstat sd w) s 1 sd (matWords c.t4 c.mx)[w.toNat] 0 []) ∧
      (64 ≤ w.toNat → w.toNat - 64 < tilesOf g c →
        GivesScalar (.mstat sd w) s 1 sd (look 0 c.mx.side (w.toNat - 64)) 0 [])) ∧
    (c.priv = .u → exec (.mwld w sa) s = .next (trapIssue s 0x04 (wordNow s))) ∧
    (c.priv = .s → c.t4.ops ≠ [] → exec (.mwld w sa) s = .next s) ∧
    (c.priv = .s → c.t4.ops = [] → srcsBad g c [.s sa] = none → 4 ≤ w.toNat → w.toNat < 55 → ∃ m,
      Issues (.mwld w sa) s (fun c => { c with mx := m }) ∧
      matWords c.t4 m = (matWords c.t4 c.mx).set w.toNat (matMask w.toNat (sreg c sa)) ∧
      m.role = c.mx.role ∧ m.stamp = c.mx.stamp ∧ m.side = c.mx.side ∧ m.ckst0 = c.mx.ckst0 ∧ m.ckst1 = c.mx.ckst1)

namespace Sys2Proof.Forms
open Sys2Proof Sys2Proof.Machine

/-- A bit of a number. -/
def hasBit (w n : Nat) : Bool := w / 2 ^ n % 2 = 1

/-- The FP32 or integer element of an accumulator tile (R297). -/
def tileAt (c : Ctx) (tile m n : Nat) : Nat := readLe c.acc (16384 * tile + 256 * m + 4 * n) 4

/-- The type of the A side (0) or of the weights (1), and the stamp its slots must carry (Table 12.4). -/
def sideTy (w n : Nat) : Ty := (Ty.ofCode (BitVec.ofNat 6 (w / 2 ^ (6 * n) % 2 ^ 6))).getD .i8
def sideSwz (w n : Nat) : Nat := w / 2 ^ (16 + 3 * n) % 2 ^ 3

/-- The rows a command streams, its reduction length, its output columns, and the products of a group (R93, R297, Table 12.1). -/
def rowsOf (w : Nat) : Nat := w / 2 ^ 40 % 2 ^ 6 + 1
def depth (g w : Nat) : Nat := if hasBit w 12 then 64 * g else 1024 / tyBits (sideTy w 0)
def colsOf (g w : Nat) : Nat := if hasBit w 12 then 64 else 64 * g
def groupLen (w : Nat) : Nat := if tyBits (sideTy w 0) = 16 then 16 else 32

/-- The iterations of the levels of a nest, and the index of a level at command i, level 0 fastest (R310, R312). -/
def iters (nest : List Word) : List Nat := nest.map fun e => e.toNat % 2 ^ 12 + 1
def commands (o : MatOp) : Nat := if o.kind = 0 then (iters o.nest).prod else 1
def index (nest : List Word) (i l : Nat) : Nat := i / ((iters nest).take l).prod % (iters nest).getD l 1

/-- Command i of an operation (R312). -/
def commandAt (o : MatOp) (i : Nat) : Cmd :=
  let b := o.base.toNat
  let at' := o.coord.toNat
  let sum := fun lo len => ((List.range o.nest.length).map fun l =>
    (index o.nest i l : Int) * signed ((o.nest.getD l 0).toNat / 2 ^ lo) len).sum
  { aslot := (b % 2 ^ 7 : Nat) + sum 12 8
    bslot := (b / 2 ^ 7 % 2 ^ 7 : Nat) + sum 20 8
    tile := (b / 2 ^ 14 % 2 ^ 5 : Nat) + sum 28 6
    mo := (((at' % 2 ^ 32 : Nat) + sum 34 14) % 2 ^ 32).toNat
    no := (((at' / 2 ^ 32 : Nat) + sum 48 14) % 2 ^ 32).toNat }

/-- An operand element of a slot as a number: its pattern at its swizzled address; a 4-bit code takes the scale of its block (R297). -/
def element (c : Ctx) (w side slot row k scRow : Nat) : FVal :=
  let lies := fun sl off => (swAddr (sideSwz w side) ((8192 * sl + off : Nat) : Int)).toNat
  let t := sideTy w side
  let x := readLe c.opm (lies slot (128 * row + k * tyBits t / 8)) ((tyBits t + 7) / 8)
  match t with
  | .b4 =>
    let block := k / (if hasBit w 22 then 32 else 16)
    codeVal (byteAt c.opm (lies (w / 2 ^ (24 + 8 * side) % 2 ^ 7) (16 * scRow + block))).toNat (x / 16 ^ (k % 2) % 16)
  | .i8 => .fin (signed x 8 < 0) (signed x 8).natAbs 0
  | _ => fpVal t x

/-- x(i, r) and y(r, j) of a command, forward and reversed (R297). -/
def xAt (c : Ctx) (w : Nat) (k : Cmd) (i r : Nat) : FVal :=
  if hasBit w 12 then element c w 0 (k.aslot.toNat + r / 64) i (r % 64) i else element c w 0 k.aslot.toNat i r i
def yAt (c : Ctx) (w : Nat) (k : Cmd) (r j : Nat) : FVal :=
  if hasBit w 12 then element c w 1 (k.bslot.toNat + r / 64) (r % 64) j j
  else element c w 1 (k.bslot.toNat + j / 64) (j % 64) r j

/-- The sum of group q of an output element, an FP32 pattern, and for I8 the exact sum (R94, R95). -/
def groupAt (c : Ctx) (w : Nat) (k : Cmd) (i j q : Nat) : Nat :=
  groupSum ((List.range (groupLen w)).map fun x => prodOf (xAt c w k i (q * groupLen w + x)) (yAt c w k (q * groupLen w + x) j))

/-- A finite number, exactly. -/
def exact (v : FVal) : ℚ :=
  match v with
  | .fin neg m e => (if neg then -1 else 1) * m * (2 : ℚ) ^ e
  | _ => 0
def exactInt (v : FVal) : Int :=
  match v with
  | .fin neg m _ => if neg then -(m : Int) else m
  | _ => 0

/-- An output element after n groups, from what stood in the accumulator (R95). -/
def partAt (c : Ctx) (w : Nat) (k : Cmd) (start i j n : Nat) : Nat :=
  if sideTy w 0 = .i8 then
    (((start : Int) + ((List.range (n * groupLen w)).map fun r => exactInt (xAt c w k i r) * exactInt (yAt c w k r j)).sum)
      % 2 ^ 32).toNat
  else (List.range n).foldl (fun v q => (fpAdd .f32 .rne 0 false (fpVal .f32 v) (fpVal .f32 (groupAt c w k i j q))).1) start

/-- The epilogue (R314). -/
def drained (c : Ctx) (o : MatOp) (k : Cmd) (m n v : Nat) : Nat :=
  let e := o.epicfg.toNat
  let v := if hasBit e 0 then
    (fpAdd .f32 .rne 0 false (fpVal .f32 v) (fpVal .f32 (tileAt c (e / 2 % 2 ^ 5 + n / 64) m (n % 64)))).1 else v
  if hasBit e 6 then
    let ctr := (k.mo + m) % 2 ^ 32 * 2 ^ 32 + (k.no + n) % 2 ^ 32
    if cbg64 ctr o.epikey.toNat / 2 ^ 48 < e / 2 ^ 8 % 2 ^ 16 then
      (fpMul .f32 .rne 0 false (fpVal .f32 v) (fpVal .f32 (e / 2 ^ 32))).1 else 0
  else v

/-- The output tiles of a command, and its residual tiles. -/
def tilesOut (g w : Nat) (first : Int) : List Int := (List.range (if hasBit w 12 then 1 else g)).map fun j => first + (j : Nat)
def tilesRes (g w : Nat) (o : MatOp) : List Int :=
  if hasBit w 15 && hasBit o.epicfg.toNat 0 then tilesOut g w ((o.epicfg.toNat / 2 % 2 ^ 5 : Nat) : Int) else []

/-- The slots a command reads, each with the role and the stamp it must have (R303, R307). -/
def slotsRead (g w : Nat) (k : Cmd) : List (Int × Nat × Nat) :=
  ((List.range (if hasBit w 12 then g else 1)).map fun j => (k.aslot + (j : Nat), 1, sideSwz w 0 + 1)) ++
  ((List.range g).map fun j => (k.bslot + (j : Nat), 2, sideSwz w 1 + 1)) ++
  if sideTy w 0 = .b4 then [(((w / 2 ^ 24 % 2 ^ 7 : Nat) : Int), 1, sideSwz w 0 + 1), (((w / 2 ^ 32 % 2 ^ 7 : Nat) : Int), 2, sideSwz w 1 + 1)]
  else []

/-- What R308 does to an output tile: nothing, or a multiplication by 2^e, LS / SCL being 2^e exactly. -/
def Rescaled (c : Ctx) (o : MatOp) (w : Nat) (tile : Int) (e : Option Int) : Prop :=
  let side := (look 0 c.mx.side tile.toNat).toNat
  let free := hasBit w 13 = false ∨ hasBit side 16 = false ∨ side % 2 ^ 16 = o.lsgen.toNat % 2 ^ 16
  (free → e = none) ∧
  (¬ free → hasBit w 14 = true ∧ ∃ x n1 m1 e1 n2 m2 e2, e = some x ∧ fpVal .f32 (o.lscale.toNat % 2 ^ 32) = .fin n1 m1 e1 ∧
    fpVal .f32 (side / 2 ^ 32) = .fin n2 m2 e2 ∧ m2 ≠ 0 ∧ exact (.fin n1 m1 e1) = exact (.fin n2 m2 e2) * (2 : ℚ) ^ x)

/-- A tile command that passes its checks: its slots and tiles, no damaged word, and a rescaling for each output tile (R307, R308). -/
structure CmdSound (g : Nat) (c : Ctx) (o : MatOp) (w : Nat) (k : Cmd) (ex : Nat → Option Int) : Prop where
  fmt : fmtOk w = true
  gang : gangOk g
  slots : ∀ x ∈ slotsRead g w k, 0 ≤ x.1 ∧ x.1 < slotsOf g c ∧ look 0 c.mx.role x.1.toNat = x.2.1 ∧
    look 0 c.mx.stamp x.1.toNat = x.2.2
  tiles : ∀ t ∈ tilesOut g w k.tile ++ tilesRes g w o, 0 ≤ t ∧ t < tilesOf g c
  apart : ∀ t ∈ tilesRes g w o, t ∉ tilesOut g w k.tile
  rescaled : ∀ j, j < (tilesOut g w k.tile).length → Rescaled c o w (k.tile + j) (ex j)
  cells : c.errOpm = [] ∧ c.errAcc = []

/-- An accumulator element as a command starts from it: rescaled with ACC, and 0 without (R307, R308). -/
def startAt (c : Ctx) (w : Nat) (k : Cmd) (ex : Nat → Option Int) (i j : Nat) : Nat :=
  let old := tileAt c (k.tile.toNat + j / 64) i (j % 64)
  if hasBit w 13 then
    match ex (j / 64) with
    | some e => (fpScale .f32 .rne 0 false (fpVal .f32 old) e).1
    | none => old
  else 0

/-- What a command leaves in an output element (R307, R314). -/
def resultAt (g : Nat) (c : Ctx) (o : MatOp) (w : Nat) (k : Cmd) (ex : Nat → Option Int) (i j : Nat) : Nat :=
  if i < rowsOf w then
    let v := partAt c w k (startAt c w k ex i j) i j (depth g w / groupLen w)
    if hasBit w 15 then drained c o k i j v else v
  else startAt c w k ex i j

/-- The checksum of one row or column mismatches: every product and every group sum of it is finite, and |S − E| exceeds the
tolerance (R315). The exact sums of I8 never mismatch. -/
def LineOff (g : Nat) (c : Ctx) (w : Nat) (k : Cmd) (rel : Nat) (is js : List Nat) : Prop :=
  let rs := List.range (depth g w)
  let qs := List.range (depth g w / groupLen w)
  let sum := fun (l : List Nat) (f : Nat → ℚ) => (l.map f).sum
  let x := fun r i => exact (xAt c w k i r)
  let y := fun r j => exact (yAt c w k r j)
  let s := sum is fun i => sum js fun j => sum qs fun q => exact (fpVal .f32 (groupAt c w k i j q))
  let e := sum rs fun r => sum is (x r) * sum js (y r)
  let b := sum rs fun r => sum is (fun i => |x r i|) * sum js (fun j => |y r j|)
  sideTy w 0 ≠ .i8 ∧
  (∀ i ∈ is, ∀ j ∈ js, (∀ r ∈ rs, (prodOf (xAt c w k i r) (yAt c w k r j)).nonFinite = false) ∧
    ∀ q ∈ qs, (fpVal .f32 (groupAt c w k i j q)).nonFinite = false) ∧
  b / 2 ^ rel + 1 / 2 ^ 126 < |s - e|

/-- A non-finite group sum or accumulator value of a command (R317). -/
def NonFinite (g : Nat) (c : Ctx) (w : Nat) (k : Cmd) (ex : Nat → Option Int) : Prop :=
  sideTy w 0 ≠ .i8 ∧ ∃ i j q, i < rowsOf w ∧ j < colsOf g w ∧ q < depth g w / groupLen w ∧
    ((fpVal .f32 (groupAt c w k i j q)).nonFinite = true ∨
      (fpVal .f32 (partAt c w k (startAt c w k ex i j) i j (q + 1))).nonFinite = true)

/-- Context 4's first operation, no part of whose command has been performed, and what follows it. -/
structure MatTurn (s : State) (r : CRef) (k : Core) (c : Ctx) (op : Op) (rest : List Op) (o : MatOp) : Prop where
  live : runningCtx s r = some (k, c)
  first : c.t4.ops = op :: rest
  mat : op.what = .mat o
  runs : stackGoes s.dev r.sk = true
  whole : c.mx.opRead = [] ∧ c.mx.outPart = []
  once : ∀ x ∈ rest, op.serial < x.serial
  sound : c.t4.failed = none

/-- The operation's next command is number i. -/
def NextCmd (op : Op) (o : MatOp) (i : Nat) : Prop := i < commands o ∧ (op.prog = .fresh ∧ i = 0 ∨ op.prog = .running i i)

/-- A matrix batch fails: its later operations are gone, and the fault record tells the cause, the index vector of the command and
the slot (R322, Table 12.12). -/
def MatFailed (t : TlCtx) (op : Op) (o : MatOp) (i cause slot : Nat) (t' : TlCtx) : Prop :=
  let b := if op.batch = 0 then t.closed.toNat + 1 else op.batch
  Settled { t with
    ops := [], failed := some b, failAddr := 0, sound := t.sound + soundAbove t b
    rec0 := w64 (cause + 2 ^ 31 + op.batch % 2 ^ 32 * 2 ^ 32)
    rec1 := w64 (((List.range (min 5 o.nest.length)).map fun l => index o.nest i l * 2 ^ (12 * l)).sum)
    rec2 := w64 ((if 5 < o.nest.length then index o.nest i 5 else 0) + slot * 2 ^ 32)
    rec3 := op.pc.setWidth 64 } t'

end Sys2Proof.Forms

/-- The operations of context 4 are performed in order. MZERO clears its tiles and their sidebands, or one granule of them at a
time. The tile commands of an MTILE and of an MGO, command by command of its nest, take their values for every pair of types,
forward and reversed: each output element is the accumulator's, rescaled to the loss scale or 0 without ACC, plus its group sums,
then its residual and dropout; the rows that are not streamed stand rescaled, or 0; no other byte of the accumulator memory changes;
the sideband takes the loss scale and the checksum's verdict; a format copy is taken. A mismatch of the checksum is counted and
reported, and with ACT fails the batch with cause 7. A part of a command reads one operand granule, or shows one output granule
after some of its groups. One whose first A slot is beyond the partition fails with cause 2 and writes nothing (R94, R95, R235,
R297, R306 to R308, R310, R312, R314, R315, R317, R318, R320, R322). That an MTILE leaves the words of the active nest is log entry 46. -/
def Obligations.MatrixPerforms : Prop :=
  ∀ (s : State) (r : CRef) (k : Core) (c : Ctx) (op : Op) (rest : List Op) (o : MatOp),
    MatTurn s r k c op rest o →
    let ends := fun (c : Ctx) c' => ∃ t', Settled { c.t4 with ops := rest } t' ∧ c' = { c with t4 := t' }
    (o.kind = 2 →
      (∃ c1 c', ends c1 c' ∧ exec (.mzeroPerform ⟨r, none⟩) s = .next (putCtx s r c') ∧
        (∀ a, byteAt c1.acc a = if 16384 * o.first ≤ a ∧ a < 16384 * (o.first + o.cnt) then 0 else byteAt c.acc a) ∧
        (∀ t, look 0 c1.mx.side t = if o.first ≤ t ∧ t < o.first + o.cnt then 0 else look 0 c.mx.side t) ∧
        c1 = { c with acc := c1.acc, errAcc := c1.errAcc, mx := { c.mx with side := c1.mx.side } }) ∧
      ∀ x q, o.first * 512 ≤ x → x < (o.first + o.cnt) * 512 → ∃ m e,
        exec (.mzeroPerform ⟨r, some (.output x q)⟩) s = .next (putCtx s r { c with
          acc := m, errAcc := e, mx := { c.mx with outPart := [(x, 1, 0)] } }) ∧
        ∀ a, byteAt m a = if a / 32 = x then 0 else byteAt c.acc a) ∧
    (∀ i, o.kind ≠ 2 → NextCmd op o i →
      let w := (look 0 c.mx.fmtW c.mx.fmtHead).toNat
      let cmd := commandAt o i
      let first := cmd.tile.toNat
      (fmtOk w = true → slotsOf k.gang c ≤ cmd.aslot →
        (∀ q, exec (.tileCommand ⟨r, some q⟩) s = .next s) ∧
        ∃ t' m, exec (.tileCommand ⟨r, none⟩) s = .next (putCtx s r { c with t4 := t', mx := m }) ∧
          MatFailed c.t4 op o i 2 cmd.aslot.toNat t' ∧ m.side = c.mx.side ∧ m.role = c.mx.role ∧ m.stamp = c.mx.stamp) ∧
      ∀ ex, CmdSound k.gang c o w cmd ex →
        let turn := fun n (c : Ctx) => { c with t4 := { c.t4 with ops := { op with prog := .running n n } :: rest } }
        (∀ x < 256 * slotsOf k.gang c, exec (.tileCommand ⟨r, some (.operand x)⟩) s = .next (putCtx s r (turn i { c with
          mx := { c.mx with opRead := [(x, BitVec.ofNat 256 (readLe c.opm (32 * x) 32))] } }))) ∧
        (∀ x q, ∃ m e part, (∀ a, a / 32 ≠ x → byteAt m a = byteAt c.acc a) ∧
          exec (.tileCommand ⟨r, some (.output x q)⟩) s =
            .next (putCtx s r (turn i { c with acc := m, errAcc := e, mx := { c.mx with outPart := part } })) ∧
          (1 ≤ q → q ≤ depth k.gang w / groupLen w → first ≤ x / 512 → x / 512 < first + colsOf k.gang w / 64 →
            x % 512 / 8 < rowsOf w → ∀ y < 8,
              let j := 64 * (x / 512 - first) + x % 8 * 8 + y
              readLe m (32 * x + 4 * y) 4 = partAt c w cmd (startAt c w cmd ex (x % 512 / 8) j) (x % 512 / 8) j q)) ∧
        ∃ (off : Bool) (c1 : Ctx) (side : Sparse Word) (k0 k1 : Word),
          (off = true ↔ hasBit o.cktol.toNat 8 = true ∧
            ((∃ i < rowsOf w, LineOff k.gang c w cmd (o.cktol.toNat % 2 ^ 6) [i] (List.range (colsOf k.gang w))) ∨
              ∃ j < colsOf k.gang w, LineOff k.gang c w cmd (o.cktol.toNat % 2 ^ 6) (List.range (rowsOf w)) [j])) ∧
          c1 = { c with acc := c1.acc, errAcc := [], mx := { fmtPop c.mx with side := side, ckst0 := k0, ckst1 := k1 } } ∧
          (∀ i < 64, ∀ j < colsOf k.gang w, tileAt c1 (first + j / 64) i (j % 64) = resultAt k.gang c o w cmd ex i j) ∧
          (∀ a, a < 16384 * first ∨ 16384 * (first + colsOf k.gang w / 64) ≤ a → byteAt c1.acc a = byteAt c.acc a) ∧
          (∀ t, look 0 side t = if first ≤ t ∧ t < first + colsOf k.gang w / 64 then
            w64 (o.lsgen.toNat % 2 ^ 16 + 2 ^ 16 + (if off then 2 ^ 17 else 0) + o.lscale.toNat % 2 ^ 32 * 2 ^ 32)
            else look 0 c.mx.side t) ∧
          (off = false → k1 = c.mx.ckst1 ∧
            (NonFinite k.gang c w cmd ex → k0 = c.mx.ckst0 ||| w64 (2 ^ 62)) ∧ (¬ NonFinite k.gang c w cmd ex → k0 = c.mx.ckst0)) ∧
          (off = true → k0.toNat % 2 ^ 32 = min (c.mx.ckst0.toNat % 2 ^ 32 + 1) (2 ^ 32 - 1) ∧ k0.toNat / 2 ^ 32 % 2 ^ 5 = first) ∧
          let s' := if off then { s with dev := detect s.dev c.run r.sk c.coreId c.cls 0x43 } else s
          let shown := fun (c : Ctx) (c' : Ctx) =>
            (o.kind = 1 → c' = c) ∧
            (o.kind = 0 → ∃ n, (∀ l < 6, look 0 n l = o.nest.getD l 0) ∧
              c' = { c with mx := { c.mx with
                actBase := o.base, actCoord := o.coord, actNest := n
                actIdx := w64 (((List.range (min 5 o.nest.length)).map fun l => index o.nest (i + 1) l * 2 ^ (12 * l)).sum)
                actI5 := w64 (if 5 < o.nest.length then index o.nest (i + 1) 5 else 0) } })
          ∃ c2, shown c1 c2 ∧
            (off = false ∨ hasBit o.cktol.toNat 9 = false →
              (i + 1 < commands o → exec (.tileCommand ⟨r, none⟩) s = .next (putCtx s' r (turn (i + 1) c2))) ∧
              (i + 1 = commands o → ∃ c', ends c2 c' ∧ exec (.tileCommand ⟨r, none⟩) s = .next (putCtx s' r c'))) ∧
            (off = true → hasBit o.cktol.toNat 9 = true → ∃ t' m,
              exec (.tileCommand ⟨r, none⟩) s = .next (putCtx s' r { c2 with t4 := t', mx := m }) ∧ MatFailed c.t4 op o i 7 0 t' ∧
              m.side = side ∧ m.ckst0 = k0))

/-! ## Collectives, scale-up ports and the link table -/

namespace Sys2Proof.Forms
open Sys2Proof Sys2Proof.Machine

/-- Operation k of context 6 of a context, the first of it, with the collective it has begun. -/
structure ColTurn (s : State) (r : CRef) (c : Ctx) (op : Op) (rest : List Op) (o : ColOp) : Prop where
  ctx : getCtx s r = some c
  first : c.t6.ops = op :: rest
  col : op.what = .col o
  once : ∀ x ∈ rest, op.serial < x.serial
  sound : c.t6.failed = none ∧ c.t6.cache = [] ∧ c.t6.lost = []
  runs : c.t6.stopped = false ∧ s.dev.sun.parked = false
  alive : ∀ e ∈ s.dev.endings, e.cref ≠ r ∨ e.run ≠ c.run

/-- Context 6 once a collective of it has failed: its batch has failed, the operations of later batches are discarded, those of the
same batch go on, and the record tells why, and for cause 11 which member (R257, R441, R443, Table 19.5). -/
def ColFailed (c : Ctx) (op : Op) (rest : List Op) (cause member : Nat) (c' : Ctx) : Prop :=
  let number := fun (o : Op) => if o.batch = 0 then c.t6.closed.toNat + 1 else o.batch
  ∃ t', Settled { c.t6 with
      ops := rest.filter fun o => decide (number o ≤ number op), failed := some (number op), failAddr := w64 member
      sound := c.t6.sound + soundAbove c.t6 (number op)
      rec0 := w64 (cause + 2 ^ 31 + op.batch % 2 ^ 32 * 2 ^ 32), rec1 := w64 member, rec2 := 0, rec3 := op.pc.setWidth 64 } t' ∧
    c' = { c with t6 := t' }

/-- Element i of w bytes of a chunk. -/
def elemOf (w : Nat) (l : List Byte) (i : Nat) : Nat := ofBytes ((l.drop (w * i)).take w)

/-- Where this member's own bytes lie in a chunk of n bytes at offset lo of the buffer, and the offset of the first of them in its source
(R434, Table 19.4). -/
def ownBytes (o : ColOp) (e : ColRec) (dev lo n : Nat) : Nat × Nat × Nat :=
  match o.form with
  | .red | .rsc => (0, n, lo)
  | .bc => if e.root = dev then (0, n, lo) else (0, 0, 0)
  | .gath =>
    let b := rankOf (memberList e.members) dev * e.count
    if max lo b < min (lo + n) (b + e.count) then (max lo b - lo, min (lo + n) (b + e.count) - max lo b, max lo b - b) else (0, 0, 0)

/-- The byte of a member's source at an offset: this member's as read, another's as posted. -/
def sourceByte (x : Collective) (dev : Nat) (bs : List Byte) (at' u off : Nat) : Byte :=
  if u = dev then bs.getD (off - at') 0
  else
    match x.peers.find? fun p => p.dev = u with
    | some p => ((p.src.find? fun y => y.1 = off).map (·.2)).getD 0
    | none => 0

/-- comb of two elements (R435). -/
def combined (op : ClOp) (ty : Ty) (a b : Nat) : Nat :=
  let key := fun (x : Nat) => if ty = .i32 then signed x 32 else (x : Int)
  match op, decide (ty = .i32 ∨ ty = .n32) with
  | .sum, true => (a + b) % 2 ^ 32
  | .max, true => if key a < key b then b else a
  | .min, true => if key b < key a then b else a
  | .sum, false => (fpAdd .f32 .rne 0 false (fpVal .f32 a) (fpVal .f32 b)).1
  | .max, false => (fpMinMax .f32 false (fpVal .f32 a) (fpVal .f32 b)).1
  | .min, false => (fpMinMax .f32 true (fpVal .f32 a) (fpVal .f32 b)).1

/-- partial(u) of one element on a tree: a device's own, combined with its children's in the order of R432; `n` bounds the depth (R435). -/
def nodeValue (op : ClOp) (ty : Ty) (edges : List (Nat × Nat × Nat)) (leaf : Nat → Nat) : Nat → Nat → Nat
  | 0, u => leaf u
  | n + 1, u => (edges.filter fun y => y.1 = u).foldl (fun v y => combined op ty v (nodeValue op ty edges leaf n y.2.1)) (leaf u)

/-- An element of the root's result: 16-bit floats are widened to F32 at the leaves and rounded once at the root (R435). -/
def reducedElem (o : ColOp) (edges : List (Nat × Nat × Nat)) (root : Nat) (leaf : Nat → Nat) : Nat :=
  let half := o.ty = .f16 ∨ o.ty = .bf16
  let wide := fun x => if half then (cvtFpFp .f32 .rne 0 false (fpVal o.ty x)).1 else x
  let v := nodeValue o.op o.ty edges (fun u => wide (leaf u)) (edges.length + 1) root
  if half then (cvtFpFp o.ty .rne 0 false (fpVal .f32 v)).1 else v

end Sys2Proof.Forms

/-- CLRED, CLRSC, CLBC and CLGATH read their record at issue and join context 6; a core holds four, those of its suspended contexts among
them. CLTBL reads the version, the
device number, a link-table entry or a word of the fault record. CLABT issues and aborts the context: with no collective begun and no chunk
left to write, it discards the operations and fails the lowest incomplete batch with cause 9; with RES = 1, at S only,
lets it go on after a translation fault, and the chunks of its that such a fault held (R429 to R431, R441, R443 to R446; log entry 66). -/
def Obligations.CollectivesIssue : Prop :=
  ∀ (s : State) (cop : ClOp) (ty : Ty) (q : BitVec 3) (sd sa : BitVec 6), inRegion s →
    let c := s.core.ctx
    let t := c.t6
    let a := sreg c sa
    let p := a.toNat / 2 ^ 8 % 2 ^ 7
    let entry := look 0 s.dev.mgmt.table (72 * (a.toNat % 2 ^ 8) + p)
    let me : CRef := ⟨s.core.sk, s.core.ix, c.part⟩
    let count := fun (x : Ctx) => if s.dev.endings.any (fun e => e.cref = ⟨s.core.sk, s.core.ix, x.part⟩ && e.cause = 9) then 0
      else x.t6.ops.length
    let held := count c + (s.core.susp.map count).sum
    let joins := fun i form op ty => RangeCases i s [(a, 64, 64)] (LineCases i s [(a, 64, 64)]
      ((4 ≤ held → exec i s = .next s) ∧
       (held < 4 → srcsBad s.core.gang c [.s sa] = none →
        ((∀ f, t.failed = some f → t.closed.toNat < f) → Joins i s 6 (.col ⟨form, op, ty, readLe c.scr a.toNat 64⟩) id) ∧
        (∀ f, t.failed = some f → f ≤ t.closed.toNat → Dropped i s 6))))
    let tables := [w64 s.dev.mgmt.ltver, w64 s.dev.mgmt.devnum, if p < 72 then w64 entry.toNat else 0, t.rec0, t.rec1, t.rec2,
      t.rec3]
    (mayCompute s →
      joins (.clred cop ty sa) .red cop ty ∧ joins (.clrsc cop ty sa) .rsc cop ty ∧
      joins (.clbc sa) .bc .sum .n8 ∧ joins (.clgath sa) .gath .sum .n8 ∧
      (∀ h : q.toNat < tables.length,
        GivesScalar (.cltbl sd sa q) s 1 sd tables[q.toNat] 0 (if q = 2 then [.s sa] else [])) ∧
      (t.openOps ≠ 0 → ∃ t', Settled (numbered t) t' ∧ exec .clabt s = exec .clabt (closing s 6 t')) ∧
      (t.openOps = 0 → ∃ c', Counted c (wordNow s) c' ∧
        exec .clabt s = .next (abortCols (s.setCtx { c' with pc := c'.pc + 8 }) me)) ∧
      (t.openOps = 0 → s.core.mode = .active → s.dev.cols = [] → s.dev.drains = [] → s.dev.endings = [] →
        (∀ k ∈ s.others, (k.sk, k.ix) ≠ (s.core.sk, s.core.ix)) →
        (∀ f, t.failed = some f → (∀ o ∈ t.ops, f ≤ o.batch) →
          Issues .clabt s fun c => { c with t6 := { t with ops := [], stopped := false } }) ∧
        AbortLower .clabt s 6 t ∧
        (t.failed = none → t.ops = [] → Issues .clabt s id) ∧
        (∀ op rest b, t.failed = none → t.ops = op :: rest → (∀ o ∈ t.ops, o.batch ≠ 0 ∧ b ≤ o.batch) →
          (∃ o ∈ t.ops, o.batch = b) →
          ∃ t', Settled { t with
              ops := [], failed := some b, failAddr := 0, stopped := false, cache := [], lost := [], sound := t.sound + soundAbove t b
              rec0 := w64 (9 + 2 ^ 31 + b % 2 ^ 32 * 2 ^ 32), rec1 := 0, rec2 := 0, rec3 := op.pc.setWidth 64 } t' ∧
            Issues .clabt s fun c => { c with t6 := t' }))) ∧
    (c.priv = .u → exec .clabtResume s = .next (trapIssue s 0x04 (wordNow s))) ∧
    (c.priv = .s →
      (t.stopped = false → Issues .clabtResume s id) ∧
      (t.stopped = true → ∃ c', Counted c (wordNow s) c' ∧
        exec .clabtResume s = .next { s.setCtx { c' with
            pc := c'.pc + 8, t6 := { t with stopped := false, rec0 := t.rec0 &&& ~~~(w64 (2 ^ 31)) } } with
          dev := { s.dev with drains := s.dev.drains.map fun x => if x.cref = me then { x with stuck := false } else x } }))

/-- A collective is checked and begun once every member has posted its operation; under the version of the table it was begun with, each
chunk then takes its value, from this member's bytes and the other members', is committed, and, unless a release of its context holds it, is
written whole to this member's destination, the bytes of its value at DST and its offset there; with the last chunk written the operation is
complete; a failure of another member before any chunk is committed fails it with cause 11. The value of a chunk of a reduction is, element
by element, the sum, the largest or the smallest, of integers or floats, combined up its tree; that of a broadcast is the root's bytes, and
that of a gather the bytes of each member in order of rank (R242, R428, R433 to R437, R439, R440, R442, R443; log entry 61 names the die a
chunk is read through). -/
def Obligations.CollectivesPerform : Prop :=
  ∀ (s : State) (r : CRef) (c : Ctx) (op : Op) (rest : List Op) (o : ColOp) (x : Collective) (k ver : Nat),
    ColTurn s r c op rest o →
    let dev := s.dev.mgmt.devnum
    let e := colRec o.recd
    let ms := memberList e.members
    let own := fun x' => { s with dev := setCol s.dev x' }
    (∀ peers, op.prog = .fresh → fabricBusy s.dev = false →
      let ps := peersOf e peers
      (colInvalid o e dev = true → (∀ y ∈ s.dev.cols, y.cref ≠ r) → s.dev.drains = [] → s.dev.endings = [] →
        ∃ c', ColFailed c op rest 5 0 c' ∧ exec (.collectiveStart r 0 peers) s = .next (putCtx s r c')) ∧
      (colInvalid o e dev = false → c.cls ≠ .d → e.src + srcLen o e dev ≤ 2 ^ 56 → e.dst + dstLen o e ≤ 2 ^ 56 →
        treesOf s.dev.mgmt.table ms ≠ [] → (dev :: ps.map (·.dev)).Nodup →
        ((∃ m ∈ ms, m ∉ dev :: ps.map (·.dev)) → exec (.collectiveStart r 0 peers) s = .next s) ∧
        ((∀ m ∈ ms, m ∈ dev :: ps.map (·.dev)) → (∀ p ∈ ps, peerAgrees o e p = true) →
          ∃ y, y.cref = r ∧ y.serial = op.serial ∧ y.peers = ps ∧ y.trees = treesOf s.dev.mgmt.table ms ∧
            y.version = s.dev.mgmt.ltver ∧ y.mark = [] ∧ y.value = [] ∧ y.written = [] ∧ y.next = none ∧ y.held = [] ∧
            (∀ n < chunkCount o e, 1 ≤ look 0 y.assign n ∧ look 0 y.assign n ≤ y.trees.length) ∧
            exec (.collectiveStart r 0 peers) s =
              .next (putCtx { s with dev := { s.dev with cols := s.dev.cols ++ [y] } } r { c with t6 := { c.t6 with
                ops := { op with prog := .running 0 0 } :: rest } })))) ∧
    (∀ m < 256, (m ∉ ms ∨ m = dev → exec (.chunkReduced r 0 ⟨k, ver⟩ (some m)) s = .next s) ∧
      (m ∈ ms → m ≠ dev → colOf s.dev r op.serial = some x → s.dev.cols = [x] → x.mark = [] → s.dev.drains = [] →
        s.dev.endings = [] → ∃ c' sp, ColFailed c op rest 11 m c' ∧ exec (.chunkReduced r 0 ⟨k, ver⟩ (some m)) s =
          .next (putCtx { s with dev := { s.dev with cols := [], spans := sp } } r c'))) ∧
    (colOf s.dev r op.serial = some x → x.next = none → ver % 2 ^ 32 = x.version →
      (∀ d bs, bucketHeld c op.serial = false → k < chunkCount o e → look 0 x.mark k = 0 →
        (x.mark.filter fun p => p.2 = 1 && look 0 x.assign p.1 = look 0 x.assign k).length < 4 →
        let lo := (chunkSpan o e k).1
        let n := (chunkSpan o e k).2
        let own := ownBytes o e dev lo n
        let key := chunkKey' r op.serial 0 k
        let byte := sourceByte x dev bs own.2.2
        ∀ die, fabricDie s.dev r key = some die →
        spanRead (setCol s.dev x) die 2 c.ifc (e.src + own.2.2) own.2.1 key = .ok d bs → bs.length = own.2.1 →
        ∃ v, exec (.chunkReduced r 0 ⟨k, ver⟩ none) s =
            .next { s with dev := setCol d { x with mark := store 0 x.mark k 1, value := store [] x.value k v } } ∧
          (o.form = .bc → v = (List.range n).map fun i => byte e.root (lo + i)) ∧
          (o.form = .gath → v = (List.range n).map fun i => byte (ms.getD ((lo + i) / e.count) 0) ((lo + i) % e.count)) ∧
          (∀ rate edges, o.form = .red ∨ o.form = .rsc → x.trees[look 0 x.assign k - 1]? = some (rate, edges) →
            o.ty ∈ [Ty.i32, .n32, .f32, .f16, .bf16] →
            let w := tyBits o.ty / 8
            n % w = 0 → v.length = n ∧ ∀ i < n / w, elemOf w v i = reducedElem o edges (ms.headD 0) fun u =>
              ofBytes ((List.range w).map fun y => byte u (lo + w * i + y)))) ∧
      (look 0 x.mark k = 1 → receives o e dev k = true → look false x.written k = false →
        exec (.chunkCommit r 0 ⟨k, ver⟩) s = .next (own { x with mark := store 0 x.mark k 2 })) ∧
      (let v := look [] x.value k
        let lo := (chunkSpan o e k).1
        let va := e.dst + if o.form = .rsc then lo % (e.count * (tyBits o.ty / 8) / ms.length) else lo
        let gs := if v = [] then [] else (List.range ((va + v.length - 1) / 32 + 1 - va / 32)).map (va / 32 + ·)
        let key := chunkKey' r op.serial 1 k
        ∀ s1 die, k ∈ toWrite o e dev x → fencePending c op.serial false = false → fabricDie s.dev r key = some die →
        spanWrite s die 2 c.ifc (wbytes va v) gs (some r.sk) key = (s1, .done) →
        let y := { x with written := store false x.written k true }
        let s2 := { s1 with dev := setCol s1.dev y }
        (colOf s1.dev r op.serial = some x → toWrite o e s1.dev.mgmt.devnum y ≠ [] →
          exec (.chunkWrite r 0 k) s = .next s2) ∧
        (∀ c1, colOf s1.dev r op.serial = some x → getCtx s1 r = some c1 → c1.t6 = c.t6 →
          toWrite o e s1.dev.mgmt.devnum y = [] → chunksDone x = chunkCount o e →
          ∃ t', Settled { c.t6 with ops := rest } t' ∧
            exec (.chunkWrite r 0 k) s = .next { putCtx s2 r { c1 with t6 := t' } with
              dev := { s2.dev with cols := s2.dev.cols.filter fun z => !(z.cref = r && z.serial = op.serial) } })))

namespace Sys2Proof.Forms
open Sys2Proof Sys2Proof.Machine

/-- A port that sends the flits of its retry buffer again, in order, each with the present ACK (R420). -/
def resent (x : Port) : Port := { x with wire := x.retry.map fun f => mkFlit (flitType f) (flitSeq f) (ackOf x) f.payload }

/-- A port that has left UP to retrain: its flits are discarded, SEQ restarts at 0 in both directions, and RETRAIN counts it (R421,
Table 18.9). -/
def unlinked (x : Port) : Port :=
  { x with state := 3, retry := [], outbox := [], wire := [], inbox := [], txSeq := 0, rxSeq := 0, replays := 0, replaySeq := 0
           tries := 0, retrain := min 255 (x.retrain + 1) }

/-- A port that has taken an ACK: the flits of the retry buffer up to the one it names are retired, and their replays have succeeded (R420).
-/
def Acked (x : Port) (ack : Nat) (x' : Port) : Prop :=
  ((∀ y ∈ x.retry, flitSeq y ≠ ack) ∧ x' = x) ∨
    ∃ pre g post, x.retry = pre ++ g :: post ∧ (∀ y ∈ pre, flitSeq y ≠ ack) ∧ flitSeq g = ack ∧
      x' = { x with retry := post, replays := 0, replaySeq := 0 }

/-- A device whose link table, its version and the flood of it may have changed, and nothing else (R425). -/
def Tabled (d0 d : Device) : Prop :=
  d = { d0 with ports := d.ports, mgmt := { d0.mgmt with ltver := d.mgmt.ltver, table := d.mgmt.table, floods := d.mgmt.floods } } ∧
  ∀ q, portUp d0 q = false → portOf d q = portOf d0 q

end Sys2Proof.Forms

/-- A port in UP takes flits: the ACK of every good flit, and a NAK, retires the flits of the retry buffer up to the one it names, a bad
flit or one out of order is answered by a NAK that names the last good SEQ, one in order is delivered and SEQ advances; a NAK has the rest
sent again in order, and after eight failed replays of one SEQ the port retrains. Training that succeeds brings it UP with its far end, at
full or half rate, and a third failure leaves it DOWN; every change of its state raises management vector 2, and one to or from UP is
announced to the keeper. A change of the table is adopted by the keeper from a notice, and by every device from a flood of a newer version;
what a collective in progress does then is `adoptAll` of the model. That a device announces its own ports again where the table it has
adopted shows them otherwise, and that a flood of its own version with another table shows a link that has joined two sets, whose keeper
then issues a version above both, is the model's reading of R425, log entry 92. In a hold nothing of a port happens (R396, R419 to R422,
R425, R426, R447, R448). -/
def Obligations.PortsAndTable : Prop :=
  (∀ (d : Device) (t : Sparse (BitVec 32)) (u q : Nat), q < 72 → look 0 (joinTables d t) (72 * u + q) =
    if u ∈ reachable (ownTable d) 256 [d.mgmt.devnum] then look 0 (ownTable d) (72 * u + q) else look 0 t (72 * u + q)) ∧
  ∀ (s : State) (p : Nat) (f : Flit) (half : Bool) (seq ver dev fd fp : Nat) (l : List (Nat × BitVec 32)),
    let x := portOf s.dev p
    let now := fun x' => Host.Outcome.next { s with dev := setPort s.dev p x' }
    let announced := fun x' => portsChanged { s with dev := raiseVec (setPort s.dev p x') 0 2 }
    (portUp s.dev p = true → s.dev.sun.parked = false →
      (∀ x', Acked x seq x' →
        (x'.retry = [] → exec (.nak p seq) s = now (pump x')) ∧
        (∀ y ys, x'.retry = y :: ys → ¬ (x'.replays ≠ 0 ∧ x'.replaySeq = flitSeq y) →
          exec (.nak p seq) s = now (resent { x' with replaySeq := flitSeq y, replays := 1 })) ∧
        (∀ y ys, x'.retry = y :: ys → x'.replays ≠ 0 → x'.replaySeq = flitSeq y →
          (x'.replays < 8 → exec (.nak p seq) s = now (resent { x' with replays := x'.replays + 1 })) ∧
          (8 ≤ x'.replays → exec (.nak p seq) s = .next (announced (unlinked x'))))) ∧
      (flitGood f = false → exec (.flitReceive p f) s = now { x with wire := [mkFlit 3 0 (ackOf x) 0] }) ∧
      (flitGood f = true → ∀ x', Acked x (flitAck f) x' →
        (flitType f = 0 → exec (.flitReceive p f) s = now (pump x')) ∧
        (flitType f = 1 ∨ flitType f = 2 →
          (flitSeq f = x.rxSeq →
            exec (.flitReceive p f) s = now (pump { x' with rxSeq := (x.rxSeq + 1) % 4096, inbox := x.inbox ++ [f] })) ∧
          (flitSeq f ≠ x.rxSeq → exec (.flitReceive p f) s = now { x' with wire := [mkFlit 3 0 (ackOf x) 0] })) ∧
        (flitType f = 3 → exec (.flitReceive p f) s = exec (.nak p (flitAck f)) s)) ∧
      exec (.portRetrain p) s = .next (announced (unlinked x))) ∧
    (p < 72 → (dieOf s.dev (21 + p / 24)).state = 2 → x.state = 1 ∨ x.state = 3 → s.dev.sun.parked = false →
      exec (.portTrainComplete p ⟨true, half⟩ fd fp) s = .next (announced { x with
        state := 2, tries := 0, farDev := fd % 2 ^ 8, farPort := fp % 2 ^ 7, rate := if half then 56 else 112 }) ∧
      (x.state = 1 → exec (.portTrainComplete p ⟨false, half⟩ fd fp) s = .next s) ∧
      (x.state = 3 →
        (x.tries < 2 → exec (.portTrainComplete p ⟨false, half⟩ fd fp) s = now { x with tries := x.tries + 1 }) ∧
        (2 ≤ x.tries → exec (.portTrainComplete p ⟨false, half⟩ fd fp) s =
          .next { s with dev := raiseVec (setPort s.dev p { x with state := 0, tries := 3 }) 0 2 }))) ∧
    (s.dev.sun.parked = true → ∀ r, exec (.nak p seq) s = .next s ∧ exec (.flitReceive p f) s = .next s ∧
      exec (.portRetrain p) s = .next s ∧ exec (.portTrainComplete p r fd fp) s = .next s ∧
      exec (.changeNotice dev ver l) s = .next s ∧ exec (.floodReceive p ver l) s = .next s) ∧
    (dev < 256 → keeper s.dev = s.dev.mgmt.devnum → s.dev.sun.parked = false →
      ∃ d, exec (.changeNotice dev ver l) s = .next (adoptAll { s with dev := d }) ∧ Tabled s.dev d ∧
        d.mgmt.ltver = ((if newer ver s.dev.mgmt.ltver then ver else s.dev.mgmt.ltver) + 1) % 2 ^ 32 ∧
        ((l.map (·.1)).Nodup → ∀ y ∈ l, y.1 < 72 → look 0 d.mgmt.table (72 * dev + y.1) = y.2 &&& 0xFFFFFF) ∧
        ∀ a, (∀ y ∈ l, y.1 < 72 → a ≠ 72 * dev + y.1) → look 0 d.mgmt.table a = look 0 s.dev.mgmt.table a) ∧
    (keeper s.dev ≠ s.dev.mgmt.devnum → exec (.changeNotice dev ver l) s = .next s) ∧
    (newer ver s.dev.mgmt.ltver = false → ver % 2 ^ 32 ≠ s.dev.mgmt.ltver ∨ floodTable l = s.dev.mgmt.table →
      exec (.floodReceive p ver l) s = .next s) ∧
    (portUp s.dev p = true → s.dev.sun.parked = false → ver % 2 ^ 32 = s.dev.mgmt.ltver → floodTable l ≠ s.dev.mgmt.table →
      newer ver s.dev.mgmt.ltver = false →
      let own := s.dev.mgmt.devnum
      let joined := joinTables s.dev (floodTable l)
      (keeperIn joined own = own → ∃ d, Tabled s.dev d ∧ d.mgmt.ltver = (s.dev.mgmt.ltver + 1) % 2 ^ 32 ∧
        exec (.floodReceive p ver l) s = .next (adoptAll { s with dev := d }) ∧
        (∀ q < 72, look 0 d.mgmt.table (72 * own + q) = portEntry s.dev q &&& 0xFFFFFF) ∧
        ∀ a, (∀ q < 72, a ≠ 72 * own + q) → look 0 d.mgmt.table a = look 0 joined a) ∧
      (keeperIn joined own ≠ own → exec (.floodReceive p ver l) s = .next { s with dev := { s.dev with mgmt := { s.dev.mgmt with
        notices := [(keeperIn joined own, s.dev.mgmt.ltver, (List.range 72).map fun q => (q, portEntry s.dev q))] } } })) ∧
    (portUp s.dev p = true → s.dev.sun.parked = false → newer ver s.dev.mgmt.ltver = true →
      ∃ d, Tabled s.dev d ∧ d.mgmt.ltver = ver % 2 ^ 32 ∧
        exec (.floodReceive p ver l) s =
          (let t := adoptAll { s with dev := d }
           .next (if ownCurrent t.dev = true then t else portsChanged t)) ∧
        ((l.map (·.1)).Nodup → ∀ y ∈ l, y.1 < 72 * 256 → look 0 d.mgmt.table y.1 = y.2 &&& 0xFFFFFF) ∧
        ∀ a, (∀ y ∈ l, a ≠ y.1) → look 0 d.mgmt.table a = 0)

/-! ## The host's side -/

namespace Sys2Proof.Forms
open Sys2Proof Sys2Proof.Machine

/-- The outcome in which the device alone has changed. -/
def devTo (s : State) (d : Device) : Host.Outcome State Fault Refusal := .next { s with dev := d }

/-- The device with a boundary wanted: something may let work go on (R175). -/
def wanted (d : Device) : Device := { d with sun := { d.sun with want := true } }

/-- The device with a launch of an interface that `hit` selects cancelled now, unless it already is (R169). -/
def cancelled (d : Device) (fn : Nat) (hit : Launch → Bool) : Device :=
  wanted { d with launches := d.launches.map fun l =>
    if l.ifc = fn && hit l && l.cancel.isNone then { l with cancel := some d.clock } else l }

/-- A bit of an interface's IFERR is set; what an MSI-X vector adds is not said here (Table 18.4). -/
def ErrSet (d : Device) (fn bit : Nat) (d' : Device) : Prop :=
  (ifcOf d' fn).iferr = (ifcOf d fn).iferr ||| w64 (2 ^ bit) ∧
    d' = { d with ifcs := d'.ifcs } ∧ ∀ k, k ≠ fn → ifcOf d' k = ifcOf d k

/-- Bits lo to lo + n - 1 of a word, in their place. -/
def field (v : Word) (lo n : Nat) : Word := w64 (v.toNat / 2 ^ lo % 2 ^ n * 2 ^ lo)

/-- A launch as the counters of a device leave it: one that waits for its counter becomes eligible once COUNT has reached WVAL, and
keeps FAIL as it stands then (R168). -/
def judged (d : Device) (l : Launch) : Launch :=
  let x := (look 0 d.counters (cbaseOf (ifcOf d l.ifc) + l.recd.wcnt)).toNat
  if l.placed = false ∧ l.recd.wcnt ≠ 65535 ∧ l.elig = none ∧ l.recd.wval % 2 ^ 48 ≤ x % 2 ^ 48 then
    { l with elig := some (x.testBit 48) } else l

/-- Whether an operation of context 5 has been sent and not performed. -/
def sentOp (o : Op) : Prop := ∃ a b, o.prog = .running a b

/-- Accesses of an interface that have been translated are still to be performed, or a walk for it to end (R214). -/
def translating (s : State) (fn : Nat) : Prop :=
  (∃ p ∈ s.dev.gbuf, ∃ w ∈ p.2, w.ifc = fn) ∨ (∃ w ∈ s.dev.walks, w.ifc = fn) ∨ (∃ x ∈ s.dev.hbm.waits, x.asker.ifc = fn) ∨
    ∃ k ∈ s.cores, (k.mode = .active ∧ k.ctx.ifc = fn ∧ ∃ o ∈ k.ctx.t5.ops, sentOp o) ∨
      ∃ c ∈ k.susp, c.ifc = fn ∧ ∃ o ∈ c.t5.ops, sentOp o

/-- A launch restored from its checkpoint is marked running before it goes on (R349; log entry 119). -/
def markedRunning (r : Run) : Bool := r.phase = .running || (r.phase = .ready && r.nss ≠ 0)

/-- The reads of a cancel, record by record: a ready record whose JOB or GRAPH is the one named is marked, one whose read waits is left for
later, and one that cannot be read stops its queue (R169, R407). -/
def CancelReads (fn : Nat) (graph : Bool) (id : Nat) : Device → List (Nat × Nat) → Device → List (Nat × Nat) → Prop
  | d, [], d', left => d' = d ∧ left = []
  | d, p :: r, d', left =>
    let k := qbaseOf (ifcOf d fn) + p.1
    let x := queueOf d k
    let key := [8, fn, if graph then 1 else 0, id, p.1, p.2]
    let read := spanRead d tlbHost 4 fn (x.ring.toNat % 2 ^ 56 + 256 * p.2 + 0x38) 4 key
    let stops := fun (d1 : Device) =>
      ∃ d2, ErrSet (setQueue d1 k { x with stop := true }) fn 0 d2 ∧ CancelReads fn graph id d2 r d' left
    (∀ d1, read = .wait d1 → ∃ l, left = p :: l ∧ CancelReads fn graph id d1 r d' l) ∧
    (∀ d1 bs, read = .ok d1 bs →
      let k1 := qbaseOf (ifcOf d1 fn) + p.1
      let y := queueOf d1 k1
      let hit := (if graph then ofBytes bs / 65536 else ofBytes bs % 65536) = id
      CancelReads fn graph id (if hit then setQueue d1 k1 { y with marks := (p.2 :: y.marks).eraseDups } else d1) r d' left) ∧
    (∀ d1 a e, read = .bad d1 a e → stops d1) ∧
    (∀ d1 a e, read = .stop d1 a e → stops (dropSpan d1 key))

end Sys2Proof.Forms

/-- QTAIL takes a tail of an enabled queue that lies in the ring and does not move back; one that leaves it as it is does nothing,
and any other write sets IFERR bit 1 and changes nothing else. QCTL takes EN, and LOG2SZ while EN = 0, and the change of EN to 1
clears head, tail and STOP, leaves a fetched head behind and ends the reads of cancels in that queue. A completion counter takes the
49 bits written, and launches that wait for it are judged; a pre-emption request marks the running launch of its slot in metered
mode; a cancel marks the launches it names and, as it reads the records ready in any of the function's queues, those it names. A record
that is fetched and passes its check becomes the head's launch, which waits for its counter if it names one; one that is marked, fails
its check, or finds its counter failed ends as CANCELLED, REJECTED or SKIPPED; one that cannot be fetched yet is left for a later fetch.
No clause says what a placement then does, nor, here, what `terminate` does (R166, R168, R169, R172, R345, R349, R406, R407; log entries
71, 76 and 119). -/
def Obligations.QueueAndCounterWrites : Prop :=
  ∀ (s : State) (fn q : Nat) (v : Word) (c id slot : Nat), fn < 64 → s.dev.mgmt.recovery = false → fn = 0 ∨ s.dev.mgmt.vfEnable = true →
    q < nqOf (ifcOf s.dev fn) →
    let d := s.dev
    let f := ifcOf d fn
    let k := qbaseOf f + q
    let x := queueOf d k
    let n := 2 ^ x.log2sz
    let t := v.toNat % 65536
    let pend := (x.tail + n - x.head) % n
    let lg := if 4 ≤ v.toNat / 2 % 16 then v.toNat / 2 % 16 else 4
    let onHead := ∃ l, x.fetched.bind (launchOf d) = some l ∧ l.adv = true
    let ready := ∃ j < pend, slot = (x.head + j) % n ∧ (onHead → 0 < j)
    let readyIn := fun (y : Queue) a => ∃ j < queuePending y, a = (y.head + j) % 2 ^ y.log2sz ∧
      ((∃ l, y.fetched.bind (launchOf d) = some l ∧ l.adv = true) → 0 < j)
    (x.en = false ∨ n ≤ t ∨ (t + n - x.head) % n < pend →
      ∃ d', ErrSet d fn 1 d' ∧ exec (.qtailWrite fn q v) s = devTo s d') ∧
    (x.en = true → t < n → pend ≤ (t + n - x.head) % n →
      (t = x.tail → exec (.qtailWrite fn q v) s = .next s) ∧
      (t ≠ x.tail → exec (.qtailWrite fn q v) s = devTo s (wanted (setQueue d k { x with tail := t })))) ∧
    (x.en = true → exec (.qctlWrite fn q v) s = devTo s (setQueue d k { x with en := v.getLsbD 0 })) ∧
    (x.en = false → v.getLsbD 0 = false →
      exec (.qctlWrite fn q v) s = devTo s (setQueue d k { x with log2sz := lg })) ∧
    (x.en = false → v.getLsbD 0 = true → ∀ d0, (x.fetched.bind (launchOf d) = none → d0 = d) →
      (∀ l, x.fetched.bind (launchOf d) = some l → d0 = setLaunch d { l with adv := false }) →
      ∃ cs sp, exec (.qctlWrite fn q v) s = devTo s (setQueue { d0 with cancels := cs, spans := sp } k { x with
          en := true, log2sz := lg, head := 0, tail := 0, stop := false, marks := [], late := false }) ∧
        (∀ y, y ∈ sp ↔ y ∈ d.spans ∧ (∀ a, y.key ≠ [7, k, a]) ∧ ∀ a b e, y.key ≠ [8, fn, a, b, q, e]) ∧
        ∀ y, y ∈ cs ↔ y.slots ≠ [] ∧ ∃ z ∈ d.cancels,
          y = { z with slots := z.slots.filter fun p => !(z.ifc = fn && p.1 = q) }) ∧
    (c < ncntOf f →
      let d1 := { d with counters := store 0 d.counters (cbaseOf f + c) (field v 0 49) }
      exec (.counterWrite fn c v) s = devTo s (wanted { d1 with launches := d.launches.map (judged d1) })) ∧
    (ncntOf f ≤ c → exec (.counterWrite fn c v) s = .next s) ∧
    (let d1 := setIfc d fn { f with preempt := w64 (slot % 65536 + q % 8192 * 65536) }
     let named := fun (r : Run) => markedRunning r &&
       (launchOf d r.launch).any fun l => l.ifc = fn && l.queue = q && l.slot = slot
     exec (.preemptRequest fn q slot) s = devTo s (if d.sun.metered then
       { d1 with runs := d.runs.map fun r => if named r then { r with preempt := true } else r } else d1)) ∧
    (d.cancels = [] → ∀ graph : Bool,
      let i := if graph then Instr.cancelGraph fn id else .cancelJob fn id
      let base := cancelled d fn fun l => if graph then l.recd.graph = id % 65536 else l.recd.job = id % 65536
      let later := fun (d' : Device) slots =>
        if slots = [] then d' else { d' with cancels := d'.cancels ++ [⟨fn, graph, id % 65536, slots⟩] }
      ∃ slots, slots.Nodup ∧ (∀ p, p ∈ slots ↔ p.1 < nqOf f ∧ readyIn (queueOf d (qbaseOf f + p.1)) p.2) ∧
        (d.sun.parked = true ∨ (∃ p ∈ d.posted, p.fn = fn) → exec i s = devTo s (later base slots)) ∧
        (d.sun.parked = false → (∀ p ∈ d.posted, p.fn ≠ fn) →
          ∃ d' left, CancelReads fn graph (id % 65536) base slots d' left ∧ exec i s = devTo s (later d' left))) ∧
    (let d1 := cancelled d fn fun l => l.queue = q && l.slot = slot
     (¬ ready → exec (.cancelSlot fn q slot) s = devTo s d1) ∧
     (ready → ∃ m, (∀ y, y ∈ m ↔ y = slot ∨ y ∈ x.marks) ∧
       exec (.cancelSlot fn q slot) s = devTo s (setQueue d1 k { x with marks := m }))) ∧
    (ownerOf d k = some (fn, q) → x.en = true → x.stop = false → pend ≠ 0 → x.fetched = none →
      (fetchAllowed d = false → exec (.recordFetch k) s = devTo s (setQueue d k { x with late := true })) ∧
      (fetchAllowed d = true → d.posted = [] → d.resets = [] → d.cancels = [] →
        let at' := x.ring.toNat % 2 ^ 56 + 256 * x.head
        let read := spanRead d tlbHost 4 fn at' 256 [7, k, at']
        (∀ d', read = .wait d' → exec (.recordFetch k) s = devTo s (setQueue d' k { x with late := true })) ∧
        (∀ d' a e, read = .bad d' a e ∨ read = .stop d' a e →
          ∃ d1, ErrSet (setQueue d' k { x with stop := true }) fn 0 d1 ∧ exec (.recordFetch k) s = devTo s d1) ∧
        (∀ d' bs, read = .ok d' bs →
          let rec0 := ofBytes bs
          let l := newLaunch d' fn q x rec0
          ifcOf d' fn = f → d'.queues = d.queues →
          let rejected := fun st detail =>
            let t := terminate { s with dev := { d' with nextId := d'.nextId + 1 } } l st detail
            exec (.recordFetch k) s = .next { t with dev := advanceHead t.dev l }
          (pend = 1 → x.head ∈ x.marks → rejected 4 0) ∧
          (∀ off, pend = 1 → x.head ∉ x.marks → recordCheck d' fn rec0 = some off → rejected 6 off) ∧
          (x.head ∉ x.marks → recordCheck d' fn rec0 = none → (∀ y ∈ d'.launches, y.id ≠ d'.nextId) →
            let d1 := { setQueue d' k { x with fetched := some l.id, late := false } with
              nextId := d'.nextId + 1, launches := (d'.launches ++ [l]).map (judged d') }
            let l1 := judged d' l
            let now := fun (w : Bool) => exec (.recordFetch k) s = devTo s { d1 with sun := { d'.sun with want := d'.sun.want || w } }
            (l.recd.wcnt = 65535 ∨ l1.elig = some false → now x.late) ∧
            (l.recd.wcnt ≠ 65535 → l1.elig = none → now false) ∧
            (pend = 1 → l.recd.wcnt ≠ 65535 → l1.elig = some true →
              exec (.recordFetch k) s = .next (terminate { s with dev := advanceHead d1 l1 } l1 5 0))))))

/-- TTINV and TTROOT take their fields and drop the cached translations they cover; DONE in TTINV returns once no access that has been
translated, and no walk, is left, and context 5 of the interface's contexts then asks for the retry of a stopped operation. SVADDR and
SVSIZE take their fields and GEN increases. A read of the aperture answers with the bytes or with Unsupported Request, a write of it is
performed or sets IFERR bit 2, and either stays sent while it must wait. Software unmasks a vector, and each pending message that is enabled
and unmasked is sent; a conventional reset masks all. A function level reset cancels the interface's launches and stops its queues, and once
nothing of them is left resets its registers and zeroes its memory; the PF's resets every interface and clears VF Enable, each interface
being done as it has nothing left, and so does software when it clears that bit. The other registers take what their tables say (R176, R214,
R404, R405, R408 to R410, R415, R450; log entries 23, 71, 78 and 80). -/
def Obligations.InterfaceRegisters : Prop :=
  ∀ (s : State) (fn : Nat) (v : Word) (off len vec : Nat) (data : List Byte) (enable mask vf : Bool), fn < 64 →
    fn = 0 ∨ (s.dev.mgmt.recovery = false ∧ s.dev.mgmt.vfEnable = true) →
    let d := s.dev
    let f := ifcOf d fn
    let page := fun (w : Word) => w.toNat / 2 ^ 16 % 2 ^ 40 * 2 ^ 16
    let drops := fun (all : Bool) (w : Word) (d' : Device) =>
      let covered := fun (e : TlbEntry) => e.ifc = fn ∧ (all = true ∨ page w / 2 ^ e.bits = e.va / 2 ^ e.bits)
      (∀ p ∈ d'.tlb, ∃ p0 ∈ d.tlb, p0.1 = p.1 ∧ ∀ e, e ∈ p.2 ↔ e ∈ p0.2 ∧ ¬ covered e) ∧
      (∀ p ∈ d.tlb, ∀ e ∈ p.2, ¬ covered e → ∃ p' ∈ d'.tlb, p'.1 = p.1 ∧ e ∈ p'.2)
    let again := fun (c : Ctx) => if c.ifc = fn ∧ c.t5.stopped = true then { c with t5 := { c.t5 with retry := true } } else c
    let retry := fun (k : Core) =>
      { k with ctx := if k.mode = .active then again k.ctx else k.ctx, susp := k.susp.map again }
    let gen := (f.svsize.toNat / 2 ^ 32 % 2 ^ 16 + 1) % 2 ^ 16 * 2 ^ 32
    let va := f.apbase.toNat / 2 ^ 36 % 2 ^ 20 * 2 ^ 36 + off % 2 ^ 36
    (∃ d', drops (v.getLsbD 0) v d' ∧ exec (.ttinvWrite fn v) s = devTo s d' ∧
      d' = { setIfc d fn { f with ttinv := field v 0 1 ||| field v 16 40 } with tlb := d'.tlb }) ∧
    (∃ d', drops true v d' ∧ exec (.ttrootWrite fn v) s = devTo s d' ∧ (∀ k, k ∈ d'.invals ↔ k = fn ∨ k ∈ d.invals) ∧
      d' = { setIfc d fn { f with ttroot := field v 0 1 ||| field v 12 36, ttinv := f.ttinv &&& ~~~2 } with
        tlb := d'.tlb, invals := d'.invals }) ∧
    (f.ttinv.getLsbD 1 = true ∨ translating s fn → exec (.ttinvDone fn) s = .next s) ∧
    (f.ttinv.getLsbD 1 = false → ¬ translating s fn → ∃ d', drops (f.ttinv.getLsbD 0 || d.invals.contains fn) f.ttinv d' ∧
      (∀ k, k ∈ d'.invals ↔ k ∈ d.invals ∧ k ≠ fn) ∧
      d' = { setIfc d fn { f with ttinv := f.ttinv ||| 2 } with
        tlb := d'.tlb, invals := d'.invals
        drains := d.drains.map fun x => if x.ifc = fn then { x with stuck := false } else x } ∧
      exec (.ttinvDone fn) s = .next { s with dev := d', core := retry s.core, others := s.others.map retry }) ∧
    exec (.svimageWrite fn false v) s = devTo s (setIfc d fn { f with
      svaddr := field v 3 53, svsize := w64 (f.svsize.toNat % 2 ^ 17 + gen) }) ∧
    exec (.svimageWrite fn true v) s = devTo s (setIfc d fn { f with
      svsize := w64 (min (v.toNat % 2 ^ 17) 65536 / 8 * 8 + gen) }) ∧
    (let rd := fun (l : List Posted) (d' : Device) => devTo s { d' with posted := l ++ [⟨fn, va, [], len⟩] }
     let wr := fun (l : List Posted) (t : State) => devTo t { t.dev with posted := l ++ [⟨fn, va, data, 0⟩] }
     (d.sun.parked = true → exec (.apertureRead fn off len) s = rd d.posted d ∧
       (data ≠ [] → exec (.apertureWrite fn off data) s = wr d.posted s)) ∧
     (data = [] → exec (.apertureWrite fn off data) s = .next s) ∧
     (d.sun.parked = false → d.posted = [] →
       (∀ d' bs, spanRead d tlbHost 6 fn va len [5, fn] = .ok d' bs → exec (.apertureRead fn off len) s =
         devTo s { d' with host := { d'.host with rdata := bs, unsupported := false } }) ∧
       (∀ d', spanRead d tlbHost 6 fn va len [5, fn] = .wait d' → exec (.apertureRead fn off len) s = rd d'.posted d') ∧
       (∀ d' a k, spanRead d tlbHost 6 fn va len [5, fn] = .bad d' a k ∨ spanRead d tlbHost 6 fn va len [5, fn] = .stop d' a k →
         ∃ d1, ErrSet (dropSpan d' [5, fn]) fn 2 d1 ∧ exec (.apertureRead fn off len) s =
           devTo s { d1 with host := { d'.host with rdata := [], unsupported := true } }) ∧
       (∀ s' e, data ≠ [] →
         spanWrite s tlbHost 6 fn (wbytes va data) (spanOf va data.length) none [5, fn] = (s', e) →
         (e = .done → exec (.apertureWrite fn off data) s = .next s') ∧
         (e = .wait → exec (.apertureWrite fn off data) s = wr s'.dev.posted s') ∧
         (∀ a k, e = .bad a k ∨ e = .stop a k →
           ∃ d1, ErrSet (dropSpan s'.dev [5, fn]) fn 2 d1 ∧ exec (.apertureWrite fn off data) s = devTo s' d1)))) ∧
    (f.masked < 8 → f.pending < 8 → ∃ m p, (∀ k, m.testBit k = (f.masked.testBit k && k ≠ vec)) ∧
      let goes := fun k => enable && !mask && f.pending.testBit k && !m.testBit k
      (∀ k, p.testBit k = (f.pending.testBit k && !goes k)) ∧
      let unmasked := setIfc d fn { f with
        masked := m, pending := p, msixEn := enable, fnMask := mask, sent := f.sent + ((List.range 3).filter goes).length }
      (fn ≠ 0 → exec (.msixUnmask fn ⟨vec, enable, mask, vf⟩) s = devTo s unmasked) ∧
      (fn = 0 → d.mgmt.vfEnable = false ∨ vf = true → exec (.msixUnmask fn ⟨vec, enable, mask, vf⟩) s =
        devTo s { unmasked with mgmt := { d.mgmt with vfEnable := vf && !d.mgmt.recovery } }) ∧
      (fn = 0 → d.mgmt.vfEnable = true → vf = false → ∃ e, exec (.msixUnmask fn ⟨vec, enable, mask, vf⟩) s = devTo s e ∧
        e.mgmt = { d.mgmt with vfEnable := false } ∧ e.ifcs = unmasked.ifcs ∧ (∀ k, 0 < k → k < 64 → k ∈ e.resets) ∧
        ∀ l ∈ e.launches, 0 < l.ifc → l.ifc < 64 → l.cancel ≠ none)) ∧
    (∃ d', exec .pcieConventionalReset s = devTo s d' ∧ d' = { d with ifcs := d'.ifcs } ∧
      ∀ k < 64, ifcOf d' k = { ifcOf d k with masked := 7, fnMask := false, msixEn := false }) ∧
    (let left := fun n => (∃ l ∈ d.launches, l.ifc = n) ∨ (∃ o ∈ d.owed, o.ifc = n) ∨ (∃ x ∈ d.drains, x.ifc = n) ∨
       (∃ p ∈ d.posted, p.fn = n) ∨ (∃ x ∈ d.hbm.waits, x.asker.ifc = n) ∨ ∃ p ∈ d.gbuf, ∃ w ∈ p.2, w.ifc = n
     let begun := fun (e : Device) n =>
       (∀ j < nqOf (ifcOf d n), let x := queueOf e (qbaseOf (ifcOf d n) + j)
         x.en = false ∧ x.stop = false ∧ x.head = 0 ∧ x.tail = 0 ∧ x.fetched = none ∧ x.marks = [] ∧ x.late = false) ∧
       ∀ l ∈ e.launches, l.ifc = n → l.cancel ≠ none
     let kept := fun (e : Device) (mine : Nat → Prop) => e.launches.length = d.launches.length ∧
       (∀ y, y ∈ e.cancels ↔ y ∈ d.cancels ∧ ¬ mine y.ifc ∧ y.slots ≠ []) ∧ e.sun = { d.sun with want := true }
     let ended := fun (t : State) n =>
       ifcOf t.dev n = { ifcOf d n with
         masked := 7, fnMask := false, msixEn := false, limits := 0x00000D48_00000D48, apbase := 0, iferr := 0, ttroot := 0
         svaddr := 0, svsize := 0 } ∧
       (∀ c < ncntOf (ifcOf d n), look 0 t.dev.counters (cbaseOf (ifcOf d n) + c) = 0) ∧
       (∀ p ∈ t.dev.tlb, ∀ e ∈ p.2, e.ifc ≠ n) ∧ (∀ w ∈ t.dev.walks, w.ifc ≠ n) ∧ t.core.svIfc ≠ some n
     d.resets = [] → (d.launches.map (·.id)).Nodup →
      (fn ≠ 0 → left fn ∨ d.sun.parked = true → ∃ e, exec (.functionLevelReset fn) s = devTo s e ∧ begun e fn ∧ kept e (· = fn) ∧
        e.resets = [fn] ∧ e = { d with
          sun := e.sun, queues := e.queues, launches := e.launches, cancels := e.cancels, spans := e.spans, resets := e.resets }) ∧
      (fn ≠ 0 → ¬ left fn → d.sun.parked = false → ∃ t, exec (.functionLevelReset fn) s = .next t ∧ begun t.dev fn ∧
        kept t.dev (· = fn) ∧ t.dev.resets = [] ∧ ended t fn ∧ (∀ k, k ≠ fn → ifcOf t.dev k = ifcOf d k) ∧
        (f.ttroot.getLsbD 0 = false → t.dev.hbm = d.hbm ∧ t.dev.hubs = d.hubs) ∧
        ∀ p ∈ ifcMemory d fn, ∀ a, p.1 ≤ a → a < p.1 + p.2 → byteAt t.dev.hbm.mem a = 0) ∧
      (fn = 0 → ∃ t, exec (.functionLevelReset fn) s = .next t ∧ t.dev.mgmt = { d.mgmt with vfEnable := false } ∧
        kept t.dev (· < 64) ∧ (∀ n < 64, begun t.dev n ∧
          (n ∈ t.dev.resets ↔ left n ∨ d.sun.parked = true) ∧
          (left n ∨ d.sun.parked = true → ifcOf t.dev n = ifcOf d n) ∧ (¬ left n → d.sun.parked = false → ended t n)))) ∧
    (let wr := fun o (d' : Device) => exec (.registerWrite fn false o v) s = devTo s d'
     let lim := fun x => if x = 0 ∨ 3400 < x then 3400 else x
     (v.getLsbD 63 = false → wr 0x20 (setIfc d fn { f with preempt := field v 0 29 })) ∧
     (v.getLsbD 63 = true → exec (.registerWrite fn false 0x20 v) s =
       exec (.preemptRequest fn (v.toNat / 2 ^ 16 % 2 ^ 13) (v.toNat % 2 ^ 16)) s) ∧
     wr 0x28 (setIfc d fn { f with limits := w64 (lim (v.toNat % 2 ^ 32) + lim (v.toNat / 2 ^ 32) * 2 ^ 32) }) ∧
     wr 0x30 (setIfc d fn { f with apbase := field v 36 20 }) ∧
     wr 0x38 (setIfc d fn { f with iferr := f.iferr &&& ~~~v }) ∧
     (vec < 3 → wr (0x1F0000 + 16 * vec) (setIfc d fn { f with msix := store 0 f.msix (2 * vec) (field v 2 62) })) ∧
     (∀ q < nqOf f, q < 8192 → d.mgmt.recovery = false →
       let k := qbaseOf f + q
       wr (0x1000 + 32 * q) (if (queueOf d k).en then d else setQueue d k { queueOf d k with ring := field v 12 44 }))) ∧
    (d.mgmt.recovery = false →
      let wr := fun o (d' : Device) => exec (.registerWrite 0 true o v) s = devTo s d'
      wr 0x18 { d with mgmt := { d.mgmt with cbthr := v.toNat % 65536 } } ∧
      wr 0x500 { d with mgmt := { d.mgmt with devnum := v.toNat % 256 } } ∧
      ∀ q < 8192, wr (0x10000 + 8 * q) (setQueue d q { queueOf d q with pri := v.toNat % 8 }))

namespace Sys2Proof.Forms
open Sys2Proof Sys2Proof.Machine

/-- A monitor record after a sample of `n`, in the bin of `n` (R399, Table 17.8). -/
def Sampled (c : MonRec) (n : Nat) (c' : MonRec) : Prop :=
  let b := if n = 0 then 0 else min 15 (Nat.log2 n + 1)
  c'.count = min (2 ^ 64 - 1) (c.count + 1) ∧ c'.sum = min (2 ^ 64 - 1) (c.sum + n) ∧ c'.min = min c.min n ∧ c'.max = max c.max n ∧
    ∀ j, look 0 c'.bins j = if j = b then min (2 ^ 32 - 1) (look 0 c.bins j + 1) else look 0 c.bins j

/-- The die that holds a register of the management window whose access changes it: the hub of a log ring, the fabric die of a port's
PORTSTAT; the host die has its own. -/
def homeDie (r : Nat) : Option Nat :=
  if r < 8 then some (16 + r % 4) else if 16 ≤ r ∧ r < 88 then some (21 + (r - 16) / 24) else none

/-- A management request waits while its die's link, or the host die's, retrains, and behind those of its die that wait (R388). -/
def Waits (d : Device) (r : Nat) : Prop :=
  (∃ k, homeDie r = some k ∧ ((dieOf d k).retraining = true ∨ (dieOf d 20).retraining = true)) ∨
    ∃ y ∈ d.mgmtReqs, homeDie (match y with | .rptr n _ => n | .read n => n) = homeDie r

/-- A die whose ports are fenced: fenced, resetting, retired or without its domain (R384, R386). -/
def fencedNow (x : Die) : Prop := x.state = 4 ∨ x.state = 5 ∨ x.state = 7 ∨ x.state = 8

end Sys2Proof.Forms

namespace Sys2Proof.Forms
open Sys2Proof Sys2Proof.Machine

/-- The field h[14:7] of halfword i of a sector. -/
def expField (x i : Nat) : Nat := x / 2 ^ (16 * i + 7) % 2 ^ 8

/-- The map code of a sector's data: the first mode of Table 8.7 that applies. -/
def codeOf (x : Nat) : Nat :=
  if ∀ k < 8, x / 2 ^ (32 * k + 27) % 32 = 0 ∨ x / 2 ^ (32 * k + 27) % 32 = 31 then 1
  else if (List.range 16).all fun i => (List.range 16).all fun j => decide (expField x i ≤ expField x j + 31) then 2
  else if ∀ k < 32, x / 2 ^ (8 * k + 6) % 4 = 0 ∨ x / 2 ^ (8 * k + 6) % 4 = 3 then 3
  else 0

/-- `h'` is the array once a sector's data `x` has been stored: its map code, 0 in a frame of the raw-coded pool; the payload of its mode
and four check bytes that make a codeword of it, or the data in place with the check bytes in the overflow table, but for a frame marked
unprotected; the rest of the array as it was; and the sector decodes to `x`, nothing corrected, unless cells of it are damaged (R218 to
R221, R223). -/
def SectorStored (h : Hbm) (pa x : Nat) (h' : Hbm) : Prop :=
  let code := if look 0 h.pool (pa / 65536) ≠ 0 then 0 else codeOf x
  let p := readLe h'.mem pa 28
  let stored := (List.range 32).map fun k => (byteAt h'.mem (pa + k)).toNat
  let check := (List.range 4).map fun k => (byteAt h'.ovf (pa / 32 * 4 + k)).toNat
  let bare := look false h.unprot (pa / 65536) = true
  (∀ g, look 1 h'.map g = if g = pa / 32 then code else look 1 h.map g) ∧
  (∀ a, a < pa ∨ pa + 32 ≤ a → byteAt h'.mem a = byteAt h.mem a) ∧
  (∀ a, a < pa / 32 * 4 ∨ pa / 32 * 4 + 4 ≤ a → byteAt h'.ovf a = byteAt h.ovf a) ∧
  h' = { h with mem := h'.mem, map := h'.map, ovf := h'.ovf } ∧
  (code ≠ 0 → rsOk stored = true) ∧
  (code = 1 → ∀ k < 8, p / 2 ^ (28 * k) % 2 ^ 28 = x / 2 ^ (32 * k) % 2 ^ 28) ∧
  (code = 2 → (∃ i < 16, expField x i = p % 256) ∧ ∀ k < 16, p % 256 ≤ expField x k ∧
    p / 2 ^ (8 + 13 * k) % 2 ^ 13 =
      x / 2 ^ (16 * k + 15) % 2 * 2 ^ 12 + (expField x k - p % 256) * 2 ^ 7 + x / 2 ^ (16 * k) % 2 ^ 7) ∧
  (code = 3 → ∀ k < 32, p / 2 ^ (7 * k) % 2 ^ 7 = x / 2 ^ (8 * k) % 2 ^ 7) ∧
  (code = 0 → readLe h'.mem pa 32 = x ∧ (¬ bare → rsOk (stored ++ check) = true)) ∧
  ((∀ j < 32, look 0 h.flip (pa + j) = 0) → secDecode h' pa = some (x, 0))

/-- Whether a chunk of HBM can be reached at once: its frame does not move, nothing waits for that frame, its channel neither pauses nor
meets a parity error, and the array has no report of its own. -/
def Reached (d : Device) (base : Nat) : Prop :=
  look (0, 0) d.hbm.move (base / 65536) = (0, 0) ∧ (∀ z ∈ d.hbm.waits, z.base / 65536 ≠ base / 65536) ∧
    look 0 d.hbm.pause (chanKey base) ≤ d.clock ∧ look [] d.hbm.noise (chanKey base) = [] ∧ ∀ k < 8, look 0 d.hbm.ecc (base / 32 + k) = 0

/-- The codes and the accesses of an HBM hub. Storing a sector; the code corrects one wrong symbol, and what it answers is a codeword that
differs in at most two (R220). A read of a clean chunk changes nothing that a program could see; a corrected sector is logged and
written back; an uncorrectable one is logged and keeps its contents (R224). A buffered write of a whole sector stores it, one of part of
it merges its nibbles into the sector read before, and its chunk takes a way where it becomes incompressible and frees it where no sector
of it is; without a free way its frame moves into the pool, or is marked unprotected when that is full (R221 to R223, R225, R239). -/
def HubSectors (s : State) (sk pa fn eng : Nat) : Prop :=
  let d := s.dev
  let base := pa / 256 * 256
  let n := hubFor base
  let at' := fun (j : Nat) => base + 32 * j
  let clean := fun j => ∃ x, secDecode d.hbm (at' j) = some (x, 0)
  let log := fun (e : Device) j kind k => stkLog e n (stkEntry d (stackOf base) (chanOf base) (at' j) kind (look 1 d.hbm.map (at' j / 32)) k fn eng)
  let counts := fun (h h' : Hbm) => h' = { h with reads := h'.reads, lane := h'.lane, noise := h'.noise }
  (∀ (h : Hbm) (x : Nat), x < 2 ^ 256 → pa % 32 = 0 → SectorStored h pa x (secStore h pa x)) ∧
  (∀ (cw : List Nat) (i e : Nat), (∀ b ∈ cw, b < 256) → cw.length ≤ 36 → rsOk cw = true → i < cw.length → 0 < e → e < 256 →
    rsFix (xorAt cw i e) = some (cw, 1)) ∧
  (∀ (w cw : List Nat) (k : Nat), rsFix w = some (cw, k) → rsOk cw = true ∧ cw.length = w.length ∧ k ≤ 2 ∧
    ((List.range w.length).filter fun i => cw[i]? ≠ w[i]?).length ≤ k) ∧
  (d.sun.parked = false → paOk pa = true → paWin pa = false → (look Die.zero d.dies (16 + n)).retraining = false → Reached d base →
    d.hbm.answers = [] →
    ((∀ j < 8, clean j) → ∃ h, exec (.hubRead pa fn eng []) s = devTo s { d with hbm := h } ∧ counts d.hbm h ∧
      look 0 h.reads (stackOf pa) = look 0 d.hbm.reads (stackOf pa) + 1) ∧
    ∀ i < 8, (∀ j < 8, j ≠ i → clean j) →
      (∀ x k, secDecode d.hbm (at' i) = some (x, k) → k ≠ 0 → ∃ h, counts (secStore d.hbm (at' i) x) h ∧
        exec (.hubRead pa fn eng []) s = devTo s (log { d with hbm := h } i 2 k)) ∧
      (secDecode d.hbm (at' i) = none → ∃ h, counts d.hbm h ∧
        exec (.hubRead pa fn eng []) s = devTo s (log { d with hbm := h } i 3 0))) ∧
  ∀ w : GWrite, d.sun.parked = false → ¬ fencedNow (dieOf d sk) → look [] d.gbuf sk = [w] → w.pa = pa → pa % 32 = 0 →
    paOk pa = true → paWin pa = false → (look Die.zero d.dies (16 + n)).retraining = false → (dieOf d sk).retraining = false →
    Reached d base → d.hbm.answers = [] → d.hbm.changed = [] → d.hbm.waits = [] →
    ∀ old new, new < 2 ^ 256 →
      (w.mask ≠ BitVec.allOnes 64 → (∀ j < 8, clean j) ∧ secDecode d.hbm pa = some (old, 0)) →
      (∀ j < 64, new / 16 ^ j % 16 = if w.mask.getLsbD j then w.data.toNat / 16 ^ j % 16 else old / 16 ^ j % 16) →
      let raw := codeOf new = 0 ∧ look 0 d.hbm.pool (base / 65536) = 0
      let held := look 0 d.hbm.ways (base / 256) ≠ 0
      let bare := look false d.hbm.unprot (base / 65536) = true
      let full := (d.hbm.ways.filter fun y => stackOf (256 * y.1) = stackOf base ∧
        chunkOf (256 * y.1) % 2 ^ 22 = chunkOf base % 2 ^ 22).length ≥ 16
      let stored := secStore d.hbm pa new
      let after := fun (t : State) => t.dev.hbm.mem = stored.mem ∧ t.dev.hbm.map = stored.map ∧ look [] t.dev.gbuf sk = [] ∧
        ((∀ k < 8, look 1 stored.map (base / 32 + k) ≠ 0) → look 0 t.dev.hbm.ways (base / 256) = 0)
      (¬ raw ∨ held ∨ bare → ∃ t, exec (.hubWrite sk 0 []) s = .next t ∧ after t ∧ t.dev.hbm.ovf = stored.ovf) ∧
      (raw → ¬ held → ¬ bare → ¬ full → ∃ t, exec (.hubWrite sk 0 []) s = .next t ∧ after t ∧ t.dev.hbm.ovf = stored.ovf ∧
        look 0 t.dev.hbm.ways (base / 256) = 1) ∧
      (raw → ¬ held → ¬ bare → full →
        (poolUsed d.hbm base < 40690 → ∃ t, exec (.hubWrite sk 0 []) s = .next t ∧ t.dev.hbm.mem = d.hbm.mem ∧
          look (0, 0) t.dev.hbm.move (base / 65536) = (d.clock + 4096, 0) ∧ look [] t.dev.gbuf sk = [w] ∧ t.dev.hbm.waits ≠ []) ∧
        (40690 ≤ poolUsed d.hbm base → ∃ t, exec (.hubWrite sk 0 []) s = .next t ∧ look [] t.dev.gbuf sk = [] ∧
          look false t.dev.hbm.unprot (base / 65536) = true ∧ readLe t.dev.hbm.mem pa 32 = new))

end Sys2Proof.Forms

/-- IFCFG takes the share at any time and the rest while none of the interface's queues is enabled, within the package's containment, and in
free mode a share of 0 for the placed interface ends placements until a mode is selected; the read pointer of a log ring consumes entries up
to WPTR, its lost count is cleared as it is read, and a read of PORTSTAT answers the port's state, or all ones with MGSTAT.FENCED; such a
request waits for its die's link. The mode is selected, or the selection held while a placed launch lives; LCCMD with its confirmation
starts a transition, and WIPING; monitors freeze and clear. None of these registers is there in recovery mode. A monitor of read latency
samples one read in 64, one of droop, from its rail, once in 4,096 ck; the device takes these samples itself where no event tells one, at
each boundary those of the superstep's length, the margins, the slacks and the containment, and at each calibration that of the eye margin.
Released frames and window pages are zeroed before they are given to anyone. A hub makes an access wait for its link, for a frame on the
move, behind those that came before, and for a lane's recalibration, and a frame's move ends with the frame in the pool and those accesses
made in order. A hub read of the window changes nothing but its log, and a hub write puts exactly the masked nibbles of a stack's buffered
write in place, of which the stack keeps no older copy; in HBM the sectors are coded, corrected, logged and merged (R177, R216 to R225,
R227, R238, R239, R386, R388 to R390, R399, R412, R416 to R418; log entries 79, 85, 88, 94 and 115). -/
def Obligations.ManagementAndHubs : Prop :=
  ∀ (s : State) (v : Word) (i r x frame stk chan sk k fn eng pa len : Nat) (vi : Int) (metered on : Bool),
    let d := s.dev
    let m := d.mgmt
    let parked := d.sun.parked = true
    (m.recovery = true → ∀ e ∈ [Instr.ifcfgWrite i r v, .ringLostRead r, .ringRptrWrite r v, .monctlFreeze on, .monctlClear,
      .modeSelect metered, .lccmdTransit v, .lccmdDecommission v], exec e s = .next s) ∧
    (m.recovery = false → i < 64 →
      let f := ifcOf d i
      let busy := ∃ j < nqOf f, (queueOf d (qbaseOf f + j)).en = true
      let total := (((List.range 64).filter (· ≠ i)).map fun j => callotOf (ifcOf d j)).sum + v.toNat / 2 ^ 33 % 2 ^ 13
      let shared := fun w =>
        let d1 := setIfc d i { f with cfg0 := w }
        wanted (if d.sun.metered = false ∧ d.sun.modeIfc = i + 1 ∧ v.toNat % 256 = 0
          then { d1 with sun := { d.sun with modeIfc := 65 } } else d1)
      (busy → exec (.ifcfgWrite i 0 v) s = devTo s (shared (w64 (v.toNat % 256 + f.cfg0.toNat / 256 * 256)))) ∧
      (¬ busy → exec (.ifcfgWrite i 0 v) s = devTo s (shared (field v 0 35)) ∧
        (total ≤ 4096 → exec (.ifcfgWrite i 1 v) s = devTo s (setIfc d i { f with cfg1 := field v 0 46 }))) ∧
      (busy ∨ 4096 < total → exec (.ifcfgWrite i 1 v) s = .next s)) ∧
    (m.recovery = false → r < 9 →
      let g := ringOf d r
      let cap := if r < 8 then 4096 else 1024
      let p := v.toNat / 2 ^ 12 % 2 ^ 16
      let gone := (p + cap - g.rptr) % cap
      let lost := setRing d r { g with lost := 0 }
      (Waits d r → exec (.ringRptrWrite r v) s = devTo s { d with mgmtReqs := d.mgmtReqs ++ [.rptr r v] }) ∧
      (¬ Waits d r → exec (.ringLostRead r) s = devTo s { lost with host := { d.host with word := w64 g.lost } } ∧
      (p < cap → gone ≤ (g.wptr + cap - g.rptr) % cap → ∃ e, (∀ y, y ∈ e ↔ y ∈ g.ents ∧ gone ≤ (y.1 + cap - g.rptr) % cap) ∧
        exec (.ringRptrWrite r v) s = devTo s (setRing d r { g with rptr := p, ents := e })) ∧
      (cap ≤ p ∨ (g.wptr + cap - g.rptr) % cap < gone → exec (.ringRptrWrite r v) s = .next s))) ∧
    (m.recovery = false → r < 9 ∨ (16 ≤ r ∧ r < 88) → Waits d r →
      exec (.ringLostRead r) s = devTo s { d with mgmtReqs := d.mgmtReqs ++ [.read r] }) ∧
    (m.recovery = false → 16 ≤ r → r < 88 → ¬ Waits d r →
      let p := portOf d (r - 16)
      let z := dieOf d (21 + (r - 16) / 24)
      let word := p.state + (if portShadow d (r - 16) = true then 8 else 0) + p.retrain * 16 + p.farDev * 2 ^ 12 +
        p.farPort * 2 ^ 20
      (z.state = 3 ∨ fencedNow z → exec (.ringLostRead r) s =
        devTo s { d with mgmt := { m with mgFenced := true }, host := { d.host with word := w64 (2 ^ 64 - 1) } }) ∧
      (z.state ≠ 3 → ¬ fencedNow z → exec (.ringLostRead r) s = devTo s { d with host := { d.host with word := w64 word } })) ∧
    (let shares := (List.range 64).filter fun j => shareOf (ifcOf d j) ≠ 0
     let lives := ∃ l ∈ d.launches, l.placed = true
     let one := if metered then 0 else shares.headD 0 + 1
     m.recovery = false →
     (metered = false → shares.length ≠ 1 → exec (.modeSelect metered) s = .next s) ∧
     (metered = true ∨ shares.length = 1 →
       (lives → exec (.modeSelect metered) s = devTo s { d with sun := { d.sun with heldMode := some metered, heldIfc := one } }) ∧
       (¬ lives → exec (.modeSelect metered) s = devTo s (wanted { d with sun := { d.sun with
         metered := metered, heldMode := none, heldIfc := 0, modeIfc := one } })))) ∧
    (let goes := fun st => devTo s { d with mgmt := { m with lcState := st, wiping := true } }
     m.recovery = false →
     (m.lcState = 0 ∨ m.lcState = 2 → exec (.lccmdTransit 0xDC1E0001) s = goes 1) ∧
     (m.lcState = 1 ∨ m.lcState = 2 → exec (.lccmdDecommission 0xDC1E0003) s = goes 3) ∧
     (v ≠ 0xDC1E0001 ∨ m.lcState = 1 ∨ m.lcState = 3 → exec (.lccmdTransit v) s = .next s) ∧
     (v ≠ 0xDC1E0003 ∨ m.lcState = 0 ∨ m.lcState = 3 → exec (.lccmdDecommission v) s = .next s)) ∧
    (m.recovery = false → exec (.monctlFreeze on) s = devTo s { d with mgmt := { m with monFreeze := on } } ∧
      exec .monctlClear s = devTo s { d with mgmt := { m with mons := [] } }) ∧
    (let clamp := fun (v : Int) => min (2 ^ 32 - 1) v.toNat
     let mon := fun (d : Device) x => look MonRec.zero d.mgmt.mons x
     let droop := fun n => ((1000 : Int) - (look 1000 d.power.rails n : Nat)) * 4 / 5
     let put := fun (m : Mgmt) c' => { m with mons := store MonRec.zero m.mons x c' }
     let reads := look 0 d.hbm.reads
     let due := fun at' x => look 0 m.monLast x < at' / 4096
     (x < 16 →
       (parked ∨ reads x < 64 → exec (.monitorSample x vi) s = .next s) ∧
       (64 ≤ reads x → m.monFreeze = false → ¬ parked → ∃ c', Sampled (mon d x) (clamp vi) c' ∧ exec (.monitorSample x vi) s =
         devTo s { d with hbm := { d.hbm with reads := store 0 d.hbm.reads x (reads x - 64) }, mgmt := put m c' })) ∧
     (19 ≤ x → x ≤ 22 →
       (due s.arrival x → m.monFreeze = false → ∃ c', Sampled (mon d x) (clamp (droop (x - 19))) c' ∧ exec (.monitorSample x vi) s =
         devTo s { d with mgmt := put { m with monLast := store 0 m.monLast x (s.arrival / 4096) } c' }) ∧
       (¬ due s.arrival x → exec (.monitorSample x vi) s = .next s)) ∧
     (m.monFreeze = true → ∃ d', exec (.monitorSample x vi) s = devTo s d' ∧ d'.mgmt.mons = m.mons) ∧
     (16 ≤ x → x < 19 ∨ 22 < x → exec (.monitorSample x vi) s = .next s) ∧
     (m.monFreeze = false →
       (x < 16 → ¬ parked → (mon d x).count < 2 ^ 64 →
         (mon (latencySamples d) x).count = min (2 ^ 64 - 1) ((mon d x).count + reads x / 64) ∧
         look 0 (latencySamples d).hbm.reads x = reads x % 64) ∧
       (19 ≤ x → x ≤ 22 → (due k x → Sampled (mon d x) (clamp (droop (x - 19))) (mon (droopSamples k d) x)) ∧
         (¬ due k x → mon (droopSamples k d) x = mon d x)) ∧
       (¬ parked →
         let d' := boundarySamples s
         let u := d.sun
         let odd := u.phase.toNat % 2 = 1
         let live := d.runs.filter fun y => y.phase = .running
         Sampled (mon d 16) (clamp (u.ck / 16 : Nat)) (mon d' 16) ∧
         Sampled (mon d 72) (clamp ((d.runs.map fun y => containUsed y.cont).sum / 512 : Nat)) (mon d' 72) ∧
         (∀ l y, u.metered = true → d.launches = [l] → live = [y] → y.launch = l.id →
           Sampled (mon d 17) (clamp (if y.late ≠ none ∨ y.lastArr = 0 then 0
             else ((if odd then y.xwall else y.sswall) - y.lastArr : Nat))) (mon d' 17)) ∧
         (u.metered = false → mon d' 17 = mon d 17) ∧
         (∀ v, odd → s.core.mode = .active → s.core.ctx.slack = some v → (∀ y ∈ s.others, y.mode ≠ .active) →
           Sampled (mon d 18) (clamp (v : Nat)) (mon d' 18)) ∧
         (¬ odd → mon d' 18 = mon d 18)) ∧
       (sk < 40 → ¬ parked → ¬ fencedNow (dieOf d sk) → ∀ b lane, ∃ t, exec (.shadowRotation sk [(b, lane, k)]) s = .next t ∧
         Sampled (mon d (23 + sk)) (clamp (k : Nat)) (mon t.dev (23 + sk))) ∧
       (40 ≤ sk → sk < 49 → ¬ parked → 8 ≤ k → ∀ b lane, ∃ t, exec (.shadowRotation sk [(b, lane, k)]) s = .next t ∧
         Sampled (mon d (23 + sk)) (clamp (k : Nat)) (mon t.dev (23 + sk))))) ∧
    (let lo := pa / 65536 * 65536
     let hi := (pa + len + 65535) / 65536 * 65536
     let clean := fun (c : Sparse (Sparse (BitVec 256))) => (∀ p ∈ c, ∀ q ∈ p.2, q.1 < lo ∨ hi ≤ q.1) ∧
       ∀ p ∈ d.copies, ∀ q ∈ p.2, q.1 < lo ∨ hi ≤ q.1 → ∃ p' ∈ c, p'.1 = p.1 ∧ q ∈ p'.2
     (parked → exec (.frameRelease fn pa len) s = .next s) ∧
     (fn < 64 → len ≠ 0 → paOk lo = true → paOk (hi - 1) = true → ¬ parked →
      (paWin (hi - 1) = false → ∃ c h, clean c ∧ exec (.frameRelease fn pa len) s = devTo s { d with copies := c, hbm := h } ∧
        (∀ a, byteAt h.mem a = if lo ≤ a ∧ a < hi then 0 else byteAt d.hbm.mem a) ∧
        (∀ g, look 1 h.map g = if lo ≤ g * 32 ∧ g * 32 < hi then 1 else look 1 d.hbm.map g) ∧
        (∀ g, look 0 h.pool g = if lo ≤ g * 65536 ∧ g * 65536 < hi then 0 else look 0 d.hbm.pool g) ∧
        (∀ g, look false h.unprot g = if lo ≤ g * 65536 ∧ g * 65536 < hi then false else look false d.hbm.unprot g) ∧
        h = { d.hbm with
          mem := h.mem, map := h.map, pool := h.pool, unprot := h.unprot, ovf := h.ovf, ways := h.ways, move := h.move }) ∧
      (paWin lo = true → winHub (hi - 1) = winHub lo → ∃ c h w e, clean c ∧
        let n := winHub lo
        let o := winOff lo
        exec (.frameRelease fn pa len) s =
          devTo s { setHub d n { hubOf d n with win := w, winErr := e } with copies := c, hbm := h } ∧
        (∀ a < lo, byteAt h.mem a = byteAt d.hbm.mem a) ∧
        (∀ a, byteAt w a = if o ≤ a ∧ a < o + (hi - lo) then 0 else byteAt (hubOf d n).win a) ∧
        ∀ g, look 0 e g = if o ≤ g * 8 ∧ g * 8 < o + (hi - lo) then 0 else look 0 (hubOf d n).winErr g))) ∧
    (let mv := look (0, 0) d.hbm.move frame
     (mv = (0, 0) ∨ parked → exec (.frameMoveComplete frame) s = .next s) ∧
     (mv ≠ (0, 0) → ¬ parked →
       (d.hbm.waits = [] → d.hbm.answers = [] → d.hbm.changed = [] → ∃ d', exec (.frameMoveComplete frame) s = devTo s d' ∧
         (∀ a, a / 65536 ≠ frame → byteAt d'.hbm.mem a = byteAt d.hbm.mem a) ∧
         ((look (0, 0) d'.hbm.move frame = (0, 0) ∧ look 0 d'.hbm.pool frame = 1 ∧ ∀ y ∈ d'.hbm.ways, y.1 / 256 ≠ frame) ∨
           ∃ n < 256, look (0, 0) d'.hbm.move frame = (mv.1, n))) ∧
       (256 ≤ mv.2 → ∃ h, exec (.frameMoveComplete frame) s =
           .next (settleChanged { s with dev := serveWaits (stkLog { d with hbm := h } (hubFor (65536 * frame))
             (stkEntry d (stackOf (65536 * frame)) (chanOf (65536 * frame)) (65536 * frame) 4 0 0 0 5)) }) ∧
         h = { d.hbm with move := h.move, pool := h.pool, ways := h.ways } ∧
         (∀ g, look (0, 0) h.move g = if g = frame then (0, 0) else look (0, 0) d.hbm.move g) ∧
         (∀ g, look 0 h.pool g = if g = frame then 1 else look 0 d.hbm.pool g) ∧
         ∀ y, y ∈ h.ways ↔ y ∈ d.hbm.ways ∧ y.1 / 256 ≠ frame))) ∧
    (∀ (a : Asker) (base : Nat) (op : HubOp) (y : HubWait) (ys : List HubWait),
      let link := (look Die.zero d.dies (16 + hubFor base)).retraining = true ∨ (dieOf d a.die).retraining = true
      let waits := d.hbm.waits
      let held := d.clock < look 0 d.hbm.pause (chanKey base)
      let moves := look (0, 0) d.hbm.move (base / 65536) ≠ (0, 0) ∨ ∃ z ∈ waits, z.base / 65536 = base / 65536
      d.hbm.answers = [] → a.who ≠ [] → (∀ z ∈ waits, ¬ (z.asker.who = a.who ∧ z.base = base)) →
      (link → hubAsk d a base op = .wait d) ∧
      (¬ link → moves → hubAsk d a base op = .wait { d with hbm := { d.hbm with waits := waits ++ [⟨a, base, op⟩] } }) ∧
      (¬ link → ¬ moves → held → hubAsk d a base op = .wait d) ∧
      (∀ d' vals, ¬ link → ¬ moves → ¬ held → hubDo d base a.ifc a.eng [] op = .done d' vals → channelPaused d' base = false →
        hubAsk d a base op = .done d' vals) ∧
      (∀ d' vals, waits = y :: ys → y.asker.who ≠ [] → look (0, 0) d.hbm.move (y.base / 65536) = (0, 0) →
        channelPaused d y.base = false →
        let behind := (ys.filter fun z => z.base = y.base).flatMap fun z => z.op.sectors
        hubDo { d with hbm := { d.hbm with waits := [] } } y.base y.asker.ifc y.asker.eng behind y.op = .done d' vals →
        serveWaits d = serveEach { d' with hbm := { d'.hbm with
          answers := d'.hbm.answers ++ [⟨y.asker.who, y.base, vals⟩] } } ys)) ∧
    (parked → exec (.spareLaneRecalibrated stk chan) s = .next s) ∧
    (¬ parked → exec (.spareLaneRecalibrated stk chan) s = devTo s { d with hbm := { d.hbm with
      pause := store 0 d.hbm.pause (32 * stk + chan) 0 } }) ∧
    HubSectors s sk pa fn eng ∧
    (parked → exec (.hubRead pa fn eng []) s = .next s) ∧
    (paOk pa = true → paWin pa = true → ¬ parked → (look Die.zero d.dies (16 + winHub pa)).retraining = false →
      let o := winOff (pa / 32 * 32)
      let bad := fun j => look 0 (hubOf d (winHub pa)).winErr (o / 8 + j)
      (pa % 32 = 0 → (∀ j < 4, bad j = 0) → exec (.hubRead pa fn eng []) s = .next s) ∧
      (pa % 32 = 0 → ∀ j < 4, bad j ≠ 0 → (∀ y < 4, y ≠ j → bad y = 0) → exec (.hubRead pa fn eng []) s =
        devTo s (stkLog d (winHub pa) (stkEntry d 0x10 0 pa (if wordErr (bad j) then 7 else 6) 0 0 fn eng)))) ∧
    (parked ∨ fencedNow (dieOf d sk) → exec (.hubWrite sk k []) s = .next s) ∧
    (∀ w, let ws := look [] d.gbuf sk
      ¬ parked → ¬ fencedNow (dieOf d sk) → ws[k]? = some w → (∀ y ∈ ws.take k, y.pa ≠ w.pa) →
      (counted s w = true ∨ ∀ y ∈ ws, ¬ (y.cref = w.cref ∧ y.run = w.run ∧ y.opSerial = w.opSerial ∧ y.idx < w.idx)) →
      w.pa % 32 = 0 → paWin w.pa = true → (look Die.zero d.dies (16 + winHub w.pa)).retraining = false →
      (dieOf d sk).retraining = false →
      let n := winHub w.pa
      let o := winOff w.pa
      let left := fun (t : State) => look [] t.dev.gbuf sk = ws.filter (fun y => y.serial ≠ w.serial)
      let part := fun j => w.mask.toNat / 2 ^ (16 * j) % 2 ^ 16 ≠ 0 ∧ w.mask.toNat / 2 ^ (16 * j) % 2 ^ 16 ≠ 2 ^ 16 - 1
      let bad := fun j => look 0 (hubOf d n).winErr (o / 8 + j)
      (∀ j < 4, part j → wordErr (bad j) = true → (∀ y < 4, y ≠ j → bad y = 0) →
        ∃ t, exec (.hubWrite sk k []) s = .next t ∧ left t ∧ (hubOf t.dev n).win = (hubOf d n).win ∧
          (hubOf t.dev n).winErr = (hubOf d n).winErr ∧
          (hubOf t.dev n).stk = (hubOf (stkLog d n (stkEntry d 0x10 0 w.pa 7 0 0 w.ifc w.eng)) n).stk) ∧
      ((∀ j < 4, part j → wordErr (bad j) = false) → ∃ t, exec (.hubWrite sk k []) s = .next t ∧ left t ∧
        (∀ j < 64, nibble (hubOf t.dev n).win (2 * o + j) =
          if w.mask.getLsbD j then w.data.toNat / 16 ^ j % 16 else nibble (hubOf d n).win (2 * o + j)) ∧
        (∀ a, a < o ∨ o + 32 ≤ a → byteAt (hubOf t.dev n).win a = byteAt (hubOf d n).win a) ∧
        (∀ j, j ≠ n → hubOf t.dev j = hubOf d j) ∧ t.dev.hbm = d.hbm ∧ (∀ y ∈ look [] t.dev.copies sk, y.1 ≠ w.pa) ∧
        w.serial ∉ look [] t.dev.observed sk ∧
        w.serial ∉ look [] t.dev.released sk ∧ (∀ y ∈ t.dev.seen, y.serial ≠ w.serial) ∧
        ((∀ c ∈ s.cores, c.ctx.t5.ops = [] ∧ ∀ y ∈ c.susp, y.t5.ops = []) → t.core = s.core ∧ t.others = s.others)))

/-! ## Dies, power and the management's other ports -/

namespace Sys2Proof.Forms
open Sys2Proof Sys2Proof.Machine

/-- A die has lost what it held outside its cores: its buffered writes with all that was noted of them, its granule copies, its
cached translations, its walks and its outstanding accesses; a write that a hub has accepted is performed all the same (R385). -/
def Emptied (d : Device) (sk : Nat) (d' : Device) : Prop :=
  look [] d'.gbuf sk = [] ∧ look [] d'.copies sk = [] ∧ look [] d'.observed sk = [] ∧ look [] d'.released sk = [] ∧
    look [] d'.tlb sk = [] ∧ (∀ w ∈ d'.walks, w.die ≠ sk) ∧ (∀ y ∈ d'.seen, y.cref.sk ≠ sk) ∧
    (∀ y ∈ d'.spans, y.die = sk → y.out = false) ∧ (∀ z, z ∈ d'.hbm.waits ↔ z ∈ d.hbm.waits ∧ (z.asker.die = sk → acceptedWrite z.op = true)) ∧
    ∀ j, j ≠ sk → look [] d'.gbuf j = look [] d.gbuf j ∧ dieOf d' j = dieOf d j

/-- A die as its reset leaves it, its self-test running (R384 step 5). -/
def restarted (x : Die) (clock : Nat) : Die :=
  { x with
    state := 5, resets := min 255 (x.resets + 1), shadow := 0, retrain := 0, retrainFails := 0, retraining := false
    retrainEnds := 0, ask := false, direct := false, bundles := { Bundles.zero with period := clock / 2 ^ 20 } }

/-- A die whose link has begun to retrain at a clock (R388). -/
def retrains (x : Die) (clock : Nat) : Die :=
  { x with retraining := true, retrain := min 255 (x.retrain + 1), retrainEnds := clock + 16384 }

/-- One die has changed to `y`; the other dies and the rest of the device stand. -/
def DieIs (d : Device) (sk : Nat) (y : Die) (d' : Device) : Prop :=
  d' = { d with dies := d'.dies } ∧ dieOf d' sk = y ∧ ∀ j, j ≠ sk → dieOf d' j = dieOf d j

/-- A run as the loss of a stack leaves it: one with a core there keeps when it was, and the lowest CORE_ID there (R344, R372, R386). -/
def lostOn (d : Device) (sk : Nat) (r : Run) : Run :=
  let id := r.cores.findIdx fun p => p.1 = sk
  if id < r.cores.length ∧ r.lost = none then { r with lost := some (d.clock, id) } else r

/-- The runs on a stack keep its loss, and a boundary is wanted. -/
def marked (d : Device) (sk : Nat) : Device := wanted { d with runs := d.runs.map (lostOn d sk) }

/-- A die has become `x`; where it is READY and its sequence has not been asked for, the sequence of R384 is asked for now, its runs
keep that, and a boundary is wanted. -/
def Asked (d : Device) (sk : Nat) (x : Die) (d' : Device) : Prop :=
  (x.state = 2 ∧ x.ask = false → DieIs (marked d sk) sk { x with ask := true, direct := !stackBusy d sk } d') ∧
    (x.state ≠ 2 ∨ x.ask = true → DieIs d sk x d')

/-- Launches, runs and collectives are gone and the package has no power (R379). -/
def Unpowered (t : State) : Prop :=
  t.dev.power.on = false ∧ t.dev.launches = [] ∧ t.dev.runs = [] ∧ t.dev.cols = [] ∧ t.dev.owed = [] ∧ t.dev.drains = [] ∧
    t.core = { Core.reset t.core.sk t.core.ix with worn := t.core.worn } ∧ ∀ sk < 40, (dieOf t.dev sk).state = 0

/-- Shadow lanes after the turns of the periods that have passed (R387). -/
def turned (b : Bundles) (clock : Nat) : Bundles :=
  if b.period < clock / 2 ^ 20 then
    { b with period := clock / 2 ^ 20, rotor := (b.rotor + (clock / 2 ^ 20 - b.period) - 1) % 8 + 1 } else b

end Sys2Proof.Forms

/-- A write of DIECTL sets QDL and, on a READY die that can be reset alone, QREQ, which asks for its quiesce; an expired deadline forces the
fence, and a die with nothing outstanding is fenced; the self-test leads to READY, or RETIRED, with the default lasting of a stack, whose
cores keep CYCLE and their damaged cells, or fails the package. Shadow lanes turn with every period, and a lane whose margin is below 8/128
UI loses its place to the shadow lane once; a second failure resets a stack or retrains the link, and a third failed retrain is a package
power failure or a fabric die's reset. RETIRED is set and cleared by software. A lost domain fences its stacks at once and its return resets
them (R32, R206, R344, R371, R372, R384 to R388, R391, R393, R396, R397, R418, R422, R447; log entries 77 and 93). -/
def Obligations.DieSequences : Prop :=
  ∀ (s : State) (sk n vdd bun lane margin : Nat) (v : Word) (df : Defects) (rep : TestReport) (reg : Bool),
    let d := s.dev
    let m := d.mgmt
    let x := dieOf d sk
    let parked := d.sun.parked = true
    let put := fun y => setDie d sk y
    (sk < 40 → m.recovery = false →
      let bit := v.getLsbD 0 = true
      let opens := (sk < 16 ∧ ¬ parked ∨ 21 ≤ sk ∧ sk ≤ 23) ∧ x.state = 2
      let y := { x with qdl := v.toNat / 2 ^ 8 % 2 ^ 8 }
      (¬ opens → exec (.quiesceRequest sk v) s = devTo s (put y)) ∧
      (opens → ¬ bit → exec (.quiesceRequest sk v) s = devTo s (put { y with qreq := false })) ∧
      (opens → bit → ∃ d', exec (.quiesceRequest sk v) s = devTo s d' ∧ Asked d sk { y with qreq := true } d')) ∧
    (40 ≤ sk ∨ m.recovery = true → exec (.quiesceRequest sk v) s = .next s) ∧
    (let out := outstanding d sk
     (out = true ↔ look [] d.gbuf sk ≠ [] ∨ (∃ w ∈ d.walks, w.die = sk) ∨ (∃ y ∈ d.spans, y.die = sk ∧ y.out = true) ∨
       ∃ z ∈ d.hbm.waits, z.asker.die = sk) ∧
     (x.state = 3 → ¬ parked →
      let fences := fun i forced => ∃ d', exec i s = devTo s d' ∧ Emptied d sk d' ∧
        dieOf d' sk = { x with state := 4, forced := forced } ∧
        d' = { d with dies := d'.dies, gbuf := d'.gbuf, copies := d'.copies, observed := d'.observed, released := d'.released
                      seen := d'.seen, walks := d'.walks, tlb := d'.tlb, spans := d'.spans
                      hbm := { d.hbm with waits := d'.hbm.waits } }
      (x.deadline ≤ d.clock → fences (.quiesceDeadline sk) out) ∧
      (d.clock < x.deadline → exec (.quiesceDeadline sk) s = .next s) ∧
      (out = false → fences (.dieFence sk) false) ∧ (out = true → exec (.dieFence sk) s = .next s))) ∧
    (x.state ≠ 3 ∨ parked → exec (.quiesceDeadline sk) s = .next s ∧ exec (.dieFence sk) s = .next s) ∧
    (sk < 40 → x.state = 1 ∨ x.state = 5 → ¬ parked → m.selfTest = false → m.inReset = false →
      let ready := { x with state := 2, qreq := false, ask := false, direct := false }
      let fails := (∃ p ∈ rep.lanes, 2 ≤ p.2) ∨ sk ∈ rep.sram
      (16 ≤ sk → sk < 24 → fails → ∃ d', exec (.dieSelfTestDone sk df rep) s = devTo s d' ∧
        d' = { d with mgmt := { m with stfail := true }, ifcs := d'.ifcs }) ∧
      (16 ≤ sk → ¬ (sk < 24 ∧ fails) → (∀ p ∈ m.retiring, p.1 ≠ sk) →
        (sk < 21 ∨ 23 < sk → exec (.dieSelfTestDone sk df rep) s = devTo s (wanted (put ready))) ∧
        (21 ≤ sk → sk ≤ 23 → ∃ d', exec (.dieSelfTestDone sk df rep) s = devTo s d' ∧
          d' = { wanted (put ready) with ports := d'.ports, ifcs := d'.ifcs } ∧
          ∀ q, portOf d' q = if q / 24 = sk - 21 ∧ (portOf d q).state = 0 ∧ Config.cabled q = true then
            { portOf d q with state := 1 } else portOf d q)) ∧
      (sk < 16 → ∃ t, exec (.dieSelfTestDone sk df rep) s = .next t ∧
        let cores := (defaultBinds df).length
        let gone := look false m.retired sk || cores = 0
        dieOf t.dev sk = { ready with state := if gone then 7 else 2 } ∧
        look false t.dev.mgmt.retired sk = gone ∧ (lastMap t.dev sk).ncores = cores ∧ t.dev.sun.want = true ∧
        (∀ p ∈ t.dev.mgmt.retiring, p.1 ≠ sk) ∧
        t.core = if s.core.sk = sk then { Core.reset sk s.core.ix with
          bound := s.core.ix < cores, cycle := s.core.cycle, worn := s.core.worn } else s.core)) ∧
    (sk < 40 → ¬ parked → ¬ fencedNow x →
      let b := turned x.bundles d.clock
      let y := { x with bundles := b }
      let used := look 0 x.bundles.used bun
      let rotates := fun l d0 y' => ∃ d', exec (.shadowRotation sk l) s = devTo s d' ∧ dieOf d' sk = y' ∧
        (∀ j, j ≠ sk → dieOf d' j = dieOf d j) ∧ d' = { d0 with dies := d'.dies, mgmt := { m with mons := d'.mgmt.mons } }
      rotates [] d y ∧
      (8 ≤ margin ∨ 8 ≤ lane ∨ used = lane + 1 → rotates [(bun, lane, margin)] d y) ∧
      (margin < 8 → lane < 8 → used = 0 → rotates [(bun, lane, margin)] d { y with
        bundles := { b with used := store 0 x.bundles.used bun (lane + 1) }, shadow := min 255 (x.shadow + 1) }) ∧
      (margin < 8 → lane < 8 → used ≠ 0 → used ≠ lane + 1 →
        (sk < 16 → x.state = 2 → x.ask = false →
          rotates [(bun, lane, margin)] (marked d sk) { y with ask := true, direct := !stackBusy d sk }) ∧
        (16 ≤ sk → sk < 24 → x.retraining = false → rotates [(bun, lane, margin)] d (retrains y d.clock)))) ∧
    (sk < 40 → parked ∨ fencedNow x → exec (.shadowRotation sk [(bun, lane, margin)]) s = .next s) ∧
    (bun < 9 →
      let b := turned (bundleOf d bun) d.clock
      let used := look 0 (bundleOf d bun).used 0
      let rotates := fun b' => ∃ d', exec (.shadowRotation (40 + bun) [(0, lane, margin)]) s = devTo s d' ∧
        bundleOf d' bun = b' ∧ (∀ j, j ≠ bun → bundleOf d' j = bundleOf d j) ∧
        d' = { d with bundles := d'.bundles, mgmt := { m with mons := d'.mgmt.mons } }
      (8 ≤ margin ∨ used = lane + 1 → rotates b) ∧
      (margin < 8 → used ≠ lane + 1 → 8 ≤ lane → rotates { b with used := store 0 (bundleOf d bun).used 0 9 }) ∧
      (margin < 8 → lane < 8 → used = 0 → rotates { b with used := store 0 (bundleOf d bun).used 0 (lane + 1) }) ∧
      (margin < 8 → lane < 8 → used ≠ 0 → used ≠ lane + 1 → (portOf d (8 * bun + lane)).state ≠ 2 ∨ parked → rotates b)) ∧
    (16 ≤ sk → sk < 24 → x.retraining = false → ¬ parked →
      exec (.linkRetrain sk) s = devTo s (put (retrains x d.clock))) ∧
    (sk < 16 ∨ 24 ≤ sk ∨ x.retraining = true ∨ parked → exec (.linkRetrain sk) s = .next s) ∧
    (x.retraining = false ∨ parked → exec (.interposerRetrainComplete sk reg) s = .next s) ∧
    (x.retraining = true → ¬ parked →
      exec (.interposerRetrainComplete sk true) s = devTo s (put { x with retraining := false, retrainFails := 0 }) ∧
      (x.retrainFails < 2 → ∃ d', exec (.interposerRetrainComplete sk false) s = devTo s d' ∧
        DieIs d sk (retrains { x with retrainFails := x.retrainFails + 1 } d.clock) d') ∧
      (2 ≤ x.retrainFails → sk < 21 → ∃ t, exec (.interposerRetrainComplete sk false) s = .next t ∧ Unpowered t) ∧
      (2 ≤ x.retrainFails → 21 ≤ sk → ∃ d', exec (.interposerRetrainComplete sk false) s = devTo s d' ∧
        Asked d sk { x with retraining := false, retrainFails := 0 } d')) ∧
    (n < 16 → m.recovery = false →
      let scored := { m with cbscore := store 0 m.cbscore n (v.toNat % 2 ^ 16) }
      let was := look false m.retired n
      let z := dieOf d n
      (was = false → exec (.cbReturnWrite n v) s = devTo s { d with mgmt := scored } ∧
        ∃ d', exec (.cbRetireWrite n v) s = devTo s d' ∧
          let asks : Bool := z.state = 2 ∧ z.ask = false
          d' = wanted { d with
            dies := d'.dies, runs := if asks then d.runs.map (lostOn d n) else d.runs
            mgmt := { scored with
              retired := store false m.retired n true, retiring := m.retiring ++ [(n, 0, 0, 0, 0)] } } ∧
          dieOf d' n = (if asks then { z with ask := true, direct := !stackBusy d n } else z) ∧
          ∀ j, j ≠ n → dieOf d' j = dieOf d j) ∧
      (was = true → exec (.cbRetireWrite n v) s = devTo s { d with mgmt := scored } ∧
        let back := { scored with retired := store false m.retired n false }
        (z.state ≠ 7 → exec (.cbReturnWrite n v) s = devTo s { d with mgmt := back }) ∧
        (z.state = 7 → ∃ t, exec (.cbReturnWrite n v) s = .next t ∧ t.dev.mgmt = back ∧ Emptied d n t.dev ∧
          dieOf t.dev n = restarted z d.clock ∧
          t.core = if s.core.sk = n then { Core.reset n s.core.ix with worn := s.core.worn } else s.core))) ∧
    (n < 4 → d.power.on = true →
      let rails := store 1000 d.power.rails n vdd
      (reg = true ∨ vdd < 800 → look false d.power.lost n = false →
        ∃ d', exec (.domainLoss n vdd reg) s = .next (if d.sun.parked then settleLost { s with dev := d' } else { s with dev := d' }) ∧
          d'.runs = (List.range 4).foldl (fun l j => l.map (lostOn d (4 * n + j))) d.runs ∧
          d'.power = { d.power with lost := store false d.power.lost n true, rails := rails } ∧
          ∀ j, dieOf d' j = (if j / 4 = n then { dieOf d j with state := 8, qreq := false, ask := false, direct := false }
              else dieOf d j) ∧
            look [] d'.gbuf j = if j / 4 = n then [] else look [] d.gbuf j) ∧
      (reg = false → 800 ≤ vdd → exec (.domainLoss n vdd reg) s = .next s) ∧
      (reg = false → 980 ≤ vdd → look false d.power.lost n = true → ∃ t, exec (.domainReturn n ⟨vdd, reg⟩) s = .next t ∧
        t.dev.power = { d.power with lost := store false d.power.lost n false, rails := rails } ∧
        (∀ j, dieOf t.dev j = if j / 4 = n then restarted (dieOf d j) d.clock else dieOf d j) ∧
        t.core = if s.core.sk / 4 = n then { Core.reset s.core.sk s.core.ix with worn := s.core.worn } else s.core) ∧
      (reg = true ∨ vdd < 980 → exec (.domainReturn n ⟨vdd, reg⟩) s = .next s))

/-- The stretch factor rises by a sixteenth for every 64 ck for which a rail that is not lost reads below 96%, and falls for every 1,024 ck
for which all read 98% or more; a brown-out, PWRWARN or a die at its trip temperature calls a hold, which ends when supply and PWRWARN are
back and every die is below its throttle temperature. Heat above the throttle temperature and power above PCAP, as the firmware sets it,
raise the demand for stretch. A rail of a domain below 80% loses the domain, and a package rail below 80% or a die 15 degrees above its
throttle temperature is a package power failure; an unpowered package only keeps the temperatures it reads; power on is a package reset with
the image of the flash, the wipe of a transition zeroes HBM and resets the package, a write of GO has the ROM verify the image, and the full
self-test judges the package and gives every stack its default lasting. The I3C answers an index written to its own address, and the TAP
selects its instruction. A form that finds its own condition not met does nothing, and neither the wipe nor the test ends while a hold is
called (R206, R351, R379, R389 to R392, R394 to R398, R402, R412 to R414; log entries 20, 28, 81, 82 and 83). -/
def Obligations.PowerAndAccess : Prop :=
  ∀ (s : State) (vin rail watt cap sk : Nat) (warn : Bool) (temp : Int) (image : List Byte) (df : List Defects) (ports : List Nat)
    (rep : TestReport) (idx : BitVec 8) (a : BitVec 7) (pins : List Bool),
    let d := s.dev
    let p := d.power
    let m := d.mgmt
    let u := d.sun
    let at' := fun (y : Power) (z : Sundial) => devTo s { d with power := y, sun := z }
    (let rails := store 1000 p.rails rail vin
     let low := ∃ j < 5, look false p.lost j = false ∧ look 1000 rails j < 960
     let high := ∀ j < 5, look false p.lost j = false → 980 ≤ look 1000 rails j
     let p' := { p with rails := rails }
     let asks := fun i (now span next : Nat) =>
       (u.volt ≠ now → exec i s = at' p' { u with volt := now, voltSince := u.ref }) ∧
       (u.volt = now → span ≤ u.ref - u.voltSince → span ≠ 0 → exec i s = at' p' { u with
         stretch := next, voltSince := u.voltSince + span }) ∧
       (u.volt = now → u.ref - u.voltSince < span ∨ span = 0 → exec i s = at' p' u)
     let moves := fun i => (low → asks i 1 (16 * 64) (min 16 (u.stretch + 1))) ∧
       (high → ¬ low → asks i 2 (16 * 1024) (u.stretch - 1)) ∧ (¬ high → ¬ low → asks i 0 0 0)
     (rail < 5 → vin < 960 → 800 ≤ vin ∨ p.on = false → moves (.stretchRaise ⟨rail, vin⟩)) ∧
     (rail < 4 → vin < 800 → p.on = true → u.parked = false → look false p.lost rail = false →
       ∃ t, exec (.stretchRaise ⟨rail, vin⟩) s = .next t ∧ look false t.dev.power.lost rail = true ∧
         ∀ j, dieOf t.dev j = if j / 4 = rail then { dieOf d j with state := 8, qreq := false, ask := false, direct := false }
           else dieOf d j) ∧
     (vin < 800 → p.on = true → ∃ t, exec (.stretchRaise ⟨4, vin⟩) s = .next t ∧ Unpowered t) ∧
     (rail < 5 → 960 ≤ vin → moves (.stretchRelease ⟨rail, vin⟩)) ∧
     (5 ≤ rail ∨ 960 ≤ vin → exec (.stretchRaise ⟨rail, vin⟩) s = .next s) ∧
     (5 ≤ rail ∨ vin < 960 → exec (.stretchRelease ⟨rail, vin⟩) s = .next s)) ∧
    (let supply := fun w => { p with rails := store 1000 p.rails 4 vin, pwrwarn := w }
     let hot := ∃ k < 40, (if 24 ≤ k then 720 else 800 : Int) ≤ (look 0 p.temps k).toInt
     (vin < 900 ∨ warn = true → 800 ≤ vin ∨ p.on = false →
       exec (.brownoutHold vin warn) s = at' (supply warn) { u with holdAsked := true }) ∧
     (vin < 800 → p.on = true → ∃ t, exec (.brownoutHold vin warn) s = .next t ∧ Unpowered t) ∧
     (900 ≤ vin → warn = false → exec (.brownoutHold vin warn) s = .next s) ∧
     (950 ≤ vin → warn = false → ¬ hot → exec (.holdEnd vin warn) s =
       at' (supply false) { u with holdAsked := false, parked := false }) ∧
     (vin < 950 ∨ warn = true ∨ hot → exec (.holdEnd vin warn) s = .next s)) ∧
    ((p.on = true → vin < 800 ∨ 2 ≤ rail → ∃ t, exec (.packagePowerFailure rail vin) s = .next t ∧ Unpowered t) ∧
      (p.on = false ∨ rail < 2 ∧ 800 ≤ vin → exec (.packagePowerFailure rail vin) s = .next s)) ∧
    (let hot : Int := if 24 ≤ sk then 720 else 800
     let p1 := { p with temps := store 0 p.temps sk (BitVec.ofInt 16 temp) }
     let cold := { setDie d sk { dieOf d sk with temp := BitVec.ofInt 16 temp } with power := p1 }
     let held := m.inReset && tooCold cold
     let base := { cold with mgmt := { m with inReset := held, tapIr := if held = false ∧ 3 ≤ m.tapIr then 0 else m.tapIr } }
     let heat := { u with stretchHeat := min 16 (u.stretchHeat + 1) }
     let above := store false p.throttled sk true
     let reads := fun i =>
       (p.on = false → exec i s = devTo s { d with power := p1 }) ∧ (p.on = true →
       (temp < hot →
         let left := if temp ≤ hot - 24 then store false p.throttled sk false else p.throttled
         exec i s = devTo s { base with
           power := { p1 with throttled := left, tripped := store false p.tripped sk false }
           sun := if left = [] ∧ p.power ≤ 4 * p.pcap then { u with stretchHeat := 0 } else u }) ∧
       (hot ≤ temp → temp < hot + 80 → exec i s = devTo s { base with power := { p1 with throttled := above }, sun := heat }) ∧
       (hot + 80 ≤ temp → temp < hot + 120 → exec i s = devTo s { base with
         power := { p1 with throttled := above, tripped := store false p.tripped sk true }
         sun := { heat with holdAsked := true } }) ∧
       (hot + 120 ≤ temp → ∃ t, exec i s = .next t ∧ Unpowered t ∧ t.dev.power.thermtrip = true))
     (sk < 40 → reads (.thermalThrottle sk temp) ∧ (hot + 80 ≤ temp → reads (.thermalTrip sk temp)) ∧
       (hot + 120 ≤ temp → reads (.thermtrip sk temp))) ∧
     (40 ≤ sk → exec (.thermalThrottle sk temp) s = .next s) ∧
     (40 ≤ sk ∨ temp < hot + 80 → exec (.thermalTrip sk temp) s = .next s) ∧
     (40 ≤ sk ∨ temp < hot + 120 → exec (.thermtrip sk temp) s = .next s)) ∧
    (let cap' := if 1500 ≤ cap ∧ cap ≤ 3000 then cap else p.pcap
     exec (.pcapExceeded ⟨watt, cap⟩) s = at' { p with power := watt, pcap := cap' }
       (if 4 * cap' < watt then { u with stretchHeat := min 16 (u.stretchHeat + 1) }
        else if p.throttled = [] then { u with stretchHeat := 0 } else u)) ∧
    (let fresh := fun (t : State) => t.dev.power.on = true ∧ t.dev.launches = [] ∧ t.dev.runs = [] ∧ t.dev.clock = 0 ∧
       t.dev.ifcs = [] ∧ t.dev.queues = [] ∧ t.dev.counters = [] ∧ t.dev.sun = { (Device.reset m.lcState).sun with holdAsked := u.holdAsked } ∧
       t.core = { Core.reset s.core.sk s.core.ix with worn := s.core.worn } ∧ t.dev.mgmt.lcState = m.lcState ∧ t.dev.host = d.host ∧
       t.dev.power.temps = p.temps ∧ t.dev.power.rails = p.rails ∧ ∀ k < 40, (dieOf t.dev k).temp = 0
     (p.on = false → ∃ t, exec (.powerOn image) s = .next t ∧ fresh t ∧ t.dev.mgmt.flash = image ∧
       t.dev.mgmt.recovery = !Config.firmwareOk image ∧
       t.dev.mgmt.selfTest = (m.lcState = 0 || m.lcState = 1 || m.stfail)) ∧
     (p.on = true → exec (.powerOn image) s = .next s) ∧
     (m.wiping = true → p.on = true → m.inReset = false → u.parked = false → u.holdAsked = false →
       ∃ t, exec .lifecycleWipe s = .next t ∧ fresh t ∧ t.dev.mgmt.wiping = false ∧ t.dev.mgmt.selfTest = false ∧ t.dev.hbm.mem = [] ∧ t.dev.hbm.map = [] ∧ t.dev.hbm.pool = [] ∧ t.dev.hubs = []) ∧
     (m.wiping = false ∨ p.on = false ∨ m.inReset = true ∨ u.parked = true ∨ u.holdAsked = true → exec .lifecycleWipe s = .next s) ∧
     (m.recovery = false → exec .recoveryGo s = .next s ∧ tickRecovery s = s) ∧
     (m.recovery = true → exec .recoveryGo s = devTo s { d with mgmt := { m with
         rcvGo := true, rcvstat := if m.rcvstat = 0 ∨ m.rcvstat = 2 then 1 else m.rcvstat } } ∧
       (m.rcvstat = 1 → tickRecovery s = { s with dev := { d with mgmt := if Config.firmwareOk m.image = true then
         { m with flash := m.image, rcvstat := 3 } else { m with rcvstat := 2 } } }) ∧
       (m.rcvstat = 3 → fresh (tickRecovery s) ∧ (tickRecovery s).dev.mgmt.flash = m.flash))) ∧
    (let runs := m.selfTest = true ∧ m.wiping = false ∧ m.inReset = false ∧ u.parked = false ∧ u.holdAsked = false ∧ p.on = true
     let failed := decide (∃ y ∈ rep.lanes, 2 ≤ y.2) || decide (∃ y ∈ rep.chans, 3 ≤ y.2) || decide (∃ k ∈ rep.sram, 16 ≤ k)
     (runs → ∃ t, exec (.fullSelfTestDone df ports rep) s = .next t ∧ t.dev.mgmt.selfTest = false ∧ t.dev.mgmt.stfail = failed ∧
        t.dev.mgmt.lcState = (if failed = false ∧ m.lcState = 1 then 2 else m.lcState) ∧
        t.dev.mgmt.wiping = decide (failed = false ∧ m.lcState = 1) ∧ (∀ q ∈ ports, q < 72 → (portOf t.dev q).state = 4) ∧
        (sk < 40 → (dieOf d sk).state ≠ 8 → (16 ≤ sk → (dieOf t.dev sk).state = 2) ∧
          (sk < 16 → (lastMap t.dev sk).ncores = (defaultBinds (df.getD sk ⟨0, 0, 0⟩)).length ∧
            ((dieOf t.dev sk).state = 2 ∨ ((dieOf t.dev sk).state = 7 ∧ look false t.dev.mgmt.retired sk = true))))) ∧
     (¬ runs → exec (.fullSelfTestDone df ports rep) s = .next s)) ∧
    (let out := fun v => devTo s { d with mgmt := { m with i3cIdx := idx, i3cOut := w64 v } }
     let self := if m.i3cAddr = 0 then (0x31 : BitVec 7) else m.i3cAddr
     (m.wiping = true → exec (.i3cEntdaa a) s = .next s) ∧
     (m.wiping = true ∨ a ≠ self → exec (.i3cRead ⟨a, idx⟩) s = .next s) ∧
     (m.wiping = false → exec (.i3cEntdaa a) s = devTo s { d with mgmt := { m with i3cAddr := a } }) ∧
     (m.wiping = false → a = self →
       (idx = 0 → exec (.i3cRead ⟨a, idx⟩) s = out (m.lcState + if m.stfail then 8 else 0)) ∧
       (idx = 1 → exec (.i3cRead ⟨a, idx⟩) s = out (maxTemp d).toNat) ∧
       (idx = 2 → exec (.i3cRead ⟨a, idx⟩) s = out p.power) ∧
       (0x10 ≤ idx.toNat → idx.toNat ≤ 0x37 → exec (.i3cRead ⟨a, idx⟩) s = out (dieOf d (idx.toNat - 0x10)).temp.toNat) ∧
       (4 ≤ idx.toNat → idx.toNat < 0x10 ∨ 0x37 < idx.toNat → exec (.i3cRead ⟨a, idx⟩) s = out 0))) ∧
    (let tap := fun ir (v : Word) => devTo s { d with mgmt := { m with tapIr := ir, tapOut := v } }
     exec .bypass s = tap 0 0 ∧ exec .idcode s = tap 1 0x0DC15A0B ∧
     exec (.samplePreload pins) s = devTo s { d with mgmt := { m with pins := pins, tapIr := 2, tapOut := 0 } } ∧
     (m.inReset = true → exec .extest s = tap 3 0 ∧ exec .clamp s = tap 4 0 ∧ exec .highz s = tap 5 0) ∧
     (m.inReset = false → exec .extest s = tap 0 0 ∧ exec .clamp s = tap 0 0 ∧ exec .highz s = tap 0 0))

/-! ## Boundaries, budgets and launches -/

namespace Sys2Proof.Forms
open Sys2Proof Sys2Proof.Machine

/-- The words of a file after a write of each of them whole: damaged cells alone stay, each at its next state (R206). -/
def mendedFile (e : Sparse Nat) : Sparse Nat := e.filterMap fun p => if 3 ≤ p.2 then some (p.1, 3 + 2 * ((p.2 - 3) / 2 + 1)) else none

/-- What the boundary write of its staging leaves of a context: a nibble that staged writes cover stands as the last of them in the order
of R199 left it, by tag, then sender, then the sender's issue; every other nibble stands; the lines written become valid in a protected
launch; a word no staged write touches keeps its error, and one whose every byte some staged write wrote whole is sound unless its cells
are damaged (R199, R206, R207; log entry 112 where several writes make up the word). -/
def StagingWritten (c c' : Ctx) : Prop :=
  let covers := fun (x : Staged) p => x.addr = p / 2 ∧ x.nibs.testBit (p % 2) = true
  let before := fun (x y : Staged) => x.tag < y.tag ∨ (x.tag = y.tag ∧ (x.sender < y.sender ∨ (x.sender = y.sender ∧ x.seq < y.seq)))
  let whole := fun w => ∀ k < 8, ∃ x ∈ c.staging, x.addr = 8 * w + k ∧ x.nibs = 3
  ∃ m v e, c' = { c with scr := m, valid := v, errScr := e, staging := [], staged := 0, stOver := none } ∧
    (∀ p, (∀ x ∈ c.staging, ¬ covers x p) → nibble m p = nibble c.scr p) ∧
    (∀ p, ∀ x ∈ c.staging, covers x p → (∀ y ∈ c.staging, covers y p → y = x ∨ before y x) →
      nibble m p = x.val.toNat / 16 ^ (p % 2) % 16) ∧
    (∀ k, look false v k = true ↔ ((c.cls ≠ .n ∧ ∃ x ∈ c.staging, x.addr / 128 = k) ∨ look false c.valid k = true)) ∧
    (∀ w, (∀ x ∈ c.staging, x.addr / 8 ≠ w) → look 0 e w = look 0 c.errScr w) ∧
    ∀ w, whole w → (∀ q ∈ c.errScr, q.1 = w → q.2 < 3) → look 0 e w = 0

/-- What a boundary makes of a core no context is suspended on: its staging is written, its signature is combined, its latches are cleared
and what belongs to the superstep that ended is gone; XCLK is 0 as an exchange superstep begins (`odd`: the one that ends is an exchange
superstep) (R18, R186, R191, R196, R199, R360). -/
def NextCore (odd : Prop) [Decidable odd] (k k' : Core) : Prop :=
  let clock := if odd then k.xclk else 0
  (k.mode = .idle → k' = { k with xclk := clock, ctx := k'.ctx } ∧ StagingWritten k.ctx k'.ctx) ∧
  (k.mode = .active → ∃ c, StagingWritten k.ctx c ∧ k' = { k with
    xclk := clock
    ctx := { c with
      sigv0 := 0, sigv1 := 0, phended := false, lat := Latches.zero, errQ := mendedFile c.errQ, ckFlags := 0, hold := 0, portFree := 0
      transfers := [], xdone := 0, slack := none, tagWait := false } })

end Sys2Proof.Forms

/-- With every core arrived, or idle with a boundary asked for, a boundary is declared and its work runs its length; at the end of the work
of an idle device the next superstep begins. In metered mode the chip wall declares it. A core that has not arrived at the end of its
launch's budget is a straggler and is stopped. Scores decay, a cancel in free mode is not kept waiting beyond 2^20 ck, and a lasting ends
with its cores reset at their new width. In metered mode a pre-emption asked for suspends its launch, whose contexts stay on their cores,
unless it straggles; when its cores are clear and a superstep of its kind begins, it is restored, its registers written whole and its dirty
bits cleared, and it runs on once its save is complete, or ends where its checkpoint is bad; one that is restored and has not gone on is
suspended again. The last ck of the work of a boundary, with a launch running, writes the staging buffers into the scratchpads, combines the
signature of the superstep, and begins the next (R18, R32, R163, R169, R175 to R178, R186, R191, R196, R199, R206, R337, R345 to R349, R360,
R370; log entries 14, 97, 99 and 119). -/
def Obligations.BoundariesAndBudgets : Prop :=
  ∀ s : State,
    let d := s.dev
    let u := d.sun
    let n := if u.metered then min (max 1 (Config.boundaryWork d.clock)) 400 else max 1 (Config.boundaryWork d.clock)
    let live := d.runs.filter fun r => r.phase = .running
    let declared := fun i w => ∃ d', exec i s = devTo s d' ∧
      d' = { d with sun := { u with work := w }, mgmt := { d.mgmt with mons := d'.mgmt.mons } }
    let there := fun (k : Core) => k.mode = .idle ∨ k.ctx.ended = true ∨
      (∃ e, k.ctx.stop = some e ∧ (e = .straggler → u.metered = false)) ∨ fencedNow (dieOf d k.sk) ∨
      (k.ctx.phended = true ∧ k.ctx.priv = .u ∧ k.ctx.inflight = [] ∧ k.ctx.hold = 0 ∧
        (u.phase.toNat % 2 = 1 → k.ctx.xdone ≤ k.xclk))
    let budget := fun (r : Run) => if u.phase.toNat % 2 = 1 then r.xwall else r.sswall
    (u.work = 0 → u.parked = false → (∀ k ∈ s.cores, there k) →
      (2 ≤ n → live ≠ [] ∨ u.want = true → declared .boundary (n - 1)) ∧
      (n = 1 → u.want = true → d.runs = [] → d.launches = [] → d.reserved = none → u.heldMode = none → u.holdAsked = false →
        u.phase.toNat % 2 = 1 → (∀ fn < 64, shareOf (ifcOf d fn) = 0) → (∀ sk, quiesceAsked d sk = false) →
        ∃ t, exec .boundary s = .next t ∧ t.dev.sun = { u with phase := u.phase + 1, ck := 0, want := false })) ∧
    (u.work ≠ 0 ∨ u.parked = true ∨ (live = [] ∧ u.want = false) → exec .boundary s = .next s) ∧
    (u.work = 0 → u.parked = false → u.metered = true →
      ((∃ r ∈ live, budget r ≠ 0) → (∀ r ∈ live, budget r ≤ u.ck) → declared .chipWallExpiry n) ∧
      ((∃ r ∈ live, u.ck < budget r) → exec .chipWallExpiry s = .next s)) ∧
    (u.metered = false ∨ u.work ≠ 0 ∨ u.parked = true → exec .chipWallExpiry s = .next s) ∧
    (∀ r id, live = [r] → budget r ≠ 0 → r.late = none →
      let waits := fun (k : Core) => k.mode = .active && k.ctx.run = r.id && !arrived s k
      let odd := u.phase.toNat % 2
      let d' := setRun d { r with late := some (d.clock, id, odd * 2 ^ 20 + id) }
      let stop := fun (k : Core) => if waits k then
        { k with ctx := { k.ctx with stop := some .straggler, stopCk := d.clock } } else k
      (u.ck ≠ budget r ∨ (∀ k ∈ s.cores, waits k = false) → exec .budgetExpiry s = .next s) ∧
      (u.ck = budget r → (∃ k ∈ s.cores, waits k = true ∧ k.ctx.coreId = id) →
        (∀ k ∈ s.cores, waits k = true → id ≤ k.ctx.coreId) →
        exec .budgetExpiry s = .next { s with core := stop s.core, others := s.others.map stop, dev := d' })) ∧
    ((d.clock + 1) % 2 ^ 40 = 0 → ∃ l, exec .scoreDecay s = devTo s { d with mgmt := { d.mgmt with cbscore := l } } ∧
      ∀ y, y ∈ l ↔ ∃ z ∈ d.mgmt.cbscore, y = (z.1, z.2 - 1) ∧ 1 < z.2) ∧
    ((d.clock + 1) % 2 ^ 40 ≠ 0 → exec .scoreDecay s = .next s) ∧
    (∀ l ck, d.launches = [l] → l.cancel = some ck → l.placed = true →
      (u.metered = false → ck + 2 ^ 20 ≤ d.clock → exec .cancelTimeout s = .next (terminate s l 4 0)) ∧
      (u.metered = true ∨ d.clock < ck + 2 ^ 20 → exec .cancelTimeout s = .next s)) ∧
    (∀ x, d.lastings = [x] → x.ends ≤ d.clock → x.width ≠ 1 → ∃ t, exec .lastingComplete s = .next t ∧
      t.dev.lastings = [] ∧ t.dev.sun = { u with want := true } ∧
      (let k := s.core
       let hit := k.sk = x.sk ∧ k.lasting = some x.ends ∧ x.lead ≤ k.ix ∧ k.ix < x.lead + x.width
       (hit → t.core = { Core.reset k.sk k.ix with
         bound := true, cycle := k.cycle, worn := k.worn, gang := if k.ix = x.lead then x.width else 1
         member := k.ix ≠ x.lead }) ∧
       (¬ hit → t.core = k))) ∧
    ((∀ x ∈ d.lastings, d.clock < x.ends) → exec .lastingComplete s = .next s) ∧
    (∀ r, d.runs = [r] →
      let odd := decide (u.phase.toNat % 2 = 1)
      let holds := fun (k : Core) (c : Ctx) => c = k.ctx ∨ c ∈ k.susp
      let on := fun (f : Core → Core) (y : Run) => { s with core := f s.core, others := s.others.map f, dev := { d with runs := [y] } }
      let held := fun (t : State) => { t with dev := { t.dev with sun := { u with want := true } } }
      let away := fun (k : Core) => if k.mode = .active ∧ k.ctx.run = r.id then
        { k with mode := .idle, ctx := Ctx.zero, susp := k.susp ++ [{ k.ctx with code := k.imem, codeGen := k.svGen }] } else k
      let clean := fun (k : Core) => { k with susp := k.susp.map fun c => if c.run = r.id then
        { c with dirty := [], errS := mendedFile c.errS, errV := mendedFile c.errV, errP := mendedFile c.errP } else c }
      let back := fun (k : Core) => match k.susp.find? fun c => c.run = r.id with
        | none => k
        | some c => { k with
            mode := .active, ctx := { c with code := [], codeGen := 0 }, imem := c.code, svIfc := some c.ifc, svGen := c.codeGen
            susp := k.susp.filter fun y => y.run ≠ r.id }
      let clear := ∀ p ∈ r.cores, ∃ k, coreAt s p.1 p.2 = some k ∧ k.mode = .idle
      (u.metered = false → takePreempts s = s) ∧
      (u.metered = true → r.phase = .running → r.preempt = true →
        (r.late ≠ none → takePreempts s = on id { r with preempt := false }) ∧
        (r.late = none → r.halt = none → r.lost = none → (∀ k ∈ s.cores, ∀ c, holds k c → c.stop = none ∧ c.t4.ops = []) →
          takePreempts s = held (on away { r with phase := .suspended, saved := false, preempt := false, resumeOdd := odd }))) ∧
      (u.metered = true → r.phase = .ready → r.preempt = true →
        (r.nss = 0 → takePreempts s = on id { r with preempt := false }) ∧
        (r.nss ≠ 0 → r.late = none → r.halt = none → r.lost = none → (∀ k ∈ s.cores, ∀ c, holds k c → c.stop = none) →
          takePreempts s = held (on id { r with phase := .suspended, preempt := false }))) ∧
      (r.phase = .suspended →
        (clear → r.resumeOdd = odd → resumeRuns s = on clean { r with phase := .ready, preempt := false }) ∧
        (¬ clear ∨ r.resumeOdd ≠ odd → resumeRuns s = s)) ∧
      (∀ x, r.phase = .ready → launchOf d r.launch = some x →
        (r.resumeOdd = odd → r.saved = true → r.badCkpt = false →
          startRuns s = on back { r with phase := .running, resumeOdd := false }) ∧
        (r.resumeOdd = odd → r.saved = true → r.badCkpt = true → startRuns s = terminate s x 3 (4 * 2 ^ 20 + 0x02)) ∧
        (r.resumeOdd ≠ odd ∨ r.saved = false → startRuns s = s))) ∧
    (∀ c : Ctx, (∀ x ∈ c.staging, 1 ≤ x.nibs ∧ x.nibs ≤ 3) → StagingWritten c (writeStaging c)) ∧
    (∀ r x, d.runs = [r] → d.launches = [x] → r.launch = x.id → x.placed = true → recovering x = false → x.cancel = none →
      r.phase = .running → r.preempt = false → r.halt = none → r.late = none → r.lost = none → r.cores ≠ [] →
      d.reserved = none → u.heldMode = none → u.holdAsked = false → (∀ sk, quiesceAsked d sk = false) →
      u.work = 1 → (∀ k ∈ s.cores, k.susp = [] ∧ k.ctx.stOver = none ∧ (∀ y ∈ k.ctx.staging, 1 ≤ y.nibs ∧ y.nibs ≤ 3) ∧
        (k.mode = .idle → k.ctx.staging = []) ∧
        (k.mode = .active → k.ctx.run = r.id ∧ k.ctx.ended = false ∧ k.ctx.stop = none ∧ k.ctx.t5.ops = [])) →
      let odd := u.phase.toNat % 2 = 1
      (odd → ∀ fn < 64, shareOf (ifcOf d fn) = 0) →
      ∃ t lreg, tickSundial s = t ∧ NextCore odd s.core t.core ∧ List.Forall₂ (NextCore odd) s.others t.others ∧
        t.dev = { d with
          runs := [{ r with lreg := lreg, nss := r.nss + 1, lastArr := 0 }]
          sun := { u with phase := u.phase + 1, ck := 0, work := 0, total := u.total + 1, want := if odd then false else u.want }
          ptr := if odd then (d.ptr + 1) % 64 else d.ptr } ∧
        ∀ sigs : List Byte, sigs.length = r.cores.length → r.parts.length = r.cores.length →
          (∀ i (_ : i < r.cores.length) (_ : i < r.parts.length) (_ : i < sigs.length), ∃ k, coreAt s r.cores[i].1 r.cores[i].2 = some k ∧
            k.mode = .active ∧ k.ctx.part = r.parts[i] ∧ sigs[i] = BitVec.ofNat 8 (k.ctx.sigv0.toNat + 16 * k.ctx.sigv1.toNat)) →
          let ssig := Nat.xor (crcBytes 0xFFFFFFFF sigs) 0xFFFFFFFF
          lreg = BitVec.ofNat 32 (crcBytes r.lreg.toNat
            [BitVec.ofNat 8 ssig, BitVec.ofNat 8 (ssig / 2 ^ 8), BitVec.ofNat 8 (ssig / 2 ^ 16), BitVec.ofNat 8 (ssig / 2 ^ 24)]))

/-- A replica's containment is to be released, and every other replica's is discarded. -/
def Sys2Proof.Forms.released (d : Device) (x : Launch) (keep : Nat) : Device :=
  { d with
    runs := d.runs.map fun r => if r.id = keep then r else { r with cont := Contain.empty }
    launches := d.launches.map fun y =>
      if y.id = x.id then { x with releasing := some keep, reserveUnits := x.recd.contain } else y }

/-- The vote of a class-D launch, with the replicas it has: nothing before each has completed or been abandoned; two signatures that agree
release the primary's containment; a disagreement, or one replica without a signature, asks for a tie-break, and two end the launch
with the cause of the first detection, 0x46 where there was none; the tie-break resolves by Table 15.6. -/
def Sys2Proof.Forms.Voted (s : State) (l : Nat) (x : Launch) : Prop :=
  let d := s.dev
  let ended := fun (r : Run) => r.phase = .finished ∨ r.phase = .abandoned
  let det := fun (r : Run) => r.abandonCause.filter fun e => e.2.2 % 256 ≠ 0x46
  let fails := fun (cause : Nat) => terminate s x 3 (4 * 2 ^ 20 + cause)
  let loses := fun (r : Run) (e : Device) => if r.phase = .finished then scoreEvent e 4 (r.slots.headD 0) 16 (whoOf e r.id) 0 else e
  ∀ p q : Run, p.role = .primary → q.role = .secondary → p.launch = l → q.launch = l → p.id ≠ q.id →
    (d.runs = [p, q] →
      (¬ ended p ∨ ¬ ended q → vote s l = s) ∧
      (p.phase = .finished → q.phase = .finished → p.sig = q.sig → x.wantTie = false → vote s l = { s with dev := released d x p.id }) ∧
      (ended p → ended q → p.phase = .finished ∨ q.phase = .finished →
        p.phase = .abandoned ∨ q.phase = .abandoned ∨ p.sig ≠ q.sig → x.wantTie = false →
        vote s l = { s with dev := { d with
          nextId := d.nextId + 1, sun := { d.sun with want := true }, runs := [p, { q with cont := Contain.empty }]
          launches := d.launches.map fun y => if y.id = x.id then { x with
            wantTie := true, order := d.nextId, avoid := p.slots ++ q.slots
            reserveUnits := x.recd.contain * (if p.phase = .abandoned then 1 else 2) } else y } }) ∧
      (p.phase = .abandoned → q.phase = .abandoned → x.wantTie = false →
        (∀ a b, det p = some a → det q = some b → vote s l = fails ((firstEvent a b).2.2 % 256)) ∧
        (∀ a, det p = some a → det q = none → vote s l = fails (a.2.2 % 256)) ∧
        (∀ b, det p = none → det q = some b → vote s l = fails (b.2.2 % 256)) ∧
        (det p = none → det q = none → vote s l = fails 0x46))) ∧
    (∀ t : Run, t.role = .tieBreak → t.launch = l → t.id ≠ p.id → t.id ≠ q.id → d.runs = [p, q, t] → ended p → ended q →
      (x.wantTie = true ∨ ¬ ended t → vote s l = s) ∧
      (x.wantTie = false → t.phase = .abandoned →
        (∀ a, det t = some a → vote s l = fails (a.2.2 % 256)) ∧ (det t = none → vote s l = fails 0x45)) ∧
      (x.wantTie = false → t.phase = .finished →
        let asP := p.phase = .finished ∧ p.sig = t.sig
        let asQ := q.phase = .finished ∧ q.sig = t.sig
        (asP → vote s l = { s with dev := loses q (released d x p.id) }) ∧
        (¬ asP → asQ → vote s l = { s with dev := loses p (released d x t.id) }) ∧
        (¬ asP → ¬ asQ → vote s l =
          terminate { s with dev := relLog d 5 0 ⟨x.ifc, x.queue, x.slot, 0⟩ 0x45 } x 3 (4 * 2 ^ 20 + 0x45))))

/-- A placed launch whose code has been read starts: each core holds a context at ENTRY, at U, with its CORE_ID, its arguments, every other
register at its launch-start value, cleared memories, the code, its supervisor region, that of the image the launch was placed with where
the core lacks it, and the errors of its damaged cells; its run is ready with its budgets and, at its first start, STATUS = RUNNING is owed;
a read that must wait leaves the launch loading. A save of halted contexts completes. Votes are taken as Table 15.6 has them, and a vote's
release writes the contained bytes, while no link it needs retrains, and then the launch is DONE. A launch that terminates is gone, and its
STATUS, its counter and the launches that wait for it follow as the write of STATUS is done, or stay owed while it must wait or in a hold
(R39, R40, R84, R246, R255, R309, R354, R359, R166, R167, R168, R173, R176, R206, R344, R348, R366, R368, R369, R388, R396, R409; log
entries 70 and 75). -/
def Obligations.LaunchesStartAndEnd : Prop :=
  ∀ (s : State) (l : Nat) (x : Launch) (bad : Bool),
    let d := s.dev
    let u := d.sun
    let f := ifcOf d x.ifc
    let lim := f.limits.toNat
    let clip := fun b m => if u.metered then (if b = 0 then m else min b m) else b
    let loads := fun (r : Run) => r.launch = l && r.phase = .loading
    (u.parked = true ∨ launchOf d l = none ∨ d.runs.filter loads = [] → exec (.launchStart l) s = .next s) ∧
    (launchOf d l = some x → u.parked = false → ∀ r, d.runs.filter loads = [r] →
      let read := spanRead d tlbHost 4 x.ifc x.recd.code x.recd.codesz [2, l]
      (∀ d', read = .wait d' → exec (.launchStart l) s = devTo s d') ∧
      (∀ d' a k, read = .bad d' a k ∨ read = .stop d' a k →
        ∃ d1, ErrSet d' x.ifc 5 d1 ∧ exec (.launchStart l) s = .next (terminate { s with dev := d1 } x 6 0x10)) ∧
      (∀ d' bs, read = .ok d' bs →
       let lacks := fun (k : Core) => k.svIfc ≠ some x.ifc ∨ k.svGen ≠ x.image.2.2
       let needed := ∃ p ∈ r.cores, ∃ k, coreAt s p.1 p.2 = some k ∧ lacks k
       let image := spanRead d' tlbHost 4 x.ifc x.image.1 x.image.2.1 [3, l]
       (needed → ∀ d2, image = .wait d2 → exec (.launchStart l) s = devTo s d2) ∧
       (needed → ∀ d2 a k, image = .bad d2 a k ∨ image = .stop d2 a k →
         ∃ d3, ErrSet d2 x.ifc 3 d3 ∧ exec (.launchStart l) s = .next (terminate { s with dev := d3 } x 6 0x20)) ∧
       ∀ d2 sv, (needed ∧ image = .ok d2 sv ∨ ¬ needed ∧ d2 = d' ∧ sv = []) →
        bs.length ≤ 0x30000 → d2.runs = d.runs → d2.sun = u → d2.ifcs = d.ifcs →
        ∃ t, exec (.launchStart l) s = .next (if x.started then t else owe t (owedFor x 1 0 none)) ∧
          t.dev = { d2 with
            sun := { u with want := true }
            launches := d2.launches.map fun y => if y.id = x.id then { x with started := true } else y
            runs := d.runs.map fun y => if loads y then { y with
              phase := .ready, sswall := clip x.recd.ssbudget (lim % 2 ^ 32), xwall := clip x.recd.xbudget (lim / 2 ^ 32) } else y } ∧
          ((s.core.sk, s.core.ix) ∉ r.cores → t.core = s.core) ∧
          ∀ id (_ : id < r.cores.length), r.cores[id] = (s.core.sk, s.core.ix) → r.cores.Nodup →
            ∃ c, t.core = { s.core with susp := s.core.susp ++ [c] } ∧
              c.run = r.id ∧ c.coreId = id ∧ c.ncore = x.recd.ncore ∧ c.pc = BitVec.ofNat 18 x.recd.entry ∧ c.priv = .u ∧
              c.trapvec = BitVec.ofNat 18 x.recd.trapvec ∧ Fresh c ∧ c.ifc = x.ifc ∧ c.metered = u.metered ∧
              c.cls = (if x.recd.cls = 0 then .n else if x.recd.cls = 1 then .s else .d) ∧
              (∀ i, r.slots[i]? = some s.core.sk → (∀ j < i, r.slots[j]? ≠ some s.core.sk) →
                c.diemask = w64 (2 ^ r.slots.length - 1 + i * 2 ^ 16 + r.slots.length * 2 ^ 24)) ∧
              (∀ j < 48, sreg c (BitVec.ofNat 6 j) = 0) ∧
              c.sswall = w64 (clip x.recd.ssbudget (lim % 2 ^ 32)) ∧ c.xwall = w64 (clip x.recd.xbudget (lim / 2 ^ 32)) ∧
              ((∀ k ∈ s.cores, k.worn = []) → c.errS = [] ∧ c.errV = [] ∧ c.errP = [] ∧ c.errQ = [] ∧ c.errScr = [] ∧ c.errAcc = [] ∧
                c.errOpm = []) ∧
              (0 < s.core.gang → ∀ j < 65536, (0, j) ∈ s.core.worn → 3 ≤ look 0 c.errS j) ∧
              (∀ j < 16, sreg c (BitVec.ofNat 6 (48 + j)) = x.recd.arg.getD j 0) ∧
              (∀ a (h : a < bs.length), byteAt c.code a = bs[a]) ∧
              (∀ a, bs.length ≤ a → a < 0x30000 → byteAt c.code a = 0) ∧
              ∀ a, 0x30000 ≤ a → byteAt c.code a = if lacks s.core then sv.getD (a - 0x30000) 0 else byteAt s.core.imem a)) ∧
    (∀ x, launchOf d l = some x → x.releasing = none → Voted s l x) ∧
    (u.parked = false →
      let due := fun (r : Run) => r.launch = l && (r.phase = .suspended || r.phase = .ready) && !r.saved
      let clean := fun (k : Core) =>
        { k with susp := k.susp.map fun c => if d.runs.any fun r => due r && r.id = c.run then { c with dirty := [] } else c }
      exec (.checkpointSave l bad) s = .next { s with
        core := clean s.core, others := s.others.map clean
        dev := { d with
          sun := { u with want := u.want || d.runs.any due }
          runs := d.runs.map fun r => if due r then { r with saved := true, badCkpt := bad } else r } }) ∧
    (u.parked = true → exec (.checkpointSave l bad) s = .next s ∧ exec (.containmentRelease l) s = .next s) ∧
    (∀ id r, launchOf d l = some x → x.releasing = some id → runOf d id = some r → u.parked = false → x.relBad = false →
      let host := r.cont.hostMask.map fun p => (⟨p.1, 3, byteAt r.cont.host p.1⟩ : WByte)
      let mends := fun sk => (look Die.zero d.dies sk).retraining
      (r.cont.glbMask = [] → r.cont.hostMask = [] ∨ mends 20 = false →
        exec (.containmentRelease l) s = .next (terminate { s with dev := hostPost d x.ifc host } x 2 0)) ∧
      (r.cont.glbMask = [] → r.cont.hostMask ≠ [] → mends 20 = true → exec (.containmentRelease l) s = .next s) ∧
      (∀ g, r.cont.glbMask ≠ [] → (∀ p ∈ r.cont.glbMask, p.1 / 32 = g) → paWin (32 * g) = true →
        mends (16 + winHub (32 * g)) = false → mends 20 = false →
        (∀ j < 4, look 0 (hubOf d (winHub (32 * g))).winErr (winOff (32 * g) / 8 + j) = 0) →
        ∃ t, exec (.containmentRelease l) s = .next (terminate t x 2 0) ∧
          ∀ k < 32, let o := winOff (32 * g) + k
            byteAt (hubOf t.dev (winHub (32 * g))).win o = if look false r.cont.glbMask (32 * g + k) then
              byteAt r.cont.glb (32 * g + k) else byteAt (hubOf d (winHub (32 * g))).win o)) ∧
    (∀ s' e st detail, x.recd.irq = false → x.recd.gcnt = 0xFFFF → x.recd.jcnt = 0xFFFF → d.owed = [] →
      (∀ y ∈ d.drains, y.launch ≠ x.id) → (∀ r ∈ d.runs, r.launch ≠ x.id) → d.reserved ≠ some x.id →
      let word := st % 256 + detail % 2 ^ 24 * 256
      let gone := { d with
        launches := d.launches.filter fun y => y.id ≠ x.id
        spans := d.spans.filter fun y => y.key ≠ [2, x.id] && y.key ≠ [3, x.id], sun := { u with want := true } }
      let due : Owed := ⟨x.ifc, x.va + 8, word, x.id, some ([x.recd.lcnt, x.recd.gcnt, x.recd.jcnt], false, st ≠ 2)⟩
      (u.parked = true → terminate s x st detail = { s with dev := { gone with owed := [due] } }) ∧
      (u.parked = false → spanWrite { s with dev := gone } tlbHost 4 x.ifc (wbytes (x.va + 8) (toBytes 4 word)) (spanOf (x.va + 8) 4)
        (key := [9, x.ifc, x.va + 8, x.id, word]) = (s', e) →
      (e = .wait → terminate s x st detail = { s' with dev := { s'.dev with owed := s'.dev.owed ++ [due] } }) ∧
      (e = .done →
        let e := s'.dev
        let c := cbaseOf (ifcOf e x.ifc) + x.recd.lcnt
        let old := (look 0 e.counters c).toNat
        let new := w64 ((old % 2 ^ 48 + 1) % 2 ^ 48 + if st ≠ 2 ∨ old.testBit 48 = true then 2 ^ 48 else 0)
        let up := { e with counters := store 0 e.counters c new }
        let after := fun (y : Device) => { s' with dev := { y with
          launches := y.launches.map (judged y), sun := { y.sun with want := true } } }
        (x.recd.lcnt = 0xFFFF → terminate s x st detail = after e) ∧
        (x.recd.lcnt ≠ 0xFFFF → x.recd.lcnt < ncntOf (ifcOf e x.ifc) → terminate s x st detail = after up))))
end

