-- ==== Sys2Proof/Laws/Ops.lean ====
section
/-! SUPPORT. What the shared operations of issue can do. -/
namespace Sys2Proof.Machine
open Sys2Proof

/-- What settling the control segment does: only its three fields change, and neither REG nor NSEG is changed by it. -/
theorem segSettle_spec (c : Ctx) (l : List SegEntry) (b : BitVec 32) (n : Nat) :
    ∃ b' n' l', segSettle c l b n = { c with segBase := b', segOld := n', segNew := l' } ∧
      l'.foldl (fun r e => crcWord r e.word) b' = l.foldl (fun r e => crcWord r e.word) b ∧
      (n' + l'.length) % 2 ^ 24 = (n + l.length) % 2 ^ 24 := by
  induction l generalizing b n with
  | nil => exact ⟨b, n % 2 ^ 24, [], rfl, rfl, by simp⟩
  | cons e r ih =>
    unfold segSettle
    split
    · exact ⟨b, n % 2 ^ 24, e :: r, rfl, rfl, by simp⟩
    · obtain ⟨b', n', l', h1, h2, h3⟩ := ih (crcWord b e.word) (n + 1)
      exact ⟨b', n', l', h1, h2, by rw [h3, List.length_cons]; omega⟩

/-- The context after an issue at U, but for the word's own entry in the control segment. -/
def issuedAtU (c : Ctx) : Ctx :=
  segSettle { c with issuecnt := c.issuecnt + 1, serial := c.serial + 1 } c.segNew c.segBase c.segOld

/-- The counts of an issue at S. -/
theorem countIssue_s (c : Ctx) (w : Word) (b : Bool) (hp : c.priv = .s) :
    countIssue c w b = { c with serial := c.serial + 1 } := by
  unfold countIssue
  split
  · rfl
  · rename_i h
    rw [hp] at h
    cases h

/-- The counts of an issue at U. -/
theorem countIssue_u (c : Ctx) (w : Word) (hp : c.priv = .u) :
    countIssue c w true = { issuedAtU c with segNew := (issuedAtU c).segNew ++ [⟨c.serial, w⟩] } := by
  unfold countIssue
  split
  · rename_i h
    rw [hp] at h
    cases h
  · rfl

/-- The counts of an issue (R32, R33, R354). -/
theorem counted_countIssue (c : Ctx) (w : Word) : Counted c w (countIssue c w true) := by
  cases hp : c.priv with
  | s =>
    have h := countIssue_s c w true hp
    exact ⟨by rw [h], by simp [hp], fun _ => h⟩
  | u =>
    have h := countIssue_u c w hp
    obtain ⟨b, n, l, h1, h2, h3⟩ := segSettle_spec { c with issuecnt := c.issuecnt + 1, serial := c.serial + 1 } c.segNew
      c.segBase c.segOld
    rw [issuedAtU, h1] at h
    refine ⟨by rw [h], fun _ => ⟨by rw [h], ?_, ?_⟩, by simp [hp]⟩
    · rw [h]
      simp only [segReg, List.foldl_append, List.foldl_cons, List.foldl_nil, h2]
    · rw [h]
      simp only [segCount, List.length_append, List.length_cons, List.length_nil]
      omega

/-- An instruction that continues to the next word and may issue does what it does once issued. -/
theorem gate_open (s : State) (p q : Bool) (k : State → Out) (hr : inRegion s) (hp : p = true)
    (hq : q = true ∨ s.core.ctx.priv = .s) : gate s p q k = k s := by
  have h1 : seqBad s.core.ctx = false := by
    unfold inRegion at hr
    unfold seqBad
    cases h : s.core.ctx.priv <;> simp only [h] at hr ⊢ <;> exact decide_eq_false (by omega)
  rcases hq with hq | hq <;> simp [gate, h1, hp, hq]

/-- A form of the compute phase that may issue. -/
theorem gateComp_open (s : State) (k : State → Out) (h : mayCompute s) : gateComp s k = k s := by
  refine gate_open s true _ k h.1 rfl ?_
  cases hp : s.core.ctx.priv with
  | s => exact .inr rfl
  | u =>
    left
    have := h.2
    simp only [outOfPhase, hp, true_and] at this
    simpa using this

/-- A form legal everywhere that may issue. -/
theorem gateAny_open (s : State) (k : State → Out) (h : inRegion s) : gateAny s k = k s :=
  gate_open s true true k h rfl (.inl rfl)

/-- What issuing an instruction with a register result does. -/
theorem issueResult_spec (s : State) (lat : Nat) (res : Result) (fl : Flags) (load : Option LoadReq)
    (bad : Option LateFault) :
    ∃ c, Counted s.core.ctx (wordNow s) c ∧
      issueResult s lat res fl load bad = s.setCtx (fly s.core.ctx lat res fl load bad { c with pc := c.pc + 8 }) :=
  ⟨_, counted_countIssue _ _, rfl⟩

/-- What issuing an instruction with no register result does, when its register sources are sound. -/
theorem issuePlain_spec (s : State) (srcs : List Src) (f : Ctx → Ctx) (h : srcsBad s.core.gang s.core.ctx srcs = none) :
    ∃ c, Counted s.core.ctx (wordNow s) c ∧ issuePlain s srcs f = s.setCtx (f { c with pc := c.pc + 8 }) := by
  refine ⟨_, counted_countIssue _ _, ?_⟩
  simp only [issuePlain, h]
  rfl

/-- A scalar form legal everywhere whose issue is one scalar result gives it. -/
theorem givesScalar_of_issue (i : Instr) (s : State) (srcs : List Src) (sd : BitVec 6) (lat : Nat) (v : Word) (fl : Flags)
    (h : inRegion s) (e : exec i s = gateAny s fun s => .next (issueScalar s srcs sd lat v fl)) :
    GivesScalar i s lat sd v fl srcs := by
  rw [gateAny_open _ _ h] at e
  obtain ⟨c, hc, h2⟩ := issueResult_spec s lat (.scalar sd v) fl none (srcFault s.core.gang s.core.ctx srcs)
  exact ⟨c, hc, by rw [e, ← h2]; rfl⟩

/-- A form of the scalar unit gives the value its sources have. -/
theorem aluOp_gives (i : Instr) (s : State) (srcs : List Src) (sd : BitVec 6) (v : Ctx → Word) (h : inRegion s)
    (e : exec i s = aluOp s srcs sd v) : GivesScalar i s 1 sd (v s.core.ctx) 0 srcs := by
  refine givesScalar_of_issue i s srcs sd 1 _ 0 h ?_
  rw [e, aluOp, gateAny_open _ _ h, gateAny_open _ _ h]

/-- A form of the scalar floating-point unit gives the value and the flags its sources have. -/
theorem sfpOp_gives (i : Instr) (s : State) (srcs : List Src) (sd : BitVec 6) (lat : Nat) (v : Ctx → Nat × Flags)
    (h : inRegion s) (e : exec i s = sfpOp s srcs sd lat v) :
    GivesScalar i s lat sd (BitVec.ofNat 64 (v s.core.ctx).1) (v s.core.ctx).2 srcs := by
  refine givesScalar_of_issue i s srcs sd lat _ _ h ?_
  rw [e, sfpOp, gateAny_open _ _ h, gateAny_open _ _ h]

/-! ### Transfers -/

/-- A target of the current privilege's region, aligned, raises no trap (R36). -/
theorem targetTrap_none (c : Ctx) (t : Word) (h : t.toNat % 8 = 0)
    (hr : match c.priv with
      | .u => t.toNat < 0x30000
      | .s => 0x30000 ≤ t.toNat ∧ t.toNat < 0x40000) : targetTrap c t = none := by
  unfold targetTrap
  cases hp : c.priv <;> simp only [hp] at hr ⊢ <;> rw [if_neg (by omega), if_neg (by omega), if_neg (by omega)]

/-- A transfer that is taken to a sound target, in a phase that allows it, does what it does once issued. -/
theorem transfer_taken (s : State) (t : Word) (k : State → Out) (hn : ¬ outOfPhase s) (ht : targetTrap s.core.ctx t = none) :
    transfer s true t k = k s := by
  have h : (decide (s.core.ctx.priv = .u) && exchange s) = false := by
    unfold outOfPhase at hn
    by_cases hp : s.core.ctx.priv = .u <;> simp_all
  simp only [transfer, if_true, ht, h]
  rfl

/-- A transfer that is not taken goes on to the next word when that may issue. -/
theorem transfer_not_taken (s : State) (t : Word) (k : State → Out) (h : mayCompute s) : transfer s false t k = k s := by
  simp only [transfer, Bool.false_eq_true, if_false]
  exact gateComp_open s k h

/-! ### Traps -/

/-- A trap raised at S stops the core and changes nothing else (R331). -/
theorem trapIssue_s (s : State) (code : Nat) (val : Word) (h : s.core.ctx.priv = .s) :
    trapIssue s code val = s.setCtx (trapAtS s.dev.clock s.core.ctx code val) := by
  simp only [trapIssue, h]

/-- A trap at U enters S at TRAPVEC with the latches, the rotation and FPCTL cleared (R337). -/
theorem takeTrap_enters (g : Nat) (cycle : Word) (c : Ctx) (code : Nat) (val : Word) (tpc : Nat) (fpc : Option Nat)
    (more : Nat) (stall : Bool) (sl : List Slot) :
    let t := takeTrap g cycle c code val tpc fpc more stall sl
    t.priv = .s ∧ t.lat = Latches.zero ∧ t.rotcfg = 0 ∧ t.vrb = 0 ∧ t.prb = 0 ∧ t.fpctl = 1 ∧ t.phended = false ∧ t.hold = 7 :=
  ⟨rfl, rfl, rfl, rfl, rfl, rfl, rfl, rfl⟩

end Sys2Proof.Machine
end

