-- ==== Sys2Proof/Laws/Store.lean ====
section
/-! SUPPORT. The laws of sparse tables and byte memories: a lookup after an update, and the canonical form that every update
keeps. -/
namespace Sys2Proof.Machine
open Sys2Proof

/-! ### Lookup after update -/

/-- The value just put at a key is found there. -/
theorem look_ins_same {α : Type} (d x : α) (m : Sparse α) (a : Nat) : look d (ins m a x) a = x := by
  induction m with
  | nil => simp [ins, look]
  | cons p r ih =>
    obtain ⟨k, v⟩ := p
    unfold ins
    split
    · rw [look, if_neg (by omega), ih]
    · split <;> simp [look]

/-- Putting a value at a key leaves every other key alone. -/
theorem look_ins_ne {α : Type} (d x : α) (m : Sparse α) {a b : Nat} (h : b ≠ a) :
    look d (ins m a x) b = look d m b := by
  induction m with
  | nil => simp [ins, look, Ne.symm h]
  | cons p r ih =>
    obtain ⟨k, v⟩ := p
    unfold ins
    split
    · simp only [look, ih]
    · split
      · subst k; simp [look, Ne.symm h]
      · simp [look, Ne.symm h]

/-- A lookup among the entries whose keys a predicate keeps. -/
theorem look_filter_key {α : Type} (d : α) (f : Nat → Bool) (m : Sparse α) (a : Nat) :
    look d (m.filter fun p => f p.1) a = if f a then look d m a else d := by
  induction m with
  | nil => simp [look]
  | cons p r ih =>
    obtain ⟨k, v⟩ := p
    by_cases hk : f k = true
    · simp only [List.filter_cons, hk, if_true, look, ih]
      by_cases h : k = a
      · subst k; simp [hk]
      · simp [h]
    · simp only [List.filter_cons, hk, look]
      by_cases h : k = a
      · subst k; simp [ih, hk]
      · simp [ih, h]

/-- What stands at each key after an update. -/
theorem look_store {α : Type} [DecidableEq α] (d x : α) (m : Sparse α) (a b : Nat) :
    look d (store d m a x) b = if b = a then x else look d m b := by
  unfold store
  by_cases hx : x = d
  · rw [if_pos hx]
    have h := look_filter_key d (fun k => decide (k ≠ a)) m b
    rw [h]
    by_cases hb : b = a <;> simp [hb, hx]
  · rw [if_neg hx]
    by_cases hb : b = a
    · subst b; simp [look_ins_same]
    · simp [hb, look_ins_ne d x m hb]

/-! ### The canonical form -/

/-- Every key of a table. -/
theorem mem_ins {α : Type} (m : Sparse α) (a : Nat) (x : α) (p : Nat × α) (h : p ∈ ins m a x) : p = (a, x) ∨ p ∈ m := by
  induction m with
  | nil => simpa [ins] using h
  | cons q r ih =>
    obtain ⟨k, v⟩ := q
    unfold ins at h
    split at h
    · rcases List.mem_cons.1 h with h | h
      · exact .inr (by simp [h])
      · rcases ih h with h | h
        · exact .inl h
        · exact .inr (by simp [h])
    · split at h
      · rcases List.mem_cons.1 h with h | h
        · exact .inl h
        · exact .inr (by simp [h])
      · rcases List.mem_cons.1 h with h | h
        · exact .inl h
        · exact .inr h

/-- Rising keys, said of the head and the rest. -/
theorem keysUp_cons {α : Type} (p : Nat × α) (r : Sparse α) :
    keysUp (p :: r) = true ↔ (∀ q ∈ r, p.1 < q.1) ∧ keysUp r = true := by
  induction r generalizing p with
  | nil => simp [keysUp]
  | cons q r ih =>
    have hq := ih q
    simp only [keysUp, Bool.and_eq_true, decide_eq_true_eq, List.mem_cons, forall_eq_or_imp]
    constructor
    · rintro ⟨h1, h2⟩
      exact ⟨⟨h1, fun y hy => lt_trans h1 ((hq.1 h2).1 y hy)⟩, h2⟩
    · rintro ⟨⟨h1, -⟩, h2⟩
      exact ⟨h1, h2⟩

/-- Putting a value keeps the keys rising. -/
theorem keysUp_ins {α : Type} (m : Sparse α) (a : Nat) (x : α) (h : keysUp m = true) : keysUp (ins m a x) = true := by
  induction m with
  | nil => simp [ins, keysUp]
  | cons q r ih =>
    obtain ⟨k, v⟩ := q
    obtain ⟨h1, h2⟩ := (keysUp_cons _ _).1 h
    unfold ins
    split
    · rename_i hk
      refine (keysUp_cons _ _).2 ⟨fun p hp => ?_, ih h2⟩
      rcases mem_ins _ _ _ _ hp with rfl | hp
      · exact hk
      · exact h1 p hp
    · split
      · rename_i hk
        subst k
        exact (keysUp_cons _ _).2 ⟨h1, h2⟩
      · refine (keysUp_cons _ _).2 ⟨fun p hp => ?_, h⟩
        rcases List.mem_cons.1 hp with rfl | hp
        · show a < k; omega
        · have := h1 p hp; show a < p.1; simp only at this; omega

/-- Dropping entries keeps the keys rising. -/
theorem keysUp_filter {α : Type} (m : Sparse α) (f : Nat × α → Bool) (h : keysUp m = true) : keysUp (m.filter f) = true := by
  induction m with
  | nil => rfl
  | cons q r ih =>
    obtain ⟨h1, h2⟩ := (keysUp_cons _ _).1 h
    rw [List.filter_cons]
    split
    · exact (keysUp_cons _ _).2 ⟨fun p hp => h1 p (List.mem_filter.1 hp).1, ih h2⟩
    · exact ih h2

/-- The canonical form, as two facts. -/
theorem tableWf_iff {α : Type} [DecidableEq α] (d : α) (m : Sparse α) :
    tableWf d m = true ↔ keysUp m = true ∧ ∀ p ∈ m, p.2 ≠ d := by
  simp [tableWf, List.all_eq_true]

/-- Dropping entries keeps the canonical form. -/
theorem tableWf_filter {α : Type} [DecidableEq α] (d : α) (m : Sparse α) (f : Nat × α → Bool) (h : tableWf d m = true) :
    tableWf d (m.filter f) = true := by
  rw [tableWf_iff] at h ⊢
  exact ⟨keysUp_filter m f h.1, fun p hp => h.2 p (List.mem_filter.1 hp).1⟩

/-- An update keeps the canonical form. -/
theorem tableWf_store {α : Type} [DecidableEq α] (d x : α) (m : Sparse α) (a : Nat) (h : tableWf d m = true) :
    tableWf d (store d m a x) = true := by
  unfold store
  split
  · exact tableWf_filter d m _ h
  · rename_i hx
    rw [tableWf_iff] at h ⊢
    refine ⟨keysUp_ins m a x h.1, fun p hp => ?_⟩
    rcases mem_ins _ _ _ _ hp with rfl | hp
    · exact hx
    · exact h.2 p hp

/-! ### Byte memories -/

/-- A byte after a byte has been written. -/
theorem byteAt_setByte (m : Memory) (a c : Nat) (b : Byte) : byteAt (setByte m a b) c = if c = a then b else byteAt m c :=
  look_store 0 b m a c

/-- A byte after a list of bytes has been written. -/
theorem byteAt_setBytes (m : Memory) (a c : Nat) (l : List Byte) :
    byteAt (setBytes m a l) c = if h : a ≤ c ∧ c < a + l.length then l[c - a]'(by omega) else byteAt m c := by
  induction l generalizing m a with
  | nil =>
    rw [dif_neg (by simp only [List.length_nil]; omega)]
    rfl
  | cons b r ih =>
    rw [setBytes, ih, byteAt_setByte]
    by_cases h1 : c = a
    · subst c
      rw [dif_neg (by omega), if_pos rfl, dif_pos (by simp only [List.length_cons]; omega)]
      simp
    · by_cases h2 : a + 1 ≤ c ∧ c < a + 1 + r.length
      · rw [dif_pos h2, dif_pos (by simp only [List.length_cons]; omega)]
        have e : c - a = c - (a + 1) + 1 := by omega
        simp [e]
      · rw [dif_neg h2, if_neg h1, dif_neg (by simp only [List.length_cons]; omega)]

/-- Writing one byte keeps the canonical form. -/
theorem wf_setByte (m : Memory) (a : Nat) (b : Byte) (h : m.wf = true) : (setByte m a b).wf = true :=
  tableWf_store 0 b m a h

/-- Writing a list of bytes keeps the canonical form. -/
theorem wf_setBytes (m : Memory) (a : Nat) (l : List Byte) (h : m.wf = true) : (setBytes m a l).wf = true := by
  induction l generalizing m a with
  | nil => exact h
  | cons b r ih => exact ih _ _ (wf_setByte m a b h)

/-- Writing a number keeps the canonical form. -/
theorem wf_writeLe (m : Memory) (a n x : Nat) (h : m.wf = true) : (writeLe m a n x).wf = true := wf_setBytes m a _ h

/-- Writing selected bytes keeps the canonical form. -/
theorem wf_setSel (m : Memory) (a : Nat) (sel : Nat → Bool) (val : Nat → Byte) (n : Nat) (h : m.wf = true) :
    (setSel m a sel val n).wf = true := by
  induction n with
  | zero => exact h
  | succ n ih =>
    simp only [setSel]
    split
    · exact wf_setByte _ _ _ ih
    · exact ih

/-- Zeroing a range keeps the canonical form. -/
theorem wf_zeroRange (m : Memory) (a n : Nat) (h : m.wf = true) : (zeroRange m a n).wf = true := tableWf_filter 0 m _ h

/-- A byte after a range has been zeroed. -/
theorem byteAt_zeroRange (m : Memory) (a n c : Nat) :
    byteAt (zeroRange m a n) c = if a ≤ c ∧ c < a + n then 0 else byteAt m c := by
  have h := look_filter_key (0 : Byte) (fun k => decide (k < a) || decide (a + n ≤ k)) m c
  unfold byteAt zeroRange
  refine Eq.trans h ?_
  by_cases hc : a ≤ c ∧ c < a + n
  · rw [if_neg (by simp; omega), if_pos hc]
  · rw [if_pos (by simp; omega), if_neg hc]

/-- Writing bytes and nibbles keeps the canonical form. -/
theorem wf_putBytes (m : Memory) (l : List WByte) (h : m.wf = true) : (putBytes m l).wf = true := by
  induction l generalizing m with
  | nil => exact h
  | cons b r ih => exact ih _ (wf_setByte _ _ _ h)

/-- Bytes and nibbles written elsewhere leave a byte alone. -/
theorem byteAt_putBytes_ne (m : Memory) (l : List WByte) (a : Nat) (h : ∀ b ∈ l, b.addr ≠ a) :
    byteAt (putBytes m l) a = byteAt m a := by
  induction l generalizing m with
  | nil => rfl
  | cons b r ih =>
    rw [putBytes, ih _ fun x hx => h x (List.mem_cons_of_mem _ hx), byteAt_setByte,
      if_neg (Ne.symm (h b List.mem_cons_self))]

/-! ### Numbers as bytes -/

/-- As many bytes as asked for. -/
theorem length_toBytes (n x : Nat) : (toBytes n x).length = n := by
  induction n generalizing x with
  | zero => rfl
  | succ n ih => simp [toBytes, ih]

/-- The bytes of a number give it back, modulo their width. -/
theorem ofBytes_toBytes (n x : Nat) : ofBytes (toBytes n x) = x % 256 ^ n := by
  induction n generalizing x with
  | zero => simp [toBytes, ofBytes, Nat.mod_one]
  | succ n ih =>
    rw [toBytes, ofBytes, ih, pow_succ', Nat.mod_mul]
    simp

/-- The bytes of a list read back where it has been written. -/
theorem bytesAt_setBytes (m : Memory) (a : Nat) (l : List Byte) : bytesAt (setBytes m a l) a l.length = l := by
  have h : ∀ n b, bytesAt (setBytes m a l) b n = (List.range n).map fun k => byteAt (setBytes m a l) (b + k) := by
    intro n
    induction n with
    | zero => intro b; rfl
    | succ n ih =>
      intro b
      rw [bytesAt, ih, List.range_succ_eq_map, List.map_cons, List.map_map]
      simp only [Nat.add_zero, List.cons.injEq, true_and]
      refine List.map_congr_left fun k _ => ?_
      show _ = byteAt _ (b + (k + 1))
      congr 1
      omega
  rw [h]
  refine List.ext_getElem (by simp) fun k h1 h2 => ?_
  simp only [List.getElem_map, List.getElem_range, byteAt_setBytes]
  rw [dif_pos (by omega)]
  congr 1
  omega

/-- A number written is read back, modulo its width. -/
theorem readLe_writeLe (m : Memory) (a n x : Nat) : readLe (writeLe m a n x) a n = x % 256 ^ n := by
  unfold readLe writeLe
  have h := bytesAt_setBytes m a (toBytes n x)
  rw [length_toBytes] at h
  rw [h, ofBytes_toBytes]

end Sys2Proof.Machine
end

