-- ==== Sys2Proof/Laws/State.lean ====
section
/-! SUPPORT. What each update of the state leaves in each field, true by definition, and what the tables of the device hold after
an update of one of their entries. -/
namespace Sys2Proof.Machine
open Sys2Proof

/-! ### Updates of the machine -/

@[simp] theorem State.setCtx_others (s : State) (c : Ctx) : (s.setCtx c).others = s.others := rfl
@[simp] theorem State.setCtx_turn (s : State) (c : Ctx) : (s.setCtx c).turn = s.turn := rfl
@[simp] theorem State.setCtx_pending (s : State) (c : Ctx) : (s.setCtx c).pending = s.pending := rfl
@[simp] theorem State.setCtx_arrival (s : State) (c : Ctx) : (s.setCtx c).arrival = s.arrival := rfl
@[simp] theorem State.setCtx_dev (s : State) (c : Ctx) : (s.setCtx c).dev = s.dev := rfl
@[simp] theorem State.mapCtx_others (s : State) (f : Ctx → Ctx) : (s.mapCtx f).others = s.others := rfl
@[simp] theorem State.mapCtx_turn (s : State) (f : Ctx → Ctx) : (s.mapCtx f).turn = s.turn := rfl
@[simp] theorem State.mapCtx_pending (s : State) (f : Ctx → Ctx) : (s.mapCtx f).pending = s.pending := rfl
@[simp] theorem State.mapCtx_arrival (s : State) (f : Ctx → Ctx) : (s.mapCtx f).arrival = s.arrival := rfl
@[simp] theorem State.mapCtx_dev (s : State) (f : Ctx → Ctx) : (s.mapCtx f).dev = s.dev := rfl
@[simp] theorem State.mapDev_core (s : State) (f : Device → Device) : (s.mapDev f).core = s.core := rfl
@[simp] theorem State.mapDev_others (s : State) (f : Device → Device) : (s.mapDev f).others = s.others := rfl
@[simp] theorem State.mapDev_turn (s : State) (f : Device → Device) : (s.mapDev f).turn = s.turn := rfl
@[simp] theorem State.mapDev_pending (s : State) (f : Device → Device) : (s.mapDev f).pending = s.pending := rfl
@[simp] theorem State.mapDev_arrival (s : State) (f : Device → Device) : (s.mapDev f).arrival = s.arrival := rfl
@[simp] theorem State.mapCores_turn (s : State) (f : Core → Core) : (s.mapCores f).turn = s.turn := rfl
@[simp] theorem State.mapCores_pending (s : State) (f : Core → Core) : (s.mapCores f).pending = s.pending := rfl
@[simp] theorem State.mapCores_arrival (s : State) (f : Core → Core) : (s.mapCores f).arrival = s.arrival := rfl
@[simp] theorem State.mapCores_dev (s : State) (f : Core → Core) : (s.mapCores f).dev = s.dev := rfl
@[simp] theorem State.setCtx_core (s : State) (c : Ctx) : (s.setCtx c).core = { s.core with ctx := c } := rfl
@[simp] theorem State.mapCtx_core (s : State) (f : Ctx → Ctx) : (s.mapCtx f).core = { s.core with ctx := f s.core.ctx } := rfl
@[simp] theorem State.mapDev_dev (s : State) (f : Device → Device) : (s.mapDev f).dev = f s.dev := rfl
@[simp] theorem State.mapCores_core (s : State) (f : Core → Core) : (s.mapCores f).core = f s.core := rfl
@[simp] theorem State.mapCores_others (s : State) (f : Core → Core) : (s.mapCores f).others = s.others.map f := rfl
/-- The last of two replacements of the context stands. -/
@[simp] theorem State.setCtx_setCtx (s : State) (a b : Ctx) : (s.setCtx a).setCtx b = s.setCtx b := rfl
/-- Replacing the context by itself changes nothing. -/
@[simp] theorem State.setCtx_self (s : State) : s.setCtx s.core.ctx = s := rfl

/-! ### Core slots after a reset -/

@[simp] theorem Core.wiped_sk (k : Core) : k.wiped.sk = k.sk := rfl
@[simp] theorem Core.wiped_ix (k : Core) : k.wiped.ix = k.ix := rfl
@[simp] theorem Core.wiped_cycle (k : Core) : k.wiped.cycle = k.cycle := rfl
@[simp] theorem Core.wiped_worn (k : Core) : k.wiped.worn = k.worn := rfl
@[simp] theorem Core.wiped_mode (k : Core) : k.wiped.mode = .idle := rfl
@[simp] theorem Core.wiped_ctx (k : Core) : k.wiped.ctx = Ctx.zero := rfl
@[simp] theorem Core.wiped_susp (k : Core) : k.wiped.susp = [] := rfl
@[simp] theorem Core.wiped_imem (k : Core) : k.wiped.imem = [] := rfl
@[simp] theorem Core.wiped_bound (k : Core) : k.wiped.bound = false := rfl
@[simp] theorem Core.cleared_sk (k : Core) : k.cleared.sk = k.sk := rfl
@[simp] theorem Core.cleared_ix (k : Core) : k.cleared.ix = k.ix := rfl
@[simp] theorem Core.cleared_cycle (k : Core) : k.cleared.cycle = 0 := rfl
@[simp] theorem Core.cleared_worn (k : Core) : k.cleared.worn = k.worn := rfl
@[simp] theorem Core.cleared_mode (k : Core) : k.cleared.mode = .idle := rfl
@[simp] theorem Core.cleared_ctx (k : Core) : k.cleared.ctx = Ctx.zero := rfl
@[simp] theorem Core.cleared_susp (k : Core) : k.cleared.susp = [] := rfl

/-! ### Tables of the device -/

@[simp] theorem ifcOf_setIfc (d : Device) (a b : Nat) (x : Ifc) : ifcOf (setIfc d a x) b = if b = a then x else ifcOf d b :=
  look_store Ifc.zero x d.ifcs a b
@[simp] theorem dieOf_setDie (d : Device) (a b : Nat) (x : Die) : dieOf (setDie d a x) b = if b = a then x else dieOf d b :=
  look_store Die.zero x d.dies a b
@[simp] theorem queueOf_setQueue (d : Device) (a b : Nat) (x : Queue) :
    queueOf (setQueue d a x) b = if b = a then x else queueOf d b := look_store Queue.zero x d.queues a b
@[simp] theorem hubOf_setHub (d : Device) (a b : Nat) (x : Hub) : hubOf (setHub d a x) b = if b = a then x else hubOf d b :=
  look_store Hub.zero x d.hubs a b
@[simp] theorem portOf_setPort (d : Device) (a b : Nat) (x : Port) :
    portOf (setPort d a x) b = if b = a then x else portOf d b := look_store Port.zero x d.ports a b

@[simp] theorem bundleOf_setBundle (d : Device) (a b : Nat) (x : Bundles) :
    bundleOf (setBundle d a x) b = if b = a then x else bundleOf d b := look_store Bundles.zero x d.bundles a b
@[simp] theorem setDie_launches (d : Device) (a : Nat) (x : Die) : (setDie d a x).launches = d.launches := rfl
@[simp] theorem setDie_gbuf (d : Device) (a : Nat) (x : Die) : (setDie d a x).gbuf = d.gbuf := rfl
@[simp] theorem setDie_hbm (d : Device) (a : Nat) (x : Die) : (setDie d a x).hbm = d.hbm := rfl
@[simp] theorem setDie_sun (d : Device) (a : Nat) (x : Die) : (setDie d a x).sun = d.sun := rfl
@[simp] theorem setHub_hbm (d : Device) (a : Nat) (x : Hub) : (setHub d a x).hbm = d.hbm := rfl
@[simp] theorem setHub_gbuf (d : Device) (a : Nat) (x : Hub) : (setHub d a x).gbuf = d.gbuf := rfl
@[simp] theorem setHub_dies (d : Device) (a : Nat) (x : Hub) : (setHub d a x).dies = d.dies := rfl

/-! ### Registers of a context -/

/-- A scalar register after a write: s0 stays zero (R13). -/
theorem sreg_setSreg (c : Ctx) (r q : BitVec 6) (v : Word) :
    sreg (setSreg c r v) q = if q = r ∧ r ≠ 0 then v else sreg c q := by
  unfold setSreg
  by_cases hr : r = 0
  · rw [if_pos hr, if_neg fun h => h.2 hr]
  · rw [if_neg hr]
    unfold sreg
    by_cases hq : q = 0
    · rw [if_pos hq, if_pos hq, if_neg fun h : q = r ∧ r ≠ 0 => hr (h.1 ▸ hq)]
    · rw [if_neg hq, if_neg hq]
      show look 0 (store 0 c.sregs r.toNat v) q.toNat = _
      rw [look_store]
      by_cases h : q = r
      · rw [if_pos (by rw [h]), if_pos ⟨h, hr⟩]
      · rw [if_neg fun e => h (BitVec.eq_of_toNat_eq e), if_neg fun e => h e.1]

/-- Register s0 reads zero (R13). -/
theorem sreg_zero (c : Ctx) : sreg c 0 = 0 := rfl

/-- The timeline context just replaced (R254). -/
theorem tlOf_setTl (c : Ctx) (t : TlCtx) : ∀ n, tlOf (setTl c n t) n = t
  | 0 => rfl
  | 1 => rfl
  | 2 => rfl
  | 3 => rfl
  | 4 => rfl
  | 5 => rfl
  | _ + 6 => rfl

/-! ### Reset -/

/-- Every memory of the reset state is in canonical form. -/
theorem reset_memory_wf : State.reset.core.ctx.scr.wf = true ∧ State.reset.core.ctx.opm.wf = true ∧
    State.reset.core.ctx.acc.wf = true ∧ State.reset.core.imem.wf = true ∧ State.reset.dev.hbm.mem.wf = true ∧
    State.reset.dev.host.mem.wf = true := ⟨rfl, rfl, rfl, rfl, rfl, rfl⟩

end Sys2Proof.Machine
end

