-- ==== Sys2Proof/Tests/Slice0.lean ====
section
/-! SUPPORT. Tests of the model: ill-formed instructions are refused, words written out field by field from Tables 2.1, 2.5,
10.2, 11.2, 12.2 and 19.2 decode, small states meet the hypotheses of the statements, and single steps give the results
the spec works out. -/
namespace Sys2Proof.Slice0
open Sys2Proof Sys2Proof.Machine Sys2Proof.Forms

-- one theorem is elaborated at a time, so that the kernel evaluations share one stack
set_option Elab.async false

/-! ### Well-formedness: one ill-formed term for each check -/

/-- No instruction of the list is well formed. -/
def allIllFormed (l : List Instr) : Bool := l.all fun i => !wellFormed i

/-- PN = 1 with PG = 0 (R47); WS = 1 with a nonzero VD (R46), legal in VFMA. -/
theorem test_wf_governing_and_suppressed : allIllFormed [
    .vand .i32 ⟨0, true⟩ ⟨1, false⟩ (.reg 1) (.reg 2), .vand .i32 ⟨0, false⟩ ⟨13, true⟩ (.reg 7) (.reg 8),
    .vld .n32 ⟨0, true⟩ ⟨1, false⟩ 1 0, .vcmp .i32 .eq ⟨0, true⟩ 1 (.reg 1) (.reg 2)] = true ∧
    wellFormed (.vfma .f32 ⟨0, false⟩ ⟨13, true⟩ (.reg 7) (.reg 8) .dyn) = true := by decide +kernel

/-- RM on an integer type (R48, R53), RS in a scalar form, SAT on a floating-point type, UN on an integer type (R52). -/
theorem test_wf_rounding_saturation_condition : allIllFormed [
    .vadd .i32 ⟨0, false⟩ ⟨1, false⟩ (.reg 1) (.reg 2) .rne false, .sfadd .rs 1 2 3, .sfcvt .i64f32 .rs 1 2,
    .vmul .f32 ⟨0, false⟩ ⟨1, false⟩ (.reg 1) (.reg 2) .rne true, .vabs .n8 ⟨0, false⟩ ⟨1, false⟩ (.reg 1) false,
    .vcmp .i32 .un ⟨0, false⟩ 1 (.reg 1) (.reg 2), .vcmps .n8 .or ⟨0, false⟩ 1 (.reg 1) 2] = true := by decide +kernel

/-- Types outside the class of the form (Table 2.5). -/
theorem test_wf_types : allIllFormed [
    .sext .n8 1 2, .zext .i8 1 2, .lds .f32 1 2 0, .bany .i64 1 0, .pcnt .n64 1 2, .vand .f32 ⟨0, false⟩ ⟨1, false⟩ (.reg 1) (.reg 2),
    .vfma .i8 ⟨0, false⟩ ⟨1, false⟩ (.reg 1) (.reg 2) .dyn, .vmin .i64 ⟨0, false⟩ ⟨1, false⟩ (.reg 1) (.reg 2),
    .vperm .b4 ⟨0, false⟩ ⟨1, false⟩ (.reg 1) (.reg 2), .vrcp .e4m3 ⟨0, false⟩ ⟨1, false⟩ (.reg 1) .dyn,
    .vlda .i16 ⟨0, false⟩ ⟨1, false⟩ 1 0, .vramax .i32 ⟨0, false⟩ 1 (.reg 1), .vstx .b4 ⟨0, false⟩ (.reg 1) (.reg 2) 3,
    .vcvt .f32 .f32 ⟨0, false⟩ ⟨1, false⟩ (.reg 1) .dyn, .vcvt .i8 .i16 ⟨0, false⟩ ⟨1, false⟩ (.reg 1) .rne,
    .vcvt .b4 .f32 ⟨0, false⟩ ⟨1, false⟩ (.reg 1) .dyn, .clred .sum .i8 1] = true := by decide +kernel

/-- Numbers out of range: VROT sizes (R23), contexts, conditions and types of the EN forms (R55, R56), and their unused fields. -/
theorem test_wf_ranges : allIllFormed [
    .vrot 257 0, .vrot 0 5, .tlclose 7 1, .tlwait 7 1 0, .tlread 7 1, .aamo .fadd .i32 false 1 2 3 0, .aamo .add .f32 false 1 2 3 0,
    .aamo .add .i32 true 1 2 3 0, .aamo .add .i32 false 1 2 3 4, .waitv .un .i64 false 0 1 2 3, .waitv .eq .i32 true 0 1 2 3,
    .mclaim false 1 0, .mclaim false 1 129, .mrel 1 0, .mrel 1 129, .mnest 6 1, .mzero 1 0, .mzero 1 33, .mwld 3 1, .mwld 55 1,
    .mstat 1 55, .mstat 1 63, .mstat 1 96, .cltbl 1 2 7] = true := by decide +kernel

/-! ### Decoding: words written out from the spec's encodings -/

/-- Every word of the list decodes to its instruction. -/
def decodesTo (l : List (Word × Instr)) : Bool :=
  l.all fun p => match decode p.1 with
    | .ok i => i == p.2
    | .error _ => false

/-- No word of the list decodes. -/
def refusesAll (l : List Word) : Bool :=
  l.all fun w => match decode w with
    | .ok _ => false
    | .error _ => true

theorem test_decode_scalar_words_1 : decodesTo [
    (0x0100_11FF_0000_0000, .add 1 7 63),
    (0x0200_22BE_0000_0000, .sub 2 10 62),
    (0x0300_337D_0000_0000, .mul 3 13 61),
    (0x0400_443C_0000_0000, .mulh 4 16 60),
    (0x0500_54FB_0000_0000, .mulhn 5 19 59),
    (0x0600_65BA_0000_0000, .div 6 22 58),
    (0x0700_7679_0000_0000, .divn 7 25 57),
    (0x0800_8738_0000_0000, .rem 8 28 56),
    (0x0900_97F7_0000_0000, .remn 9 31 55),
    (0x0A00_A8B6_0000_0000, .and 10 34 54),
    (0x0B00_B975_0000_0000, .or 11 37 53),
    (0x0C00_CA34_0000_0000, .xor 12 40 52),
    (0x0D00_DAF3_0000_0000, .shl 13 43 51),
    (0x0E00_EBB2_0000_0000, .shr 14 46 50),
    (0x0F00_FC71_0000_0000, .sra 15 49 49),
    (0x1001_0D30_0000_0000, .min 16 52 48),
    (0x1101_1DEF_0000_0000, .minn 17 55 47),
    (0x1201_2EAE_0000_0000, .max 18 58 46),
    (0x1301_3F6D_0000_0000, .maxn 19 61 45),
    (0x1401_402C_0000_0000, .slt 20 0 44),
    (0x1501_50EB_0000_0000, .sltn 21 3 43),
    (0x1601_61AA_0000_0000, .seq 22 6 42),
    (0x1703_F060_1400_0000, .sel 63 1 32 5),
    (0x1800_9A00_0000_0000, .clz 9 40)] = true := by
  decide +kernel

theorem test_decode_scalar_words_2 : decodesTo [
    (0x1902_1F80_0000_0000, .popc 33 62),
    (0x1A04_20C0_0000_0000, .sext .i16 2 3),
    (0x1B18_4140_0000_0000, .zext .n32 4 5),
    (0x2000_51BF_FFFF_FFF8, .addi 5 6 0x3FFFFFFFF8),
    (0x2100_51BF_FFFF_FFF7, .muli 5 6 0x3FFFFFFFF7),
    (0x2200_51BF_FFFF_FFF6, .andi 5 6 0x3FFFFFFFF6),
    (0x2300_51BF_FFFF_FFF5, .ori 5 6 0x3FFFFFFFF5),
    (0x2400_51BF_FFFF_FFF4, .xori 5 6 0x3FFFFFFFF4),
    (0x2500_7200_0000_003F, .shli 7 8 63),
    (0x2600_7200_0000_003E, .shri 7 8 62),
    (0x2700_7200_0000_003D, .srai 7 8 61),
    (0x2800_929F_FFFF_FFFF, .slti 9 10 0x1FFFFFFFFF),
    (0x2900_929F_FFFF_FFFE, .sltni 9 10 0x1FFFFFFFFE),
    (0x2A00_929F_FFFF_FFFD, .seqi 9 10 0x1FFFFFFFFD),
    (0x2C00_B812_3456_7892, .limm 11 0x81234567892),
    (0x2C04_C000_000A_BCDE, .limmh 12 0xABCDE),
    (0x2E00_D38F_BFFF_FFFF, .addsc 13 14 15 5 0x1FFFFFFF),
    (0x3010_1083_0000_0000, .sfadd .rd 1 2 3),
    (0x3024_1083_0000_0000, .sfsub .rne 1 2 3),
    (0x310C_4146_0000_0000, .sfmul .ru 4 5 6),
    (0x321C_4146_0000_0000, .sfcmp .or 4 5 6),
    (0x3368_7200_0000_0000, .sfcvt .n64f32 .rtz 7 8),
    (0x341D_047F_FFFF_FFC0, .lds .n64 16 17 0x3FFFFFFFC0),
    (0x3501_24C0_0000_004D, .sts .i8 18 19 77)] = true := by
  decide +kernel

theorem test_decode_control_words : decodesTo [
    (0x3800_0000_000F_FFFF, .b 0xFFFFF),
    (0x3901_4780_0000_0005, .beq 20 30 0x5),
    (0x3A01_57C0_0000_0002, .bne 21 31 0x2),
    (0x3B01_6800_000F_FFFF, .blt 22 32 0xFFFFF),
    (0x3C01_7840_000F_FFFC, .bge 23 33 0xFFFFC),
    (0x3D01_8880_000F_FFF9, .bltn 24 34 0xFFFF9),
    (0x3E01_98C0_000F_FFF6, .bgen 25 35 0xFFFF6),
    (0x3F36_9000_0000_0009, .bany .b4 41 9),
    (0x4032_A000_000F_FFF7, .ball .e5m2 42 0xFFFF7),
    (0x4100_7000_000F_FFF8, .loop 7 0xFFFF8),
    (0x4200_8000_0007_FFFF, .call 8 0x7FFFF),
    (0x4300_9280_0000_0000, .callr 9 10),
    (0x4400_02C0_0000_0000, .ret 11),
    (0x4500_0300_0000_0000, .jr 12),
    (0x4600_0000_0000_0000, .nop),
    (0x4700_0000_0000_0000, .endl)] = true := by
  decide +kernel

theorem test_decode_predicate_and_system_words : decodesTo [
    (0x5000_1A32_0000_0000, .pand 1 40 50),
    (0x5100_2A73_0000_0000, .por 2 41 51),
    (0x5200_3AB4_0000_0000, .pxor 3 42 52),
    (0x5300_4AF5_0000_0000, .pandn 4 43 53),
    (0x5400_5180_0000_0000, .pnot 5 6),
    (0x5523_8002_0000_0000, .pwhile .f32 56 2),
    (0x5624_3100_0000_0000, .pcnt .f16 3 4),
    (0x5734_5180_0000_0000, .pff .b4 5 6),
    (0x5800_1000_2000_0000, .csrr 1 0x008),
    (0x5900_0080_6000_0000, .csrw 0x018 2),
    (0x5A00_3100_C000_0000, .csrx 3 0x030 4),
    (0x5B00_5181_8400_0000, .csrs 5 0x061 6),
    (0x5C00_723F_FC00_0000, .csrc 7 0xFFF 8),
    (0x5D00_0000_4000_BEEF, .csrwi 0x010 0xBEEF),
    (0x5E00_0000_0000_0900, .vrot 256 4),
    (0x6000_0000_0000_1234, .trap 0x1234),
    (0x6100_0000_0000_0000, .tret),
    (0x6200_0240_0000_0000, .tmarm 9),
    (0x6300_0000_0000_0000, .tmoff)] = true := by
  decide +kernel

theorem test_decode_superstep_words : decodesTo [
    (0x6F00_0025_1A2B_3C4D, .segend 37 0x1A2B3C4D),
    (0x6EFF_FFFF_0000_0001, .segendNc 0xFFFFFF 1),
    (0x7000_0000_0000_002A, .phend 42),
    (0x7100_0000_0000_0028, .xcyc 40),
    (0x7200_428B_0000_0001, .xsend 4 10 11 1),
    (0x7300_634B_0000_0029, .xsendm 6 13 11 41),
    (0x7400_7200_0000_FFFF, .xsends 7 8 0xFFFF),
    (0x7804_9000_0000_0000, .sigrv true 9),
    (0x7900_A000_0000_0000, .sigrc 10),
    (0x7A00_B000_0000_0000, .sigrs 11)] = true := by
  decide +kernel

theorem test_decode_vector_words_1 : decodesTo [
    (0x8012_1800_0010_0101, .vadd .n8 ⟨3, false⟩ ⟨0, true⟩ (.reg 4) (.reg 8) .dyn true),
    (0x8128_404A_C004_80F4, .vsub .bf16 ⟨8, true⟩ ⟨149, false⟩ (.latch 1) (.reg 1031) .rtz false),
    (0x8204_688F_0CEA_0041, .vmul .i16 ⟨13, false⟩ ⟨286, false⟩ (.reg 826) (.latch 2) .dyn true),
    (0x830A_9000_1355_80B0, .vmulh .i32 ⟨18, true⟩ ⟨0, true⟩ (.reg 1237) (.reg 3077)),
    (0x8424_B918_19C0_0080, .vmin .f16 ⟨23, false⟩ ⟨560, false⟩ (.reg 1648) (.reg 4)),
    (0x8514_E15C_C014_8070, .vmax .n16 ⟨28, true⟩ ⟨697, false⟩ (.latch 5) (.reg 1027)),
    (0x8603_0800_269A_00C0, .vand .i8 ⟨33, false⟩ ⟨0, true⟩ (.reg 2470) (.latch 6)),
    (0x8719_31E5_AD05_8030, .vor .n32 ⟨38, true⟩ ⟨971, false⟩ (.reg 2881) (.reg 3073)),
    (0x8809_5A2A_3370_0000, .vxor .i32 ⟨43, false⟩ ⟨1108, false⟩ (.reg 3292) (.reg 0)),
    (0x890B_8000_4004_7FF1, .vshl .i32 ⟨48, true⟩ ⟨0, true⟩ (.latch 1) (.reg 1023) true),
    (0x8A15_AAB3_004A_0040, .vshr .n16 ⟨53, false⟩ ⟨1382, false⟩ (.reg 18) (.latch 2)),
    (0x8B01_D2F7_86B5_7FB0, .vsra .i8 ⟨58, true⟩ ⟨1519, false⟩ (.reg 429) (.reg 3069)),
    (0x8C23_FB3C_0D21_FF86, .vfma .f32 ⟨63, false⟩ ⟨1656, true⟩ (.reg 840) (.reg 4092) .ru),
    (0x8D24_2380_C014_7F78, .vfms .f16 ⟨4, true⟩ ⟨1793, false⟩ (.latch 5) (.reg 1019) .rd),
    (0x8E00_4BC5_19F8_0001, .vabs .i8 ⟨9, false⟩ ⟨1930, false⟩ (.reg 1662) true),
    (0x8F22_7000_2064_0010, .vneg .f32 ⟨14, true⟩ ⟨0, true⟩ (.reg 2073) false),
    (0x9034_9C4E_26D1_FF00, .vsel .b4 ⟨19, false⟩ ⟨2204, false⟩ (.reg 2484) (.reg 4088)),
    (0x9120_C492_C004_0016, .vrcp .f32 ⟨24, true⟩ ⟨2341, false⟩ (.latch 1) .ru),
    (0x9226_E800_33A8_0008, .vrsq .f16 ⟨29, false⟩ ⟨0, true⟩ (.reg 3306) .rd),
    (0x9329_151B_BA14_001A, .vexp2 .bf16 ⟨34, true⟩ ⟨2615, false⟩ (.reg 3717) .rs),
    (0x9421_3D60_0080_0002, .vlog2 .f32 ⟨39, false⟩ ⟨2752, false⟩ (.reg 32) .rne),
    (0x9527_6000_4014_0014, .vsigm .f16 ⟨44, true⟩ ⟨0, true⟩ (.latch 5) .rtz),
    (0x9629_8DE9_0D58_0006, .vtanh .bf16 ⟨49, false⟩ ⟨3026, false⟩ (.reg 854) .ru),
    (0x9721_B62D_93C4_0010, .vclass .f32 ⟨54, true⟩ ⟨3163, false⟩ (.reg 1265))] = true := by
  decide +kernel

theorem test_decode_vector_words_2 : decodesTo [
    (0x982B_D800_1A31_FE0A, .vscale .bf16 ⟨59, false⟩ ⟨0, true⟩ (.reg 1676) (.reg 4080) .rs),
    (0x9C2C_0EB6_C004_7DF0, .vperm .e4m3 ⟨1, true⟩ ⟨3437, false⟩ (.latch 1) (.reg 1007)),
    (0x9D34_2EFB_2708_0000, .vmov .b4 ⟨5, false⟩ ⟨3574, false⟩ (.reg 2498)),
    (0x9E12_5000_2D74_0010, .vnot .n8 ⟨10, true⟩ ⟨0, true⟩ (.reg 2909)),
    (0x992C_1806_0010_010A, .vcvt .e4m3 .f32 ⟨3, false⟩ ⟨12, false⟩ (.reg 4) .rs),
    (0x9AB0_0006_0010_00AA, .vqblk .bf16 true true ⟨12, false⟩ (.reg 4) (.reg 5) .rs),
    (0x9B40_0006_0010_0004, .vdqblk .f16 false false ⟨12, false⟩ (.reg 4) .rtz),
    (0xA008_0FFF_C01F_F011, .vadds .i32 ⟨1, true⟩ ⟨4095, false⟩ (.latch 7) 63 .dyn true),
    (0xA126_1000_3FFF_E006, .vmuls .f16 ⟨2, false⟩ ⟨0, true⟩ (.reg 4095) 62 .ru false),
    (0xA214_1802_8018_7001, .vshls .n16 ⟨3, false⟩ ⟨5, false⟩ (.reg 6) 7 true),
    (0xA311_F802_8018_7010, .vshrs .n8 ⟨63, true⟩ ⟨5, false⟩ (.reg 6) 7),
    (0xA400_1802_8018_7000, .vsras .i8 ⟨3, false⟩ ⟨5, false⟩ (.reg 6) 7),
    (0xA530_1802_8000_7000, .vbcast .e5m2 ⟨3, false⟩ ⟨5, false⟩ 7),
    (0xA620_1802_8018_7000, .vslideu .f32 ⟨3, false⟩ ⟨5, false⟩ (.reg 6) 7),
    (0xA724_1802_8018_7000, .vslided .f16 ⟨3, false⟩ ⟨5, false⟩ (.reg 6) 7),
    (0xA808_0002_8000_7000, .viota .i32 ⟨0, false⟩ ⟨5, false⟩ 7),
    (0xA92C_2002_C000_7000, .vldx .e4m3 ⟨4, false⟩ ⟨5, false⟩ (.latch 0) 7),
    (0xB020_28C0_001E_0056, .vcmp .f32 .un ⟨5, true⟩ 6 (.reg 7) (.latch 2)),
    (0xB114_28C0_001C_9004, .vcmps .n16 .gt ⟨5, false⟩ 6 (.reg 7) 9),
    (0xB200_0780_001F_D000, .vext .i8 60 (.reg 7) 61),
    (0xB304_28C0_0118_0010, .vrsum .i16 ⟨5, true⟩ 6 (.reg 70)),
    (0xB428_28E0_011C_0010, .vrmin .bf16 ⟨5, true⟩ 7 (.reg 71)),
    (0xB518_2900_0120_0010, .vrmax .n32 ⟨5, true⟩ 8 (.reg 72)),
    (0xB624_2920_0124_0010, .vramax .f16 ⟨5, true⟩ 9 (.reg 73))] = true := by
  decide +kernel

theorem test_decode_vector_memory_words : decodesTo [
    (0xB836_2800_0C07_FFF0, .vld .b4 ⟨5, true⟩ ⟨0, true⟩ 6 0x3FFF),
    (0xB920_2832_0C3B_FFE0, .vlds .f32 ⟨5, false⟩ ⟨100, false⟩ 6 7 8191),
    (0xBA08_0032_0C04_0000, .vlda .i32 ⟨0, false⟩ ⟨100, false⟩ 6 0x2000),
    (0xBB18_2C00_4603_FFF0, .vst .n32 ⟨5, true⟩ (.latch 1) 6 0x1FFF),
    (0xBC2C_29F4_061D_FFE0, .vsts .e4m3 ⟨5, false⟩ (.reg 2000) 6 7 4095),
    (0xBD04_2802_6009_0810, .vstx .i16 ⟨5, true⟩ (.reg 9) (.latch 4) 33)] = true := by
  decide +kernel

theorem test_decode_engine_words_1 : decodesTo [
    (0xC018_0000_1400_0000, .tlclose 6 5),
    (0xC114_0000_0000_0003, .tlwait 5 0 3),
    (0xC210_0000_1C00_0000, .tlread 4 7),
    (0xC300_0000_0000_0000, .mark),
    (0xC408_0000_0000_0002, .fence .package .rel),
    (0xC40C_0000_0000_0001, .fence .dieMask .acq),
    (0xC51C_A2C0_5000_0003, .aamo .cas .i64 false 20 10 11 0),
    (0xC520_A2C0_0000_0048, .aamo .fadd .f32 true 0 10 11 0),
    (0xC600_A000_5C00_0247, .waitv .eq .n64 true 4 23 10 0),
    (0xD005_4556_0000_0004, .cpy .glb .loc true 0 20 21 22),
    (0xD134_A2CC_0000_0002, .cpyt .loc .opm 2 10 11 12),
    (0xD204_A2CC_0000_0001, .cpywm .glb .loc false 1 10 11 12),
    (0xD30C_02CC_0000_0003, .cpyfill .acc 3 11 12),
    (0xD0DC_1083_0000_0000, .cpy .r6 .r7 false 0 1 2 3),
    (0xD400_0000_1400_0009, .cpyst 1 2 5),
    (0xD500_0000_0000_0002, .cpyabt 2),
    (0xD500_0000_0000_0007, .cpyabtResume 3),
    (0xD600_8240_0000_0001, .amxstep 1 8 9),
    (0xD701_E000_1800_0000, .amxrd false 6 30),
    (0xE004_4000_0000_0080, .mclaim true 4 128),
    (0xE100_4000_0000_0001, .mrel 4 1),
    (0xE200_5000_0000_0FFF, .mfmt 5 0xFFF),
    (0xE314_6000_0000_0000, .mnest 5 6),
    (0xE400_7200_0000_0000, .mgo 7 8)] = true := by
  decide +kernel

theorem test_decode_engine_words_2 : decodesTo [
    (0xE500_9000_0000_0020, .mzero 9 32),
    (0xE600_A2C0_0000_0000, .mepi 10 11),
    (0xE700_0000_3000_0003, .mckrd 12 true true),
    (0xE800_D000_3800_0000, .mlsgen 14 13),
    (0xE900_F400_0000_0000, .mtile 15 16),
    (0xEA01_1000_0000_0036, .mwld 54 17),
    (0xEB00_0000_4800_005F, .mstat 18 95),
    (0xF001_4000_0000_0008, .clred .sum .f32 20),
    (0xF109_5000_0000_000A, .clrsc .min .bf16 21),
    (0xF201_6000_0000_0000, .clbc 22),
    (0xF301_7000_0000_0000, .clgath 23),
    (0xF400_6000_1400_0002, .cltbl 5 6 2),
    (0xF500_0000_0000_0000, .clabt),
    (0xF500_0000_0000_0001, .clabtResume)] = true := by
  decide +kernel

/-- The legal words of Table 2.6. -/
theorem test_decode_table_2_6 : decodesTo [
    (0x8C20_1806_0012_0022, .vfma .f32 ⟨3, false⟩ ⟨12, false⟩ (.reg 4) (.latch 1) .rne),
    (0x800A_0000_001C_0100, .vadd .i32 ⟨0, false⟩ ⟨0, true⟩ (.reg 7) (.reg 8) .dyn false),
    (0x2000_51BF_FFFF_FFF8, .addi 5 6 0x3F_FFFF_FFF8), (0x4100_7000_000F_FFF8, .loop 7 (-8)),
    (0x6F00_0025_1A2B_3C4D, .segend 0x25 0x1A2B3C4D)] = true := by decide +kernel

/-- The illegal words of Table 2.6, and a word for each other ground of R58: OP unassigned, a reserved type, a nonzero zero field,
a shift of 64, VROT sizes above 256 or 4, reserved codes of RM and CC. -/
theorem test_decode_refuses : refusesAll [
    0x800A_0006_801C_0100, 0x8C20_1806_0012_0122, 0x8020_0000_0000_0010, 0xF800_0000_0000_0000, 0,
    0x8038_0000_0000_0000, 0x0100_0000_0000_0001, 0x2500_0000_0000_0040, 0x5E00_0000_0000_0101, 0x5E00_0000_0000_0A00,
    0x3014_0000_0000_0000, 0x3220_0000_0000_0000, 0xB00C_0000_0000_0000, 0xB008_0000_0000_0008, 0x8020_0000_0000_000C,
    0xC010_0000_0000_0001, 0xC408_0000_0000_0000, 0xD500_0000_0000_0008, 0x2C08_0000_0000_0000] = true := by decide +kernel

/-! ### Small states -/

/-- A core of gang width 1 that runs the context `c`, alone in a package after reset. -/
def run (c : Ctx) : State :=
  { core := { Core.reset 0 0 with bound := true, mode := .active, ctx := c }
    others := [], turn := 0, pending := [], arrival := 0, dev := Device.reset 2 }

/-- The same in an exchange superstep. -/
def runX (c : Ctx) : State := { run c with dev := { (run c).dev with sun := { (run c).dev.sun with phase := 1 } } }

/-- A context at U at the last word that sequential issue may leave, and one at S at its last. -/
def u0 : Ctx := { Ctx.zero with pc := 0x2FFF0, sregs := [(1, 3), (2, 1), (3, 5)] }
def s0 : Ctx := { u0 with priv := .s, pc := 0x3FFF0 }

/-- A context with one timeline context replaced. -/
def withTl (c : Ctx) (n : Nat) (f : TlCtx → TlCtx) : Ctx := setTl c n (f (tlOf c n))

theorem region_u : inRegion (run u0) := by unfold inRegion; decide +kernel
theorem region_s : inRegion (run s0) := by unfold inRegion; decide +kernel
theorem inPhase_u : ¬ outOfPhase (run u0) := by unfold outOfPhase; decide +kernel
theorem inPhase_x : ¬ outOfPhase (runX s0) := by unfold outOfPhase; decide +kernel
theorem outOfPhase_x : outOfPhase (runX u0) := by unfold outOfPhase; decide +kernel
theorem may_u : mayCompute (run u0) := ⟨region_u, inPhase_u⟩
theorem may_s : mayCompute (runX s0) := by unfold mayCompute inRegion outOfPhase; decide +kernel

/-! ### Hypotheses of the statements, met at concrete states -/

theorem test_meets_SpecWordsDecode : (0x0700_30C1_0000_0000, Instr.divn 3 3 1) ∈ words := List.mem_cons_self

theorem test_meets_DecodeOfEncode : (Instr.vfma .f32 ⟨3, false⟩ ⟨4095, true⟩ (.latch 7) (.reg 4095) .rs).isWordInstr = true ∧
    WellFormed (.vfma .f32 ⟨3, false⟩ ⟨4095, true⟩ (.latch 7) (.reg 4095) .rs) ∧
    ([0x00, 0x1C, 0x1F, 0x2B, 0x2D, 0x36, 0x48, 0x5F, 0x64, 0x6D, 0x7B, 0x9F, 0xB7, 0xBE, 0xCF, 0xEC, 0xF6, 0xFF].all fun op =>
      assigned ((BitVec.ofNat 64 (op * 2 ^ 56)).toNat / 2 ^ 56) = false) = true := by
  unfold WellFormed; decide +kernel

/-- A core on which a NOP stands at issue. -/
def standing : State := putFetch (placeBare (run u0)) 0x4600_0000_0000_0000

theorem test_meets_StepRunsDecoded :
    ({ run u0 with pending := [.nop] } : State).pending = [.nop] ∧ (run u0).dev.power.on = true ∧
    readyToRun standing = true ∧ standing.dev.sun.parked = false ∧
    decode (wordNow standing) = .ok .nop ∧ standStall .nop (standing.setCtx { standing.core.ctx with ckFlags := 0 }) = .no ∧
    readyToRun (putFetch standing 0) = true ∧ decode (wordNow (putFetch standing 0)) = .error .opcode :=
  ⟨rfl, rfl, by decide +kernel, by decide +kernel, by rfl, by decide +kernel, by decide +kernel, by rfl⟩

theorem test_meets_StepKeepsCores : slotsOnce State.reset ∧ turnOk State.reset ∧ ∃ t, step State.reset = .next t :=
  ⟨.of_eq (by decide +kernel), by unfold turnOk; decide +kernel, _, rfl⟩

theorem test_meets_ScalarRegisterForms : inRegion (run u0) ∧ inRegion (run s0) ∧ 0 < alu.length :=
  ⟨region_u, region_s, by decide⟩

theorem test_meets_ScalarOtherForms : inRegion (run u0) ∧ inRegion (run s0) ∧
    0 < aluImm.length ∧ 0 < shiftImm.length ∧ 0 < aluOne.length := ⟨region_u, region_s, by decide, by decide, by decide⟩

theorem test_meets_ScalarFloatForms : inRegion (run u0) ∧ inRegion (run s0) ∧ 0 < sfArith.length :=
  ⟨region_u, region_s, by decide⟩

/-- The highest target U may issue from, the lowest and the highest of S. -/
theorem test_meets_BranchesTransfer : ¬ outOfPhase (run u0) ∧ allowedTarget .u (target 0x2FFF0 1) ∧
    allowedTarget .u (target 0x2FFF0 (-0x5FFE)) ∧ allowedTarget .s (target 0x3FFF0 (-0x1FFE)) ∧ allowedTarget .s (target 0x3FFF0 1) ∧
    inRegion (run u0) ∧ srcsBad 1 u0 [.s 1, .s 2] = none ∧ srcsBad 1 u0 [.p 0] = none ∧
    (branches.any fun p => p.2 (sreg u0 1) (sreg u0 2)) = true ∧ (branches.any fun p => !p.2 (sreg u0 1) (sreg u0 2)) = true ∧
    anyOne 1 u0 .i8 0 = true ∧ anyOne 1 u0 .i8 1 = false ∧ allOnes 1 u0 .b4 0 = true ∧ allOnes 1 u0 .b4 1 = false :=
  ⟨inPhase_u, by unfold allowedTarget; decide +kernel, by unfold allowedTarget; decide +kernel,
    by unfold allowedTarget; decide +kernel, by unfold allowedTarget; decide +kernel, region_u, by decide +kernel⟩

theorem test_meets_LoopsCallsAndJumps : inRegion (run u0) ∧ ¬ outOfPhase (run u0) ∧ z64 ((sreg u0 1).toNat - 1) ≠ 0 ∧
    z64 ((sreg u0 2).toNat - 1) = 0 ∧ allowedTarget .u (target u0.pc 1) ∧
    allowedTarget .u (sreg { u0 with sregs := [(4, 0x2FFF8)] } 4) ∧ srcsBad 1 { u0 with sregs := [(4, 0x2FFF8)] } [.s 4] = none :=
  ⟨region_u, inPhase_u, by decide +kernel, by decide +kernel, by unfold allowedTarget; decide +kernel,
    by unfold allowedTarget; decide +kernel, by decide +kernel⟩

/-- Each way a target is not allowed: beyond the code, misaligned, in the region of the other privilege; and the last word of
each region, whose next word is outside. -/
theorem test_meets_BadTransfersTrap : ¬ allowedTarget .u (2 ^ 18) ∧ ¬ allowedTarget .u 4 ∧ ¬ allowedTarget .u 0x30000 ∧
    ¬ allowedTarget .s 0x2FFF8 ∧ ¬ inRegion (run { u0 with pc := 0x2FFF8 }) ∧ ¬ inRegion (run { s0 with pc := 0x3FFF8 }) ∧
    ¬ allowedTarget .u (target u0.pc 2) ∧ outOfPhase (runX u0) ∧ inRegion (runX u0) ∧ allowedTarget .u (target u0.pc 1) := by
  unfold allowedTarget inRegion outOfPhase; decide +kernel

theorem test_meets_PredicateForms : mayCompute (run u0) ∧ mayCompute (runX s0) ∧ 0 < preds.length :=
  ⟨may_u, may_s, by decide⟩

/-- Every register is readable at S, and the U-readable ones at U. -/
theorem test_meets_CsrReads : mayCompute (run u0) ∧ mayCompute (runX s0) ∧
    (csrs.all fun r => decide (1 ≤ rights .s r.num)) = true ∧ rights .u 0x000 = 1 ∧ rights .u 0x061 = 1 :=
  ⟨may_u, may_s, by decide +kernel⟩

/-- At S every register that has a writer is RW, and each takes the value 1, set and cleared bits too. -/
theorem test_meets_CsrWrites : mayCompute (runX s0) ∧ (256 : BitVec 9).toNat ≤ 256 ∧ (4 : BitVec 3).toNat ≤ 4 ∧
    (csrPuts.all fun w => rights .s w.1 = 2 && csrs.any (·.num = w.1) && w.2.1 s0 1 && w.2.1 s0 ((1 : Word) ||| 1)) = true ∧
    (csrPuts.any fun w => w.1 = 0x018 && w.2.1 s0 (s0.fpctl &&& ~~~(sreg s0 1 &&& 2))) = true ∧
    rights .u 0x010 = 2 ∧ srcsBad 1 s0 [.s 2] = none ∧ sreg s0 2 = 1 :=
  ⟨may_s, by decide +kernel⟩

/-- No right, a right to read only, and values that a register may not hold, at U and S. -/
theorem test_meets_CsrAccessTraps : inRegion (run u0) ∧ mayCompute (run u0) ∧ mayCompute (runX s0) ∧
    rights .u 0x048 = 0 ∧ rights .s 0x062 = 0 ∧ rights .u 0x000 < 2 ∧ rights .s 0x061 < 2 ∧
    256 < (257 : BitVec 9).toNat ∧ 4 < (5 : BitVec 3).toNat ∧
    (csrPuts.any fun w => w.1 = 0x018 && rights .u w.1 = 2 && !w.2.1 u0 0 && !w.2.1 u0 6 && !w.2.1 u0 (u0.fpctl &&& ~~~(sreg u0 1))) = true ∧
    (csrPuts.any fun w => w.1 = 0x010 && !w.2.1 u0 257) = true ∧
    (csrPuts.any fun w => w.1 = 0x041 && rights .s w.1 = 2 && !w.2.1 s0 15) = true :=
  ⟨region_u, may_u, may_s, by decide +kernel⟩

theorem test_meets_TrapsEnter : (run u0).core.ctx.priv = .u ∧ gangOk (run u0).core.gang ∧ exchange (run u0) = false ∧
    (0x1F < 0x20 ∧ 0x1F ≠ 0x10) := ⟨rfl, .inl rfl, by decide +kernel, by decide⟩

theorem test_meets_PrivilegeTraps : (run s0).core.ctx.priv = .s ∧ inRegion (run s0) ∧ (run u0).core.ctx.priv = .u ∧
    inRegion (run u0) := ⟨rfl, region_s, rfl, region_u⟩

/-- A result in flight, of a scalar register. -/
def fl0 : Flight := ⟨1, .scalar 5 7, 0, none, none, 0, 0, true⟩

/-- A handler whose frame's FPCTL word is `v`. -/
def handler (v : Nat) : Ctx := { s0 with scr := writeLe [] (fb 1 false + 48) 8 v, trappc := 0x2FFF8 }

/-- A result of the handler in flight; TRAPPC at the end of the launch region; an FPCTL that its register may not hold, at both ends
of the mode's range, in an exchange superstep and with no interrupt due; a frame that is allowed; a timer interrupt that is due. -/
theorem test_meets_TretResumes : ({ s0 with inflight := [fl0] } : Ctx).inflight ≠ [] ∧ (handler 1).priv = .s ∧
    (handler 1).inflight = [] ∧ 0x30000 ≤ ({ s0 with trappc := 0x30000 } : Ctx).trappc.toNat ∧ (handler 1).trappc.toNat < 0x30000 ∧
    frameAt 1 (handler 0) 6 % 8 = 0 ∧ 5 < frameAt 1 (handler 6) 6 % 8 ∧
    ¬ (256 < frameAt 1 (handler 5) 10 % 512 ∨ 4 < frameAt 1 (handler 5) 10 / 2 ^ 16 % 8 ∨ frameAt 1 (handler 5) 6 % 8 = 0 ∨
      5 < frameAt 1 (handler 5) 6 % 8 ∨ 14 < frameAt 1 (handler 5) 8 % 16 ∨ 14 < frameAt 1 (handler 5) 9 % 16) ∧
    stopPending (handler 5) = none ∧ tmPend (handler 5) = false ∧ exchange (runX (handler 0)) = true ∧
    ((run (handler 0)).core.ctx.snapPh = false ∧ stopPending (handler 0) = none ∧ tmPend (handler 0) = false) ∧
    ({ handler 0 with snapPh := true } : Ctx).snapPh = true ∧ (∀ p ∈ (handler 5).errScr, p.2 < 2) ∧
    (exchange (run (handler 5)) = false ∧ tmPend { handler 5 with tmctl := 2 } = true) := by
  decide +kernel

theorem test_meets_InterruptsEnter : u0.priv = .u ∧ exchange (run u0) = false ∧ u0.phended = false ∧ gangOk (run u0).core.gang ∧
    stopPending { u0 with tmctl := 2 } = none ∧ tmPend { u0 with tmctl := 2 } = true ∧
    stopPending (withTl u0 0 fun t => { t with stopped := true, stopPend := true }) = some 0 ∧
    stopPending (withTl u0 6 fun t => { t with stopped := true, stopPend := true }) = some 6 :=
  ⟨rfl, by decide +kernel, rfl, .inl rfl, by decide +kernel⟩

/-- Armed and reached, armed and not reached by one ck, not armed. -/
theorem test_meets_TimerArmsAndFires : s0.priv = .s ∧ inRegion (run s0) ∧ srcsBad 1 s0 [.s 1] = none ∧
    (1 : Word).toNat % 2 = 1 ∧ ({ s0 with timecmp := 0, tmctl := 1 } : Ctx).timecmp.toNat ≤ (run s0).core.cycle.toNat ∧
    (run s0).core.cycle.toNat < ({ s0 with timecmp := 1, tmctl := 1 } : Ctx).timecmp.toNat ∧ s0.tmctl.toNat % 2 = 0 :=
  ⟨rfl, region_s, by decide +kernel⟩

/-- The empty segment's SEGEND carries count 0 and CRC 0; one with count 1 does not match it; and the run it would stop. -/
theorem test_meets_SegendClosesSegment : u0.priv = .u ∧ inRegion (run u0) ∧
    (segCount u0 = (0 : BitVec 24).toNat ∧ segReg u0 ^^^ 0xFFFFFFFF = 0) ∧ ¬ segCount u0 = (1 : BitVec 24).toNat ∧
    runOf standing.dev standing.core.ctx.run ≠ none ∧ ((runOf standing.dev standing.core.ctx.run).all fun r => r.halt.isNone) = true :=
  ⟨rfl, region_u, by decide +kernel⟩

theorem test_meets_ScalarAndPredicateResultsComplete :
    fl0.due = 1 ∧ fl0.load = none ∧ fl0.bad = none ∧ (∀ x ∈ [{ fl0 with due := 2 }], waits x) ∧
    ({ u0 with inflight := [fl0, { fl0 with due := 2 }] } : Ctx).inflight = fl0 :: [{ fl0 with due := 2 }] ∧
    fl0.res = .scalar 5 7 ∧ ({ fl0 with res := .pred 0 1 } : Flight).res = .pred 0 1 := by
  refine ⟨rfl, rfl, rfl, ?_, rfl, rfl, rfl⟩
  intro x hx
  cases List.mem_singleton.mp hx
  exact ⟨by decide, rfl, fun e he => by cases he⟩

theorem test_meets_VectorResultCompletes :
    let f : Flight := { fl0 with res := .vector 4095 false 4 1 2 }
    f.due = 1 ∧ f.res = .vector 4095 false 4 1 2 ∧ f.load = none ∧ f.bad = none ∧ (∀ x ∈ [{ f with due := 2 }], 2 ≤ x.due ∧ x.load = none) ∧
    ({ u0 with inflight := [f, { f with due := 2 }] } : Ctx).inflight = f :: [{ f with due := 2 }] ∧
    (4 = 4 ∨ 4 = 8 ∨ 4 = 16 ∨ 4 = 32) ∧ gangOk 1 := by unfold gangOk; decide +kernel

theorem test_meets_FaultInFlightEnters :
    let f : Flight := { fl0 with bad := some ⟨0x11, 128⟩ }
    f.due = 1 ∧ f.load = none ∧ f.bad = some ⟨0x11, 128⟩ ∧ ({ u0 with inflight := [f] } : Ctx).inflight = [f] ∧ f.counted = true ∧
    ((0x11 : Nat) = 0x11 ∧ 1 ≤ ({ f with due := 5 } : Flight).due) ∧
    u0.priv = .u ∧ u0.cls = .n ∧ gangOk (run u0).core.gang ∧ ∀ k ∈ [0x11, 0x12, 0x13], k = 0x11 ∨ k = 0x12 ∨ k = 0x13 :=
  ⟨rfl, rfl, rfl, rfl, rfl, by decide, rfl, rfl, .inl rfl, by decide⟩

theorem test_meets_VectorIntegerForms : mayCompute (run u0) ∧ mayCompute (runX s0) ∧ Ty.isInt .i8 = true ∧ Ty.isInt .n32 = true ∧
    0 < intSat.length ∧ 0 < intWrap.length ∧ 0 < rightShifts.length := ⟨may_u, may_s, rfl, rfl, by decide, by decide, by decide⟩

theorem test_meets_VectorPatternForms : mayCompute (run u0) ∧ mayCompute (runX s0) ∧ 0 < bitwise.length :=
  ⟨may_u, may_s, by decide⟩

theorem test_meets_VectorFloatForms : mayCompute (run u0) ∧ mayCompute (runX s0) ∧ Ty.isFlt .f32 = true ∧ Ty.isFlt .bf16 = true ∧
    0 < fltRound.length ∧ 0 < fltFns.length := ⟨may_u, may_s, rfl, rfl, by decide, by decide⟩

theorem test_meets_VcvtConverts : mayCompute (run u0) ∧ mayCompute (runX s0) ∧ (Ty.isInt .i8 = true ∧ Ty.isInt .n32 = true) ∧
    Ty.isFp .e4m3 = true ∧ Ty.isFp .f32 = true := ⟨may_u, may_s, ⟨rfl, rfl⟩, rfl, rfl⟩

theorem test_meets_BlockQuantiserForms : mayCompute (run u0) ∧ mayCompute (runX s0) := ⟨may_u, may_s⟩

theorem test_meets_VectorComparesAndExtract : mayCompute (run u0) ∧ mayCompute (runX s0) := ⟨may_u, may_s⟩

theorem test_meets_IntegerReductions : mayCompute (run u0) ∧ mayCompute (runX s0) ∧ Ty.isInt .n8 = true := ⟨may_u, may_s, rfl⟩

theorem test_meets_FloatReductions : mayCompute (run u0) ∧ mayCompute (runX s0) ∧ Ty.isFlt .f16 = true ∧ gangOk (run u0).core.gang :=
  ⟨may_u, may_s, rfl, .inl rfl⟩

/-- A context whose channel 0 holds back the scratchpad's bytes 128 to 255, its copy sound or failed. -/
def guarded : Ctx := { u0 with wm0 := ⟨128 / 32, 128 / 32, 256 / 32, 1, true⟩ }
def guardedFailed : Ctx := withTl guarded 0 fun t => { t with failed := some 1 }

/-- The bytes that elements at `a` touch: none for inactive ones; byte 96 is free, 128 is held, the last in reach and the first
out of reach at U. -/
theorem test_meets_VectorLoadsIssue : mayCompute (run u0) ∧ mayCompute (runX s0) ∧
    ¬ (1 : Word).toNat % 32 = 0 ∧ (96 : Word).toNat % 32 = 0 ∧
    touched .n8 (accessed (run u0) .n8 ⟨1, true⟩ fun i => 96 + w64 i) ≠ [] ∧ limit (run u0) 1 = 0xFF000 ∧ limit (run s0) 1 = 0x100000 ∧
    limit (run u0) 3 = 0x20000 ∧ (∀ b ∈ touched .n32 [(0, 0xFEFFC)], b < limit (run u0) 1) ∧
    (∀ b ∈ touched .n32 [(0, 0xFF000)], limit (run u0) 1 ≤ b) ∧
    (∀ b ∈ touched .n32 [(0, 96)], holders guarded 1 b = []) ∧ (∀ b ∈ touched .n32 [(0, 128), (1, 252)], holders guarded 1 b = [0]) ∧
    (tlOf guarded 0).failed = none ∧ (tlOf guardedFailed 0).failed = some 1 ∧ holders guardedFailed 1 255 = [0] ∧
    holders guarded 1 256 = [] :=
  ⟨may_u, may_s, by decide +kernel⟩

/-- The last aligned word in reach, one byte further, and a misaligned one; sound sources. -/
theorem test_meets_ScalarLoadsAndStores : mayCompute (run u0) ∧ mayCompute (runX s0) ∧ Ty.isInteger .i64 = true ∧
    ¬ limit (run u0) 1 < 0xFEFF8 + intBits .i64 / 8 ∧ ¬ 0xFEFF8 % (intBits .i64 / 8) ≠ 0 ∧
    limit (run u0) 1 < 0xFEFF9 + intBits .i64 / 8 ∧ 0xFEFF7 % (intBits .i64 / 8) ≠ 0 ∧ ¬ limit (run u0) 1 < 0xFEFF7 + intBits .i64 / 8 ∧
    srcsBad 1 u0 [.s 1, .s 2] = none := ⟨may_u, may_s, rfl, by decide +kernel⟩

theorem test_meets_VectorStoresWrite : mayCompute (run u0) ∧ mayCompute (runX s0) ∧ ¬ (33 : Word).toNat % 32 = 0 ∧
    (0xFEFE0 : Word).toNat % 32 = 0 ∧ (∀ b ∈ touched .n8 [(0, 0xFEFE0), (31, 0xFEFFF)], b < limit (run u0) 1) ∧
    (∀ b ∈ touched .n8 [(0, 0xFF000)], limit (run u0) 1 ≤ b) ∧ writes .b4 (1, 0) 1 ∧ ¬ writes .b4 (1, 0) 0 ∧
    srcsBad 1 u0 [.v (.reg 1), .s 1, .p 0] = none :=
  ⟨may_u, may_s, by unfold writes; decide +kernel⟩

/-- A scalar load whose line is valid and sound, damaged, or invalid; and a vector load of a pair of half bytes. -/
theorem test_meets_IssuedLoadsRead :
    let f : Flight := { fl0 with load := some (.scalar 8 8 true) }
    let h : Flight := { fl0 with res := .vector 1 false 4 3 0, load := some (.vec false 4 [(0, 8), (1, 8)]) }
    ({ u0 with inflight := [f] } : Ctx).inflight = [f] ∧ f.bad = none ∧ f.res = .scalar 5 7 ∧ f.load = some (.scalar 8 8 true) ∧ 8 % 8 = 0 ∧
    lineOk 1 u0 8 = true ∧ look 0 u0.errScr (8 / 8) < 2 ∧ ¬ look 0 ({ u0 with errScr := [(1, 2)] } : Ctx).errScr (8 / 8) < 2 ∧
    lineOk 1 { u0 with cls := .s } 8 = false ∧
    h.load = some (.vec false 4 [(0, 8), (1, 8)]) ∧ (([(0, 8), (1, 8)] : List (Nat × Nat)).map (·.1)).Pairwise (· < ·) ∧
    (∀ e ∈ ([(0, 8), (1, 8)] : List (Nat × Nat)), 4 * (e.1 + 1) ≤ 8192) ∧
    ∀ e ∈ ([(0, 8), (1, 8)] : List (Nat × Nat)), ∀ k < max 1 (4 / 8), look 0 u0.errScr ((e.2 + k) / 8) < 2 ∧
      (false = true ∨ lineOk 1 u0 (e.2 + k) = true) := by decide +kernel

/-- A run of two cores. -/
def pair : Ctx := { u0 with ncore := 2 }

/-- Before, at and after the tag; an XSEND of one granule to core 1, an XSENDM of 4096 to both, an XSENDS of the last word; a tagged
word at issue. -/
theorem test_meets_TaggedInstructions : u0.priv = .u ∧ inRegion (run u0) ∧ inRegion (runX u0) ∧ exchange (run u0) = false ∧
    exchange (runX u0) = true ∧ (runX u0).core.xclk < (1 : BitVec 16).toNat ∧ (runX u0).core.xclk = (0 : BitVec 16).toNat ∧
    (0 : BitVec 16).toNat < ({ (runX u0).core with xclk := 1 } : Core).xclk ∧
    decode (wordNow (putFetch (runX u0) 0x7100_0000_0000_0000)) = .ok (.xcyc 0) ∧ srcsBad 1 pair [.s 1, .s 2, .s 3] = none ∧
    sendAllowed (runX pair) 0 32 1 1 1 ∧ sendAllowed (runX pair) 0xDF000 0xDF000 0 2 4096 ∧
    (2 ^ 32 * 1 + 32 < 2 ^ 42 ∧ 1 < 2 ^ 13) ∧ (1 < pair.ncore ∧ 0xFEFF8 % 8 = 0 ∧ 0xFEFF8 + 8 ≤ fb 1 false) := by
  refine ⟨rfl, region_u, by unfold inRegion; decide +kernel, by decide +kernel, by decide +kernel, by decide +kernel, by decide +kernel,
    by decide +kernel, by rfl, by decide +kernel, ?_, ?_, by decide, by decide +kernel⟩ <;>
  · unfold sendAllowed
    exact ⟨by decide, by decide, by decide, by decide +kernel, by decide, by decide, by decide +kernel, by decide +kernel,
      fun k _ => ⟨by rfl, by rfl⟩, by intro p hp; cases hp⟩

theorem test_meets_TransfersAreDelivered :
    let t : Transfer := ⟨0, 1, 0, 1, [0], 64, [7], 32⟩
    ({ u0 with transfers := [t, { t with due := 1 }] } : Ctx).transfers = t :: [{ t with due := 1 }] ∧ t.due ≤ (runX u0).core.xclk ∧
    ∀ y ∈ [{ t with due := 1 }], (runX u0).core.xclk < y.due := by decide +kernel

theorem test_meets_SignatureReads : mayCompute (run u0) ∧ mayCompute (runX s0) ∧ u0.cls = .n ∧ ({ u0 with cls := .s } : Ctx).cls ≠ .n ∧
    runOf standing.dev standing.core.ctx.run ≠ none := ⟨may_u, may_s, by decide +kernel⟩

/-- An operation of a context's batch `b`, and a timeline context with it. -/
def op0 (b : Nat) : Op := ⟨7, b, .req ReqOp.zero, 0, .fresh⟩
def busy (b : Nat) (f : Option Nat) : TlCtx := { TlCtx.zero with closed := 2, tlc := 1, ops := [op0 b], failed := f }

/-- The 64th incomplete batch and the 65th, an open batch, a batch not closed, a failed one, one not complete, a complete one. -/
theorem test_meets_TimelineForms : mayCompute (run u0) ∧ mayCompute (runX s0) ∧ (6 : BitVec 3).toNat ≤ 6 ∧
    full { TlCtx.zero with closed := 64, failed := some 1 } ∧ ¬ full { TlCtx.zero with closed := 63, failed := some 1 } ∧
    ({ TlCtx.zero with openOps := 1 } : TlCtx).openOps ≠ 0 ∧ (busy 2 none).openOps = 0 ∧ (busy 2 none).closed.toNat < (3 : Word).toNat ∧
    (2 : Word).toNat ≤ (busy 2 (some 2)).closed.toNat ∧ 2 ≤ (2 : Word).toNat ∧ (1 : Word).toNat < 2 ∧
    (busy 2 none).tlc.toNat < (2 : Word).toNat ∧ (1 : Word).toNat ≤ (busy 2 none).tlc.toNat ∧ srcsBad 1 u0 [.s 1] = none :=
  ⟨may_u, may_s, by unfold full; decide +kernel⟩

/-- Open batches of contexts 0 and 6; a failed batch of each; an incomplete one; all complete, with and without a result in flight. -/
theorem test_meets_EndlEndsTheLaunch : s0.priv = .s ∧ u0.priv = .u ∧ exchange (runX u0) = true ∧ exchange (run u0) = false ∧
    ((tlOf (withTl u0 6 fun t => { t with openOps := 1 }) 6).openOps ≠ 0 ∧
      (∀ m < 6, (tlOf (withTl u0 6 fun t => { t with openOps := 1 }) m).openOps = 0)) ∧
    ¬ full { TlCtx.zero with openOps := 1 } ∧
    (tlOf (withTl u0 6 fun _ => busy 2 (some 2)) 6).failed = some 2 ∧ 2 ≤ (busy 2 (some 2)).closed.toNat ∧
    (∀ n < 6, (tlOf (withTl u0 6 fun _ => busy 2 (some 2)) n).failed = none) ∧
    ¬ (tlOf (withTl u0 0 fun _ => busy 2 none) 0).closed.toNat ≤ (tlOf (withTl u0 0 fun _ => busy 2 none) 0).tlc.toNat ∧
    (∀ n < 7, (tlOf u0 n).failed = none ∧ (tlOf u0 n).openOps = 0 ∧ (tlOf u0 n).closed.toNat ≤ (tlOf u0 n).tlc.toNat) ∧
    u0.inflight = [] ∧ ({ u0 with inflight := [fl0] } : Ctx).inflight ≠ [] := by unfold full; decide +kernel

/-- A package in which interface 0's addresses below 2^26 translate, at every die that reads for it, to hub 0's window. -/
def mapped : Device :=
  { Device.reset 2 with
    ifcs := [(0, { Ifc.zero with ttroot := 1 })]
    tlb := [(0, [⟨0, 0, 26, 0x800000000000, true⟩]), (20, [⟨0, 0, 26, 0x800000000000, true⟩]),
      (21, [⟨0, 0, 26, 0x800000000000, true⟩])] }

/-- The core's state in that package. -/
def onMap (c : Ctx) : State := { run c with dev := mapped }

/-- The reads of a hub and of a span, seen as their data. -/
def granule (h : Hub3 Nat) : Option Nat :=
  match h with
  | .done _ x => some x
  | _ => none
def spanBytes (r : SpanRead) : Option (List Byte) :=
  match r with
  | .ok _ b => some b
  | _ => none

/-- The 16th WAITV and the 17th; aligned and misaligned words and results, the last result in reach at U; a failed context. -/
theorem test_meets_RequestsIssue :
    let wt : Op := { op0 0 with what := .req { ReqOp.zero with kind := 2 } }
    let waits := fun n => ((withTl u0 5 fun t => { t with ops := List.replicate n wt }).t5.ops.filter fun o =>
      match o.what with | .req q => q.kind = 2 | _ => false).length
    mayCompute (run u0) ∧ 32 ≤ tyBits .i32 ∧ (2 : Word).toNat % size .i32 ≠ 0 ∧ (4 : Word).toNat % size .n32 = 0 ∧
    (4 : Word).toNat % 8 ≠ 0 ∧ (8 : Word).toNat % 16 ≠ 0 ∧ (0xFEFF8 : Word).toNat % 8 = 0 ∧ limit (run u0) 1 < 0xFF000 + 8 ∧
    ((0xFEFF8 : Word).toNat % 8 = 0 ∧ 0xFEFF8 + 8 ≤ limit (run u0) 1) ∧ ((0xFEFF0 : Word).toNat % 16 = 0 ∧ 0xFEFF0 + 16 ≤ limit (run u0) 1) ∧
    waits 16 = 16 ∧ waits 15 < 16 ∧ u0.t5.failed = none ∧ (withTl u0 5 fun _ => busy 2 (some 2)).t5.failed = some 2 ∧
    2 ≤ (busy 2 (some 2)).closed.toNat ∧ srcsBad 1 u0 [.s 1, .s 2, .s 3] = none := ⟨may_u, by decide +kernel⟩

/-- A context whose context 5 comes to perform `o`. -/
def asks (o : ReqOp) (p : Prog) : Ctx := withTl u0 5 fun t => { t with ops := [⟨7, 0, .req o, 0, p⟩] }

/-- A fence of the core and one of the package that waits for a buffered write; an AAMO on a mapped word and on one that does
not translate; a WAITV whose condition holds, whose owner is suspended, which arms, and which has waited its time. -/
theorem test_meets_RequestsPerform :
    let aam : ReqOp := { ReqOp.zero with kind := 1, ty := .i32, addr := 64 }
    let wtv : ReqOp := { aam with kind := 2, cc := .ne, tmo := 1, own := true }
    let me : Asker := ⟨[2, 0, 0, 0, 0, 5, 7], 0, 0, 1⟩
    let inHbm : Device := { mapped with tlb := [(0, [⟨0, 0, 26, 0x4000000, true⟩])] }
    let sus : Device := { mapped with
      launches := [{ bareLaunch mapped with id := 5, slot := 0 }], runs := [{ newRun 1 5 .primary [] with phase := .suspended }] }
    liveCtx (onMap (asks aam .fresh)) ⟨0, 0, 0⟩ = some ((onMap (asks aam .fresh)).core, asks aam .fresh) ∧
    (asks aam .fresh).t5.ops = (⟨7, 0, .req aam, 0, .fresh⟩ : Op) :: [] ∧ engineRuns (onMap (asks aam .fresh)) ⟨0, 0, 0⟩ (asks aam .fresh) 5 = true ∧
    fenceWide u0 { aam with kind := 0 } = false ∧ fenceWide u0 { aam with kind := 0, scope := .package } = true ∧
    (FenceKind.rel ≠ .acq ∧ FenceKind.acq ≠ .rel) ∧
    (∃ w ∈ look [] ([(0, [⟨9, ⟨0, 0, 0⟩, 1, 0, 0, 0, 0, 0, 0, 0, 0, 0, 0, 0⟩])] : Sparse (List GWrite)) 0, w.serial ∈ [9]) ∧
    (asks aam .fresh).cls ≠ .d ∧ 32 ≤ tyBits aam.ty ∧
    (translate mapped 0 0 aam.addr.toNat true).2 = .ok 0x800000000040 ∧ (translate mapped 0 0 (2 ^ 56) true).2 = .fault 4 ∧
    0x800000000040 % size .i32 = 0 ∧ (∀ w ∈ look [] mapped.gbuf 0, w.pa ≠ 0x800000000040) ∧
    granule (hubGranule mapped me 0x800000000040) = some 0 ∧ granule (windowPut mapped me 0x800000000040 (2 ^ 64 - 1) 5) = some 5 ∧
    ((look [] ([(0, [⟨9, ⟨0, 0, 0⟩, 1, 0, 0, 0x800000000040, 0, 0, 0, 0, 0, 0, 0, 0⟩])] : Sparse (List GWrite)) 0).any
      fun w => w.pa = 0x800000000040) = true ∧
    ((translate inHbm 0 0 aam.addr.toNat true).2 = .ok 0x4000040 ∧ paWin 0x4000040 = false ∧
      (match hubAsk inHbm me (0x4000040 / 256 * 256) (.amo 0x4000040 .add .i32 3 0) with
        | .done _ vals => decide (vals.find? (fun p => p.1 = 8) = some (8, some 0)) | _ => false) = true ∧
      (chunkNow (countRead inHbm 0x4000000) 0x4000000 0 1 [2]).2[2]? = some (some 0)) ∧
    (∀ y ∈ mapped.hbm.answers, y.who ≠ me.who) ∧
    (translate mapped 0 0 aam.addr.toNat false).2 = .ok 0x800000000040 ∧
    ccInt wtv.cc (ival .i32 1) (ival .i32 (wtv.b.toNat % 2 ^ 32)) = true ∧ ¬ ccInt wtv.cc (ival .i32 0) (ival .i32 (wtv.b.toNat % 2 ^ 32)) = true ∧
    (wtv.own = true ∧ ownerSuspended sus 0 (2 ^ 63) = true) ∧ ownerSuspended mapped 0 0 = false ∧
    (wtv.tmo ≠ 0 ∧ wtv.tmo * 1024 ≤ ({ mapped with sun := { mapped.sun with total := 1024 } } : Device).sun.total - 0) := by
  dsimp only
  and_intros <;> decide +kernel

/-- A raw copy of one granule within the scratchpad; records of other forms lie at 0, free or held back, valid or not. -/
theorem test_meets_CopiesIssue : mayCompute (run u0) ∧ mayCompute (runX s0) ∧
    (128 : Word).toNat % 128 = 0 ∧ (64 : Word).toNat % 128 ≠ 0 ∧ ¬ limit (run u0) 1 < 0xFEF80 + 128 ∧ limit (run u0) 1 < 0xFF000 + 128 ∧
    (∀ b ∈ rangeBytes [(0, 128, 128)], holders guarded 1 b = []) ∧ (∀ b ∈ rangeBytes [(128, 128, 128)], holders guarded 1 b = [0]) ∧
    (∀ b ∈ rangeBytes [(128, 128, 128)], (tlOf guarded 0).failed = none) ∧ (tlOf guardedFailed 0).failed.isSome = true ∧
    (∀ b ∈ rangeBytes [(0, 128, 128)], lineOk 1 u0 b = true) ∧ (∀ b ∈ rangeBytes [(0, 128, 128)], look 0 u0.errScr (b / 8) < 2) ∧
    ¬ lineOk 1 { u0 with cls := .s } 0 = true ∧
    64 ≤ (tlOf (withTl u0 3 fun t => { t with ops := List.replicate 64 (op0 0) }) 3).ops.length ∧
    ((captured guarded 2 .glb .loc true 1 2 3).kind = 2 ∧ (wmOf guarded 0).act = true ∧ (tlOf guarded 0).failed = none) ∧
    ¬ (64 ≤ (tlOf u0 3).ops.length ∨ ((captured u0 0 .glb .loc true 1 2 3).kind = 2 ∧ (wmOf u0 3).act = true ∧ (tlOf u0 3).failed = none)) ∧
    srcsBad 1 u0 [.s 1, .s 2, .s 3] = none ∧ (tlOf u0 0).failed = none ∧ (tlOf guardedFailed 0).failed ≠ none :=
  ⟨may_u, may_s, by decide +kernel⟩

theorem test_meets_CopyControl : mayCompute (run u0) ∧ inRegion (run u0) ∧ inRegion (run s0) ∧ u0.priv = .u ∧ s0.priv = .s ∧
    (tlOf (withTl u0 3 fun t => { t with openOps := 1 }) 3).openOps ≠ 0 ∧ (tlOf u0 3).openOps = 0 ∧
    (busy 2 (some 2)).failed ≠ none ∧ ((tlOf u0 3).failed = none ∧ (tlOf u0 3).ops = []) ∧
    ((busy 2 none).failed = none ∧ (busy 2 none).ops = op0 2 :: [] ∧ (∀ o ∈ (busy 2 none).ops, o.batch ≠ 0 ∧ 2 ≤ o.batch) ∧
      ∃ o ∈ (busy 2 none).ops, o.batch = 2) ∧
    (tlOf s0 0).stopped = false ∧ (tlOf (withTl s0 0 fun t => { t with stopped := true }) 0).stopped = true :=
  ⟨may_u, region_u, region_s, by decide +kernel⟩

/-- A context whose copy context 0 comes to perform `o`. -/
def copies (o : CopyOp) (p : Prog) : Ctx := withTl u0 0 fun t => { t with ops := [⟨7, 0, .copy o, 0, p⟩] }

/-- A raw copy of `n` bytes from `src` address 0 to scratchpad address 64. -/
def raw (src : Space) (n : Nat) : CopyOp := { captured u0 0 src .loc true 0 0 0 with ra := 0, rb := 64, rc := BitVec.ofNat 64 n }

theorem turn_copy (o : CopyOp) (p : Prog) :
    CopyTurn (run (copies o p)) ⟨0, 0, 0⟩ (run (copies o p)).core (copies o p) 0 ⟨7, 0, .copy o, 0, p⟩ [] o :=
  ⟨rfl, rfl, rfl, by decide, rfl, (by intro x hx; cases hx), rfl⟩

/-- A copy that is refused, one of two granules about to begin, at its first granule and at its last; a host read; an AMXSTEP of
one record. -/
theorem test_meets_CopiesArePerformed :
    CopyTurn (run (copies (raw .loc 64) .fresh)) ⟨0, 0, 0⟩ (run (copies (raw .loc 64) .fresh)).core (copies (raw .loc 64) .fresh) 0
      ⟨7, 0, .copy (raw .loc 64), 0, .fresh⟩ [] (raw .loc 64) ∧
    (raw .loc 64).kind ≠ 4 ∧ copyCheck 1 u0 (raw .loc 33) = some (5, 0, 0) ∧ copyCheck 1 u0 (raw .r6 64) = some (6, 0, 0) ∧
    copyCheck 1 u0 (raw .loc 64) = none ∧ planGranules (planCopy (raw .loc 64)) = [2, 3] ∧
    (planGranules (planCopy (raw .loc 64))).drop 0 = 2 :: [3] ∧ (planGranules (planCopy (raw .loc 64))).drop 1 = 3 :: [] ∧
    (planCopy (raw .loc 64)).amx = false ∧ ((raw .loc 64).dst = .loc ∧ u0.cls = .n ∧ errOf u0 (spaceNo .loc) = []) ∧
    (((needs (planCopy (raw .host 64)) 2).filter fun x => !(([] : Sparse (BitVec 256)).any fun y => y.1 = x)) = 0 :: []) ∧
    (let a : CopyOp := { raw .loc 0 with kind := 4, alist := [0xFEF80] }
     a.kind = 4 ∧ a.badLen = false ∧ a.alist.Nodup ∧ u0.errScr = [] ∧
       ∀ x ∈ a.alist, x % 128 = 0 ∧ x + 128 ≤ if a.privU then fb 1 false else fb 1 false + 4096) :=
  ⟨turn_copy _ _, by decide +kernel⟩

/-- Slots to the end of the partition and one beyond it, a slot already claimed, one a queued operation will read; a full and a free
format queue; values in and out of range at their bounds. -/
theorem test_meets_MatrixSetup :
    let i8 : Nat := 65 * Ty.i8.code.toNat
    let held : Ctx := { u0 with
      mx := { Sys2Proof.Machine.Matrix.zero with role := [(1, 1)], fmtN := 16, unres := 1, fmtW := [(0, BitVec.ofNat 64 i8)], fmtC := [(0, 8194)] }
      t4 := { TlCtx.zero with ops := [⟨7, 0, .mat (matOp u0 1 1 0 []), 0, .fresh⟩] } }
    mayCompute (run u0) ∧ slotsOf 1 u0 < 1 + 32 ∧ 0 + 32 ≤ slotsOf 1 u0 ∧ look 0 held.mx.role 1 ≠ 0 ∧ (∀ k < 32, look 0 u0.mx.role k = 0) ∧
    (∃ x ∈ slotsToRead 1 held, (1 : Int) ≤ x ∧ x < 2) ∧ slotsToRead 1 u0 = [] ∧
    fmtOk 0x3F = false ∧ fmtOk i8 = true ∧ 16 ≤ held.mx.fmtN ∧ fmtReserved { held.mx with unres := 2 } = 0 ∧ fmtReserved { held.mx with unres := 0 } ≠ 0 ∧
    u0.mx.fmtN < 16 ∧ (2 ^ 62 - 1 < 2 ^ 62) ∧ 2 ^ 7 / 2 ^ 7 % 2 = 1 ∧
    ¬ (0 / 2 ^ 7 % 2 = 1 ∨ 0 / 2 ^ 24 % 2 ^ 8 ≠ 0 ∨ (0 / 2 ^ 6 % 2 = 1 ∧ 0 / 2 ^ 8 % 2 ^ 16 = 0)) ∧
    (0x007FFFFF < 0x00800000 ∧ 0x00800000 < 0x7F800000 ∧ 0x7F7FFFFF < 0x7F800000) ∧ srcsBad 1 u0 [.s 1, .s 2] = none :=
  ⟨may_u, by decide +kernel⟩

theorem test_meets_MatrixOperationsIssue :
    let m := { Sys2Proof.Machine.Matrix.zero with unres := 1 }
    inRegion (run u0) ∧ mayCompute (run u0) ∧ 2 ^ 19 - 1 < 2 ^ 19 ∧ u0.mx.unres < 1 ∧ 1 ≤ m.unres ∧
    8 ≤ (List.replicate 8 (op0 0)).length ∧ u0.t4.ops.length < 8 ∧ u0.t4.failed = none ∧ tilesOf 1 u0 < 0 + (9 : BitVec 6).toNat ∧
    0 + (8 : BitVec 6).toNat ≤ tilesOf 1 u0 ∧ (54 : BitVec 7).toNat < (matWords u0.t4 u0.mx).length ∧
    (64 ≤ (71 : BitVec 7).toNat ∧ (71 : BitVec 7).toNat - 64 < tilesOf 1 u0) ∧ u0.priv = .u ∧ s0.priv = .s ∧ s0.t4.ops = [] ∧
    (busy 2 none).ops ≠ [] ∧ srcsBad 1 s0 [.s 1] = none ∧ 4 ≤ (54 : BitVec 7).toNat ∧ (54 : BitVec 7).toNat < 55 :=
  ⟨region_u, may_u, by decide +kernel⟩

/-- A context whose matrix engine comes to perform `o`, with slot 0 an A slot and slots 1 to 4 B slots, all written once. -/
def works (o : MatOp) (w : Nat) : Ctx := { u0 with
  t4 := { TlCtx.zero with ops := [⟨7, 0, .mat o, 0, .fresh⟩] }
  mx := { Sys2Proof.Machine.Matrix.zero with
    role := [(0, 1), (31, 2)], stamp := [(0, 1), (31, 1)], fmtW := [(0, BitVec.ofNat 64 w)], fmtC := [(0, 8193)], fmtN := 1 } }

theorem turn_mat (o : MatOp) (w : Nat) :
    MatTurn (run (works o w)) ⟨0, 0, 0⟩ (run (works o w)).core (works o w) ⟨7, 0, .mat o, 0, .fresh⟩ [] o :=
  ⟨rfl, rfl, rfl, rfl, ⟨rfl, rfl⟩, (by intro x hx; cases hx), rfl⟩

/-- MZERO; an MTILE of A slot 0, B slot 31 and tile 7, the last of the partition, with I8 operands; and one whose A slot is beyond it. -/
theorem test_meets_MatrixPerforms :
    let w : Nat := 65 * Ty.i8.code.toNat
    let o := { matOp u0 1 (BitVec.ofNat 64 (31 * 2 ^ 7 + 7 * 2 ^ 14)) 0 [] with cktol := 0 }
    MatTurn (run (works o w)) ⟨0, 0, 0⟩ (run (works o w)).core (works o w) ⟨7, 0, .mat o, 0, .fresh⟩ [] o ∧
    (zeroOp 0 1).kind = 2 ∧ o.kind = 1 ∧ o.nest = [] ∧ (look 0 (works o w).mx.fmtW (works o w).mx.fmtHead).toNat = w ∧
    (fmtOk w = true ∧ w % 2 ^ 12 = 65 * Ty.i8.code.toNat) ∧ slotsOf 1 u0 ≤ 32 ∧ w / 2 ^ 16 % 2 ^ 6 = 0 ∧ o.cktol.toNat / 2 ^ 8 % 2 = 0 ∧
    u0.errOpm = [] ∧ u0.errAcc = [] ∧ gangOk (run u0).core.gang ∧ 0 < slotsOf 1 u0 ∧ look 0 (works o w).mx.role 0 = 1 ∧
    look 0 (works o w).mx.stamp 0 = 1 ∧ 31 + 1 ≤ slotsOf 1 u0 ∧ 7 + 1 ≤ tilesOf 1 u0 ∧
    (∀ j < 1, look 0 (works o w).mx.role (31 + j) = 2 ∧ look 0 (works o w).mx.stamp (31 + j) = 1 ∧
      (look 0 (works o w).mx.side (7 + j)).toNat.testBit 16 = false) :=
  ⟨turn_mat _ _, by unfold gangOk; decide +kernel⟩

/-! #### The fabric, the host's side and the package -/

/-- The record of a collective over the members of `ms`: 64 bytes from address 0 to address 64, chunks of 4 KiB. -/
def colOver (ms : Nat) : Nat := 64 * 256 ^ 8 + 64 * 2 ^ 128 + 12 * 2 ^ 176 + ms * 256 ^ 32

theorem test_meets_CollectivesIssue : inRegion (run u0) ∧ inRegion (run s0) ∧ mayCompute (run u0) ∧ u0.priv = .u ∧ s0.priv = .s ∧
    (∀ b ∈ rangeBytes [(0, 64, 64)], holders u0 1 b = []) ∧ (∀ b ∈ rangeBytes [(0xFEFC0, 64, 64)], lineOk 1 u0 b = true) ∧
    4 ≤ (List.replicate 4 (op0 0)).length ∧ u0.t6.ops.length < 4 ∧ srcsBad 1 u0 [.s 1] = none ∧ u0.t6.failed = none ∧
    (busy 2 (some 2)).failed ≠ none ∧ (6 : BitVec 3).toNat < 7 ∧ ({ TlCtx.zero with openOps := 1 } : TlCtx).openOps ≠ 0 ∧ u0.t6.openOps = 0 ∧
    (run u0).core.mode = .active ∧ (run u0).dev.cols = [] ∧ (run u0).others = [] ∧
    ((busy 2 none).failed = none ∧ (busy 2 none).ops = op0 2 :: [] ∧ (∀ o ∈ (busy 2 none).ops, o.batch ≠ 0 ∧ 2 ≤ o.batch) ∧
      ∃ o ∈ (busy 2 none).ops, o.batch = 2) ∧ TlCtx.zero.stopped = false ∧ ({ TlCtx.zero with stopped := true } : TlCtx).stopped = true :=
  ⟨region_u, region_s, may_u, by decide +kernel⟩

/-- A context whose collective engine performs `o`, in a package whose port 3 is linked to port 5 of device 1. -/
def reduces (o : ColOp) (p : Prog) : Ctx := withTl u0 6 fun t => { t with ops := [⟨7, 0, .col o, 0, p⟩] }
def linked : Device := { mapped with
  mgmt := { mapped.mgmt with table := [(3, BitVec.ofNat 32 (1 + 5 * 2 ^ 8 + 2 ^ 15 + 112 * 2 ^ 16)),
    (77, BitVec.ofNat 32 (3 * 2 ^ 8 + 2 ^ 15 + 112 * 2 ^ 16))] } }
def inDomain (c : Ctx) : State := { run c with dev := linked }
def sum32 (ms : Nat) : ColOp := ⟨.red, .sum, .n32, colOver ms⟩

theorem turn_col (o : ColOp) (p : Prog) : ColTurn (inDomain (reduces o p)) ⟨0, 0, 0⟩ (reduces o p) ⟨7, 0, .col o, 0, p⟩ [] o :=
  ⟨rfl, rfl, rfl, (by intro x hx; cases hx), ⟨rfl, rfl, rfl⟩, ⟨rfl, rfl⟩, (by intro x hx; cases hx)⟩

/-- An invalid record; one of two members with and without the other's operation; the sum of its one chunk; the broadcast of
the root; the chunk committed and written. -/
theorem test_meets_CollectivesPerform :
    let o := sum32 3
    let e := colRec o.recd
    let p : PeerOp := ⟨1, BitVec.ofNat 64 e.cid, BitVec.ofNat 256 e.members, .red, .sum, .n32, 16 * 4, 0, 12, []⟩
    let x : Collective := ⟨⟨0, 0, 0⟩, 7, [p], 0, [(112, [(0, 1, 3)])], [(0, 1)], [], [], [], none, []⟩
    ColTurn (inDomain (reduces o .fresh)) ⟨0, 0, 0⟩ (reduces o .fresh) ⟨7, 0, .col o, 0, .fresh⟩ [] o ∧
    (linked.cols = [] ∧ linked.drains = [] ∧ linked.endings = []) ∧ (x.next = none ∧ linked.mgmt.ltver % 2 ^ 32 = x.version) ∧
    (1 ∈ memberList e.members ∧ 1 ≠ linked.mgmt.devnum ∧ 2 ∉ memberList e.members ∧ x.mark = []) ∧ bucketHeld (reduces o .fresh) 7 = false ∧ fencePending (reduces o .fresh) 7 false = false ∧
    fabricBusy linked = false ∧ colInvalid ⟨.red, .sum, .n32, 0⟩ (colRec 0) 0 = true ∧ colInvalid o e 0 = false ∧ u0.cls ≠ .d ∧
    e.src + srcLen o e 0 ≤ 2 ^ 56 ∧ e.dst + dstLen o e ≤ 2 ^ 56 ∧ memberList e.members = [0, 1] ∧
    treesOf linked.mgmt.table [0, 1] = [(112, [(0, 1, 3)])] ∧ peersOf e [p] = [p] ∧ ([0, p.dev] : List Nat).Nodup ∧
    peerAgrees o e p = true ∧ chunkCount o e = 1 ∧ look 0 x.mark 0 = 0 ∧ (chunkSpan o e 0) = (0, 256) ∧
    (spanBytes (spanRead linked (tlbFabric ⟨0, 0, 0⟩) 2 0 (e.src + 0) 256 (chunkKey' ⟨0, 0, 0⟩ 7 0 0))).map (·.length) = some 256 ∧
    (ClForm.red ≠ .bc ∧ ClOp.sum = .sum ∧ (0 : Nat) ≠ p.dev ∧ x.peers = [p] ∧ x.trees = [(112, [(0, 1, 3)])] ∧ look 0 x.assign 0 = 1 ∧ 256 % 4 = 0) ∧
    look 0 ({ x with mark := [(0, 1)] } : Collective).mark 0 = 1 ∧ receives o e 0 0 = true ∧ look false x.written 0 = false ∧
    0 ∈ toWrite o e 0 { x with mark := [(0, 2)] } ∧
    (match (writeChunk (inDomain u0) u0 o e { x with mark := [(0, 2)], value := [(0, [7])] } 0).2 with | .done => true | _ => false) = true ∧
    toWrite o e 0 { x with mark := [(0, 2)], written := [(0, true)] } = [] ∧ chunksDone { x with mark := [(0, 2)] } = 1 ∧
    colOf { linked with cols := [x] } ⟨0, 0, 0⟩ 7 = some x := by
  dsimp only
  refine ⟨turn_col _ _, ?_⟩
  and_intros <;> decide +kernel

theorem crc64Bits_lt (n r : Nat) (h : r < 2 ^ 64) : crc64Bits n r < 2 ^ 64 := by
  induction n generalizing r with
  | zero => exact h
  | succ n ih =>
    simp only [crc64Bits]
    split
    · exact ih _ (Nat.xor_lt_two_pow (Nat.mod_lt _ (by decide)) (by decide))
    · exact ih _ (Nat.mod_lt _ (by decide))

theorem crc64Fold_lt (l : List Nat) (r : Nat) (h : r < 2 ^ 64) :
    l.foldl (fun r b => crc64Bits 8 (r ^^^ (b * 2 ^ 56))) r < 2 ^ 64 := by
  induction l generalizing r with
  | nil => exact h
  | cons b l ih =>
    refine ih _ (crc64Bits_lt 7 _ ?_)
    split
    · exact Nat.xor_lt_two_pow (Nat.mod_lt _ (by decide)) (by decide)
    · exact Nat.mod_lt _ (by decide)

/-- A flit made with its CRC and a TYPE that is not reserved is good. -/
theorem mkFlit_good (type seq ack : Nat) (p : BitVec 1920) (h : flitType (mkFlit type seq ack p) ≤ 3) :
    flitGood (mkFlit type seq ack p) = true := by
  have hc (l : List Nat) : crc64 l % 2 ^ 64 = crc64 l :=
    Nat.mod_eq_of_lt (Nat.xor_lt_two_pow (crc64Fold_lt l _ (by decide)) (by decide))
  have h' := h
  simp only [flitType, mkFlit] at h'
  simp [flitGood, flitType, mkFlit, flitBytes, BitVec.toNat_ofNat] at h' ⊢
  exact ⟨(hc _).symm, h'⟩

/-- A port that is UP, its retry buffer with one flit, or two, one of them replayed before; a good and a bad flit; a port in training at
its first and its last try; a keeper and a device that is none; a newer and an older version. -/
theorem test_meets_PortsAndTable :
    let f := mkFlit 1 0 4095 0
    let up : Device := setPort linked 3 { Port.zero with state := 2, farDev := 1, farPort := 5 }
    let far : Device := { setPort linked 5 { Port.zero with state := 2, farDev := 0, farPort := 3 } with mgmt := { linked.mgmt with devnum := 1 } }
    (portUp up 3 = true ∧ up.sun.parked = false) ∧ (∀ y ∈ (portOf up 3).retry, flitSeq y ≠ flitAck f) ∧ flitSeq f = 0 ∧ (portOf up 3).outbox = [] ∧ (portOf up 3).txSeq < 4096 ∧
    ([f] = [] ++ f :: [] ∧ [f, mkFlit 1 1 0 0] = [] ++ f :: [mkFlit 1 1 0 0]) ∧ ¬ (0 ≠ 0 ∧ 0 = flitSeq (mkFlit 1 1 0 0)) ∧
    (7 ≠ 0 ∧ 7 < 8 ∧ 1 = flitSeq (mkFlit 1 1 0 0)) ∧ flitGood ⟨15, 0, 0⟩ = false ∧ flitGood f = true ∧ flitType f = 1 ∧
    flitSeq f = (portOf up 3).rxSeq ∧ flitSeq (mkFlit 2 1 0 0) ≠ (portOf up 3).rxSeq ∧ up.cols = [] ∧
    ((71 : Nat) < 72 ∧ (look Die.zero (setDie linked 23 { Die.zero with state := 2 }).dies (21 + 71 / 24)).state = 2) ∧
    (({ Port.zero with state := 1 } : Port).state = 1 ∧ ({ Port.zero with state := 3 } : Port).state = 3) ∧ (255 < 256) ∧ Port.zero.tries < 2 ∧ ({ Port.zero with tries := 2 } : Port).tries = 2 ∧
    keeper linked = linked.mgmt.devnum ∧ keeper far ≠ far.mgmt.devnum ∧ (([(0, 1)] : List (Nat × BitVec 32)).map (·.1)).Nodup ∧
    newer 0 0 = false ∧ newer 1 0 = true ∧ newer (2 ^ 31 - 1) 0 = true ∧ newer (2 ^ 31) 0 = false ∧
    flitType (mkFlit 0 0 5 0) = 0 ∧ flitType (mkFlit 3 0 5 0) = 3 := by
  refine ⟨by decide +kernel, by decide +kernel, by decide +kernel, by decide +kernel, by decide +kernel, ⟨rfl, rfl⟩, by decide +kernel,
    by decide +kernel, by simp [flitGood, flitType, bitsOf], mkFlit_good _ _ _ _ (by decide +kernel), ?_⟩
  and_intros <;> decide +kernel


/-- The bytes of a launch record that passes its check, with no counters. -/
def goodRec : Nat := 1 + 256 ^ 4 + 256 ^ 5 + 256 ^ 6 + 8 * 256 ^ 0x18 + 0x30000 * 256 ^ 0x20 + 64 * 256 ^ 0x30 + 256 ^ 0x32 + 256 ^ 0x33 +
  (2 ^ 64 - 1) * 256 ^ 0x40

/-- Interface 0 with one queue and four counters, the queue enabled with one record, which lies in the mapped window. -/
def queued : Device :=
  let d := setHub mapped 0 { hubOf mapped 0 with win := writeLe [] 0 256 goodRec }
  setQueue { d with ifcs := [(0, { ifcOf d 0 with
    cfg0 := BitVec.ofNat 64 (1 + 2 ^ 21), cfg1 := BitVec.ofNat 64 (4 * 2 ^ 16), svsize := 8 })] } 0 { Queue.zero with en := true, tail := 1 }

/-- What came of a hub's or a span's access: done, left waiting, failed, refused. -/
def readCame (r : SpanRead) : Nat :=
  match r with
  | .ok _ _ => 0
  | .wait _ => 1
  | .bad _ _ _ => 2
  | .stop _ _ _ => 3
def writeCame (r : State × SpanEnd) : Nat :=
  match r.2 with
  | .done => 0
  | .wait => 1
  | .bad _ _ => 2
  | .stop _ _ => 3

/-- The package with hub 0 of its window retraining, and with a granule of it lost. -/
def training (d : Device) : Device := setDie d 16 { Die.zero with retraining := true }
def damaged (d : Device) : Device := setHub d 0 { hubOf d 0 with winErr := [(0, 2), (7, 2)] }

/-- A tail that stays, moves on, moves back and lies beyond the ring; a queue with a fetched head; a ready record, read at once or
not; counters in and out of range; a record that is fetched, waits, is lost and cannot be translated. -/
theorem test_meets_QueueAndCounterWrites :
    let x := queueOf queued 0
    let l : Launch := { bareLaunch queued with id := 5, adv := true }
    let y : Queue := { x with fetched := some 5 }
    (0 < 64 ∧ queued.mgmt.recovery = false ∧ 0 < nqOf (ifcOf queued 0)) ∧ Queue.zero.en = false ∧ x.en = true ∧ 2 ^ x.log2sz ≤ 16 ∧
    (0 + 16 - x.head) % 16 < (x.tail + 16 - x.head) % 16 ∧ (15 < 2 ^ x.log2sz ∧ (x.tail + 16 - x.head) % 16 ≤ (15 + 16 - x.head) % 16) ∧
    (1 : Word).toNat % 65536 = x.tail ∧ (15 : Word).toNat % 65536 ≠ x.tail ∧ (1 : Word).getLsbD 0 = true ∧ (0 : Word).getLsbD 0 = false ∧
    (x.fetched.bind (launchOf queued) = none ∧ y.fetched.bind (launchOf { queued with launches := [l] }) = some l) ∧
    3 < ncntOf (ifcOf queued 0) ∧ ncntOf (ifcOf queued 0) ≤ 4 ∧ (∀ j < nqOf (ifcOf mapped 0), queuePending (queueOf mapped j) = 0) ∧
    (nqOf (ifcOf queued 0) = 1 ∧ (x.tail + 16 - x.head) % 16 = 1 ∧ ¬ ∃ l, x.fetched.bind (launchOf queued) = some l ∧ l.adv = true) ∧
    (queued.cancels = [] ∧ queued.posted = [] ∧ queued.resets = [] ∧ queued.sun.parked = false) ∧
    (∃ j < 1, 0 = (x.head + j) % 16 ∧ ((∃ l, x.fetched.bind (launchOf queued) = some l ∧ l.adv = true) → 0 < j)) ∧
    readCame (spanRead queued tlbHost 4 0 0x38 4) = 0 ∧ readCame (spanRead (training queued) tlbHost 4 0 0x38 4) = 1 ∧
    (ownerOf queued 0 = some (0, 0) ∧ x.stop = false ∧ x.fetched = none) ∧ fetchAllowed queued = true ∧
    fetchAllowed { queued with mgmt := { queued.mgmt with wiping := true } } = false ∧
    spanBytes (spanRead queued tlbHost 4 0 0 256) = some (toBytes 256 goodRec) ∧ readCame (spanRead (training queued) tlbHost 4 0 0 256) = 1 ∧
    readCame (spanRead (damaged queued) tlbHost 4 0 0 256) = 2 ∧ readCame (spanRead queued tlbHost 4 1 0 256) = 3 ∧
    recordCheck queued 0 goodRec = none ∧ x.head ∉ x.marks ∧ queued.launches = [] ∧ (newLaunch queued 0 0 x goodRec).recd.wcnt = 65535 := by
  dsimp only
  refine ⟨by decide +kernel, rfl, rfl, by decide +kernel, by decide +kernel, by decide +kernel, by decide +kernel, by decide +kernel,
    rfl, rfl, ⟨rfl, rfl⟩, by decide +kernel, by decide +kernel, by decide +kernel,
    ⟨by decide +kernel, by decide +kernel, fun ⟨_, h, _⟩ => (by cases h)⟩, ⟨rfl, rfl, rfl, rfl⟩,
    ⟨0, by decide, by decide +kernel, fun ⟨_, h, _⟩ => (by cases h)⟩, ?_⟩
  and_intros <;> decide +kernel

/-- A package with a walk under way has an access translating; one at rest has none. -/
theorem translating_walk : translating (onMap u0 |> fun s => { s with dev := { s.dev with walks := [⟨0, 0, 0, 0, 0⟩] } }) 0 :=
  .inr (.inl ⟨_, List.mem_cons_self, rfl⟩)
theorem translating_none : ¬ translating (onMap u0) 0 := by
  rintro (⟨p, hp, _⟩ | ⟨w, hw, _⟩ | ⟨z, hz, _⟩ | ⟨k, hk, h⟩)
  · cases hp
  · cases hw
  · cases hz
  · cases List.mem_singleton.mp hk
    rcases h with ⟨_, _, o, ho, _⟩ | ⟨c, hc, _⟩
    · cases ho
    · cases hc

/-- The PF and the last VF; DONE set and clear; aperture accesses that are done, wait, fail and do not translate; vectors in range; an
interface with work left and one at rest; the bits of PREEMPT; queues of the interface. -/
theorem test_meets_InterfaceRegisters :
    (0 < 64 ∧ 63 < 64 ∧ queued.mgmt.recovery = false ∧ ({ mapped.mgmt with vfEnable := true } : Mgmt).vfEnable = true) ∧ ({ Ifc.zero with ttinv := 2 } : Ifc).ttinv.getLsbD 1 = true ∧
    ({ Ifc.zero with ttinv := 1 } : Ifc).ttinv.getLsbD 1 = false ∧ (mapped.sun.parked = false ∧ mapped.posted = [] ∧ ([7] : List Byte) ≠ []) ∧
    ({ mapped.sun with parked := true } : Sundial).parked = true ∧
    ([readCame (spanRead queued tlbHost 6 0 0 4 [5, 0]), readCame (spanRead (training queued) tlbHost 6 0 0 4 [5, 0]),
      readCame (spanRead (damaged queued) tlbHost 6 0 0 4 [5, 0]), readCame (spanRead queued tlbHost 6 1 0 4 [5, 1])] = [0, 1, 2, 3]) ∧
    ([writeCame (spanWrite { run u0 with dev := queued } tlbHost 6 0 (wbytes 0 [7]) (spanOf 0 1) none [5, 0]),
      writeCame (spanWrite { run u0 with dev := training queued } tlbHost 6 0 (wbytes 0 [7]) (spanOf 0 1) none [5, 0]),
      writeCame (spanWrite { run u0 with dev := queued } tlbHost 6 1 (wbytes 0 [7]) (spanOf 0 1) none [5, 1])] = [0, 1, 3]) ∧
    (2 < 3 ∧ Ifc.zero.masked < 8 ∧ Ifc.zero.pending < 8) ∧
    ((1 : Nat) ≠ 0 ∧ mapped.resets = [] ∧ (mapped.launches.map (·.id)).Nodup) ∧
    (∃ l ∈ ({ mapped with launches := [{ bareLaunch mapped with ifc := 1 }] } : Device).launches, l.ifc = 1) ∧
    (mapped.launches = [] ∧ mapped.owed = [] ∧ mapped.drains = [] ∧ mapped.posted = [] ∧ mapped.gbuf = []) ∧
    (ifcOf mapped 1).ttroot.getLsbD 0 = false ∧ (0 : Word).getLsbD 63 = false ∧ (0x8000000000000000 : Word).getLsbD 63 = true ∧
    (0 < nqOf (ifcOf queued 0) ∧ 0 < 8192) ∧ 8191 < 8192 := by
  dsimp only
  refine ⟨by decide +kernel, by decide +kernel, by decide +kernel, by decide +kernel, rfl, by decide +kernel, by decide +kernel,
    by decide +kernel, by decide +kernel, ⟨_, List.mem_cons_self, rfl⟩, ?_⟩
  and_intros <;> decide +kernel

/-- A busy interface and one at rest, the last container's allotment and one more; the rings' bounds; a port's register on a die in
service, quiescing and fenced; modes; the life-cycle states and keys; monitors of each kind; a frame of HBM and one of the window; a
move begun and a last step; a channel that pauses; a damaged word; a buffered write of the window, alone and after another of its copy. -/
theorem test_meets_ManagementAndHubs :
    let w : GWrite := ⟨9, ⟨0, 0, 0⟩, 1, 0, 0, 0x800000000020, 0x20, 1, 5, 0, 0, 0, 0, 0⟩
    let l : Launch := { bareLaunch mapped with id := 5 }
    ({ mapped.mgmt with recovery := true } : Mgmt).recovery = true ∧ mapped.mgmt.recovery = false ∧
    (63 < 64 ∧ ∃ j < nqOf (ifcOf queued 0), (queueOf queued (qbaseOf (ifcOf queued 0) + j)).en = true) ∧
    (¬ ∃ j < nqOf (ifcOf mapped 0), (queueOf mapped (qbaseOf (ifcOf mapped 0) + j)).en = true) ∧
    ((((List.range 64).filter (· ≠ 0)).map fun j => callotOf (ifcOf mapped j)).sum + 4096 ≤ 4096) ∧
    4096 < (((List.range 64).filter (· ≠ 0)).map fun j => callotOf (ifcOf mapped j)).sum + 4097 ∧
    (8 < 9 ∧ (2 ^ 12 * 3 : Nat) / 2 ^ 12 % 2 ^ 16 < 1024) ∧ (3 + 1024 - 0) % 1024 ≤ (5 + 1024 - 0) % 1024 ∧ (5 + 1024 - 0) % 1024 < (6 + 1024 - 0) % 1024 ∧
    (16 ≤ 16 ∧ 87 < 88) ∧ ((dieOf mapped 23).state ≠ 3 ∧ ¬ fencedNow (dieOf mapped 23)) ∧
    (({ Die.zero with state := 3 } : Die).state = 3 ∧ fencedNow { Die.zero with state := 5 }) ∧
    ((List.range 64).filter fun j => shareOf (ifcOf mapped j) ≠ 0).length ≠ 1 ∧ ((List.range 64).filter fun j => shareOf (ifcOf queued j) ≠ 0).length = 1 ∧
    ((∃ y ∈ ({ mapped with launches := [l] } : Device).launches, y.placed = true) ∧ ¬ ∃ y ∈ mapped.launches, y.placed = true) ∧
    (mapped.mgmt.lcState = 2 ∧ (0 : Word) ≠ 0xDC1E0001 ∧ (0 : Word) ≠ 0xDC1E0003) ∧
    ((15 : Nat) < 16 ∧ look 0 mapped.hbm.reads 15 < 64 ∧ look 0 ([(15, 64)] : Sparse Nat) 15 = 64 ∧ mapped.mgmt.monFreeze = false) ∧
    ((19 ≤ 19 ∧ 22 ≤ 22) ∧ look 0 mapped.mgmt.monLast 19 < 0 / 4096 + 1 ∧ 4095 / 4096 + 1 ≤ look 0 ([(19, 1)] : Sparse Nat) 19) ∧
    (16 ≤ 18 ∧ 18 < 19 ∧ 22 < 23) ∧ mapped.sun.parked = false ∧
    (paOk 65536 = true ∧ paOk (2 * 65536 - 1) = true ∧ paWin (2 * 65536 - 1) = false) ∧ paOk 0x800007EF0000 = true ∧ paOk (0x800007F00000 - 1) = true ∧
    (paWin 0x800007EF0000 = true ∧ winHub (0x800007F00000 - 1) = winHub 0x800007EF0000) ∧
    (look (0, 0) mapped.hbm.move 7 = (0, 0) ∧ look (0, 0) ([(7, (1, 3))] : Sparse (Nat × Nat)) 7 ≠ (0, 0) ∧ 256 ≤ (1, 256).2) ∧
    (mapped.hbm.answers = [] ∧ mapped.hbm.waits = [] ∧ ([2] : List Nat) ≠ []) ∧
    (mapped.clock < look 0 ([(chanKey 256, 1024)] : Sparse Nat) (chanKey 256) ∧ ¬ mapped.clock < look 0 mapped.hbm.pause (chanKey 256)) ∧
    0x800000000020 % 32 = 0 ∧ (look Die.zero mapped.dies 16).retraining = false ∧ (∀ j < 4, look 0 (hubOf mapped 0).winErr (4 + j) = 0) ∧
    (look 0 ([(7, 2)] : Sparse Nat) (4 + 3) ≠ 0 ∧ ∀ y < 4, y ≠ 3 → look 0 ([(7, 2)] : Sparse Nat) (4 + y) = 0) ∧
    ([w][0]? = some w ∧ (∀ y ∈ [w].take 0, y.pa ≠ w.pa) ∧ w.pa % 32 = 0 ∧ paWin w.pa = true ∧ counted (run { u0 with run := 1 }) w = true) ∧
    (counted (run u0) w = false ∧ ∀ y ∈ [w], ¬ (y.cref = w.cref ∧ y.run = w.run ∧ y.opSerial = w.opSerial ∧ y.idx < w.idx)) ∧
    (∀ c ∈ (run u0).cores, c.ctx.t5.ops = [] ∧ ∀ y ∈ c.susp, y.t5.ops = []) := by
  dsimp only
  unfold fencedNow
  and_intros <;> decide +kernel

/-- A die at each place of its sequences: asked to quiesce or not, quiescing with its deadline reached and not, with and without
buffered writes; under test, passing and failing; a lane that turns, takes the shadow place and finds it taken, of a stack, of a
fabric die and of a scale-up bundle; a retrain at its second and its third failure; a stack in service, retired and gone; a
domain at its limits, and the rails of the package. -/
theorem test_meets_DieSequences :
    let q : Die := { Die.zero with state := 3, deadline := 1 }
    let r : TestReport := ⟨[(0, 2)], [], []⟩
    (39 < 40 ∧ mapped.mgmt.recovery = false ∧ mapped.sun.parked = false) ∧
    ((15 < 16 ∧ 21 ≤ 23) ∧ ({ Die.zero with state := 2 } : Die).state = 2 ∧ Die.zero.ask = false ∧ ¬ (21 ≤ 24 ∧ 24 ≤ 23)) ∧
    (257 : Word).getLsbD 0 = true ∧ (256 : Word).getLsbD 0 = false ∧ q.state = 3 ∧ q.deadline ≤ ({ mapped with clock := 1 } : Device).clock ∧
    mapped.clock < q.deadline ∧ outstanding mapped 0 = false ∧
    outstanding { mapped with gbuf := [(0, [⟨9, ⟨0, 0, 0⟩, 1, 0, 0, 0, 0, 0, 0, 0, 0, 0, 0, 0⟩])] } 0 = true ∧
    Die.zero.state = 1 ∧ ({ Die.zero with state := 5 } : Die).state = 5 ∧ mapped.mgmt.selfTest = false ∧ mapped.mgmt.inReset = false ∧
    ((16 ≤ 23 ∧ 23 < 24) ∧ ((∃ p ∈ r.lanes, 2 ≤ p.2) ∨ 23 ∈ r.sram)) ∧ ¬ ((∃ p ∈ (⟨[(0, 1)], [], []⟩ : TestReport).lanes, 2 ≤ p.2) ∨ 23 ∈ ([] : List Nat)) ∧
    (∀ p ∈ mapped.mgmt.retiring, p.1 ≠ 24) ∧ ¬ fencedNow (dieOf mapped 15) ∧ fencedNow { Die.zero with state := 4 } ∧
    (8 ≤ 8 ∧ 7 < 8 ∧ look 0 Die.zero.bundles.used 8 = 0 ∧ look 0 ([(8, 7)] : Sparse Nat) 8 ≠ 0 ∧ look 0 ([(8, 7)] : Sparse Nat) 8 ≠ 7 + 1) ∧
    look 0 ([(8, 8)] : Sparse Nat) 8 = 7 + 1 ∧ Die.zero.retraining = false ∧ ({ Die.zero with retraining := true } : Die).retraining = true ∧
    (8 < 9 ∧ look 0 (bundleOf mapped 8).used 0 = 0 ∧ (portOf mapped (8 * 8 + 7)).state ≠ 2) ∧
    Die.zero.retrainFails < 2 ∧ 2 ≤ ({ Die.zero with retrainFails := 2 } : Die).retrainFails ∧ 20 < 21 ∧ 21 ≤ 21 ∧
    look false mapped.mgmt.retired 15 = false ∧ look false ([(15, true)] : Sparse Bool) 15 = true ∧ (dieOf mapped 15).state ≠ 7 ∧
    (dieOf (setDie mapped 15 { Die.zero with state := 7 }) 15).state = 7 ∧ (3 < 4 ∧ mapped.power.on = true) ∧ 799 < 800 ∧ 800 ≤ 800 ∧ 979 < 980 ∧
    look false mapped.power.lost 3 = false ∧ look false ([(3, true)] : Sparse Bool) 3 = true := by
  dsimp only
  unfold fencedNow
  and_intros <;> decide +kernel

/-- Rails that are low, high and between, with the measure begun, under way and complete; supplies, temperatures and power at their
limits; a package without power, a life-cycle wipe, the recovery at each of its states, the full self-test, the I3C's two addresses. -/
theorem test_meets_PowerAndAccess :
    let low := fun (p : Power) => ∃ j < 5, look false p.lost j = false ∧ look 1000 p.rails j < 960
    let high := fun (p : Power) => ∀ j < 5, look false p.lost j = false → 980 ≤ look 1000 p.rails j
    let hot := fun (p : Power) => ∃ k < 40, (if 24 ≤ k then 720 else 800 : Int) ≤ (look 0 p.temps k).toInt
    (4 < 5 ∧ 959 < 960 ∧ 960 ≤ 960) ∧ (low { mapped.power with rails := [(4, 959)] } ∧ ¬ low mapped.power ∧ high mapped.power) ∧
    ¬ high { mapped.power with rails := [(4, 979)] } ∧ ¬ low { mapped.power with rails := [(3, 100)], lost := [(3, true)] } ∧
    (mapped.sun.volt ≠ 1 ∧ 1024 ≤ 1024 - 0 ∧ 1023 - 0 < 1024) ∧ (899 < 900 ∧ 900 ≤ 900 ∧ 950 ≤ 950 ∧ 949 < 950) ∧
    (hot { mapped.power with temps := [(39, 720)] } ∧ ¬ hot mapped.power) ∧
    mapped.power.on = true ∧ (799 < 800 ∧ 2 ≤ 2 ∧ 1 < 2 ∧ 800 ≤ 800) ∧
    (39 < 40 ∧ (719 : Int) < 720 ∧ (720 : Int) < 720 + 80 ∧ (799 : Int) < 720 + 80 ∧ (800 : Int) < 720 + 120 ∧ (840 : Int) ≤ 720 + 120) ∧
    tooCold mapped = false ∧ tooCold { mapped with power := { mapped.power with temps := [(0, -81)] } } = true ∧
    store false ([(39, true)] : Sparse Bool) 39 false = [] ∧ mapped.power.power ≤ 4 * mapped.power.pcap ∧ mapped.power.throttled = [] ∧
    (1500 ≤ 1500 ∧ 3000 ≤ 3000 ∧ ¬ (1500 ≤ 1499 ∧ 1499 ≤ 3000) ∧ 4 * 1500 < 6001) ∧
    ({ mapped.power with on := false } : Power).on = false ∧ ({ mapped.mgmt with wiping := true } : Mgmt).wiping = true ∧
    (mapped.mgmt.wiping = false ∧ mapped.sun.parked = false) ∧ ({ mapped.mgmt with recovery := true } : Mgmt).recovery = true ∧
    (mapped.mgmt.rcvstat = 0 ∧ ({ mapped.mgmt with rcvstat := 1 } : Mgmt).rcvstat = 1 ∧ ({ mapped.mgmt with rcvstat := 3 } : Mgmt).rcvstat = 3) ∧
    ({ mapped.mgmt with selfTest := true } : Mgmt).selfTest = true ∧ mapped.mgmt.inReset = false ∧ (dieOf mapped 0).state ≠ 8 ∧
    (0 < 40 ∧ 16 ≤ 16 ∧ (71 ∈ [71]) ∧ 71 < 72) ∧ (mapped.mgmt.i3cAddr = 0 ∧ (0x31 : BitVec 7) ≠ 0x30) ∧
    (0x10 ≤ (0x37 : BitVec 8).toNat ∧ (0x37 : BitVec 8).toNat ≤ 0x37) ∧ ({ mapped.mgmt with inReset := true } : Mgmt).inReset = true := by
  dsimp only
  and_intros <;> decide +kernel

theorem test_meets_PowerAndAccess_images (image : List Byte) : Config.firmwareOk image = false ∨ Config.firmwareOk image = true := by
  cases Config.firmwareOk image <;> simp

/-- An idle package with a boundary asked for; a run that has reached its budget and one that has not, with its one core not there; the
scores' period; a cancel at its time-out and before; a lasting that ends; the length of boundary work is 1 or more than 1. -/
theorem test_meets_BoundariesAndBudgets :
    let d : Device := { Device.reset 2 with sun := { (Device.reset 2).sun with want := true, phase := 1 } }
    let s : State := { run u0 with core := Core.reset 0 0, dev := d }
    let r : Run := { newRun 1 5 .primary [⟨0, 0, 0⟩] with phase := .running, sswall := 3 }
    let go := fun ck => ({ run { u0 with run := 1 } with dev := { Device.reset 2 with runs := [r], sun := { (Device.reset 2).sun with ck := ck } } } : State)
    let l : Launch := { bareLaunch d with cancel := some 0 }
    s.dev.sun.work = 0 ∧ s.dev.sun.parked = false ∧ (∀ k ∈ s.cores, k.mode = .idle) ∧ s.dev.sun.want = true ∧
    (d.runs = [] ∧ d.launches = [] ∧ d.reserved = none ∧ d.sun.heldMode = none ∧ d.sun.holdAsked = false ∧ d.sun.phase.toNat % 2 = 1) ∧
    (∀ fn < 64, shareOf (ifcOf d fn) = 0) ∧ ((List.range 40).all fun sk => quiesceAsked d sk = false) = true ∧ d.dies = [] ∧ d.mgmt.retired = [] ∧
    ({ d.sun with work := 1 } : Sundial).work ≠ 0 ∧ (r.sswall ≠ 0 ∧ r.sswall ≤ (go 3).dev.sun.ck ∧ (go 2).dev.sun.ck < r.sswall) ∧ r.late = none ∧
    (go 2).dev.sun.ck ≠ 3 ∧ (go 3).dev.sun.ck = 3 ∧
    (∃ k ∈ (go 3).cores, (k.mode = .active && k.ctx.run = r.id && !arrived (go 3) k) = true ∧ k.ctx.coreId = 0) ∧
    (2 ^ 40 - 1 + 1) % 2 ^ 40 = 0 ∧ (d.clock + 1) % 2 ^ 40 ≠ 0 ∧ (l.cancel = some 0 ∧ l.placed = true) ∧
    (0 + 2 ^ 20 ≤ 2 ^ 20 ∧ 2 ^ 20 - 1 < 0 + 2 ^ 20) ∧ ((⟨0, 0, 2, 5⟩ : Lasting).ends ≤ 5 ∧ (⟨0, 0, 2, 5⟩ : Lasting).width ≠ 1) ∧
    (4 : Nat) < (⟨0, 0, 2, 5⟩ : Lasting).ends := by
  dsimp only
  and_intros <;> decide +kernel

theorem test_meets_BoundariesAndBudgets_lengths (ck : Nat) :
    2 ≤ max 1 (Config.boundaryWork ck) ∨ max 1 (Config.boundaryWork ck) = 1 := by omega

/-- A placed launch of one core with its 8 bytes of code readable, to be waited for, or lost; a vote that has released nothing or a
granule of the window; a launch with no counter and with one, whose write of STATUS is done or waits. -/
theorem test_meets_LaunchesStartAndEnd :
    let x : Launch := { newLaunch queued 0 0 Queue.zero goodRec with id := 5 }
    let r : Run := newRun 1 5 .primary [⟨0, 0, 0⟩]
    let d : Device := { queued with launches := [x], runs := [r] }
    let k : Core := { (run u0).core with svIfc := some 0 }
    let s : State := { run u0 with core := k, dev := d }
    let read := fun (d : Device) => spanRead d tlbHost 4 0 x.recd.code x.recd.codesz [2, 5]
    launchOf d 5 = some x ∧ d.sun.parked = false ∧ (d.runs.filter fun r => r.launch = 5 && r.phase = .loading) = [r] ∧
    spanBytes (read d) = some [1, 0, 0, 0, 1, 1, 1, 0] ∧ 8 ≤ 0x30000 ∧ readCame (read (training d)) = 1 ∧ readCame (read (damaged d)) = 2 ∧
    coreAt s 0 0 = some k ∧ k.svIfc = some 0 ∧ k.svGen = (ifcOf d 0).svsize.toNat / 2 ^ 32 % 2 ^ 16 ∧ (s.core.sk, s.core.ix) ∈ r.cores ∧
    k.worn = [] ∧ (0, 65535) ∈ ({ k with worn := [(0, 65535)] } : Core).worn ∧
    r.cores.Nodup ∧ ({ x with releasing := some 1 } : Launch).releasing = some 1 ∧ x.relBad = false ∧ runOf d 1 = some r ∧ r.cont.glbMask = [] ∧
    (∀ p ∈ ([(0x800000000020, true)] : Sparse Bool), p.1 / 32 = 0x800000000020 / 32) ∧ paWin (32 * (0x800000000020 / 32)) = true ∧
    (look Die.zero d.dies 16).retraining = false ∧ x.recd.irq = false ∧ x.recd.gcnt = 0xFFFF ∧ x.recd.jcnt = 0xFFFF ∧ x.recd.lcnt = 0xFFFF ∧
    ([writeCame (spanWrite { run u0 with dev := queued } tlbHost 4 0 (wbytes 8 (toBytes 4 2)) (spanOf 8 4)),
      writeCame (spanWrite { run u0 with dev := training queued } tlbHost 4 0 (wbytes 8 (toBytes 4 2)) (spanOf 8 4))] = [0, 1]) ∧
    (queued.owed = [] ∧ queued.drains = [] ∧ queued.runs = [] ∧ queued.reserved ≠ some 5) ∧ (3 : Nat) ≠ 0xFFFF ∧ 3 < ncntOf (ifcOf queued 0) := by
  dsimp only
  and_intros <;> decide +kernel


/-! #### Further clauses of the statements, each met at a boundary of its own -/

/-- Events that act without power, in reset, and neither; a core at the last word of its region at which no instruction stands. -/
theorem test_meets_StepRunsDecoded_bounds :
    let off : Device := { mapped with power := { mapped.power with on := false } }
    let held : Device := { mapped with mgmt := { mapped.mgmt with inReset := true } }
    let edge : State := putFetch (standing.setCtx { standing.core.ctx with pc := 0x2FFF8 }) 0
    actsNow off (.powerOn []) = true ∧ actsNow off .nop = false ∧ actsNow held .bypass = true ∧ actsNow held .nop = false ∧
    readyToRun edge = true ∧ edge.dev.sun.parked = false ∧ decode (wordNow edge) = .error .opcode ∧ ¬ inRegion edge := by
  dsimp only
  refine ⟨by decide +kernel, by decide +kernel, by decide +kernel, by decide +kernel, by decide +kernel, by decide +kernel, by rfl, ?_⟩
  unfold inRegion
  decide +kernel

/-- Interface 0's queue with launch 5 at its head, and a share. -/
def heading (f : Launch → Launch) : Device :=
  let l : Launch := f { newLaunch queued 0 0 Queue.zero goodRec with id := 5 }
  let d := setQueue { queued with launches := [l] } 0 { queueOf queued 0 with fetched := some 5 }
  setIfc { d with sun := { d.sun with metered := true } } 0 { ifcOf d 0 with cfg0 := (ifcOf d 0).cfg0 ||| 1 }

/-- A package with launch 5 at the head of a queue, in which the core of the run can be held, or none. -/
def placing (free : Bool) (f : Launch → Launch) : State :=
  let d := heading f
  { run u0 with
    core := { Core.reset 0 0 with bound := true, gang := 1 }
    dev := if free then setDie d 0 { dieOf d 0 with state := 2 } else d }

theorem placing_heads (free : Bool) : Heads (placing free id) 0 fun _ => launchOf (placing free id).dev 5 := by
  intro j hj
  have h : j = 0 := by
    have h1 : nqOf (ifcOf (placing free id).dev 0) = 1 := by cases free <;> decide +kernel
    omega
  subst h
  have h : launchOf (placing free id).dev 5 = some { newLaunch queued 0 0 Queue.zero goodRec with id := 5 } := by
    cases free <;> decide +kernel
  simp only [h]
  cases free <;> decide +kernel

/-- A free core and none; a pair of stacks in two domains and none, or no containment for it; the head of a queue, chosen and placed, at
the deficit it costs and one below; a launch that skips for the 64th time; a share of 0 and of 1; a reserved launch beside another. -/
theorem test_meets_PlacementTakesCores :
    let l : Launch := { newLaunch queued 0 0 Queue.zero goodRec with id := 5 }
    let s := placing true id
    let none' := placing false id
    let free := fun k => if k < 5 then [(⟨k, 0, 0⟩ : Seat)] else []
    let sk := fun i => (0 + i) % 16
    let holds := fun (i : Nat) => 1 ≤ (free (sk i)).length
    let seat : Seat := ⟨0, 0, 0⟩
    let skipped : State := placing false fun l => { l with skips := 63 }
    let two : Device := { heading id with launches := (heading id).launches ++ [{ l with id := 6 }], reserved := some 6 }
    (freeSeats s l.recd 0 = [seat] ∧ freeSeats none' l.recd 0 = []) ∧ l.wantTie = false ∧ l.recd.cls ≠ 2 ∧
    (({ l.recd with cls := 2 } : LaunchRec).cls = 2 ∧ l.recd.ncore = 1 ∧ (0 < 4 ∧ holds 0 ∧ holds 4 ∧ sk 4 / 4 ≠ sk 0 / 4 ∧
      ∀ k < 4, holds k → sk k / 4 = sk 0 / 4) ∧ (∀ i < 16, 0 < i → ¬ 1 ≤ ([⟨0, 0, 0⟩].filter fun y : Seat => y.sk = i).length)) ∧
    (callotOf (ifcOf queued 0) < 2 * 1 ∧ 2 * l.recd.contain ≤ callotOf (ifcOf queued 0)) ∧
    launchOf s.dev l.id = some l ∧
    (pickHead s 0 [] = (s, some (l, 7)) ∧ (pickHead s 0 [0]).2 = none) ∧
    (l.recd.ncore * l.recd.gang = 1 ∧ planFor s l = some [(.primary, [seat])] ∧ planFor none' l = none ∧
      (commitPlace s.dev l [(.primary, [seat])]).launches.all (fun x => !recovering x) = true) ∧
    ((placing false fun l => { l with skips := 63 }).dev.reserved = none ∧
      skipped.dev.launches.all (fun x => !recovering x && 63 ≤ x.skips) = true) ∧
    (shareOf (ifcOf s.dev 1) = 0 ∧ (ifcOf s.dev 0).cfg0.toNat % 256 ≠ 0) ∧
    (s.dev.sun.metered = true ∧ s.dev.sun.heldMode = none ∧ s.dev.reserved = none ∧
      s.dev.launches.all (fun x => !recovering x && x.cancel.isNone) = true) ∧
    (two.reserved = some 6 ∧ launchOf two 6 = some { l with id := 6 } ∧ (6 : Nat) ≠ l.id) := by
  dsimp only
  and_intros <;> decide +kernel

theorem test_meets_PlacementTakesCores_chosen (free : Bool) :
    Heads (placing free id) 0 (fun _ => launchOf (placing free id).dev 5) ∧
    ∃ l, Chosen (placing free id) 0 (fun _ => launchOf (placing free id).dev 5) [] l 7 := by
  refine ⟨placing_heads free, { newLaunch queued 0 0 Queue.zero goodRec with id := 5 }, ?_⟩
  unfold Chosen
  cases free <;> decide +kernel

/-- A residue fault and a local-memory error of a protected launch, and an invalid line met at S. -/
theorem test_meets_FaultInFlightEnters_protected :
    let f : Flight := { fl0 with bad := some ⟨0x12, 128⟩ }
    let g : Flight := { fl0 with bad := some ⟨0x11, 128⟩, counted := false }
    f.due = 1 ∧ f.load = none ∧ f.bad = some ⟨0x12, 128⟩ ∧ ({ u0 with cls := .s, inflight := [f] } : Ctx).inflight = [f] ∧
    ¬ ((0x12 : Nat) = 0x11) ∧ ({ u0 with cls := .s } : Ctx).cls ≠ .n ∧ ({ u0 with cls := .d } : Ctx).cls ≠ .n ∧
    f.counted = true ∧ gangOk (run u0).core.gang ∧ s0.priv = .s ∧ g.counted = false ∧ ({ s0 with inflight := [g] } : Ctx).inflight = [g] ∧
    g.bad = some ⟨0x11, 128⟩ := by unfold gangOk; decide +kernel

/-- A word with and without an error; a vector load whose second line is invalid, and one whose second word is damaged. -/
theorem test_meets_IssuedLoadsRead_faults :
    let c := { u0 with cls := .s, valid := [(0, true)] }
    let l : List (Nat × Nat) := [(0, 120), (1, 128)]
    let bytes := l.flatMap fun e => (List.range (max 1 (8 / 8))).map fun k => e.2 + k
    wordErr 0 = false ∧ wordErr 2 = true ∧ wordErr 1 = false ∧ bytes = [120] ++ 128 :: [] ∧ lineOk 1 c 120 = true ∧ lineOk 1 c 128 = false ∧
    (∀ b ∈ bytes, lineOk 1 u0 b = true) ∧ wordErr (look 0 ([(16, 2)] : Sparse Nat) (120 / 8)) = false ∧
    wordErr (look 0 ([(16, 2)] : Sparse Nat) (128 / 8)) = true := by decide +kernel

/-- Each check of a transfer of `n` granules, at the first operand that fails it and the last that passes; what is held back, in an
invalid line, and damaged. -/
theorem test_meets_TaggedInstructions_checks :
    let top := fb 1 false
    let far := { guarded with cls := .s }
    (2 ^ 22 / 2 ^ 22 % 2 ^ 10 ≠ 0 ∧ (2 ^ 22 - 1) / 2 ^ 22 % 2 ^ 10 = 0 ∧ 2 ^ 42 / 2 ^ 42 ≠ 0 ∧ (2 ^ 52 - 1) / 2 ^ 52 = 0 ∧ 2 ^ 13 ≤ 2 ^ 13) ∧
    (¬ (1 = 0 ∨ 4096 < 1) ∧ ¬ (4096 = 0 ∨ 4096 < 4096) ∧ (4097 = 0 ∨ 4096 < 4097)) ∧
    (pair.ncore = 2 ∧ ¬ (pair.ncore ≤ 1 ∨ 1 = 0 ∨ pair.ncore < 1 + 1) ∧ pair.ncore ≤ 2 ∧ pair.ncore < 1 + 2) ∧
    (16 % 32 ≠ 0 ∧ 12 % 8 ≠ 0 ∧ 16 % 8 = 0) ∧ (top < (top - 32) + 64 ∧ ¬ top < (top - 32) + 32 ∧ top < (top - 8) + 16 ∧ ¬ top < (top - 8) + 8) ∧
    (holders guarded 1 (96 + 32 * 1) ≠ [] ∧ holders guarded 1 (96 + 32 * 0) = []) ∧
    (lineOk 1 far 0 = false ∧ ∀ k < 1, holders far 1 (0 + 32 * k) = []) ∧
    ([(3, 2)] = [] ++ ((3, 2) : Nat × Nat) :: [] ∧ 0 / 8 ≤ 3 ∧ 3 < 0 / 8 + 4 * 1 ∧ wordErr 2 = true) := by decide +kernel

/-- A copy that waits to fold, every granule of it written. -/
theorem test_meets_CopyControl_folding :
    let o : Op := ⟨7, 2, .copy (raw .loc 64), 0, .done⟩
    let t : TlCtx := { TlCtx.zero with closed := 2, tlc := 1, ops := [o] }
    t.failed = none ∧ t.ops = o :: [] ∧ (∀ y ∈ t.ops, y.batch ≠ 0 ∧ 2 ≤ y.batch) ∧ (∃ y ∈ t.ops, y.batch = 2) ∧ o.prog = .done ∧
    (planGranules (planCopy (raw .loc 64))).length = 2 := by decide +kernel

/-- An MGO of a nest of two commands with BF16 operands that accumulates and rescales: its last command passes the checks, its output
tile holding results of an older loss scale, half the present one. -/
def scaled : MatOp :=
  let o := matOp u0 0 (BitVec.ofNat 64 (31 * 2 ^ 7 + 7 * 2 ^ 14)) 0 [1]
  { o with cktol := 0x300, lscale := 0x40000000, lsgen := 1 }
def scaledFmt : Nat := 65 * Ty.bf16.code.toNat + 2 ^ 13 + 2 ^ 14
def scaledCtx : Ctx :=
  let c := works scaled scaledFmt
  { c with
    mx := { c.mx with side := [(7, BitVec.ofNat 64 (2 ^ 16 + 0x3F800000 * 2 ^ 32))] }
    t4 := { c.t4 with ops := [⟨7, 0, .mat scaled, 0, .running 1 1⟩] } }

theorem scaled_rescaled : Rescaled scaledCtx scaled scaledFmt 7 (some 1) := by
  have h : (0x3F800000 * 2 ^ 32 + 2 ^ 16 : Nat) / 2 ^ 32 = 0x3F800000 := by decide
  refine ⟨fun h => ?_, fun _ => ⟨by decide +kernel, 1, false, 2 ^ 23, -22, false, 2 ^ 23, -23, rfl, ?_, ?_, by decide, ?_⟩⟩
  · exfalso
    revert h
    decide +kernel
  · decide +kernel
  · decide +kernel
  · norm_num [exact]

theorem test_meets_MatrixPerforms_rescaled :
    scaled.kind = 0 ∧ NextCmd ⟨7, 0, .mat scaled, 0, .running 1 1⟩ scaled 1 ∧ NextCmd ⟨7, 0, .mat scaled, 0, .fresh⟩ scaled 0 ∧
    (look 0 scaledCtx.mx.fmtW scaledCtx.mx.fmtHead).toNat = scaledFmt ∧
    (∃ cmd, cmd = commandAt scaled 1 ∧ CmdSound 1 scaledCtx scaled scaledFmt cmd fun _ => some 1) ∧
    (16 ≤ slotsOf 1 { u0 with metered := true } ∧ slotsOf 1 u0 = 32) ∧ hasBit scaled.cktol.toNat 8 = true := by
  refine ⟨rfl, ?_, ?_, by decide +kernel, ⟨_, rfl, ?_⟩, by decide +kernel, by decide +kernel⟩
  · unfold NextCmd; decide +kernel
  · unfold NextCmd; decide +kernel
  · refine ⟨by decide +kernel, .inl rfl, by decide +kernel, by decide +kernel, by decide +kernel, ?_, by decide +kernel⟩
    intro j hj
    have h : j = 0 := by
      have h1 : (tilesOut 1 scaledFmt (commandAt scaled 1).tile).length = 1 := by decide +kernel
      omega
    subst h
    have ht : (commandAt scaled 1).tile + (0 : Nat) = 7 := by decide +kernel
    rw [ht]
    exact scaled_rescaled

/-- A core that holds four collectives in a suspended context, and one whose abort still has chunks to write. -/
theorem test_meets_CollectivesIssue_held :
    let t := { TlCtx.zero with ops := List.replicate 4 (op0 0) }
    let count := fun (d : Device) (x : Ctx) => if d.endings.any (fun e => e.cref = ⟨0, 0, x.part⟩ && e.cause = 9) then 0 else x.t6.ops.length
    let ending : Device := { mapped with endings := [⟨⟨0, 0, 1⟩, 0, 7, 9, 0, 0, 0, 0⟩] }
    count mapped u0 + ([{ u0 with part := 1, t6 := t }].map (count mapped)).sum = 4 ∧
    count ending u0 + ([{ u0 with part := 1, t6 := t }].map (count ending)).sum = 0 := by decide +kernel

/-- The fabric die of a chunk; a member other than this device, and this device; the forms and types whose chunks have a value, with an
own part that is all, none or some of the chunk; a chunk below the window of four. -/
theorem test_meets_CollectivesPerform_forms :
    let e := colRec (colOver 3)
    let gath : ColOp := ⟨.gath, .sum, .n8, colOver 3⟩
    fabricDie linked ⟨0, 0, 0⟩ (chunkKey' ⟨0, 0, 0⟩ 7 0 0) = some 21 ∧
    (spanBytes (spanRead linked 21 2 0 e.src 256 (chunkKey' ⟨0, 0, 0⟩ 7 0 0))).map (·.length) = some 256 ∧
    ([Ty.i32, .n32, .f32, .f16, .bf16].all fun ty => 256 % (tyBits ty / 8) = 0) = true ∧
    ownBytes (sum32 3) e 0 0 256 = (0, 256, 0) ∧ ownBytes ⟨.bc, .sum, .n8, colOver 3⟩ e 1 0 256 = (0, 0, 0) ∧
    (ownBytes gath e 1 0 256).2.1 ≤ 256 ∧ (([] : List (Nat × Nat)).filter fun p => p.2 = 1).length < 4 := by decide +kernel

/-- A flood of a device's own version: of the same table; of another, through a port that is UP, on the keeper of the joined set and
on a device of it that is not; a port at half rate; a hold. -/
theorem test_meets_PortsAndTable_joined :
    let entry := fun (v : Nat) => (BitVec.ofNat 32 v)
    let up : Device := setPort linked 3 { Port.zero with state := 2, farDev := 1, farPort := 5 }
    let other : Device := { setPort linked 5 { Port.zero with state := 2, farDev := 0, farPort := 3 } with mgmt := { linked.mgmt with devnum := 1, table := [] } }
    let l : List (Nat × BitVec 32) := [(3, entry (1 + 5 * 2 ^ 8 + 2 ^ 15 + 112 * 2 ^ 16)), (77, entry (3 * 2 ^ 8 + 2 ^ 15 + 56 * 2 ^ 16))]
    floodTable (linked.mgmt.table.map fun y => (y.1, y.2)) = linked.mgmt.table ∧ floodTable l ≠ up.mgmt.table ∧
    0 % 2 ^ 32 = up.mgmt.ltver ∧ newer 0 up.mgmt.ltver = false ∧ portUp up 3 = true ∧ up.sun.parked = false ∧
    keeperIn (joinTables up (floodTable l)) up.mgmt.devnum = up.mgmt.devnum ∧
    (portUp other 5 = true ∧ floodTable l ≠ other.mgmt.table ∧ keeperIn (joinTables other (floodTable l)) other.mgmt.devnum ≠ other.mgmt.devnum) ∧
    ({ mapped.sun with parked := true } : Sundial).parked = true := by
  dsimp only
  and_intros <;> decide +kernel

/-- VF Enable set and clear at the PF; a launch that the clearing cancels. -/
theorem test_meets_InterfaceRegisters_functions :
    let d : Device := { queued with mgmt := { queued.mgmt with vfEnable := true }, launches := [{ bareLaunch mapped with ifc := 1 }] }
    (1 ≠ 0 ∧ d.mgmt.recovery = false ∧ d.mgmt.vfEnable = true) ∧ queued.mgmt.vfEnable = false ∧ (∃ l ∈ d.launches, 0 < l.ifc ∧ l.ifc < 64) ∧
    (queued.hbm.waits.all fun x => x.asker.ifc ≠ 1) = true := by decide +kernel

/-- Monitors with a sample due and none; a running launch alone, in metered mode, in an exchange superstep; the margins' bounds; a hub
whose link retrains, whose frame moves, whose channel pauses, and one that answers; a queue of one access; a read after a move. -/
theorem test_meets_ManagementAndHubs_samples :
    let r : Run := { newRun 1 5 .primary [⟨0, 0, 0⟩] with phase := .running, xwall := 9 }
    let d : Device := { mapped with launches := [{ bareLaunch mapped with id := 5 }], runs := [r], sun := { mapped.sun with metered := true, phase := 1 } }
    let a : Asker := ⟨[2], 0, 0, 1⟩
    let moving : Device := { mapped with hbm := { mapped.hbm with move := [(1, (1, 3))] } }
    let asked : Device := { mapped with hbm := { mapped.hbm with waits := [⟨a, 65536, .read⟩] } }
    (look 0 d.mgmt.monLast 19 < 4096 / 4096 ∧ ¬ look 0 d.mgmt.monLast 22 < 4095 / 4096) ∧
    (look 0 ([(15, 128)] : Sparse Nat) 15 / 64 = 2 ∧ look 0 d.hbm.reads 0 / 64 = 0) ∧ (look MonRec.zero d.mgmt.mons 15).count < 2 ^ 64 ∧
    (d.sun.metered = true ∧ d.launches = [{ bareLaunch mapped with id := 5 }] ∧ (d.runs.filter fun y => y.phase = .running) = [r] ∧
      r.launch = 5 ∧ d.sun.phase.toNat % 2 = 1) ∧ mapped.sun.metered = false ∧
    (({ run { u0 with slack := some 3 } with dev := d } : State).core.ctx.slack = some 3 ∧ (run u0).core.mode = .active ∧ (run u0).others = []) ∧
    ((dieOf (training mapped) 16).retraining = true ∧ (dieOf mapped 16).retraining = false) ∧
    (look (0, 0) moving.hbm.move (65536 / 65536) ≠ (0, 0) ∧ look (0, 0) mapped.hbm.move (65536 / 65536) = (0, 0)) ∧
    (match hubDo mapped 65536 0 1 [] .read with | .done d' _ => channelPaused d' 65536 == false | _ => false) = true ∧
    (asked.hbm.waits = ⟨a, 65536, .read⟩ :: [] ∧ channelPaused asked 65536 = false) ∧
    (8 ≤ 8 ∧ (39 < 40 ∧ 40 ≤ 48)) ∧ (counted (run { u0 with run := 1 }) ⟨9, ⟨0, 0, 0⟩, 1, 0, 0, 0, 0, 1, 5, 0, 0, 0, 0, 0⟩ = true) := by
  dsimp only
  and_intros <;> decide +kernel

/-- A die in use and one that is not, when its quiesce is asked for; a run with a core on it and one without. -/
theorem test_meets_DieSequences_asked :
    let r : Run := { newRun 1 5 .primary [⟨0, 0, 0⟩] with phase := .running }
    let ready : Die := { Die.zero with state := 2 }
    let d : Device := { setDie mapped 0 ready with runs := [r] }
    (ready.state = 2 ∧ ready.ask = false ∧ ({ ready with ask := true } : Die).ask = true) ∧ stackBusy d 0 ≠ stackBusy (setDie mapped 0 ready) 0 ∧
    (lostOn d 0 r).lost = some (d.clock, 0) ∧ lostOn d 1 r = r ∧ ({ Bundles.zero with period := 0 } : Bundles).period < 2 ^ 20 / 2 ^ 20 ∧
    (∃ y ∈ ([⟨[1], 0, true, 0, [], none⟩] : List Span), y.die = 0 ∧ y.out = true) := by
  dsimp only
  and_intros <;> decide +kernel

/-- Rails of a domain and of the package below 80%, powered or not; a temperature read without power; a wipe and a test while a hold is
called. -/
theorem test_meets_PowerAndAccess_rails :
    (3 < 4 ∧ 799 < 800 ∧ 959 < 960 ∧ mapped.power.on = true ∧ mapped.sun.parked = false ∧ look false mapped.power.lost 3 = false) ∧
    ({ mapped.power with on := false } : Power).on = false ∧
    (mapped.sun.holdAsked = false ∧ ({ mapped.sun with holdAsked := true } : Sundial).holdAsked = true) ∧ ¬ 5 ≤ 4 := by decide +kernel

/-- A run to be pre-empted, one that straggles, one suspended whose core is clear or not, one ready, saved with a good and with a bad
checkpoint; contexts with nothing that stops them. -/
theorem test_meets_BoundariesAndBudgets_suspension :
    let r : Run := { newRun 1 5 .primary [⟨0, 0, 0⟩] with phase := .running, preempt := true }
    let c : Ctx := { u0 with run := 1 }
    let d : Device := { Device.reset 2 with runs := [r], launches := [{ bareLaunch (Device.reset 2) with id := 5 }], sun := { (Device.reset 2).sun with metered := true } }
    let s : State := { run c with dev := d }
    let idle : State := { s with core := { s.core with mode := .idle, ctx := Ctx.zero, susp := [c] } }
    let z : Run := { r with phase := .ready, saved := true }
    (d.runs = [r] ∧ d.sun.metered = true ∧ r.phase = .running ∧ r.preempt = true ∧ r.late = none ∧ r.halt = none ∧ r.lost = none) ∧
    ({ r with late := some (1, 0, 0) } : Run).late ≠ none ∧ (c.stop = none ∧ c.t4.ops = []) ∧ s.cores.length = 1 ∧
    ({ r with phase := .suspended } : Run).phase = .suspended ∧ ((coreAt idle 0 0).map (·.mode) = some .idle ∧ (coreAt s 0 0).map (·.mode) = some .active) ∧
    (r.resumeOdd = decide (d.sun.phase.toNat % 2 = 1) ∧ ({ r with resumeOdd := true } : Run).resumeOdd ≠ decide (d.sun.phase.toNat % 2 = 1)) ∧
    (z.phase = .ready ∧ launchOf d z.launch = some { bareLaunch (Device.reset 2) with id := 5 } ∧ z.saved = true ∧ z.badCkpt = false ∧
      ({ z with badCkpt := true } : Run).badCkpt = true ∧ ({ z with saved := false } : Run).saved = false) := by
  dsimp only
  and_intros <;> decide +kernel

/-- A launch whose image a core lacks and has, read, waited for and lost; one that has started; a contained host byte, with its die's
link training or not; replicas complete with equal and unequal signatures, one and both abandoned with and without a detection, and the
tie-break at its three ends. -/
theorem test_meets_LaunchesStartAndEnd_votes :
    let x : Launch := { newLaunch queued 0 0 Queue.zero goodRec with id := 5, image := (0, 8, 1) }
    let d : Device := { queued with launches := [x] }
    let k : Core := (run u0).core
    let done : Run := { newRun 1 5 .primary [⟨0, 0, 0⟩] with phase := .finished, sig := some (0, 1, 2) }
    let q : Run := { done with id := 2, role := .secondary }
    let t : Run := { done with id := 3, role := .tieBreak }
    let off : Run := { q with sig := some (0, 1, 3) }
    let lost := fun (r : Run) (e : Option (Nat × Nat × Nat)) => { r with phase := .abandoned, sig := none, abandonCause := e }
    let det := fun (r : Run) => r.abandonCause.filter fun e => e.2.2 % 256 ≠ 0x46
    (k.svIfc ≠ some x.ifc ∧ ¬ (({ k with svIfc := some 0, svGen := 1 } : Core).svIfc ≠ some x.ifc ∨
      ({ k with svIfc := some 0, svGen := 1 } : Core).svGen ≠ x.image.2.2)) ∧
    ([readCame (spanRead d tlbHost 4 x.ifc x.image.1 x.image.2.1 [3, 5]), readCame (spanRead (training d) tlbHost 4 x.ifc x.image.1 x.image.2.1 [3, 5]),
      readCame (spanRead (damaged d) tlbHost 4 x.ifc x.image.1 x.image.2.1 [3, 5])] = [0, 1, 2]) ∧
    x.started = false ∧ ({ x with started := true } : Launch).started = true ∧
    ({ done with cont := { done.cont with hostMask := [(0, true)] } } : Run).cont.hostMask ≠ [] ∧
    (look Die.zero d.dies 20).retraining = false ∧ (look Die.zero (setDie d 20 { Die.zero with retraining := true }).dies 20).retraining = true ∧
    x.releasing = none ∧ launchOf d 5 = some x ∧
    (done.role = .primary ∧ q.role = .secondary ∧ t.role = .tieBreak ∧ done.launch = 5 ∧ q.launch = 5 ∧ t.launch = 5 ∧ done.id ≠ q.id ∧ t.id ≠ done.id ∧ t.id ≠ q.id) ∧
    (done.phase = .finished ∧ done.sig = q.sig ∧ done.sig ≠ off.sig ∧ ({ done with phase := .running } : Run).phase ≠ .finished) ∧
    (det (lost q (some (3, 0, 0x41))) = some (3, 0, 0x41) ∧ det (lost q (some (3, 0, 0x46))) = none ∧ (lost q none).phase = .abandoned) ∧
    (x.wantTie = false ∧ ({ x with wantTie := true } : Launch).wantTie = true) ∧ ({ mapped.sun with parked := true } : Sundial).parked = true := by
  dsimp only
  and_intros <;> decide +kernel

/-- A word that decodes. -/
theorem test_meets_DecodeOfEncode_word : decode 0x4600_0000_0000_0000 = .ok .nop := by rfl

/-- A launch that has skipped 64 times; the older of two, and the one that has skipped more; a reserved launch that its interface's
pass places, and ones it leaves: cancelled, of another interface, or without cores. -/
theorem test_meets_PlacementTakesCores_reserved :
    let l : Launch := { newLaunch queued 0 0 Queue.zero goodRec with id := 5 }
    let w : Launch := { l with skips := 64 }
    let s := placing true id
    let res : State := { s with dev := { s.dev with reserved := some 5 } }
    let none' : State := placing false id
    ((w.placed = false ∧ w.cancel = none ∧ 64 ≤ w.skips) ∧ ({ l with skips := 63 } : Launch).skips < 64) ∧
    ((w.skips = ({ w with id := 6 } : Launch).skips ∧ w.id < 6) ∧ w.skips < ({ w with skips := 65 } : Launch).skips) ∧
    (s.dev.reserved = none ∧ s.dev.launches.all (fun x => !recovering x && decide (x.skips < 64)) = true) ∧
    (pickHead res 0 [] = (res, some (l, 7)) ∧ res.dev.reserved = some l.id ∧ launchOf res.dev l.id = some l ∧ (7 : Nat) ≠ 0) ∧
    (recovering l = false ∧ l.ifc = 0 ∧ l.cancel = none ∧ planFor res l = some [(.primary, [⟨0, 0, 0⟩])]) ∧
    (l.ifc ≠ 1 ∧ ({ l with cancel := some 0 } : Launch).cancel ≠ none ∧ planFor none' l = none) := by
  dsimp only
  and_intros <;> decide +kernel

/-- The values 1 and 1/2 of F32 and of the wider range; 448 and the magnitude above it in E4M3; the four modes and a draw at its bound; an
exact magnitude at a tie, and one above every finite one. -/
theorem test_meets_ScalarFloatForms_values :
    IsVal (.fin false 1 0) 1 ∧ IsVal (.fin true 1 (-1)) (-(1 / 2)) ∧ (1 : ℚ) + -(1 / 2) ≠ 0 ∧ (1 : ℚ) - -(1 / 2) ≠ 0 ∧
    (1 : ℚ) * -(1 / 2) ≠ 0 ∧ (1 : ℚ) * -(1 / 2) + 1 ≠ 0 ∧ (Rm.rs ≠ Rm.dyn) ∧ 2 ^ 32 - 1 < 2 ^ 32 ∧ (0 : Nat) < topMag .e4m3 ∧
    magVal .e4m3 0x7E = 448 ∧ magVal .e4m3 (0x7E + 1) = 480 ∧ magVal .e4m3 0x7E ≤ 460 ∧ (460 : ℚ) < magVal .e4m3 (0x7E + 1) ∧
    magVal .e4m3 (topMag .e4m3) ≤ 480 ∧ magVal .f16 0 ≤ 1 / 2 ^ 25 ∧ (1 / 2 ^ 25 : ℚ) < magVal .f16 (0 + 1) := by
  refine ⟨⟨_, _, _, rfl, by norm_num⟩, ⟨_, _, _, rfl, by norm_num⟩, ?_⟩
  and_intros <;> first | exact (by decide : (Rm.rs ≠ Rm.dyn)) | norm_num [magVal, topMag, fpFmt]

/-- Every code below 0x20 raised at S; an exchange superstep at U with a form of each family that Table 7.1 marks "no", and a CSR that U may
read; PHEND and the transfers at U in a compute superstep, and at S. -/
theorem test_meets_PrivilegeTraps_phase :
    (run s0).core.ctx.priv = .s ∧ (0x1F < 0x20 ∧ 0x1F ≠ 0x10) ∧ outOfPhase (runX u0) ∧ inRegion (runX u0) ∧
    ([Instr.pand 0 0 0, .csrr 1 0, .lds .i64 1 2 0, .vrot 0 0, .tlclose 0 1, .mrel 0 1, .mstat 1 0, .clbc 1, .vand .i32 ⟨0, false⟩ ⟨1, false⟩ (.reg 1) (.reg 2)].all
      fun i => i.isWordInstr && wellFormed i && computeOnly ((encode i).toNat / 2 ^ 56)) = true ∧
    allowedAtU (.csrr 1 0) ∧ allowedAtU .nop ∧ ((run u0).core.ctx.priv = .u ∧ exchange (run u0) = false ∧ inRegion (run u0)) ∧
    ([Instr.xcyc 0, .phend 0].map fun i => (encode i).toNat / 2 ^ 56) = [0x71, 0x70] ∧ inRegion (run s0) := by
  refine ⟨rfl, by decide, outOfPhase_x, by unfold inRegion; decide +kernel, by decide +kernel, ?_, trivial,
    ⟨rfl, by decide +kernel, region_u⟩, by decide +kernel, region_s⟩
  unfold allowedAtU
  decide +kernel

/-- A fence that releases; an AAMO and a WAITV that were sent; an answer kept for the AAMO; an armed WAITV alone, which a write makes hold,
whose owner is suspended, whose time has passed, or which waits on; a write of its granule and of another. -/
theorem test_meets_RequestsPerform_waited :
    let aam : ReqOp := { ReqOp.zero with kind := 1, ty := .i32, addr := 64 }
    let wtv : ReqOp := { aam with kind := 2, cc := .ne, tmo := 1, own := true }
    let pa := 0x800000000040
    let c := asks wtv (.armed 0 0 pa)
    let ans : Device := { mapped with hbm := { mapped.hbm with answers := [⟨[2, 0, 0, 0, 0, 5, 7], pa / 256 * 256, []⟩] } }
    Sent (onMap (asks aam (.running pa 0))) ⟨0, 0, 0⟩ (asks aam (.running pa 0)) ⟨7, 0, .req aam, 0, .running pa 0⟩ aam true mapped pa ∧
    (atHub ans [2, 0, 0, 0, 0, 5, 7] pa = true ∧ atHub mapped [2, 0, 0, 0, 0, 5, 7] pa = false) ∧
    (c.t5.ops = [⟨7, 0, .req wtv, 0, .armed 0 0 pa⟩] ∧ c.cls ≠ .d) ∧
    (ccInt wtv.cc (ival .i32 1) (ival .i32 (wtv.b.toNat % 2 ^ 32)) = true ∧ ¬ ccInt wtv.cc (ival .i32 0) (ival .i32 (wtv.b.toNat % 2 ^ 32)) = true) ∧
    (wtv.tmo * 1024 ≤ 1024 - 0 ∧ ¬ wtv.tmo * 1024 ≤ 1023 - 0) ∧ (pa / 32 = (pa + 31) / 32 ∧ (pa + 32) / 32 ≠ pa / 32) ∧
    (chunkNow (countRead mapped 0x4000000) 0x4000000 0 1 [2, 3]).2[2]? = some (some 0) := by
  dsimp only
  refine ⟨.inr ⟨⟨0, rfl⟩, rfl⟩, ?_⟩
  and_intros <;> decide +kernel

/-- What came of the reads of a granule: done, waiting, failed, stopped. -/
def sourceCame (r : SrcRead × SrcHeld × Nat) : Nat :=
  match r.1 with
  | .ok _ _ => 0
  | .wait _ => 1
  | .failed _ _ => 2
  | .stop _ _ => 3

/-- What comes of the read of a copy of the one granule at global address `a`. -/
def came (d : Device) (a : Nat) : Nat :=
  let o := { raw .glb 32 with ra := BitVec.ofNat 64 a }
  let x := copies o (.running 0 0)
  sourceCame (reads { run x with dev := d } ⟨0, 0, 0⟩ (run x).core x 0 ⟨7, 0, .copy o, 0, .running 0 0⟩ o (planCopy o) 2 [a / 32])

/-- With one granule left to read, the engine has read nothing ahead or that one. -/
theorem readAhead_one {d : Device} {g : Nat} {c : Ctx} {q : Req} {sp : Space} {all : List Nat} {k : SrcHeld} {x : Nat} {y}
    (hy : readAhead d g c q sp all k = y) (h : (all.filter fun x => !(k.1.any fun p => p.1 = x) && (lostSub k x).isNone) = [x]) :
    y = (d, k) ∨ y = match readOne d g c q sp [x] x k with
      | (.ok d _, k) => (d, k)
      | (.failed d sub, k) => (d, if (lostSub k x).isSome then k else (k.1, (x, sub) :: k.2))
      | (.wait d, k) => (d, k)
      | (.stop _ _, k) => (d, k) := by
  subst hy
  unfold readAhead
  simp only [h]
  split
  · exact .inl rfl
  · rename_i i _
    cases i
    · exact .inr rfl
    · exact .inl rfl

/-- Reads of the window that are done, wait, fail and do not translate, whether or not the engine reads ahead. -/
theorem test_meets_CopiesArePerformed_reads :
    came mapped 0 = 0 ∧ came (training mapped) 0 = 1 ∧ came (damaged mapped) 0 = 2 ∧ came { mapped with ifcs := [] } 0 = 3 := by
  unfold came reads
  refine ⟨?_, ?_, ?_, ?_⟩ <;>
  · dsimp only
    generalize hy : readAhead _ _ _ _ _ _ _ = y
    obtain rfl | rfl := readAhead_one (x := 0) hy (by decide +kernel) <;> decide +kernel

/-- The sources of a copy held, stored in the space read, lost or of a line that is invalid; the destinations, of classes N and D; a CPYWM;
a copy that folds and waits to, in a stack's buffer still; an AMXSTEP of a bad length, and one of a record out of reach. -/
theorem test_meets_CopiesArePerformed_forms :
    let o := raw .loc 64
    let p := planCopy o
    let c := withTl u0 0 fun t => { t with ops := [⟨7, 0, .copy o, 0, .running 1 1⟩], cache := [(0, 0), (1, 0)] }
    let w : GWrite := ⟨9, ⟨0, 0, 0⟩, 7, 0, 0, 0, 0, 0, 0, 0, 0, 0, 0, 0⟩
    ((planGranules p).drop 1 = 3 :: [] ∧ (∀ x ∈ needs p 3, ∃ y ∈ (tlOf c 0).cache, y.1 = x) ∧
      ∀ y ∈ (tlOf c 0).cache, y.2 = BitVec.ofNat 256 (readLe (memOf c 1) (32 * y.1) 32)) ∧
    ((inside .loc ∧ inside .acc ∧ inside .opm) ∧ lineOk 1 u0 0 = true ∧ rangeBad (errOf u0 1) 0 32 = none ∧ lineOk 1 { u0 with cls := .s } 0 = false) ∧
    (fencePending u0 7 false = false ∧ (translate mapped 0 0 (32 * 2) true).2 = .ok 0x800000000040 ∧ u0.cls ≠ .d ∧ ({ u0 with cls := .d } : Ctx).cls = .d) ∧
    (hostLinkPaused mapped = false ∧ dieFenced mapped (coreSeat mapped 0 0).1 = false) ∧ ({ o with kind := 2 } : CopyOp).kind = 2 ∧
    (({ o with raw := false } : CopyOp).raw = false ∧ ({ p with amx := true } : Plan).amx = true ∧ o.dstRec % 128 = 0 ∧ u0.errScr = []) ∧
    (∃ x ∈ look [] ({ mapped with gbuf := [(0, [w])] } : Device).gbuf 0, x.cref = ⟨0, 0, 0⟩ ∧ x.run = u0.run ∧ x.ctx = 0 ∧ x.opSerial = 7) ∧
    (({ o with badLen := true } : CopyOp).badLen = true ∧ ¬ (64 % 128 = 0) ∧ ¬ 0xFF000 + 128 ≤ fb 1 false) ∧
    (({ u0 with cls := .d } : Ctx).cls = .d ∧ (Space.glb = .glb ∨ Space.glb = .host)) := by
  dsimp only
  unfold inside
  and_intros <;> decide +kernel

/-- A context of a later run than the one whose abort has chunks to write; the chunk written through a die of the fabric. -/
theorem test_meets_CollectivesPerform_written :
    let e := colRec (colOver 3)
    let key := chunkKey' ⟨0, 0, 0⟩ 7 1 0
    (∀ z ∈ [(⟨⟨0, 0, 0⟩, 1, 7, 9, 0, 0, 0, 0⟩ : Ending)], z.cref ≠ ⟨0, 0, 0⟩ ∨ z.run ≠ u0.run) ∧ fabricDie linked ⟨0, 0, 0⟩ key = some 21 ∧
    ([writeCame (spanWrite (inDomain u0) 21 2 0 (wbytes e.dst [7]) [e.dst / 32] (some 0) key),
      writeCame (spanWrite { inDomain u0 with dev := training linked } 21 2 0 (wbytes e.dst [7]) [e.dst / 32] (some 0) key)] = [0, 1]) ∧
    ClForm.rsc ≠ .red := by
  dsimp only
  and_intros <;> decide +kernel

/-- An ACK that names the first, the last or no flit of the retry buffer. -/
theorem test_meets_PortsAndTable_acked :
    let f := mkFlit 1 0 4095 0
    let g := mkFlit 1 1 4095 0
    let x : Port := { Port.zero with state := 2, retry := [f, g], replays := 3 }
    Acked x 0 { x with retry := [g], replays := 0 } ∧ Acked x 1 { x with retry := [], replays := 0 } ∧ Acked x 2 x := by
  have h0 : flitSeq (mkFlit 1 0 4095 0) = 0 := by decide +kernel
  have h1 : flitSeq (mkFlit 1 1 4095 0) = 1 := by decide +kernel
  refine ⟨.inr ⟨[], mkFlit 1 0 4095 0, [mkFlit 1 1 4095 0], rfl, ?_, h0, rfl⟩,
    .inr ⟨[mkFlit 1 0 4095 0], mkFlit 1 1 4095 0, [], rfl, ?_, h1, rfl⟩, .inl ⟨?_, rfl⟩⟩
  · intro y hy
    cases hy
  · intro y hy
    cases List.mem_singleton.mp hy
    rw [h0]
    decide
  · intro y hy
    rcases List.mem_cons.mp hy with rfl | hy
    · rw [h0]
      decide
    · cases List.mem_singleton.mp hy
      rw [h1]
      decide

/-- Two queues with a record each; the reads of a cancel that are done, wait, fail and do not translate; a record that is marked, fails its
check, and names a counter that has been reached, has failed or has not; a PF with work left and at rest, and a hold; a run restored and
not. -/
theorem test_meets_QueueAndCounterWrites_cancels :
    let q : Queue := { Queue.zero with en := true, tail := 1 }
    let two : Device := setQueue (setIfc queued 0 { ifcOf queued 0 with cfg0 := BitVec.ofNat 64 (1 + 2 ^ 22) }) 1 { q with ring := 256 }
    let key := [8, 0, 0, 5, 0, 0]
    let waiting := newLaunch queued 0 0 q (goodRec - (65535 - 3) * 256 ^ 0x46 + 256 ^ 0x48)
    let elig := fun (d : Device) => (judged d waiting).elig
    (nqOf (ifcOf two 0) = 2 ∧ queuePending (queueOf two 0) = 1 ∧ queuePending (queueOf two 1) = 1 ∧ two.cancels = [] ∧ two.posted = []) ∧
    ([readCame (spanRead two tlbHost 4 0 0x38 4 key), readCame (spanRead (training two) tlbHost 4 0 0x38 4 key),
      readCame (spanRead (damaged two) tlbHost 4 0 0x20 4 key), readCame (spanRead two tlbHost 4 1 0x38 4 key)] = [0, 1, 2, 3]) ∧
    (0 ∈ ({ q with marks := [0] } : Queue).marks ∧ q.head ∉ q.marks) ∧ (recordCheck queued 0 0).isSome = true ∧
    waiting.recd.wcnt ≠ 65535 ∧
    [elig queued, elig { queued with counters := [(3, 1)] }, elig { queued with counters := [(3, 2 ^ 48 + 1)] }] = [none, some false, some true] ∧
    (∃ l ∈ ({ mapped with launches := [{ bareLaunch mapped with ifc := 0 }] } : Device).launches, l.ifc = 0) ∧
    (markedRunning { newRun 1 5 .primary [⟨0, 0, 0⟩] with phase := .ready, nss := 1 } = true ∧
      markedRunning { newRun 1 5 .primary [⟨0, 0, 0⟩] with phase := .ready } = false) := by
  dsimp only
  and_intros <;> decide +kernel

theorem gfMul_zero (b n : Nat) : gfMul 0 b n = 0 := by
  induction n with
  | zero => rfl
  | succ n ih => simp [gfMul, ih]

theorem xorAt_zero (w : List Nat) (i : Nat) : xorAt w i 0 = w := by
  simp [xorAt, List.map_fst_zip]

/-- No change of one or two symbols makes a codeword of a word whose first two syndromes are 0. -/
theorem rsFix_none {w : List Nat} (h : rsOk w = false) (h0 : rsSyn 0 w = 0) (h1 : rsSyn 1 w = 0) : rsFix w = none := by
  have e (x : Nat) : gf 0 x = 0 := gfMul_zero x 8
  have f (l : List Nat) : l.find? (fun _ => false) = none := List.find?_eq_none.mpr (by simp)
  have g (l : List Nat) : l.findSome? (fun _ => (none : Option (Nat × Nat))) = none := List.findSome?_eq_none_iff.mpr (by simp)
  simp [rsFix, h, h0, h1, e, xorAt_zero, f, g]

theorem lost_sector {h : Hbm} {w : List Nat} (hm : look 1 h.map (65536 / 32) = 1) (hw : arrayBytes h 65536 = w)
    (hf : rsFix w = none) : secDecode h 65536 = none := by
  simp [secDecode, hm, hw, hf]

/-- A sector of which three bytes are wrong. -/
theorem lost_flips : secDecode { mapped.hbm with flip := [(65565, 1), (65566, 3), (65567, 2)] } 65536 = none :=
  lost_sector (w := List.replicate 29 0 ++ [1, 3, 2]) (by decide +kernel) (by decide +kernel)
    (rsFix_none (by decide +kernel) (by decide +kernel) (by decide +kernel))

/-- A chunk of HBM that is reached at once, and one of a moving frame; a sector that is clean and corrected (lost_flips: lost); codewords of
both lengths, one with a symbol wrong; patterns of each map code; a pool that is full; a register of the window whose die's link trains; a
word of the window lost, written in part; a free-mode interface whose share is written to 0. -/
theorem test_meets_ManagementAndHubs_sectors :
    let hit : Hbm := { mapped.hbm with flip := [(65536, 1)] }
    let w : GWrite := ⟨9, ⟨0, 0, 0⟩, 1, 0, 0, 65536, 0x20, BitVec.allOnes 64, 5, 0, 0, 0, 0, 0⟩
    let half : GWrite := { w with pa := 0x800000000020, mask := 1 }
    (look (0, 0) mapped.hbm.move 1 = (0, 0) ∧ mapped.hbm.waits = [] ∧ look 0 mapped.hbm.pause (chanKey 65536) ≤ mapped.clock ∧
      look [] mapped.hbm.noise (chanKey 65536) = [] ∧ ∀ k < 8, look 0 mapped.hbm.ecc (65536 / 32 + k) = 0) ∧
    (secDecode mapped.hbm 65536 = some (0, 0) ∧ secDecode hit 65536 = some (0, 1)) ∧
    (rsOk (List.replicate 32 0) = true ∧ rsOk (List.replicate 36 0) = true ∧ rsFix (xorAt (List.replicate 32 0) 31 255) = some (List.replicate 32 0, 1)) ∧
    [codeOf 0, codeOf (2 ^ 31), codeOf (0x3F * 2 ^ 24), codeOf (2 ^ 30)] = [1, 2, 3, 0] ∧
    ([w].all fun y => y.mask == BitVec.allOnes 64) = true ∧ (poolUsed mapped.hbm 65536 < 40690 ∧ ¬ fencedNow (dieOf mapped 0)) ∧
    (homeDie 3 = some 19 ∧ homeDie 87 = some 23 ∧ homeDie 8 = none) ∧ Waits (training mapped) 0 ∧
    ((half.mask.toNat % 2 ^ 16 ≠ 0 ∧ half.mask.toNat % 2 ^ 16 ≠ 2 ^ 16 - 1) ∧ wordErr (look 0 ([(4, 2)] : Sparse Nat) 4) = true ∧
      ∀ y < 4, y ≠ 0 → look 0 ([(4, 2)] : Sparse Nat) (4 + y) = 0) ∧
    (mapped.sun.metered = false ∧ ({ mapped.sun with modeIfc := 1 } : Sundial).modeIfc = 0 + 1 ∧ (0x100 : Word).toNat % 256 = 0) := by
  dsimp only
  unfold fencedNow
  and_intros <;> first | exact .inl ⟨16, by decide +kernel, by decide +kernel⟩ | decide +kernel

/-- A run marked running that has not gone on, asked to stop; the last ck of a boundary's work with one core at its boundary and staged
bytes, which two writes of a word's halves cover; the signatures of its one core. -/
theorem test_meets_BoundariesAndBudgets_work :
    let st := fun (a n : Nat) => (⟨65536, 0, 0, a, n, 7⟩ : Staged)
    let c : Ctx := { u0 with run := 1, staging := [st 8 3, st 9 1, st 9 2] }
    let r : Run := { newRun 1 5 .primary [⟨0, 0, 0⟩] with phase := .running }
    let l : Launch := { bareLaunch (Device.reset 2) with id := 5 }
    let d : Device := { Device.reset 2 with runs := [r], launches := [l], sun := { (Device.reset 2).sun with work := 1, phase := 1, metered := true } }
    let s : State := { run c with dev := d }
    let z : Run := { r with phase := .ready, preempt := true, nss := 3 }
    (z.phase = .ready ∧ z.preempt = true ∧ z.nss ≠ 0 ∧ z.late = none ∧ z.halt = none ∧ z.lost = none ∧ ({ z with nss := 0 } : Run).nss = 0) ∧
    (∀ x ∈ c.staging, 1 ≤ x.nibs ∧ x.nibs ≤ 3) ∧
    (d.runs = [r] ∧ d.launches = [l] ∧ r.launch = l.id ∧ l.placed = true ∧ recovering l = false ∧ l.cancel = none ∧ r.phase = .running ∧
      r.preempt = false ∧ r.halt = none ∧ r.late = none ∧ r.lost = none ∧ r.cores ≠ []) ∧
    (d.reserved = none ∧ d.sun.heldMode = none ∧ d.sun.holdAsked = false ∧ d.dies = [] ∧
      ((List.range 64).all fun sk => quiesceAsked d sk = false) = true ∧ d.sun.work = 1) ∧
    (∀ k ∈ s.cores, k.susp = [] ∧ k.ctx.stOver = none ∧ (∀ y ∈ k.ctx.staging, 1 ≤ y.nibs ∧ y.nibs ≤ 3) ∧
      (k.mode = .idle → k.ctx.staging = []) ∧
      (k.mode = .active → k.ctx.run = r.id ∧ k.ctx.ended = false ∧ k.ctx.stop = none ∧ k.ctx.t5.ops = [])) ∧
    (d.sun.phase.toNat % 2 = 1 ∧ ∀ fn < 64, shareOf (ifcOf d fn) = 0) ∧
    (r.cores = [(0, 0)] ∧ r.parts.length = 1 ∧ (coreAt s 0 0).map (fun k => (k.ctx.part, k.ctx.sigv0.toNat)) = some (r.parts.getD 0 9, 0)) := by
  dsimp only
  and_intros <;> decide +kernel

/-- A contained granule of the window without an error; the slots of a launch, its core's stack the first of them. -/
theorem test_meets_LaunchesStartAndEnd_granule :
    (∀ j < 4, look 0 (hubOf mapped (winHub 0x800000000020)).winErr (winOff 0x800000000020 / 8 + j) = 0) ∧
    (let r := newRun 1 5 .primary [⟨0, 0, 0⟩]
     r.slots[0]? = some 0 ∧ ∀ j < 0, r.slots[j]? ≠ some 0) ∧ Fresh Ctx.zero := by
  refine ⟨by decide +kernel, by decide +kernel, ?_⟩
  constructor <;> decide +kernel

/-! ### Single steps: expected values worked out by hand from the rules -/

/-- The scalar that an instruction puts in flight on `c`, and the pc it leaves. -/
def scalarOf (i : Instr) (c : Ctx) : Option Word :=
  match exec i (run c) with
  | .next t => t.core.ctx.inflight.getLast?.bind fun f => match f.res with
    | .scalar _ v => some v
    | _ => none
  | _ => none

/-- What an instruction leaves of the context `c`. -/
def after (i : Instr) (c : Ctx) : Ctx :=
  match exec i (run c) with
  | .next t => t.core.ctx
  | _ => c

/-- Operands at the corners: s1 = -1, s2 = -2^63, s3 = 5, s4 = 0, s5 = 1.0 in F32, s6 = 2^63 - 1. -/
def corners : Ctx := { Ctx.zero with sregs := [(1, -1), (2, 0x8000_0000_0000_0000), (3, 5), (5, 0x3F80_0000), (6, 0x7FFF_FFFF_FFFF_FFFF)] }

/-- Table 4.2 and R101: wrapping, the two corners of division, high products, shifts modulo 64, both orders. -/
theorem test_scalar_corners :
    [scalarOf (.add 9 1 3) corners, scalarOf (.div 9 2 1) corners, scalarOf (.divn 9 3 4) corners, scalarOf (.rem 9 2 1) corners,
      scalarOf (.remn 9 3 4) corners, scalarOf (.mulh 9 1 1) corners, scalarOf (.mulhn 9 1 1) corners, scalarOf (.shl 9 3 1) corners,
      scalarOf (.sra 9 2 3) corners, scalarOf (.slt 9 1 4) corners, scalarOf (.sltn 9 1 4) corners, scalarOf (.sub 9 4 3) corners] =
    [some 4, some 0x8000_0000_0000_0000, some (-1), some 0, some 5, some 0, some (-2), some 0x8000_0000_0000_0000,
      some 0xFC00_0000_0000_0000, some 1, some 0, some (-5)] := by decide +kernel

/-- R103, R105, R106: SEL tests S(SA), LIMMH keeps 44 bits of its destination, ADDSC shifts SB. -/
theorem test_constants_and_select :
    [scalarOf (.sel 9 4 1 3) corners, scalarOf (.limm 9 0x800_0000_0000) corners, scalarOf (.limmh 1 0xABCDE) corners,
      scalarOf (.addsc 9 3 3 3 (-1)) corners, scalarOf (.clz 9 3) corners, scalarOf (.sext .i8 9 6) corners] =
    [some 5, some 0xFFFF_F800_0000_0000, some 0xABCD_EFFF_FFFF_FFFF, some 44, some 61, some (-1)] := by decide +kernel

/-- 1.0 + 1.0 = 2.0, 1.0 * 1.0 = 1.0, the integer 5 as 5.0, and 1.0 as the integer 1 (R108, R110). -/
theorem test_scalar_float :
    [scalarOf (.sfadd .rne 9 5 5) corners, scalarOf (.sfmul .dyn 9 5 5) corners, scalarOf (.sfcvt .f32i64 .rne 9 3) corners,
      scalarOf (.sfcvt .i64f32 .rtz 9 5) corners, scalarOf (.sfcmp .lt 9 4 5) corners] =
    [some 0x4000_0000, some 0x3F80_0000, some 0x40A0_0000, some 1, some 1] := by decide +kernel

/-- A branch goes back from its own address, one not taken goes on, LOOP of a count of 1 falls through (R113, R114, R116). -/
theorem test_transfers :
    [(after (.beq 4 0 (-8)) { corners with pc := 0x140 }).pc, (after (.bne 4 0 (-8)) { corners with pc := 0x140 }).pc,
      (after (.loop 3 (-8)) { corners with pc := 0x140 }).pc, (after (.loop 9 (-8)) { corners with pc := 0x140, sregs := [(9, 1)] }).pc,
      (after (.ret 3) { corners with sregs := [(3, 0x2FFF8)] }).pc] = [0x100, 0x148, 0x100, 0x148, 0x2FFF8] := by decide +kernel

/-- TRAP 5: cause 0x10, TRAPVAL the code, TRAPPC the next word, privilege S at TRAPVEC (R128, R337). -/
theorem test_trap_enters :
    let c := after (.trap 5) { corners with pc := 0x140, trapvec := 0x30040 }
    c.trapcause = 0x10 ∧ c.trapval = 5 ∧ c.trappc = 0x148 ∧ c.priv = .s ∧ c.pc = 0x30040 ∧ c.issuecnt = 0 := by decide +kernel

/-- An instruction that issues at U is counted (R33); a read-only register written is the privilege trap with the word (R125). -/
theorem test_counts_and_rights :
    (after .nop corners).issuecnt = 1 ∧ (after (.csrw 0x000 1) { corners with sregs := [] }).trapcause = 4 ∧
      scalarOf (.csrr 9 0x00A) { corners with coreId := 3, ncore := 7 } = some 0x70003 := by decide +kernel

/-- All 512 bits of p0 are ones; PCNT counts the elements of the type, PFF finds none in p1 (R123). -/
theorem test_predicates : [scalarOf (.pcnt .n8 9 0) corners, scalarOf (.pcnt .f32 9 0) corners, scalarOf (.pff .i16 9 1) corners] =
    [some 256, some 64, some 128] := by decide +kernel

/-- The vector an instruction puts in flight: its active elements and its element 0. -/
def vectorOf (i : Instr) (c : Ctx) : Option (Nat × Nat × Flags) :=
  match exec i (run c) with
  | .next t => t.core.ctx.inflight.getLast?.bind fun f => match f.res with
    | .vector _ _ ew act v => some (act.toNat % 4, elemOf v.toNat ew 0, f.flags)
    | _ => none
  | _ => none

/-- v1 element 0 is 0x7F and v2's is 1, as I8; p1 has element 0 only. -/
def lanes0 : Ctx := { Ctx.zero with vregs := [(1, 0x7F), (2, 1)], pregs := [(1, 1)], sregs := [(1, 3)] }

/-- 127 + 1 in I8 wraps to -128, or saturates to 127 and sets SV (R71); only active elements are computed (R132). -/
theorem test_vector_add : [vectorOf (.vadd .i8 ⟨0, false⟩ ⟨3, false⟩ (.reg 1) (.reg 2) .dyn false) lanes0,
    vectorOf (.vadd .i8 ⟨1, false⟩ ⟨3, false⟩ (.reg 1) (.reg 2) .dyn true) lanes0,
    vectorOf (.vsub .i8 ⟨1, true⟩ ⟨3, false⟩ (.reg 1) (.reg 2) .dyn false) lanes0] =
    [some (3, 0x80, 0), some (1, 0x7F, 0x40), some (2, 0, 0)] := by decide +kernel

/-- VSEL takes VA where the predicate holds; VPERM and VSLIDED give 0 outside the register; VIOTA counts from S(SB) (R141 to R153). -/
theorem test_vector_patterns : [vectorOf (.vsel .n8 ⟨1, false⟩ ⟨3, false⟩ (.reg 1) (.reg 2)) lanes0,
    vectorOf (.vperm .n32 ⟨0, false⟩ ⟨3, false⟩ (.reg 2) (.reg 1)) lanes0,
    vectorOf (.viota .i16 ⟨0, false⟩ ⟨3, false⟩ 1) lanes0] = [some (3, 0x7F, 0), some (3, 0, 0), some (3, 3, 0)] := by decide +kernel

/-- STS.I16 writes its two bytes, low first, and no other (R111); a misaligned one traps with its address (R112). -/
theorem test_store : ([63, 64, 65, 66].map fun a => byteAt (after (.sts .i16 1 0 64) { corners with sregs := [(1, 0x12345)] }).scr a) =
    [0, 0x45, 0x23, 0] ∧ (after (.sts .i16 1 0 65) corners).trapcause = 7 ∧ (after (.sts .i16 1 0 65) corners).trapval = 65 := by
  decide +kernel

/-- A NOP placed after reset is the first instruction that a step runs (R24, R119). -/
theorem test_step_runs_placed_word :
    (match step (State.reset.withFetchWord 64 0x4600_0000_0000_0000) with
      | .next t => match t.others.getLast? with
        | some k => k.ctx.pc = 8 && k.ctx.issuecnt = 1 && k.cycle = 1
        | none => false
      | _ => false) = true := by decide +kernel

/-- What an undamaged memory reads as where nothing is written, and a word written over it (R41, R202). -/
theorem test_memory : readLe (writeLe [] 16 8 0x0102_0304_0506_0708) 16 2 = 0x0708 ∧ writeLe [] 16 8 0 = [] ∧ readLe [] 16 8 = 0 := by
  decide +kernel
end Sys2Proof.Slice0
end

section
/-! SUPPORT. The values of the scalar unit: what the model's functions on words compute, in the terms of Tables 4.2 and 4.3. -/
namespace Sys2Proof.Machine
open Sys2Proof Sys2Proof.Forms

/-! ### Words as numbers modulo 2^64 -/

theorem add_eq_w64 (a b : Word) : a + b = w64 (a.toNat + b.toNat) := by
  simp [w64, BitVec.ofNat_add]

theorem sub_eq_z64 (a b : Word) : a - b = z64 (a.toInt - b.toInt) :=
  BitVec.eq_of_toInt_eq (by simp [z64, BitVec.toInt_sub])

theorem mul_eq_w64 (a b : Word) : a * b = w64 (a.toNat * b.toNat) := by
  simp [w64, BitVec.ofNat_mul]

theorem and_eq_w64 (a b : Word) : a &&& b = w64 (Nat.land a.toNat b.toNat) :=
  BitVec.eq_of_toNat_eq (by simp [w64])

theorem or_eq_w64 (a b : Word) : a ||| b = w64 (Nat.lor a.toNat b.toNat) :=
  BitVec.eq_of_toNat_eq (by simp [w64])

theorem xor_eq_w64 (a b : Word) : a ^^^ b = w64 (Nat.xor a.toNat b.toNat) :=
  BitVec.eq_of_toNat_eq (by simp [w64])

/-! ### Division (R101) -/

theorem eq_zero_iff_toNat (b : Word) : b = 0 ↔ b.toNat = 0 := BitVec.toNat_eq

theorem divVal_eq_quotient (a b : Word) : divVal a b = quotient a b := by
  unfold divVal quotient
  simp only [eq_zero_iff_toNat, Bool.and_eq_true, decide_eq_true_eq]
  rfl

theorem remVal_eq_remainder (a b : Word) : remVal a b = remainder a b := by
  unfold remVal remainder
  simp only [eq_zero_iff_toNat, Bool.and_eq_true, decide_eq_true_eq]
  rfl

theorem divnVal_eq (a b : Word) : divnVal a b = if b.toNat = 0 then w64 (2 ^ 64 - 1) else w64 (a.toNat / b.toNat) := by
  unfold divnVal
  simp only [eq_zero_iff_toNat]
  rfl

theorem remnVal_eq (a b : Word) :
    remnVal a b = if b.toNat = 0 then a else w64 (a.toNat - b.toNat * (a.toNat / b.toNat)) := by
  unfold remnVal
  simp only [eq_zero_iff_toNat]
  rfl

/-! ### Shifts (R100) -/

theorem shl_eq_w64 (a : Word) (k : Nat) : a <<< k = w64 (a.toNat * 2 ^ k) :=
  BitVec.eq_of_toNat_eq (by simp [w64, Nat.shiftLeft_eq])

theorem shr_eq_w64 (a : Word) (k : Nat) : a >>> k = w64 (a.toNat / 2 ^ k) := by
  apply BitVec.eq_of_toNat_eq
  have h : a.toNat / 2 ^ k < 2 ^ 64 := (Nat.div_le_self _ _).trans_lt a.isLt
  rw [BitVec.toNat_ushiftRight, Nat.shiftRight_eq_div_pow, w64, BitVec.toNat_ofNat, Nat.mod_eq_of_lt h]

theorem sshiftRight_eq_z64 (a : Word) (k : Nat) : a.sshiftRight k = z64 (a.toInt / 2 ^ k) := by
  rw [BitVec.sshiftRight, z64, Int.shiftRight_eq_div_pow]
  norm_cast

/-- The amount of an immediate shift is the immediate itself. -/
theorem shAmt_setWidth (k : BitVec 6) : shAmt (k.setWidth 64) = k.toNat := by
  have := k.isLt
  simp only [shAmt, BitVec.toNat_setWidth]
  omega

theorem shlVal_setWidth (a : Word) (k : BitVec 6) : shlVal a (k.setWidth 64) = w64 (a.toNat * 2 ^ k.toNat) := by
  rw [shlVal, shAmt_setWidth, shl_eq_w64]

theorem shrVal_setWidth (a : Word) (k : BitVec 6) : shrVal a (k.setWidth 64) = w64 (a.toNat / 2 ^ k.toNat) := by
  rw [shrVal, shAmt_setWidth, shr_eq_w64]

theorem sraVal_setWidth (a : Word) (k : BitVec 6) : sraVal a (k.setWidth 64) = z64 (a.toInt / 2 ^ k.toNat) := by
  rw [sraVal, shAmt_setWidth, sshiftRight_eq_z64]

/-! ### Comparisons -/

theorem sltVal_eq (a b : Word) : sltVal a b = if a.toInt < b.toInt then 1 else 0 := by
  simp [sltVal, boolWord]

theorem sltnVal_eq (a b : Word) : sltnVal a b = if a.toNat < b.toNat then 1 else 0 := by
  simp only [sltnVal, boolWord, decide_eq_true_eq]

theorem seqVal_eq (a b : Word) : seqVal a b = if a = b then 1 else 0 := by
  simp only [seqVal, boolWord, beq_iff_eq]

/-! ### Counting bits (R103) -/

/-- `popCount` counts the indices below n whose bit is one. -/
theorem popCount_eq_length_filter (x n : Nat) : popCount x n = ((List.range n).filter fun k => x.testBit k).length := by
  induction n with
  | zero => rfl
  | succ n ih =>
    rw [popCount, ih, List.range_succ, List.filter_append, List.length_append]
    cases h : x.testBit n <;> simp [b2n, h]

theorem popCount_eq_oneBits (a : Word) : popCount a.toNat 64 = oneBits a := popCount_eq_length_filter a.toNat 64

/-- The indices below n that are below m. -/
theorem length_filter_range_lt (n m : Nat) : ((List.range n).filter fun k => decide (k < m)).length = min n m := by
  rw [← List.Ico.zero_bot, List.Ico.filter_lt, List.Ico.length, Nat.sub_zero]

/-- Nothing of a nonzero number stands above bit 63 - k just when k is below the number of its leading zeros. -/
theorem div_pow_eq_zero_iff {x : Nat} (hx : x ≠ 0) (k : Nat) : x / 2 ^ (63 - k) = 0 ↔ k < 63 - x.log2 := by
  rw [Nat.div_eq_zero_iff_lt (Nat.two_pow_pos _), ← Nat.log2_lt hx]
  omega

theorem clzVal_eq (a : Word) : clzVal a = w64 (leadingZeros a) := by
  unfold clzVal leadingZeros
  by_cases ha : a = 0
  · subst ha
    decide
  · have hx : a.toNat ≠ 0 := mt (eq_zero_iff_toNat a).2 ha
    simp only [if_neg ha, div_pow_eq_zero_iff hx, length_filter_range_lt]
    rw [Nat.min_eq_right (by omega)]
    rfl

/-! ### Extensions (R103, R104) -/

theorem sxNat_eq_signed (x : Nat) {w : Nat} (hw : w ≠ 0) : sxNat x w = signed x w := by
  simp [sxNat, signed, hw]

/-- A word from an integer that is a number. -/
theorem z64_natCast (x : Nat) : z64 x = w64 x := BitVec.ofInt_natCast _ _

theorem addsc_value (a b : Word) (sh : Nat) (off : BitVec 29) :
    a + b <<< sh + off.signExtend 64 = z64 (a.toNat + b.toNat * 2 ^ sh + off.toInt) := by
  have h : a + b <<< sh = z64 (a.toNat + b.toNat * 2 ^ sh : Nat) := by
    rw [shl_eq_w64, z64_natCast, w64, w64, BitVec.ofNat_add, BitVec.ofNat_toNat, BitVec.setWidth_eq]
  rw [h, z64, z64, BitVec.ofInt_add]
  push_cast
  rfl

/-! ### What the forms of the tables compute -/

/-- A form of the scalar unit gives the value of the statement once it is that of the model. -/
theorem aluOp_gives_value (i : Instr) {s : State} {srcs : List Src} {sd : BitVec 6} {v : Ctx → Word} {x : Word}
    (h : inRegion s) (e : exec i s = aluOp s srcs sd v) (hx : v s.core.ctx = x) : GivesScalar i s 1 sd x 0 srcs :=
  hx ▸ aluOp_gives i s srcs sd v h e

/-- Two functions with the same values make the same two-source form. -/
theorem alu2_congr (s : State) (sd sa sb : BitVec 6) {f v : Word → Word → Word} (h : ∀ a b, f a b = v a b) :
    alu2 s sd sa sb f = alu2 s sd sa sb v := by
  rw [funext₂ h]

/-- Two functions with the same values make the same immediate form. -/
theorem aluI_congr (s : State) (sd sa : BitVec 6) (imm : BitVec 38) {f v : Word → Word → Word} (h : ∀ a b, f a b = v a b) :
    aluI s sd sa imm f = aluI s sd sa imm v := by
  rw [funext₂ h]

/-- Two functions with the same values make the same one-source form. -/
theorem alu1_congr (s : State) (sd sa : BitVec 6) {f v : Word → Word} (h : ∀ a, f a = v a) : alu1 s sd sa f = alu1 s sd sa v := by
  rw [funext h]

/-- Each register form is the two-source form of its value in Table 4.2. The model writes MULH, MULHN and the minima and maxima as
the table does. -/
theorem exec_alu : ∀ p ∈ alu, ∀ (s : State) (sd sa sb : BitVec 6), exec (p.1 sd sa sb) s = alu2 s sd sa sb p.2 := by
  simp only [alu, List.forall_mem_cons]
  exact ⟨
    fun s sd sa sb => alu2_congr s sd sa sb add_eq_w64,
    fun s sd sa sb => alu2_congr s sd sa sb sub_eq_z64,
    fun s sd sa sb => alu2_congr s sd sa sb mul_eq_w64,
    fun _ _ _ _ => rfl,
    fun _ _ _ _ => rfl,
    fun s sd sa sb => alu2_congr s sd sa sb divVal_eq_quotient,
    fun s sd sa sb => alu2_congr s sd sa sb divnVal_eq,
    fun s sd sa sb => alu2_congr s sd sa sb remVal_eq_remainder,
    fun s sd sa sb => alu2_congr s sd sa sb remnVal_eq,
    fun s sd sa sb => alu2_congr s sd sa sb and_eq_w64,
    fun s sd sa sb => alu2_congr s sd sa sb or_eq_w64,
    fun s sd sa sb => alu2_congr s sd sa sb xor_eq_w64,
    fun s sd sa sb => alu2_congr s sd sa sb fun a b => shl_eq_w64 a (shAmt b),
    fun s sd sa sb => alu2_congr s sd sa sb fun a b => shr_eq_w64 a (shAmt b),
    fun s sd sa sb => alu2_congr s sd sa sb fun a b => sshiftRight_eq_z64 a (shAmt b),
    fun _ _ _ _ => rfl, fun _ _ _ _ => rfl, fun _ _ _ _ => rfl, fun _ _ _ _ => rfl,
    fun s sd sa sb => alu2_congr s sd sa sb sltVal_eq,
    fun s sd sa sb => alu2_congr s sd sa sb sltnVal_eq,
    fun s sd sa sb => alu2_congr s sd sa sb seqVal_eq,
    List.forall_mem_nil _⟩

/-- Each immediate form is the form of its value in Table 4.3. -/
theorem exec_aluImm : ∀ p ∈ aluImm, ∀ (s : State) (sd sa : BitVec 6) (imm : BitVec 38),
    exec (p.1 sd sa imm) s = aluI s sd sa imm p.2 := by
  simp only [aluImm, List.forall_mem_cons]
  exact ⟨
    fun s sd sa imm => aluI_congr s sd sa imm add_eq_w64,
    fun s sd sa imm => aluI_congr s sd sa imm mul_eq_w64,
    fun s sd sa imm => aluI_congr s sd sa imm and_eq_w64,
    fun s sd sa imm => aluI_congr s sd sa imm or_eq_w64,
    fun s sd sa imm => aluI_congr s sd sa imm xor_eq_w64,
    fun s sd sa imm => aluI_congr s sd sa imm sltVal_eq,
    fun s sd sa imm => aluI_congr s sd sa imm sltnVal_eq,
    fun s sd sa imm => aluI_congr s sd sa imm seqVal_eq,
    List.forall_mem_nil _⟩

/-- Each shift by an immediate is the one-source form of its value in Table 4.3. -/
theorem exec_shiftImm : ∀ p ∈ shiftImm, ∀ (s : State) (sd sa k : BitVec 6),
    exec (p.1 sd sa k) s = alu1 s sd sa fun a => p.2 a k.toNat := by
  simp only [shiftImm, List.forall_mem_cons]
  exact ⟨
    fun s sd sa k => alu1_congr s sd sa fun a => shlVal_setWidth a k,
    fun s sd sa k => alu1_congr s sd sa fun a => shrVal_setWidth a k,
    fun s sd sa k => alu1_congr s sd sa fun a => sraVal_setWidth a k,
    List.forall_mem_nil _⟩

/-- A sign extension is the one-source form of the signed number of the type's low bits (R103). -/
theorem exec_sext (ty : Ty) (s : State) (sd sa : BitVec 6) (h : tyBits ty ≠ 0) :
    exec (.sext ty sd sa) s = alu1 s sd sa fun a => z64 (signed a.toNat (tyBits ty)) :=
  alu1_congr s sd sa fun a => congrArg z64 (sxNat_eq_signed a.toNat h)

/-- Each one-source form is the form of its value (R103, R105). -/
theorem exec_aluOne : ∀ p ∈ aluOne, ∀ (s : State) (sd sa : BitVec 6), exec (p.1 sd sa) s = alu1 s sd sa p.2 := by
  simp only [aluOne, List.forall_mem_cons]
  exact ⟨
    fun s sd sa => alu1_congr s sd sa clzVal_eq,
    fun s sd sa => alu1_congr s sd sa fun a => congrArg w64 (popCount_eq_oneBits a),
    fun s sd sa => exec_sext .i8 s sd sa (by decide),
    fun s sd sa => exec_sext .i16 s sd sa (by decide),
    fun s sd sa => exec_sext .i32 s sd sa (by decide),
    fun _ _ _ => rfl, fun _ _ _ => rfl, fun _ _ _ => rfl,
    List.forall_mem_nil _⟩

/-- SEL chooses its third source where the first is zero (R102). -/
theorem exec_sel (s : State) (sd sa sb sc : BitVec 6) : exec (.sel sd sa sb sc) s =
    aluOp s [.s sa, .s sb, .s sc] sd fun c => if sreg c sa = 0 then sreg c sc else sreg c sb :=
  congrArg (aluOp s _ sd) (funext fun _ => ite_not ..)

/-- LIMM gives its sign-extended immediate (R105). -/
theorem exec_limm (s : State) (sd : BitVec 6) (imm : BitVec 44) :
    exec (.limm sd imm) s = aluOp s [] sd fun _ => z64 imm.toInt := rfl

/-- LIMMH puts its immediate above the low 44 bits of its destination (R105). -/
theorem exec_limmh (s : State) (sd : BitVec 6) (imm : BitVec 20) : exec (.limmh sd imm) s =
    aluOp s [.s sd] sd fun c => w64 ((sreg c sd).toNat % 2 ^ 44 + 2 ^ 44 * imm.toNat) :=
  congrArg (aluOp s _ sd) (funext fun c =>
    congrArg (fun x => w64 ((sreg c sd).toNat % 2 ^ 44 + x)) (Nat.mul_comm imm.toNat (2 ^ 44)))

/-- ADDSC adds a scaled index and an offset (R106). -/
theorem exec_addsc (s : State) (sd sa sb : BitVec 6) (sh : BitVec 3) (off : BitVec 29) : exec (.addsc sd sa sb sh off) s =
    aluOp s [.s sa, .s sb] sd fun c => z64 ((sreg c sa).toNat + (sreg c sb).toNat * 2 ^ sh.toNat + off.toInt) :=
  congrArg (aluOp s _ sd) (funext fun _ => addsc_value ..)

/-! ### The statements -/

/-- Settles O7: each form is the two-source form of its value in Table 4.2, and the scalar unit gives that value. -/
theorem scalarRegisterForms : Obligations.ScalarRegisterForms :=
  fun s sd sa sb h p hp => aluOp_gives_value _ h (exec_alu p hp s sd sa sb) rfl

/-- Settles O8, form by form: each is the scalar unit's operation of the value the statement names. -/
theorem scalarOtherForms : Obligations.ScalarOtherForms := by
  intro s sd sa sb sc h
  refine ⟨?imm, ?shift, ?one, ?sel, ?limm, ?limmh, ?addsc⟩
  case imm => exact fun p hp imm => aluOp_gives_value _ h (exec_aluImm p hp s sd sa imm) rfl
  case shift => exact fun p hp k => aluOp_gives_value _ h (exec_shiftImm p hp s sd sa k) rfl
  case one => exact fun p hp => aluOp_gives_value _ h (exec_aluOne p hp s sd sa) rfl
  case sel => exact aluOp_gives_value _ h (exec_sel s sd sa sb sc) rfl
  case limm => exact fun imm => aluOp_gives_value _ h (exec_limm s sd imm) rfl
  case limmh => exact fun imm => aluOp_gives_value _ h (exec_limmh s sd imm) rfl
  case addsc => exact fun sh off => aluOp_gives_value _ h (exec_addsc s sd sa sb sh off) rfl

end Sys2Proof.Machine
end

section
/-! SUPPORT. The branches: the target of the model as that of R113, the conditions as those of R114 and R115. -/
namespace Sys2Proof.Machine
open Sys2Proof Sys2Proof.Forms

/-! ### Targets (R36, R113) -/

theorem bcTarget_eq_target (c : Ctx) (off : BitVec 20) : bcTarget c off = target c.pc off := by
  have hpc : c.pc.setWidth 64 = z64 c.pc.toNat := by
    rw [z64_natCast, w64, BitVec.ofNat_toNat]
  have hoff : off.signExtend 64 <<< 3 = z64 (8 * off.toInt) := by
    rw [z64, BitVec.ofInt_mul, BitVec.mul_comm, BitVec.shiftLeft_eq_mul_twoPow]
    rfl
  rw [bcTarget, target, hpc, hoff, z64, z64, z64, BitVec.ofInt_add]

/-- A target the privilege may issue from raises no trap. -/
theorem targetTrap_of_allowedTarget (c : Ctx) (t : Word) (h : allowedTarget c.priv t) : targetTrap c t = none := by
  obtain ⟨hlt, halign, hregion⟩ := h
  refine targetTrap_none c t halign ?_
  cases hp : c.priv with
  | u => simpa only [hp] using hregion
  | s => exact ⟨by simpa only [hp] using hregion, hlt⟩

/-- A branch whose register sources are sound transfers to its target when its condition holds. -/
theorem branchOp_transfers (i : Instr) (s : State) (srcs : List Src) (off : BitVec 20) (cond : State → Bool)
    (hs : srcsBad s.core.gang s.core.ctx srcs = none) (e : exec i s = branchOp s srcs off cond) :
    Transfers i s (cond s = true) (target s.core.ctx.pc off) := by
  intro hn
  rw [branchOp, bcTarget_eq_target] at e
  constructor
  · intro ht ha
    obtain ⟨c, hc, hi⟩ := issuePlain_spec s srcs (jumpTo true (target s.core.ctx.pc off)) hs
    refine ⟨c, hc, ?_⟩
    rw [e, ht, transfer_taken s _ _ hn (targetTrap_of_allowedTarget _ _ ha), ht, hi]
    rfl
  · intro ht hr
    obtain ⟨c, hc, hi⟩ := issuePlain_spec s srcs (jumpTo false (target s.core.ctx.pc off)) hs
    have hf : cond s = false := Bool.eq_false_iff.2 ht
    refine ⟨c, hc, ?_⟩
    rw [e, hf, transfer_not_taken s _ _ ⟨hr, hn⟩, hf, hi]
    rfl

/-! ### Conditions on two registers (R114) -/

/-- Each compare-and-branch branches on its condition of R114. -/
theorem exec_branches : ∀ p ∈ branches, ∀ (s : State) (sa sb : BitVec 6) (off : BitVec 20),
    exec (p.1 sa sb off) s = branch2 s sa sb off p.2 := by
  simp only [branches, List.forall_mem_cons]
  have heq (a b : Word) : (a == b) = decide (a.toNat = b.toNat) := by
    rw [beq_eq_decide, decide_eq_decide]
    exact BitVec.toNat_eq
  exact ⟨
    fun s sa sb off => congrArg (branch2 s sa sb off) (funext₂ heq),
    fun s sa sb off => congrArg (branch2 s sa sb off) (funext₂ fun a b => by rw [bne, heq, decide_not]),
    fun _ _ _ _ => rfl, fun _ _ _ _ => rfl, fun _ _ _ _ => rfl, fun _ _ _ _ => rfl,
    List.forall_mem_nil _⟩

/-! ### Conditions on a predicate (R115) -/

/-- The low n bits of a number, bit by bit. -/
theorem mod_two_pow_eq_iff (x y n : Nat) : x % 2 ^ n = y % 2 ^ n ↔ ∀ i < n, x.testBit i = y.testBit i := by
  refine ⟨fun h i hi => ?_, fun h => Nat.eq_of_testBit_eq fun i => ?_⟩
  · simpa [Nat.testBit_mod_two_pow, hi] using congrArg (Nat.testBit · i) h
  · rw [Nat.testBit_mod_two_pow, Nat.testBit_mod_two_pow]
    by_cases hi : i < n
    · rw [h i hi]
    · simp [hi]

theorem predElems_testBit (s : State) (ty : Ty) (p : BitVec 6) {i : Nat} (h : i < tyCount s.core.gang ty) :
    (predElems s ty p).testBit i = (predOf s.core.gang s.core.ctx p).testBit i := by
  simp [predElems, Nat.testBit_mod_two_pow, h]

/-- Some element of a predicate is a one just when its element bits are not all zero. -/
theorem predElems_ne_zero_eq_anyOne (s : State) (ty : Ty) (p : BitVec 6) :
    decide (predElems s ty p ≠ 0) = anyOne s.core.gang s.core.ctx ty p := by
  have h := mod_two_pow_eq_iff (predOf s.core.gang s.core.ctx p) 0 (tyCount s.core.gang ty)
  rw [Nat.zero_mod] at h
  rw [Bool.eq_iff_iff, decide_eq_true_eq, predElems, Ne, h]
  simp [anyOne]

/-- All elements of a predicate are ones just when its element bits are all ones. -/
theorem predElems_eq_ones_eq_allOnes (s : State) (ty : Ty) (p : BitVec 6) :
    decide (predElems s ty p = ones (tyCount s.core.gang ty)) = allOnes s.core.gang s.core.ctx ty p := by
  have h := mod_two_pow_eq_iff (predOf s.core.gang s.core.ctx p) (ones (tyCount s.core.gang ty)) (tyCount s.core.gang ty)
  rw [ones, Nat.mod_eq_of_lt (Nat.sub_one_lt (Nat.two_pow_pos _).ne')] at h
  rw [Bool.eq_iff_iff, decide_eq_true_eq, predElems, ones, h]
  simp +contextual [allOnes, Nat.testBit_two_pow_sub_one]

/-- BANY branches when some element of its predicate is a one. -/
theorem exec_bany (ty : Ty) (s : State) (pa : BitVec 6) (off : BitVec 20) : exec (.bany ty pa off) s =
    branchOp s [.p pa] off fun s => anyOne s.core.gang s.core.ctx ty pa :=
  congrArg (branchOp s _ off) (funext fun s => predElems_ne_zero_eq_anyOne s ty pa)

/-- BALL branches when all elements of its predicate are ones. -/
theorem exec_ball (ty : Ty) (s : State) (pa : BitVec 6) (off : BitVec 20) : exec (.ball ty pa off) s =
    branchOp s [.p pa] off fun s => allOnes s.core.gang s.core.ctx ty pa :=
  congrArg (branchOp s _ off) (funext fun s => predElems_eq_ones_eq_allOnes s ty pa)

/-- Settles O10: every branch is the one branch operation under its condition. -/
theorem branchesTransfer : Obligations.BranchesTransfer := by
  intro s sa sb ty off
  refine ⟨?always, fun hs p hp => ?compare, fun hs => ⟨?any, ?all⟩⟩
  case always => simpa using branchOp_transfers (.b off) s [] off (fun _ => true) rfl rfl
  case compare => exact branchOp_transfers _ s _ off _ hs (exec_branches p hp s sa sb off)
  case any => exact branchOp_transfers _ s _ off _ hs (exec_bany ty s sa off)
  case all => exact branchOp_transfers _ s _ off _ hs (exec_ball ty s sa off)

end Sys2Proof.Machine
end

section
/-! SUPPORT. The predicate unit: what its forms compute, bit by bit. -/
namespace Sys2Proof.Machine
open Sys2Proof Sys2Proof.Forms

/-! ### Issue -/

/-- An instruction that issues one result gives it. -/
theorem gives_of_issueResult (i : Instr) (s : State) (lat : Nat) (res : Result) (fl : Flags) (load : Option LoadReq)
    (bad : Option LateFault) (e : exec i s = .next (issueResult s lat res fl load bad)) : Gives i s lat res fl load bad := by
  obtain ⟨c, hc, hi⟩ := issueResult_spec s lat res fl load bad
  exact ⟨c, hc, by rw [e, hi]⟩

/-- A form over predicates gives every predicate value with the bits that a core of its width has (R14, R121). -/
theorem predOp_gives (i : Instr) (s : State) (srcs : List Src) (pd : BitVec 6) (v : Nat → Ctx → Nat) (x : Nat) (h : mayCompute s)
    (e : exec i s = predOp s srcs pd v)
    (hx : ∀ k < predBits s.core.gang, (v s.core.gang s.core.ctx).testBit k = x.testBit k) : GivesPred i s 1 pd x 0 srcs := by
  refine gives_of_issueResult i s _ _ _ _ _ ?_
  rw [e, predOp, gateComp_open s _ h, issuePred, (mod_two_pow_eq_iff _ _ _).2 hx]

/-- A form of the compute phase whose issue is one scalar result gives it. -/
theorem gateComp_givesScalar (i : Instr) (s : State) (srcs : List Src) (sd : BitVec 6) (lat : Nat) (v : State → Word) (fl : Flags)
    (h : mayCompute s) (e : exec i s = gateComp s fun s => .next (issueScalar s srcs sd lat (v s) fl)) :
    GivesScalar i s lat sd (v s) fl srcs :=
  gives_of_issueResult i s _ _ _ _ _ (by rw [e, gateComp_open s _ h, issueScalar])

/-! ### Bits (R121, R122) -/

theorem fromBits_lt (f : Nat → Bool) (n : Nat) : fromBits f n < 2 ^ n := by
  induction n with
  | zero => simp [fromBits]
  | succ n ih =>
    rw [fromBits, pow_succ]
    split <;> omega

/-- The bits of the number made from a function are the function's values. -/
theorem testBit_fromBits (f : Nat → Bool) (n i : Nat) : (fromBits f n).testBit i = (decide (i < n) && f i) := by
  induction n with
  | zero => simp [fromBits]
  | succ n ih =>
    have hsum : fromBits f (n + 1) = 2 ^ n * (f n).toNat + fromBits f n := by
      rw [fromBits, Nat.add_comm]
      cases f n <;> simp
    rw [hsum, Nat.testBit_two_pow_mul_add _ (fromBits_lt f n), ih]
    rcases lt_trichotomy i n with hi | rfl | hi
    · simp [hi, Nat.lt_succ_of_lt hi]
    · rw [if_neg (lt_irrefl i), Nat.sub_self, Nat.testBit_bool_toNat, decide_eq_true (Nat.lt_succ_self i)]
      rfl
    · simp [Nat.testBit_bool_toNat, hi.not_gt, show i - n ≠ 0 by omega, show ¬ i < n + 1 by omega]

theorem testBit_ones (n i : Nat) : (ones n).testBit i = decide (i < n) := Nat.testBit_two_pow_sub_one n i

/-- Each two-source form computes, from its sources, the number whose bits are its table's (R121). -/
theorem exec_preds : ∀ p ∈ preds, ∃ v : Nat → Nat → Nat → Nat,
    (∀ (s : State) (pd pa pb : BitVec 6), exec (p.1 pd pa pb) s =
      predOp s [.p pa, .p pb] pd fun g c => v g (predOf g c pa) (predOf g c pb)) ∧
    ∀ g a b k, k < predBits g → (v g a b).testBit k = p.2 (a.testBit k) (b.testBit k) := by
  simp only [preds, List.forall_mem_cons]
  exact ⟨
    ⟨fun _ a b => a &&& b, fun _ _ _ _ => rfl, fun _ a b k _ => Nat.testBit_and a b k⟩,
    ⟨fun _ a b => a ||| b, fun _ _ _ _ => rfl, fun _ a b k _ => Nat.testBit_or a b k⟩,
    ⟨fun _ a b => a ^^^ b, fun _ _ _ _ => rfl, fun _ a b k _ => Nat.testBit_xor a b k⟩,
    ⟨fun g a b => a &&& (ones (predBits g) ^^^ b), fun _ _ _ _ => rfl, fun g a b k hk => by
      rw [Nat.testBit_and, Nat.testBit_xor, testBit_ones, decide_eq_true hk, Bool.true_xor]⟩,
    List.forall_mem_nil _⟩

/-! ### Elements (R123) -/

/-- `lowestBit` looks for the first one among the n bits from k on. -/
theorem lowestBit_eq_find (x n k : Nat) : lowestBit x n k = ((List.range' k n).find? x.testBit).getD (k + n) := by
  induction n generalizing k with
  | zero => rfl
  | succ n ih =>
    rw [lowestBit, List.range'_succ, List.find?_cons, ih]
    cases x.testBit k
    · simp only [Bool.false_eq_true, if_false]
      congr 1
      omega
    · rfl

theorem popCount_predElems (s : State) (ty : Ty) (p : BitVec 6) : popCount (predElems s ty p) (tyCount s.core.gang ty) =
    ((List.range (tyCount s.core.gang ty)).filter (predOf s.core.gang s.core.ctx p).testBit).length := by
  rw [popCount_eq_length_filter]
  exact congrArg List.length (List.filter_congr fun i hi => predElems_testBit s ty p (List.mem_range.1 hi))

theorem lowestBit_predElems (s : State) (ty : Ty) (p : BitVec 6) : lowestBit (predElems s ty p) (tyCount s.core.gang ty) 0 =
    firstOne (predOf s.core.gang s.core.ctx p).testBit (tyCount s.core.gang ty) := by
  rw [lowestBit_eq_find, ← List.range_eq_range', Nat.zero_add, firstOne]
  rw [List.find?_congr fun i hi => predElems_testBit s ty p (List.mem_range.1 hi)]

/-- PCNT counts the elements of a predicate that are ones. -/
theorem exec_pcnt (ty : Ty) (s : State) (sd pa : BitVec 6) : exec (.pcnt ty sd pa) s = gateComp s fun s =>
    .next (issueScalar s [.p pa] sd 1
      (w64 ((List.range (tyCount s.core.gang ty)).filter (predOf s.core.gang s.core.ctx pa).testBit).length) 0) := by
  simp only [← popCount_predElems]
  rfl

/-- PFF finds the first element of a predicate that is a one. -/
theorem exec_pff (ty : Ty) (s : State) (sd pa : BitVec 6) : exec (.pff ty sd pa) s = gateComp s fun s =>
    .next (issueScalar s [.p pa] sd 1
      (w64 (firstOne (predOf s.core.gang s.core.ctx pa).testBit (tyCount s.core.gang ty))) 0) := by
  simp only [← lowestBit_predElems]
  rfl

/-- Settles O13: a result over predicates by its bits, a count and an index by the elements they are taken of. -/
theorem predicateForms : Obligations.PredicateForms := by
  intro s ty pd pa pb h
  refine ⟨fun p hp => ?two, ?not, ?below, ?cnt, ?ff⟩
  case two =>
    obtain ⟨v, he, hv⟩ := exec_preds p hp
    refine predOp_gives _ s _ pd _ _ h (he s pd pa pb) fun k hk => ?_
    rw [hv _ _ _ _ hk, testBit_fromBits, decide_eq_true hk, Bool.true_and]
  case not =>
    refine predOp_gives _ s _ pd (fun g c => ones (predBits g) ^^^ predOf g c pa) _ h rfl fun k hk => ?_
    rw [Nat.testBit_xor, testBit_ones, testBit_fromBits, decide_eq_true hk, Bool.true_xor, Bool.true_and]
  case below =>
    refine predOp_gives _ s _ pd (fun g c => ones (min (sreg c pa).toNat (tyCount g ty))) _ h rfl fun k hk => ?_
    rw [testBit_ones, testBit_fromBits, ← Bool.decide_and, decide_eq_decide]
    omega
  case cnt => exact gateComp_givesScalar _ s _ pd 1 _ 0 h (exec_pcnt ty s pd pa)
  case ff => exact gateComp_givesScalar _ s _ pd 1 _ 0 h (exec_pff ty s pd pa)

end Sys2Proof.Machine
end

section
/-! SUPPORT. The vector comparisons and VEXT: the elements of a source, the active ones, and one bit for each comparison. -/
namespace Sys2Proof.Machine
open Sys2Proof Sys2Proof.Forms

/-! ### Elements of a vector source (R10, R70, R133) -/

theorem tyBits_pos (ty : Ty) : 0 < tyBits ty := by
  cases ty <;> decide

/-- The model reads an element by a shift. -/
theorem vElem_eq_elAt (s : State) (ty : Ty) (v : VSrc) (i : Nat) : vElem ty v s.core.ctx i = elAt s ty v i := by
  rw [vElem, elemOf, Nat.shiftRight_eq_div_pow, elAt]

theorem elemInt_eq_ival (ty : Ty) (x : Nat) : elemInt ty x = ival ty x := by
  rw [elemInt, ival, sxNat_eq_signed x (tyBits_pos ty).ne']

/-! ### Active elements (R47, R132) -/

/-- The active elements are the ones among n of the governing predicate, or the zeros under PN. -/
theorem testBit_active (g : Nat) (c : Ctx) (gov : Gov) (n i : Nat) :
    (active g c gov n).testBit i = (decide (i < n) && ((predOf g c gov.pg).testBit i != gov.pn)) := by
  have hp : predOf g c gov.pg % 2 ^ n < 2 ^ n := Nat.mod_lt _ (Nat.two_pow_pos n)
  have hones (p : Nat) : ones n - p = 2 ^ n - (p + 1) := by rw [ones, Nat.sub_sub, Nat.add_comm]
  rw [active]
  cases gov.pn
  case false => simp [Nat.testBit_mod_two_pow]
  case true =>
    rw [if_pos rfl, hones, Nat.testBit_two_pow_sub_succ hp, Nat.testBit_mod_two_pow]
    cases decide (i < n) <;> simp

theorem active_eq_activeOf (s : State) (ty : Ty) (gov : Gov) :
    active s.core.gang s.core.ctx gov (tyCount s.core.gang ty) = activeOf s ty gov :=
  Nat.eq_of_testBit_eq fun i => by rw [testBit_active, activeOf, testBit_fromBits]

/-! ### The results of the active elements -/

/-- An element put behind others stands above them. -/
theorem packElems_concat (ew : Nat) (l : List Nat) (x : Nat) :
    packElems ew (l ++ [x]) = packElems ew l + 2 ^ (ew * l.length) * (x % 2 ^ ew) := by
  induction l with
  | nil => simp [packElems]
  | cons y l ih =>
    rw [List.cons_append, packElems, ih, packElems, List.length_cons, Nat.mul_succ, pow_add]
    ring

/-- Elements of one bit make the number of those bits. -/
theorem packElems_one_eq_fromBits (f : Nat → Bool) (n : Nat) :
    packElems 1 ((List.range n).map fun i => b2n (f i)) = fromBits f n := by
  induction n with
  | zero => rfl
  | succ n ih =>
    rw [List.range_succ, List.map_append, List.map_singleton, packElems_concat, ih, fromBits]
    cases f n <;> simp [b2n]

/-- Of results of one bit, the active ones give their bit and the others zero. -/
theorem packElems_vecVals_eq_fromBits (n act : Nat) (r : Nat → Bool × Flags) :
    packElems 1 ((vecVals n act fun i => (b2n (r i).1, (r i).2)).map (·.1)) =
      fromBits (fun i => act.testBit i && (r i).1) n := by
  rw [← packElems_one_eq_fromBits, vecVals, List.map_map]
  congr 2
  funext i
  cases h : act.testBit i <;> simp [h, b2n]

/-- The flags of a form are those of its active elements (R85). -/
theorem orFlags_vecVals (n act : Nat) (f : Nat → Nat × Flags) :
    orFlags (vecVals n act f) = allFlags (((List.range n).filter act.testBit).map fun i => (f i).2) := by
  rw [orFlags, vecVals, allFlags, List.foldl_map, List.foldl_map, List.foldl_filter]
  congr 1
  funext x i
  cases act.testBit i <;> simp

/-! ### Comparisons (R76, R144) -/

/-- One comparison of the model is that of the statement, its outcome as a number. -/
theorem cmpE_eq_compares (ty : Ty) (cc : Cc) (fz : Bool) (x y : Nat) :
    cmpE ty cc fz x y = (b2n (compares ty cc fz x y).1, (compares ty cc fz x y).2) := by
  unfold cmpE compares
  cases ty.isFlt
  case true => rfl
  case false =>
    rw [elemInt_eq_ival, elemInt_eq_ival]
    cases cc <;> rfl

/-- A comparison that may issue gives one bit for each active element whose comparison with B holds. -/
theorem cmpOp_gives (i : Instr) (s : State) (ty : Ty) (cc : Cc) (g : Gov) (pd : BitVec 6) (a : VSrc) (src : Src)
    (b : Ctx → Nat → Nat) (y : Nat → Nat) (h : mayCompute s) (e : exec i s = cmpOp s ty cc g pd a src b)
    (hb : ∀ j, b s.core.ctx j = y j) :
    let r := fun j => compares ty cc (flush s.core.ctx) (elAt s ty a j) (y j)
    let n := tyCount s.core.gang ty
    let act := activeOf s ty g
    GivesPred i s (if ty.isFlt then 4 else 2) pd (fromBits (fun j => act.testBit j && (r j).1) n)
      (allFlags (((List.range n).filter act.testBit).map fun j => (r j).2)) [.v a, src, .p g.pg] := by
  refine gives_of_issueResult i s _ _ _ _ _ ?_
  rw [e, cmpOp, gateComp_open s _ h]
  simp only [hb, active_eq_activeOf, vElem_eq_elAt, cmpE_eq_compares, packElems_vecVals_eq_fromBits, orFlags_vecVals]
  rfl

/-! ### VEXT (R154) -/

/-- An element as a word: by its sign for the I types, and as the number it is for the others. -/
theorem extendE_eq (ty : Ty) (x : Nat) :
    extendE ty x = if tySigned ty then z64 (signed x (tyBits ty)) else w64 x := by
  rw [extendE, elemInt_eq_ival, ival, apply_ite wrap64]
  exact congrArg (ite _ _) (z64_natCast x)

/-- VEXT gives the element that its scalar register counts to. -/
theorem exec_vext (ty : Ty) (sd : BitVec 6) (a : VSrc) (sb : BitVec 6) (s : State) : exec (.vext ty sd a sb) s =
    gateComp s fun s => .next (issueScalar s [.v a, .s sb] sd 2
      (let k := (sreg s.core.ctx sb).toNat
       if k < tyCount s.core.gang ty then
         (if tySigned ty then z64 (signed (elAt s ty a k) (tyBits ty)) else w64 (elAt s ty a k))
       else 0) 0) := by
  simp only [← extendE_eq, ← vElem_eq_elAt]
  rfl

/-- Settles O31: both comparisons are the one comparison with their own B, and VEXT issues one scalar result. -/
theorem vectorComparesAndExtract : Obligations.VectorComparesAndExtract := by
  intro s ty cc g pd a b sb h
  refine ⟨?vcmp, ?vcmps, ?vext⟩
  case vcmp => exact cmpOp_gives _ s ty cc g pd a (.v b) (vElem ty b) _ h rfl (vElem_eq_elAt s ty b)
  case vcmps => exact cmpOp_gives _ s ty cc g pd a (.s sb) (sElem ty sb) _ h rfl fun _ => rfl
  case vext => exact gateComp_givesScalar _ s _ pd 2 _ 0 h (exec_vext ty pd a sb s)

end Sys2Proof.Machine
end
